-- ==== Sys2Proof/Word.lean ====
section
/-! DEFINITION. The byte, the unit of every stream of the RM24 (spec/11, R183 to R185). -/

namespace Sys2Proof

/-- One byte of the feed, of a panel frame, of a report, of a key or of a payload. -/
abbrev Byte := BitVec 8

end Sys2Proof
end

