-- ==== Sys2Proof/Config.lean ====
section
/-! DEFINITION. What one part or one moment fixes and the spec leaves open: the order in which causes of
re-evaluation and the owners of one second tick are taken. It has no body: no proof can see what it is. -/

namespace Sys2Proof

/-- The `k`-th free choice. Where several causes or several owners' tick work are outstanding together and
the outcome depends on which is taken first, the spec lets any of them be first (R59, R85, R149): the model
takes the one this value names, reduced modulo how many are outstanding. DESIGN CHOICE, log entry 1; safe. -/
opaque Config.arbiter : Nat → Nat

end Sys2Proof
end

