-- ==== Sys2Proof/Syntax.lean ====
section
/-! DEFINITION. The commands of the RM24: one constructor of `Instr` for each row of spec/opcode_table.json,
and the bodies of management messages and panel requests as their bytes carry them (R183). A field stands as
the number its bytes spell, in or out of the range the owner allows: refusing, clamping and answering BAD_ARG
are the owners' work (R165, R177). -/

namespace Sys2Proof

/-- A PIN field: four bytes, one digit each, first digit first (section 8.5). A byte above 9 can be sent. -/
structure PinField where
  d0 : Nat
  d1 : Nat
  d2 : Nat
  d3 : Nat
  deriving DecidableEq, Repr

/-- One entry of the component list of SVC-PUT: a tag and the role byte (Table 2-1). -/
structure ComponentField where
  tag  : Nat
  role : Nat
  deriving DecidableEq, Repr

/-- The body of SVC-PUT, section 2.3. -/
structure SvcPutBody where
  service    : Nat
  kind       : Nat
  family     : Option Nat
  rating     : Nat
  title      : Option Nat
  components : List ComponentField
  deriving DecidableEq, Repr

/-- The body of KEY-PUT, section 3.2. -/
structure KeyPutBody where
  family : Nat
  parity : Nat
  key    : Vector Byte 8
  check  : Byte
  deriving DecidableEq, Repr

/-- The body of TITLE-PUT: a catalog entry, Table 5-1. -/
structure TitlePutBody where
  title     : Nat
  rating    : Nat
  basePrice : Nat
  window    : Nat
  preview   : Nat
  grace     : Nat
  billAlias : Nat
  deriving DecidableEq, Repr

/-- The body of TARIFF-PUT, section 6.2. -/
structure TariffPutBody where
  cls         : Nat
  preOffset   : Int
  scale       : Nat
  postOffset  : Int
  lowCompare  : Nat
  lowSet      : Nat
  highCompare : Nat
  highSet     : Nat
  deriving DecidableEq, Repr

/-- The body of STAY-OPEN, section 7.2. -/
structure StayOpenBody where
  stay        : Nat
  cls         : Nat
  ceiling     : Nat
  pin         : Option PinField
  roomCeiling : Nat
  purchasePin : Nat
  deriving DecidableEq, Repr

/-- The body of LOCK-SET, section 8.3. -/
structure LockSetBody where
  houseLimit     : Nat
  defaultCeiling : Nat
  laneCeilings   : Vector Nat 4
  barred         : Vector Nat 4
  leaseLength    : Nat
  discreet       : Nat
  deriving DecidableEq, Repr

/-- The filter form and argument of COUNT-SET, section 9.3.2. A form byte beyond the list makes the body
unfit (R183), so it is no term here. -/
inductive FilterField where
  | none
  | service (n : Nat)
  | lanes (flags : Vector Nat 4)
  | ratingAtLeast (r : Nat)
  deriving DecidableEq, Repr

/-- The occupancy part of COUNT-SET: seven state flags, a mode and a threshold. -/
structure OccupancyField where
  states    : Vector Nat 7
  mode      : Nat
  threshold : Nat
  deriving DecidableEq, Repr

/-- The body of COUNT-SET, section 9.3.2. -/
structure CountSetBody where
  counter   : Nat
  kind      : Nat
  filter    : FilterField
  occupancy : Option OccupancyField
  deriving DecidableEq, Repr

/-- A management message whose body fits its kind: the 21 kinds of Table 10-2. -/
inductive MgmtMsg where
  | svcPut (b : SvcPutBody)
  | svcDrop (service : Nat)
  | onAir (service : Nat) (title : Option Nat)
  | keyPut (b : KeyPutBody)
  | keyWipe (family : Nat)
  | titlePut (b : TitlePutBody)
  | titleDrop (title : Nat)
  | stayOpen (b : StayOpenBody)
  | stayClose (stay : Nat)
  | lockSet (b : LockSetBody)
  | tariffPut (b : TariffPutBody)
  | chargePoll
  | chargeAck (serial : Nat)
  | statusPoll
  | timeMark (t : Nat)
  | countSet (b : CountSetBody)
  | countPoll
  | alertClear (flags : Vector Nat 6)
  | groupSet (groups : Vector Nat 4)
  | feedSet (threshold : Nat)
  | unitReset
  deriving DecidableEq, Repr

/-- A panel request whose body fits its kind: the 11 requests of Table 11-1. -/
inductive PanelReq where
  | pick (lane : Nat) (service : Option Nat)
  | buy (lane title : Nat) (pin : Option PinField)
  | refund (title : Nat)
  | unlock (lane : Nat) (pin : Option PinField)
  | relock (lane : Nat)
  | askLane (lane : Nat)
  | askTitle (title : Nat)
  | askRoom
  | attnRead
  | attnAck (code : Nat)
  | attnFloor (n : Nat)
  deriving DecidableEq, Repr

/-- The commands: one constructor for each row of spec/opcode_table.json, in the table's order. A row that
is a management message stands for that message handed to its owner (R165). A row that is a panel request
stands for that request handed to its owner (R177). A row that is an event stands for that event. -/
inductive Instr where
  | coldStart
  | resetLineAssert
  | resetLineRelease
  | feedByte (b : Byte)
  /-- `ready` is the level of the decoder's ready line of the port when the port looks at it (R65). -/
  | screenPortBegin (lane : Fin 4) (ready : Bool)
  | cellSent (lane : Fin 4)
  | secondTick
  | feedSilence
  | noPicture (lane : Fin 4)
  | previewSpent (title : Nat)
  | rentalExpiry (title : Nat)
  | lockoutEnd
  | leaseEnd (lane : Fin 4)
  | frameAbandon
  | svcPut (b : SvcPutBody)
  | svcDrop (service : Nat)
  | onAir (service : Nat) (title : Option Nat)
  | keyPut (b : KeyPutBody)
  | keyWipe (family : Nat)
  | titlePut (b : TitlePutBody)
  | titleDrop (title : Nat)
  | tariffPut (b : TariffPutBody)
  | stayOpen (b : StayOpenBody)
  | stayClose (stay : Nat)
  | chargePoll
  | chargeAck (serial : Nat)
  | lockSet (b : LockSetBody)
  | timeMark (t : Nat)
  | countSet (b : CountSetBody)
  | countPoll
  | statusPoll
  | alertClear (flags : Vector Nat 6)
  | groupSet (groups : Vector Nat 4)
  | unitReset
  | feedSet (threshold : Nat)
  /-- `ready` is the level of the modem's return ready line (R170). -/
  | returnByte (ready : Bool)
  | reportSent
  /-- `charError` says that the byte arrived with a UART character error (R176). -/
  | panelByte (b : Byte) (charError : Bool)
  | pick (lane : Nat) (service : Option Nat)
  | buy (lane title : Nat) (pin : Option PinField)
  | refund (title : Nat)
  | unlock (lane : Nat) (pin : Option PinField)
  | relock (lane : Nat)
  | askLane (lane : Nat)
  | askTitle (title : Nat)
  | askRoom
  | attnRead
  | attnAck (code : Nat)
  | attnFloor (n : Nat)
  | replySent
  deriving DecidableEq, Repr

end Sys2Proof
end

