-- ==== Sys2Proof/WellFormed.lean ====
section
/-! DEFINITION. A command is well formed when each of its operands can be carried by the bytes the spec gives
that field (R183): one byte for a lane or an enumerated value, two for a title, three for a serial, four for a
time. Whether the value lies in the range the owner allows is the owner's test, not this one. -/

namespace Sys2Proof

/-- `n` fits in `bytes` bytes. -/
def fits (bytes n : Nat) : Bool := n < 256 ^ bytes

/-- An optional field fits when it is absent or its value does. -/
def fitsOpt (bytes : Nat) : Option Nat → Bool
  | none => true
  | some n => fits bytes n

def PinField.wf (p : PinField) : Bool := fits 1 p.d0 && fits 1 p.d1 && fits 1 p.d2 && fits 1 p.d3

def pinOptWf : Option PinField → Bool
  | none => true
  | some p => p.wf

def ComponentField.wf (c : ComponentField) : Bool := fits 2 c.tag && fits 1 c.role

def SvcPutBody.wf (b : SvcPutBody) : Bool :=
  fits 2 b.service && fits 1 b.kind && fitsOpt 1 b.family && fits 1 b.rating && fitsOpt 2 b.title &&
    fits 1 b.components.length && b.components.all ComponentField.wf

def KeyPutBody.wf (b : KeyPutBody) : Bool := fits 1 b.family && fits 1 b.parity

def TitlePutBody.wf (b : TitlePutBody) : Bool :=
  fits 2 b.title && fits 1 b.rating && fits 2 b.basePrice && fits 3 b.window && fits 2 b.preview &&
    fits 2 b.grace && fits 2 b.billAlias

/-- A signed field is two bytes of two's complement (R183). -/
def fitsSigned (x : Int) : Bool := -32768 ≤ x && x ≤ 32767

def TariffPutBody.wf (b : TariffPutBody) : Bool :=
  fits 1 b.cls && fitsSigned b.preOffset && fits 2 b.scale && fitsSigned b.postOffset &&
    fits 2 b.lowCompare && fits 2 b.lowSet && fits 2 b.highCompare && fits 2 b.highSet

def StayOpenBody.wf (b : StayOpenBody) : Bool :=
  fits 2 b.stay && fits 1 b.cls && fits 3 b.ceiling && pinOptWf b.pin && fits 1 b.roomCeiling &&
    fits 1 b.purchasePin

def LockSetBody.wf (b : LockSetBody) : Bool :=
  fits 1 b.houseLimit && fits 1 b.defaultCeiling && b.laneCeilings.toList.all (fits 1) &&
    b.barred.toList.all (fits 1) && fits 2 b.leaseLength && fits 1 b.discreet

def FilterField.wf : FilterField → Bool
  | .none => true
  | .service n => fits 2 n
  | .lanes fs => fs.toList.all (fits 1)
  | .ratingAtLeast r => fits 1 r

def OccupancyField.wf (o : OccupancyField) : Bool :=
  o.states.toList.all (fits 1) && fits 1 o.mode && fits 1 o.threshold

def occupancyOptWf : Option OccupancyField → Bool
  | none => true
  | some o => o.wf

def CountSetBody.wf (b : CountSetBody) : Bool :=
  fits 1 b.counter && fits 1 b.kind && b.filter.wf && occupancyOptWf b.occupancy

/-- The command's operands are what its wire fields can carry. -/
def Instr.wf : Instr → Bool
  | .coldStart | .resetLineAssert | .resetLineRelease => true
  | .feedByte _ | .screenPortBegin _ _ | .cellSent _ => true
  | .secondTick | .feedSilence | .noPicture _ => true
  | .previewSpent title => fits 2 title
  | .rentalExpiry title => fits 2 title
  | .lockoutEnd | .leaseEnd _ | .frameAbandon => true
  | .svcPut b => b.wf
  | .svcDrop service => fits 2 service
  | .onAir service title => fits 2 service && fitsOpt 2 title
  | .keyPut b => b.wf
  | .keyWipe family => fits 1 family
  | .titlePut b => b.wf
  | .titleDrop title => fits 2 title
  | .tariffPut b => b.wf
  | .stayOpen b => b.wf
  | .stayClose stay => fits 2 stay
  | .chargePoll => true
  | .chargeAck serial => fits 3 serial
  | .lockSet b => b.wf
  | .timeMark t => fits 4 t
  | .countSet b => b.wf
  | .countPoll | .statusPoll => true
  | .alertClear flags => flags.toList.all (fits 1)
  | .groupSet groups => groups.toList.all (fits 2)
  | .unitReset => true
  | .feedSet threshold => fits 1 threshold
  | .returnByte _ | .reportSent | .panelByte _ _ => true
  | .pick lane service => fits 1 lane && fitsOpt 2 service
  | .buy lane title pin => fits 1 lane && fits 2 title && pinOptWf pin
  | .refund title => fits 2 title
  | .unlock lane pin => fits 1 lane && pinOptWf pin
  | .relock lane => fits 1 lane
  | .askLane lane => fits 1 lane
  | .askTitle title => fits 2 title
  | .askRoom | .attnRead => true
  | .attnAck code => fits 1 code
  | .attnFloor n => fits 1 n
  | .replySent => true

end Sys2Proof
end

