-- ==== Sys2Proof/Decode.lean ====
section
/-! DEFINITION. The command a word of the table's bits spells. The RM24 is a block: spec/opcode_table.json
gives no row any bits, so no word spells a command. The wire formats that do carry messages and requests
(cell payloads and panel frames, R183 to R185) are read in Sys2Proof/Machine/Wire.lean. -/

namespace Sys2Proof

/-- No row of the opcode table has bits: every word spells no command. -/
def decodeTableWord (_nbits _w : Nat) : Option Instr := none

end Sys2Proof
end

