-- ==== Sys2Proof/Machine/State.lean ====
section
/-! DEFINITION. Everything the spec gives the RM24 to hold, block by block, as plain data, and the machine as
power-on leaves it. Ranges are those of the tables cited; the laws and obligations state that they are kept. -/

namespace Sys2Proof.Machine

/-! ## The cell path (chapter 1) -/

/-- The three framer states, section 1.2. -/
inductive FramerState where
  | hunt | confirm | locked
  deriving DecidableEq, Repr

/-- The cell framer and the five status counts (section 1.2, R3, R16). The cell position is the number of
bytes received since the cell boundary, so it is `bytes.length` in CONFIRM and LOCKED. -/
structure Framer where
  state      : FramerState
  integrator : Nat
  threshold  : Nat
  silence    : Nat
  /-- In HUNT: the byte before the next one was C6h (R4). -/
  sawC6      : Bool
  /-- The bytes of the cell being assembled. -/
  bytes      : List Byte
  /-- The cell being assembled was taken at its boundary (R6), so it is handed on when whole. -/
  handOn     : Bool
  taken      : Nat
  syncBad    : Nat
  headerBad  : Nat
  tagMiss    : Nat
  syncLosses : Nat
  deriving DecidableEq, Repr

/-- The valid cell kinds, Table 1-1. -/
inductive CellKind where
  | media | management | fill
  deriving DecidableEq, Repr

/-- A parity of a key slot. -/
inductive Parity where
  | even | odd
  deriving DecidableEq, Repr

/-- The valid marks, Table 1-1: CLEAR, or scrambled under the slot of a parity. -/
inductive Mark where
  | clear
  | scrambled (p : Parity)
  deriving DecidableEq, Repr

/-- A cell with a good header. The header check is a function of the other fields (R2), so it is computed
when the cell is written out and not held. -/
structure Cell where
  kind    : CellKind
  mark    : Mark
  seq     : Nat
  tag     : Nat
  carry   : Nat
  payload : List Byte
  deriving DecidableEq, Repr

/-! ## Services and the tag directory (chapter 2) -/

inductive ServiceKind where
  | free | pay
  deriving DecidableEq, Repr

inductive Role where
  | picture | sound | caption | data
  deriving DecidableEq, Repr

/-- A component of a loaded service with its continuity state (Table 2-1, section 2.6). -/
structure Component where
  tag    : Nat
  role   : Role
  expect : Option Nat
  discs  : Nat
  deriving DecidableEq, Repr

/-- A service record, Table 2-1. -/
structure ServiceRec where
  number     : Nat
  kind       : ServiceKind
  family     : Option (Fin 32)
  rating     : Nat
  title      : Option Nat
  components : List Component
  deriving DecidableEq, Repr

/-- A tag directory entry, Table 2-2. -/
structure DirEntry where
  tag     : Nat
  service : Nat
  role    : Role
  deriving DecidableEq, Repr

/-! ## The key store (chapter 3) -/

/-- A key and its check byte: loaded, held, promoted and cleared together. -/
structure Key where
  bytes : Vector Byte 8
  check : Byte
  deriving DecidableEq, Repr

/-- One slot of a family: a live key and a staged key. -/
structure KeySlot where
  live   : Option Key
  staged : Option Key
  deriving DecidableEq, Repr

/-- A key family record, Table 3-1. `parity` is the parity last seen; `none` is NONE. -/
structure KeyFamily where
  parity    : Option Parity
  even      : KeySlot
  odd       : KeySlot
  keyMisses : Nat
  deriving DecidableEq, Repr

/-! ## The lanes (chapter 4) -/

/-- The lane states in the order of Table 4-1. -/
inductive LaneState where
  | idle | absent | clear | preview | rented | offer | locked
  deriving DecidableEq, Repr

/-- A lane record, Table 4-1. -/
structure Lane where
  state     : LaneState
  service   : Option Nat
  /-- The title in view. -/
  title     : Option Nat
  /-- The output queue, oldest first. -/
  queue     : List Cell
  /-- The cell in transmission on the screen port. -/
  sending   : Option Cell
  /-- The picture mark. -/
  mark      : Bool
  /-- The no-picture run. -/
  run       : Nat
  /-- The overrun latch. -/
  latch     : Bool
  mediaSent : Nat
  fillSent  : Nat
  overruns  : Nat
  keyMisses : Nat
  purged    : Nat
  deriving DecidableEq, Repr

/-! ## The rental engine (chapter 5) -/

/-- A catalog entry, Table 5-1. -/
structure CatalogEntry where
  title     : Nat
  rating    : Nat
  basePrice : Nat
  window    : Nat
  preview   : Nat
  grace     : Nat
  billAlias : Nat
  deriving DecidableEq, Repr

inductive RentalState where
  | preview | spent | active | expired | void
  deriving DecidableEq, Repr

/-- A rental record, Table 5-2: the five copies, then what the stay has done with the title. -/
structure RentalRec where
  title        : Nat
  rating       : Nat
  window       : Nat
  allowance    : Nat
  grace        : Nat
  billAlias    : Nat
  state        : RentalState
  previewSec   : Nat
  viewedSec    : Nat
  windowLeft   : Nat
  amount       : Option Nat
  serial       : Option Nat
  refunded     : Bool
  /-- The picture-seen mark. -/
  seen         : Bool
  deriving DecidableEq, Repr

/-! ## The tariff unit (chapter 6) -/

/-- A tariff set, Table 6-1. -/
structure TariffSet where
  preOffset   : Int
  scale       : Nat
  postOffset  : Int
  lowCompare  : Nat
  lowSet      : Nat
  highCompare : Nat
  highSet     : Nat
  deriving DecidableEq, Repr

/-! ## The room and the charge list (chapter 7) -/

inductive RoomState where
  | vacant | occupied
  deriving DecidableEq, Repr

/-- The room record, Table 7-1. -/
structure Room where
  state       : RoomState
  stay        : Nat
  cls         : Fin 4
  spend       : Nat
  ceiling     : Nat
  purchasePin : Bool
  staleStays  : Nat
  deriving DecidableEq, Repr

inductive ChargeKind where
  | charge | credit
  deriving DecidableEq, Repr

/-- A charge record, Table 7-2. -/
structure ChargeRec where
  serial    : Nat
  kind      : ChargeKind
  stay      : Nat
  title     : Nat
  billAlias : Nat
  discreet  : Bool
  amount    : Nat
  stamp     : Option Nat
  reversed  : Option Nat
  deriving DecidableEq, Repr

/-! ## The lock unit (chapter 8) -/

/-- The lock policy: the first six rows of Table 8-1, loaded together by LOCK-SET. -/
structure Policy where
  houseLimit     : Nat
  defaultCeiling : Nat
  laneCeilings   : Vector Nat 4
  barred         : Vector Bool 4
  leaseLength    : Nat
  discreet       : Nat
  deriving DecidableEq, Repr

/-- The lock unit, Table 8-1. A held PIN has four digits 0..9 (R139). -/
structure LockUnit where
  policy      : Policy
  roomCeiling : Nat
  pin         : Option PinField
  attempts    : Nat
  lockout     : Option Nat
  leases      : Vector (Option Nat) 4
  deriving DecidableEq, Repr

/-! ## Second tick, house time and audit counters (chapter 9) -/

/-- The prescaler, house time and the time-set flag (sections 9.1 and 9.2). -/
structure Clock where
  prescaler : Nat
  houseTime : Nat
  timeSet   : Bool
  deriving DecidableEq, Repr

/-- The event kinds in the order of Table 9-2. -/
inductive EventKind where
  | viewSeconds | previewSeconds | rentedSeconds | purchases | refunds
  | lockSeconds | pinFailures | keyMisses | overruns | occupancy
  deriving DecidableEq, Repr

inductive Filter where
  | none
  | service (n : Nat)
  | lanes (set : Vector Bool 4)
  | ratingAtLeast (r : Nat)
  deriving DecidableEq, Repr

inductive OccupancyMode where
  | sum | atLeast | rise
  deriving DecidableEq, Repr

/-- The occupancy part of a setup: which lane states count (in the order of Table 4-1), how, and from how
many lanes on. -/
structure Occupancy where
  states    : Vector Bool 7
  mode      : OccupancyMode
  threshold : Nat
  deriving DecidableEq, Repr

/-- A counter's setup; the occupancy part is held with the kind OCCUPANCY alone (R156). -/
structure Setup where
  kind      : EventKind
  filter    : Filter
  occupancy : Option Occupancy
  deriving DecidableEq, Repr

/-- An audit counter, Table 9-1. It is armed when it has a setup. -/
structure Counter where
  setup : Option Setup
  last  : Option Nat
  value : Nat
  deriving DecidableEq, Repr

/-- An event handed to the audit counters with the tags it carries (R155). -/
structure AuditEvent where
  kind    : EventKind
  lane    : Option (Fin 4)
  service : Option Nat
  rating  : Option Nat
  deriving DecidableEq, Repr

/-! ## The management engine and the return line (chapter 10) -/

/-- The five message counts, Table 10-1. -/
structure MsgCounts where
  taken       : Nat
  crcBad      : Nat
  malformed   : Nat
  refused     : Nat
  pollsMissed : Nat
  deriving DecidableEq, Repr

/-- The alert kinds in the order of Table 10-3. -/
inductive AlertKind where
  | coldStart | feedLost | pinLockout | listFull | timeStep | spendCeiling
  deriving DecidableEq, Repr

/-- The place of a kind in Table 10-3, counted from 0. -/
def AlertKind.index : AlertKind → Fin 6
  | .coldStart => 0
  | .feedLost => 1
  | .pinLockout => 2
  | .listFull => 3
  | .timeStep => 4
  | .spendCeiling => 5

inductive AlertState where
  | clear | latched | reported
  deriving DecidableEq, Repr

inductive ReportKind where
  | charge | status | count | alert
  deriving DecidableEq, Repr

/-- A report in the queue. The body is built when the report is admitted, but for an ALERT-RPT, whose body is
absent until its transmission begins (section 10.5). -/
structure Report where
  kind : ReportKind
  body : Option (List Byte)
  deriving DecidableEq, Repr

/-! ## The panel port (chapter 11) -/

/-- The result codes in the order of Table 11-2. -/
inductive Result where
  | done | already | badArg | badFrame | vacant | notOffered | locked | badPin | lockedOut
  | noPin | barred | tableFull | listFull | ceiling | notRented | gracePassed | refundedBefore
  deriving DecidableEq, Repr

/-- A panel frame in assembly: the bytes after E1h, whether one of them had a character error, and whether a
second tick has marked the frame (R176). -/
structure Frame where
  bytes     : List Byte
  charError : Bool
  marked    : Bool
  deriving DecidableEq, Repr

/-- A reply: the kind byte it answers (0 for BAD_FRAME), its two flags, its result and the result's fields. -/
structure Reply where
  kind        : Nat
  earlierLost : Bool
  restarted   : Bool
  result      : Result
  fields      : List Byte
  deriving DecidableEq, Repr

/-! ## The whole part -/

/-- One unit of work the part still owes inside a step: a cause of re-evaluation on its way to a lane, or the
work of one owner at a second tick (R59, R149). -/
inductive Task where
  | cause (lane : Fin 4)
  | houseTime
  | framer
  | laneTick (lane : Fin 4)
  | rental
  | lock
  | counters
  | panel
  deriving DecidableEq, Repr

structure State where
  /-- The unit identity, fixed at manufacture (R164). -/
  unitId      : Nat
  /-- The reset line is held (R182). -/
  held        : Bool
  /-- The decoders' ready lines as last looked at (R65). -/
  screenReady : Vector Bool 4
  /-- The modem's return ready line as last looked at (R170). -/
  returnReady : Bool
  framer      : Framer
  /-- The service table, ascending (R18). -/
  services    : List ServiceRec
  /-- The four banks of the tag directory (R20), each in ascending order of tag. -/
  directory   : Vector (List DirEntry) 4
  keys        : Vector KeyFamily 32
  lanes       : Vector Lane 4
  /-- The title catalog, ascending (R75). -/
  catalog     : List CatalogEntry
  /-- The rental table in creation order, oldest first (R79). -/
  rentals     : List RentalRec
  /-- The staged tariff sets by class (R100). -/
  staged      : Vector TariffSet 4
  /-- The live tariff sets by class (R100). -/
  live        : Vector TariffSet 4
  room        : Room
  /-- The charge list, oldest first (R123). -/
  charges     : List ChargeRec
  nextSerial  : Nat
  lock        : LockUnit
  clock       : Clock
  counters    : Vector Counter 4
  groups      : Vector Nat 4
  counts      : MsgCounts
  /-- The alert states, indexed by `AlertKind.index`. -/
  alerts      : Vector AlertState 6
  /-- The owed-alert flag (R171). -/
  owed        : Bool
  /-- The report queue, head first (R169). -/
  reports     : List Report
  /-- Bytes of the head report the modem has taken; 0 when the head has not begun (R170). -/
  reportSent  : Nat
  /-- The byte last handed to the modem. -/
  returnData  : Option Byte
  /-- The panel frame in assembly (R176). -/
  frame       : Option Frame
  /-- The reply buffer (R178). -/
  waiting     : Option Reply
  /-- The reply the panel transmitter is sending (R178). -/
  sending     : Option Reply
  /-- A reset has come and no reply has been placed since (R178). -/
  restartOwed : Bool
  /-- The pending set of attention codes, ascending (R180). -/
  codes       : List Nat
  /-- The attention floor (R180). -/
  floor       : Nat
  /-- The model's own: how many free choices of order have been used (`Config.arbiter`). -/
  choices     : Nat
  /-- The model's own: the commands that are waiting, first in, first out. -/
  pending     : List Instr
  deriving DecidableEq, Repr

/-- No command of the RM24 ends in a fault: the spec gives every message, request and event an outcome
(taken, refused, dropped, answered). The type has no value. -/
inductive Fault where
  deriving DecidableEq, Repr

/-- Why a command would be turned away by the model and not by the part. -/
inductive Refusal where
  /-- Raised by `exec` for a row of the opcode table whose meaning is not written yet; safe: the model stops
  where the part goes on. No arm raises it: every row has its meaning. -/
  | notModelled (mnemonic : String)
  deriving DecidableEq, Repr

/-- The framer at cold start (R3). -/
def Framer.cold : Framer :=
  { state := .hunt, integrator := 0, threshold := 4, silence := 0, sawC6 := false, bytes := [],
    handOn := false, taken := 0, syncBad := 0, headerBad := 0, tagMiss := 0, syncLosses := 0 }

/-- A key family at cold start and after warm reset (R36). -/
def KeyFamily.cold : KeyFamily :=
  { parity := none, even := ⟨none, none⟩, odd := ⟨none, none⟩, keyMisses := 0 }

/-- A lane at cold start and after warm reset (R55). -/
def Lane.cold : Lane :=
  { state := .idle, service := none, title := none, queue := [], sending := none, mark := false,
    run := 0, latch := false, mediaSent := 0, fillSent := 0, overruns := 0, keyMisses := 0, purged := 0 }

/-- The identity tariff set (section 6.1). -/
def TariffSet.identity : TariffSet :=
  { preOffset := 0, scale := 256, postOffset := 0, lowCompare := 0, lowSet := 0,
    highCompare := 65535, highSet := 65535 }

/-- The room record at cold start (R114). -/
def Room.cold : Room :=
  { state := .vacant, stay := 0, cls := 0, spend := 0, ceiling := 0, purchasePin := false, staleStays := 0 }

/-- The lock unit at cold start (R132). -/
def LockUnit.cold : LockUnit :=
  { policy :=
      { houseLimit := 7, defaultCeiling := 4, laneCeilings := .replicate 4 7,
        barred := .replicate 4 false, leaseLength := 14400, discreet := 6 },
    roomCeiling := 4, pin := none, attempts := 0, lockout := none, leases := .replicate 4 none }

/-- A disarmed counter (R154). -/
def Counter.cold : Counter := { setup := none, last := none, value := 0 }

/-- The message counts at cold start and after warm reset (R161). -/
def MsgCounts.zero : MsgCounts := ⟨0, 0, 0, 0, 0⟩

/-- The alert states at cold start: COLD_START is LATCHED, the others are CLEAR (R174). -/
def coldAlerts : Vector AlertState 6 := #v[.latched, .clear, .clear, .clear, .clear, .clear]

/-- An ALERT-RPT that has not begun: its body is built when it does (R172). -/
def Report.alertWaiting : Report := { kind := .alert, body := none }

/-- Power has just been applied: every block in its cold-start state, COLD_START latched and one ALERT-RPT
admitted (R174). The unit identity and the input lines are not the spec's to give: log entries 2 and 3. -/
def State.reset : State where
  unitId := 0
  held := false
  screenReady := .replicate 4 false
  returnReady := false
  framer := .cold
  services := []
  directory := .replicate 4 []
  keys := .replicate 32 .cold
  lanes := .replicate 4 .cold
  catalog := []
  rentals := []
  staged := .replicate 4 .identity
  live := .replicate 4 .identity
  room := .cold
  charges := []
  nextSerial := 1
  lock := .cold
  clock := { prescaler := 0, houseTime := 0, timeSet := false }
  counters := .replicate 4 .cold
  groups := .replicate 4 0
  counts := .zero
  alerts := coldAlerts
  owed := false
  reports := [.alertWaiting]
  reportSent := 0
  returnData := none
  frame := none
  waiting := none
  sending := none
  restartOwed := true
  codes := []
  floor := 32
  choices := 0
  pending := []

end Sys2Proof.Machine
end

