-- ==== Sys2Proof/Machine/Operands.lean ====
section
/-! DEFINITION. The fields of messages, requests, reports and replies: which value a byte of an enumerated
field stands for and which byte a value is sent as (R183: numbered from 0 in the order listed), and the clamping
of quantities (R165, R177). -/

namespace Sys2Proof.Machine

/-- A vector with each entry changed. It goes by the entries' list, so that it computes by structural recursion. -/
def mapEach {α β : Type} {k : Nat} (f : α → β) (v : Vector α k) : Vector β k := ⟨⟨v.toList.map f⟩, by simp⟩

/-- Two vectors taken entry by entry. -/
def zipEach {α β γ : Type} {k : Nat} (f : α → β → γ) (v : Vector α k) (w : Vector β k) : Vector γ k :=
  ⟨⟨List.zipWith f v.toList w.toList⟩, by simp⟩

/-- A quantity outside `lo..hi` becomes the nearer end (R165). -/
def clamp (lo hi n : Nat) : Nat := if n < lo then lo else if hi < n then hi else n

/-- A lane, a tariff class or a counter, 0..3; anything else is an identifier out of range. -/
def four? (n : Nat) : Option (Fin 4) := if h : n < 4 then some ⟨n, h⟩ else none

/-- A key family, 0..31. -/
def family? (n : Nat) : Option (Fin 32) := if h : n < 32 then some ⟨n, h⟩ else none

/-- A service number is in range when it is 1..999. -/
def serviceOk (n : Nat) : Bool := 1 ≤ n && n ≤ 999

/-- A flag is one byte, 0 or 1 (R183). -/
def flag? : Nat → Option Bool
  | 0 => some false
  | 1 => some true
  | _ => none

/-- Every flag of a group is 0 or 1. -/
def flagsOk {k : Nat} (fs : Vector Nat k) : Bool := fs.toList.all (· ≤ 1)

/-- The flags of a group that is in range. -/
def flagsOf {k : Nat} (fs : Vector Nat k) : Vector Bool k := mapEach (· == 1) fs

def ServiceKind.ofField : Nat → Option ServiceKind
  | 0 => some .free
  | 1 => some .pay
  | _ => none

def ServiceKind.toField : ServiceKind → Nat
  | .free => 0
  | .pay => 1

def Role.ofField : Nat → Option Role
  | 0 => some .picture
  | 1 => some .sound
  | 2 => some .caption
  | 3 => some .data
  | _ => none

def Role.toField : Role → Nat
  | .picture => 0
  | .sound => 1
  | .caption => 2
  | .data => 3

/-- The parity field of KEY-PUT: EVEN 0, ODD 1. -/
def Parity.ofField : Nat → Option Parity
  | 0 => some .even
  | 1 => some .odd
  | _ => none

/-- The parity last seen in the family list: NONE 0, EVEN 1, ODD 2 (Table 3-1). -/
def parityField : Option Parity → Nat
  | none => 0
  | some .even => 1
  | some .odd => 2

def EventKind.ofField : Nat → Option EventKind
  | 0 => some .viewSeconds
  | 1 => some .previewSeconds
  | 2 => some .rentedSeconds
  | 3 => some .purchases
  | 4 => some .refunds
  | 5 => some .lockSeconds
  | 6 => some .pinFailures
  | 7 => some .keyMisses
  | 8 => some .overruns
  | 9 => some .occupancy
  | _ => none

def EventKind.toField : EventKind → Nat
  | .viewSeconds => 0
  | .previewSeconds => 1
  | .rentedSeconds => 2
  | .purchases => 3
  | .refunds => 4
  | .lockSeconds => 5
  | .pinFailures => 6
  | .keyMisses => 7
  | .overruns => 8
  | .occupancy => 9

def OccupancyMode.ofField : Nat → Option OccupancyMode
  | 0 => some .sum
  | 1 => some .atLeast
  | 2 => some .rise
  | _ => none

def OccupancyMode.toField : OccupancyMode → Nat
  | .sum => 0
  | .atLeast => 1
  | .rise => 2

def FramerState.toField : FramerState → Nat
  | .hunt => 0
  | .confirm => 1
  | .locked => 2

/-- The place of a lane state in Table 4-1, counted from 0. -/
def LaneState.index : LaneState → Fin 7
  | .idle => 0
  | .absent => 1
  | .clear => 2
  | .preview => 3
  | .rented => 4
  | .offer => 5
  | .locked => 6

def LaneState.toField (st : LaneState) : Nat := st.index.val

def RentalState.toField : RentalState → Nat
  | .preview => 0
  | .spent => 1
  | .active => 2
  | .expired => 3
  | .void => 4

def RoomState.toField : RoomState → Nat
  | .vacant => 0
  | .occupied => 1

def ChargeKind.toField : ChargeKind → Nat
  | .charge => 0
  | .credit => 1

def AlertState.toField : AlertState → Nat
  | .clear => 0
  | .latched => 1
  | .reported => 2

/-- The result byte, Table 11-2. -/
def Result.toField : Result → Nat
  | .done => 0x00
  | .already => 0x01
  | .badArg => 0x02
  | .badFrame => 0x03
  | .vacant => 0x04
  | .notOffered => 0x05
  | .locked => 0x06
  | .badPin => 0x07
  | .lockedOut => 0x08
  | .noPin => 0x09
  | .barred => 0x0A
  | .tableFull => 0x0B
  | .listFull => 0x0C
  | .ceiling => 0x0D
  | .notRented => 0x0E
  | .gracePassed => 0x0F
  | .refundedBefore => 0x10

/-- The report kind byte (R185). -/
def ReportKind.toField : ReportKind → Nat
  | .charge => 1
  | .status => 2
  | .count => 3
  | .alert => 4

/-- Four decimal digits (section 8.5). -/
def pinDigits (p : PinField) : Bool := p.d0 ≤ 9 && p.d1 ≤ 9 && p.d2 ≤ 9 && p.d3 ≤ 9

/-- A PIN field, if present, is four decimal digits (R115). -/
def pinOptDigits : Option PinField → Bool
  | none => true
  | some p => pinDigits p

/-- Which filters a kind may have: the last column of Table 9-2. -/
def filterAllowed : EventKind → FilterField → Bool
  | _, .none => true
  | .viewSeconds, .service _ => true
  | .viewSeconds, .lanes _ => true
  | .viewSeconds, .ratingAtLeast _ => true
  | .previewSeconds, .ratingAtLeast _ => true
  | .rentedSeconds, .ratingAtLeast _ => true
  | .purchases, .lanes _ => true
  | .purchases, .ratingAtLeast _ => true
  | .refunds, .ratingAtLeast _ => true
  | .lockSeconds, .service _ => true
  | .lockSeconds, .lanes _ => true
  | .lockSeconds, .ratingAtLeast _ => true
  | .pinFailures, .lanes _ => true
  | .keyMisses, .service _ => true
  | .keyMisses, .lanes _ => true
  | .keyMisses, .ratingAtLeast _ => true
  | .overruns, .service _ => true
  | .overruns, .lanes _ => true
  | .occupancy, .lanes _ => true
  | _, _ => false

/-- A filter's own fields are in range (R156). -/
def filterFieldsOk : FilterField → Bool
  | .none => true
  | .service n => serviceOk n
  | .lanes fs => flagsOk fs
  | .ratingAtLeast _ => true

/-- The filter held, its rating clamped to 7 (R156). -/
def filterOf : FilterField → Filter
  | .none => .none
  | .service n => .service n
  | .lanes fs => .lanes (flagsOf fs)
  | .ratingAtLeast r => .ratingAtLeast (clamp 0 7 r)

end Sys2Proof.Machine
end

