-- ==== Sys2Proof/Machine/Flags.lean ====
section
/-! DEFINITION. The lines, levels and yes-or-no answers the spec computes from the state and does not hold: the
attention line, effective ceilings and ratings, the slot in use, evictable records, the filters of the audit
counters. -/

namespace Sys2Proof.Machine

/-- The four lanes, in number order. -/
def allLanes : List (Fin 4) := [0, 1, 2, 3]

/-- CLEAR, PREVIEW and RENTED are the viewing states (section 4.1). -/
def LaneState.viewing : LaneState → Bool
  | .clear | .preview | .rented => true
  | .idle | .absent | .offer | .locked => false

/-! ## Questions the service map answers (R22) -/

/-- The record of a loaded service. -/
def State.service? (s : State) (n : Nat) : Option ServiceRec := s.services.find? (·.number == n)

/-- The title on air of a PAY service; a FREE service never has one (R18). -/
def ServiceRec.onAir? (r : ServiceRec) : Option Nat :=
  match r.kind with
  | .free => none
  | .pay => r.title

/-- The record of the service a lane selects, when there is a selection and it is loaded. -/
def State.selected? (s : State) (n : Fin 4) : Option ServiceRec := s.lanes[n].service.bind s.service?

/-- The title the lane's selection is running: what the lane's next evaluation takes as its title in view. -/
def State.titleRunning? (s : State) (n : Fin 4) : Option Nat := (s.selected? n).bind ServiceRec.onAir?

/-- The bank a tag folds to (R20). -/
def foldBank (tag : Nat) : Fin 4 := ⟨(tag + tag / 16 + tag / 256) % 4, Nat.mod_lt _ (by decide)⟩

/-- The directory entry of a tag, looked up in its fold bank alone (R21). -/
def State.lookup? (s : State) (tag : Nat) : Option DirEntry := s.directory[foldBank tag].find? (·.tag == tag)

/-! ## Questions the rental engine answers -/

def State.catalog? (s : State) (t : Nat) : Option CatalogEntry := s.catalog.find? (·.title == t)

def State.rental? (s : State) (t : Nat) : Option RentalRec := s.rentals.find? (·.title == t)

/-- An EXPIRED record whose refunded flag is clear (R82). -/
def RentalRec.evictable (r : RentalRec) : Bool := r.state == .expired && !r.refunded

/-- A place can be had: fewer than 16 records, or one of them is evictable (R82). -/
def State.placeAvailable (s : State) : Bool := s.rentals.length < 16 || s.rentals.any RentalRec.evictable

/-- The lanes on a title: those whose title in view it is (section 4.1). -/
def State.onTitle (s : State) (t : Nat) (n : Fin 4) : Bool := s.lanes[n].title == some t

/-! ## Ratings and ceilings -/

/-- The lane's effective ceiling (R133). -/
def State.effectiveCeiling (s : State) (n : Fin 4) : Nat :=
  match s.lock.leases[n] with
  | some _ => s.lock.policy.houseLimit
  | none => min s.lock.roomCeiling (min s.lock.policy.laneCeilings[n] s.lock.policy.houseLimit)

/-- A title's rating for evaluation: its record's copy, else its catalog entry's, else the house limit (R57). -/
def State.titleRating (s : State) (t : Nat) : Nat :=
  match s.rental? t with
  | some r => r.rating
  | none =>
    match s.catalog? t with
    | some e => e.rating
    | none => s.lock.policy.houseLimit

/-- The effective rating of a selection (R57). -/
def State.effectiveRating (s : State) (r : ServiceRec) : Nat :=
  match r.onAir? with
  | none => r.rating
  | some t => max r.rating (s.titleRating t)

/-! ## The key store -/

def Parity.other : Parity → Parity
  | .even => .odd
  | .odd => .even

def KeyFamily.slot (f : KeyFamily) : Parity → KeySlot
  | .even => f.even
  | .odd => f.odd

/-- The slot in use is the one whose parity is the parity last seen (section 3.1). -/
def KeyFamily.inUse (f : KeyFamily) (p : Parity) : Bool := f.parity == some p

/-! ## The charge list, the room and the lock -/

/-- The charge list can take a record (R124). -/
def State.canCharge (s : State) : Bool := s.charges.length < 12 && s.nextSerial ≤ 16777215

/-- House time as it is reported and stamped: absent until it has been set (R153). -/
def State.houseTime? (s : State) : Option Nat := if s.clock.timeSet then some s.clock.houseTime else none

/-! ## The report queue and attention -/

/-- The report is an ALERT-RPT admitted but not yet begun (R171). -/
def Report.waitingAlert (r : Report) : Bool := r.kind == .alert && r.body.isNone

/-- The pending codes below the floor, ascending (R181). -/
def State.codesBelow (s : State) : List Nat := s.codes.filter (· < s.floor)

/-- The attention line is asserted while a pending code is below the floor (R180). -/
def State.attentionLine (s : State) : Bool := !s.codesBelow.isEmpty

/-- The smallest pending code below the floor, or 0 (R181). -/
def State.lowestCode (s : State) : Nat := s.codesBelow.headD 0

/-! ## Audit filters (R155) -/

/-- The filter admits the event by the tags it carries. -/
def Filter.admits (f : Filter) (e : AuditEvent) : Bool :=
  match f with
  | .none => true
  | .service n => e.service == some n
  | .lanes set => match e.lane with
    | some l => set[l]
    | Option.none => false
  | .ratingAtLeast r => match e.rating with
    | some k => r ≤ k
    | Option.none => false

/-- The counter counts the event: armed, of the event's kind and with a filter that admits it (R157). An
OCCUPANCY counter is offered no event. -/
def Counter.counts (c : Counter) (e : AuditEvent) : Bool :=
  match c.setup with
  | none => false
  | some u => u.kind == e.kind && e.kind != .occupancy && u.filter.admits e

end Sys2Proof.Machine
end

