-- ==== Sys2Proof/Machine/Ops.lean ====
section
/-! DEFINITION. The operations several commands share: counts that saturate, one lane's record, raising an
attention code, latching an alert, offering a report, placing a reply, handing an event to the audit counters,
taking and refusing a message, warm reset and cold start. -/

namespace Sys2Proof.Machine

/-- Add to a status count: 0..65,535, saturating (R16, R31, R50, R54, Table 10-1). -/
def satAdd (n k : Nat) : Nat := min 65535 (n + k)

/-- Add to an audit counter's value: saturating at 4,294,967,295 (R157). -/
def satAdd32 (n k : Nat) : Nat := min 4294967295 (n + k)

/-- Nothing happens while the reset line is held: the part takes no byte, sends nothing and produces no tick
(R182). -/
def State.running (s : State) (f : State → State) : State := if s.held then s else f s

/-! ## Lanes -/

def State.modLane (s : State) (n : Fin 4) (f : Lane → Lane) : State :=
  { s with lanes := s.lanes.set n (f s.lanes[n]) }

/-- Empty the output queue; each cell removed adds 1 to the purged count (R66). -/
def Lane.purge (l : Lane) : Lane := { l with queue := [], purged := satAdd l.purged l.queue.length }

/-- The lanes of the four that satisfy a test, in number order. -/
def lanesWhere (p : Fin 4 → Bool) : List (Fin 4) := allLanes.filter p

/-! ## Attention (R180) -/

/-- Add a code to an ascending set of codes. -/
def insertCode (c : Nat) : List Nat → List Nat
  | [] => [c]
  | d :: ds => if c < d then c :: d :: ds else if c = d then d :: ds else d :: insertCode c ds

/-- Raise an attention code: added to the pending set if absent. -/
def State.raiseCode (s : State) (c : Nat) : State := { s with codes := insertCode c s.codes }

/-- Raise several codes. -/
def State.raiseCodes (s : State) (cs : List Nat) : State := cs.foldl State.raiseCode s

/-! ## Reports and alerts -/

/-- The queue holds at most 6 reports, counting the one in transmission (R169). -/
def State.queueOpen (s : State) : Bool := s.reports.length < 6

def State.enqueue (s : State) (r : Report) : State := { s with reports := s.reports ++ [r] }

/-- A poll offers its report; when the queue is full the body is discarded and the poll is missed (R169). -/
def State.offerReport (s : State) (kind : ReportKind) (body : List Byte) : State :=
  if s.queueOpen then s.enqueue { kind, body := some body }
  else { s with counts.pollsMissed := satAdd s.counts.pollsMissed 1 }

def State.alert (s : State) (k : AlertKind) : AlertState := s.alerts[k.index]

def State.setAlert (s : State) (k : AlertKind) (a : AlertState) : State :=
  { s with alerts := s.alerts.set k.index a }

/-- Latch an alert kind: from CLEAR it becomes LATCHED and, unless an ALERT-RPT is already waiting, one is
admitted or, with the queue full, owed; from any other state the latch changes nothing (R171). -/
def State.latch (s : State) (k : AlertKind) : State :=
  if s.alert k = .clear then
    let s1 := s.setAlert k .latched
    if s1.reports.any Report.waitingAlert then s1
    else if s1.queueOpen then s1.enqueue .alertWaiting
    else { s1 with owed := true }
  else s

/-! ## Audit counters -/

def Counter.offer (e : AuditEvent) (c : Counter) : Counter :=
  if c.counts e then { c with value := satAdd32 c.value 1 } else c

/-- Offer an event to all four counters (R157). -/
def State.audit (s : State) (e : AuditEvent) : State := { s with counters := mapEach (Counter.offer e) s.counters }

def State.auditAll (s : State) (es : List AuditEvent) : State := es.foldl State.audit s

/-- An event of lane `n` with the tags of its loaded selection, or with the lane tag alone (R73, R155). -/
def State.laneEvent (s : State) (n : Fin 4) (kind : EventKind) : AuditEvent :=
  match s.selected? n with
  | some r => { kind, lane := some n, service := some r.number, rating := some (s.effectiveRating r) }
  | none => { kind, lane := some n, service := none, rating := none }

/-- An event of the rental engine, tagged with the rating held in the record (R99). -/
def rentalEvent (kind : EventKind) (rating : Nat) : AuditEvent :=
  { kind, lane := none, service := none, rating := some rating }

/-! ## Management messages (R165) -/

def State.countTaken (s : State) : State := { s with counts.taken := satAdd s.counts.taken 1 }

def State.countRefused (s : State) : State := { s with counts.refused := satAdd s.counts.refused 1 }

def State.countCrcBad (s : State) : State := { s with counts.crcBad := satAdd s.counts.crcBad 1 }

def State.countMalformed (s : State) : State := { s with counts.malformed := satAdd s.counts.malformed 1 }

/-- Hand a message to its owner. The owner answers the state its effects leave, or nothing when it refuses;
a message taken is counted before its effects are applied, as R167 says of UNIT-RESET (log entry 6), and a
message refused changes nothing but the refused count. -/
def State.takeMsg (s : State) (owner : State → Option State) : State :=
  match owner s.countTaken with
  | some t => t
  | none => s.countRefused

/-! ## Replies (R178) -/

/-- Place a built reply in the buffer. It replaces a waiting reply and then carries EARLIER_REPLY_LOST, and
RESTARTED too if the discarded one did; with the transmitter idle it begins at once. -/
def State.placeReply (s : State) (kind : Nat) (result : Result) (fields : List Byte) : State :=
  let r : Reply :=
    { kind, result, fields, earlierLost := s.waiting.isSome,
      restarted := s.restartOwed || (s.waiting.map Reply.restarted).getD false }
  match s.sending with
  | none => { s with waiting := none, sending := some r, restartOwed := false }
  | some _ => { s with waiting := some r, restartOwed := false }

/-! ## Resets -/

/-- What warm reset makes of an alert state (R174). -/
def AlertState.warm : AlertState → AlertState
  | .clear => .clear
  | .latched => .latched
  | .reported => .latched

/-- What warm reset makes of the framer (R3). -/
def Framer.warm (f : Framer) : Framer := { Framer.cold with threshold := f.threshold }

/-- Warm reset: every block applies its own rule (R3, R19, R36, R55, R75, R80, R101, R114, R123, R132, R148,
R150, R154, R161, R169, R174, R182). The unit identity, the lines from outside and what waits to be commanded
are not the part's to reset. -/
def State.warmReset (s : State) : State :=
  let alerts := mapEach AlertState.warm s.alerts
  { s with
    framer := s.framer.warm
    services := []
    directory := .replicate 4 []
    keys := .replicate 32 .cold
    lanes := .replicate 4 .cold
    catalog := []
    rentals := s.rentals.map fun r => { r with seen := false }
    room.staleStays := 0
    lock.leases := .replicate 4 none
    clock.prescaler := 0
    counters := .replicate 4 .cold
    counts := .zero
    alerts := alerts
    owed := false
    reports := if alerts.toList.any (· == .latched) then [.alertWaiting] else []
    reportSent := 0
    frame := none
    waiting := none
    sending := none
    restartOwed := true
    codes := []
    floor := 32 }

/-- Cold start: every block takes its cold-start state (R3 to R182, R174), whatever stood before. The unit
identity, the lines from outside, the commands waiting and the count of free choices are not the part's own
state and stay. -/
def State.coldStart (s : State) : State :=
  { State.reset with
    unitId := s.unitId, held := s.held, screenReady := s.screenReady, returnReady := s.returnReady,
    choices := s.choices, pending := s.pending }

end Sys2Proof.Machine
end

