-- ==== Sys2Proof/Machine/Wire.lean ====
section
/-! DEFINITION. The encodings of chapter 11: bodies (R183), the cell header (R184), the management envelope, the
report envelope and the panel frame (R185), and the CRC-16 of messages and reports (R162). -/

namespace Sys2Proof.Machine

/-! ## Writing fields (R183) -/

/-- An integer field, big-endian in `w` bytes. -/
def bytesOf : Nat → Nat → List Byte
  | 0, _ => []
  | w + 1, n => bytesOf w (n / 256) ++ [BitVec.ofNat 8 n]

/-- A flag: one byte, 0 or 1. -/
def flagByte (b : Bool) : List Byte := bytesOf 1 b.toNat

/-- An optional field or group: a presence byte, then the field when present. -/
def optBytes {α : Type} (f : α → List Byte) : Option α → List Byte
  | none => [0]
  | some a => 1 :: f a

/-- A list: a count byte, then the entries. -/
def listBytes {α : Type} (f : α → List Byte) (xs : List α) : List Byte := bytesOf 1 xs.length ++ xs.flatMap f

/-! ## Reading fields (R183) -/

/-- The number a run of bytes spells, the first the most significant. -/
def natOf (bs : List Byte) : Nat := bs.foldl (fun a b => a * 256 + b.toNat) 0

/-- Read an integer field of `w` bytes. -/
def readNat (w : Nat) (bs : List Byte) : Option (Nat × List Byte) :=
  if w ≤ bs.length then some (natOf (bs.take w), bs.drop w) else none

/-- Read an optional field or group; a presence byte other than 0 or 1 makes the body unfit (R163). -/
def readOpt {α : Type} (p : List Byte → Option (α × List Byte)) (bs : List Byte) :
    Option (Option α × List Byte) :=
  match bs with
  | [] => none
  | b :: r =>
    if b = 0 then some (none, r)
    else if b = 1 then (p r).map fun x => (some x.1, x.2)
    else none

/-- Read `k` entries one after another. -/
def readMany {α : Type} (p : List Byte → Option (α × List Byte)) : Nat → List Byte → Option (List α × List Byte)
  | 0, bs => some ([], bs)
  | k + 1, bs => do
    let (a, bs) ← p bs
    let (as, bs) ← readMany p k bs
    some (a :: as, bs)

/-- Read a list: a count byte, then that many entries. -/
def readList {α : Type} (p : List Byte → Option (α × List Byte)) (bs : List Byte) :
    Option (List α × List Byte) := do
  let (k, bs) ← readNat 1 bs
  readMany p k bs

def readFour (w : Nat) (bs : List Byte) : Option (Vector Nat 4 × List Byte) := do
  let (a, bs) ← readNat w bs
  let (b, bs) ← readNat w bs
  let (c, bs) ← readNat w bs
  let (d, bs) ← readNat w bs
  some (#v[a, b, c, d], bs)

def readSix (w : Nat) (bs : List Byte) : Option (Vector Nat 6 × List Byte) := do
  let (a, bs) ← readNat w bs
  let (b, bs) ← readNat w bs
  let (c, bs) ← readNat w bs
  let (d, bs) ← readNat w bs
  let (e, bs) ← readNat w bs
  let (f, bs) ← readNat w bs
  some (#v[a, b, c, d, e, f], bs)

def readSeven (w : Nat) (bs : List Byte) : Option (Vector Nat 7 × List Byte) := do
  let (v, bs) ← readSix w bs
  let (g, bs) ← readNat w bs
  some (v.push g, bs)

/-- A PIN: four bytes, first digit first. -/
def readPin (bs : List Byte) : Option (PinField × List Byte) := do
  let (v, bs) ← readFour 1 bs
  some (⟨v[0], v[1], v[2], v[3]⟩, bs)

/-- A key: eight bytes, K0 first. -/
def readKey (bs : List Byte) : Option (Vector Byte 8 × List Byte) :=
  match bs with
  | k0 :: k1 :: k2 :: k3 :: k4 :: k5 :: k6 :: k7 :: r => some (#v[k0, k1, k2, k3, k4, k5, k6, k7], r)
  | _ => none

/-- A signed field: two bytes of two's complement. -/
def readSigned (bs : List Byte) : Option (Int × List Byte) := do
  let (n, bs) ← readNat 2 bs
  some (if n < 32768 then (n : Int) else (n : Int) - 65536, bs)

/-- The body fits its kind when the kind's fields take all of it (R163, R176). -/
def whole {α : Type} (p : List Byte → Option (α × List Byte)) (bs : List Byte) : Option α :=
  match p bs with
  | some (a, []) => some a
  | _ => none

/-! ## Bodies of management messages -/

def readComponent (bs : List Byte) : Option (ComponentField × List Byte) := do
  let (tag, bs) ← readNat 2 bs
  let (role, bs) ← readNat 1 bs
  some (⟨tag, role⟩, bs)

def readSvcPut (bs : List Byte) : Option (SvcPutBody × List Byte) := do
  let (service, bs) ← readNat 2 bs
  let (kind, bs) ← readNat 1 bs
  let (family, bs) ← readOpt (readNat 1) bs
  let (rating, bs) ← readNat 1 bs
  let (title, bs) ← readOpt (readNat 2) bs
  let (components, bs) ← readList readComponent bs
  some (⟨service, kind, family, rating, title, components⟩, bs)

def readOnAir (bs : List Byte) : Option ((Nat × Option Nat) × List Byte) := do
  let (service, bs) ← readNat 2 bs
  let (title, bs) ← readOpt (readNat 2) bs
  some ((service, title), bs)

def readKeyPut (bs : List Byte) : Option (KeyPutBody × List Byte) := do
  let (family, bs) ← readNat 1 bs
  let (parity, bs) ← readNat 1 bs
  let (key, bs) ← readKey bs
  let (check, bs) ← readNat 1 bs
  some (⟨family, parity, key, BitVec.ofNat 8 check⟩, bs)

def readTitlePut (bs : List Byte) : Option (TitlePutBody × List Byte) := do
  let (title, bs) ← readNat 2 bs
  let (rating, bs) ← readNat 1 bs
  let (basePrice, bs) ← readNat 2 bs
  let (window, bs) ← readNat 3 bs
  let (preview, bs) ← readNat 2 bs
  let (grace, bs) ← readNat 2 bs
  let (billAlias, bs) ← readNat 2 bs
  some (⟨title, rating, basePrice, window, preview, grace, billAlias⟩, bs)

def readTariffPut (bs : List Byte) : Option (TariffPutBody × List Byte) := do
  let (cls, bs) ← readNat 1 bs
  let (a, bs) ← readSigned bs
  let (s, bs) ← readNat 2 bs
  let (b, bs) ← readSigned bs
  let (v, bs) ← readFour 2 bs
  some (⟨cls, a, s, b, v[0], v[1], v[2], v[3]⟩, bs)

def readStayOpen (bs : List Byte) : Option (StayOpenBody × List Byte) := do
  let (stay, bs) ← readNat 2 bs
  let (cls, bs) ← readNat 1 bs
  let (ceiling, bs) ← readNat 3 bs
  let (pin, bs) ← readOpt readPin bs
  let (roomCeiling, bs) ← readNat 1 bs
  let (purchasePin, bs) ← readNat 1 bs
  some (⟨stay, cls, ceiling, pin, roomCeiling, purchasePin⟩, bs)

def readLockSet (bs : List Byte) : Option (LockSetBody × List Byte) := do
  let (houseLimit, bs) ← readNat 1 bs
  let (defaultCeiling, bs) ← readNat 1 bs
  let (laneCeilings, bs) ← readFour 1 bs
  let (barred, bs) ← readFour 1 bs
  let (leaseLength, bs) ← readNat 2 bs
  let (discreet, bs) ← readNat 1 bs
  some (⟨houseLimit, defaultCeiling, laneCeilings, barred, leaseLength, discreet⟩, bs)

/-- The filter form is a selector: its argument's layout follows it, and a form beyond the list makes the body
unfit (R183). -/
def readFilter (bs : List Byte) : Option (FilterField × List Byte) := do
  let (form, bs) ← readNat 1 bs
  match form with
  | 0 => some (.none, bs)
  | 1 => (readNat 2 bs).map fun x => (.service x.1, x.2)
  | 2 => (readFour 1 bs).map fun x => (.lanes x.1, x.2)
  | 3 => (readNat 1 bs).map fun x => (.ratingAtLeast x.1, x.2)
  | _ => none

def readOccupancy (bs : List Byte) : Option (OccupancyField × List Byte) := do
  let (states, bs) ← readSeven 1 bs
  let (mode, bs) ← readNat 1 bs
  let (threshold, bs) ← readNat 1 bs
  some (⟨states, mode, threshold⟩, bs)

def readCountSet (bs : List Byte) : Option (CountSetBody × List Byte) := do
  let (counter, bs) ← readNat 1 bs
  let (kind, bs) ← readNat 1 bs
  let (filter, bs) ← readFilter bs
  let (occupancy, bs) ← readOpt readOccupancy bs
  some (⟨counter, kind, filter, occupancy⟩, bs)

/-- A message whose kind has an empty body. -/
def emptyBody {α : Type} (m : α) : List Byte → Option α
  | [] => some m
  | _ :: _ => none

/-- The kind bytes of Table 11-6. -/
def mgmtKindKnown (kind : Nat) : Bool := 0x01 ≤ kind && kind ≤ 0x15

/-- The message a kind byte and a body spell, when the kind is known and the body fits it (R163, Table 11-6). -/
def readMgmt (kind : Nat) (body : List Byte) : Option MgmtMsg :=
  match kind with
  | 0x01 => (whole readSvcPut body).map .svcPut
  | 0x02 => (whole (readNat 2) body).map .svcDrop
  | 0x03 => (whole readOnAir body).map fun x => .onAir x.1 x.2
  | 0x04 => (whole readKeyPut body).map .keyPut
  | 0x05 => (whole (readNat 1) body).map .keyWipe
  | 0x06 => (whole readTitlePut body).map .titlePut
  | 0x07 => (whole (readNat 2) body).map .titleDrop
  | 0x08 => (whole readStayOpen body).map .stayOpen
  | 0x09 => (whole (readNat 2) body).map .stayClose
  | 0x0A => (whole readLockSet body).map .lockSet
  | 0x0B => (whole readTariffPut body).map .tariffPut
  | 0x0C => emptyBody .chargePoll body
  | 0x0D => (whole (readNat 3) body).map .chargeAck
  | 0x0E => emptyBody .statusPoll body
  | 0x0F => (whole (readNat 4) body).map .timeMark
  | 0x10 => (whole readCountSet body).map .countSet
  | 0x11 => emptyBody .countPoll body
  | 0x12 => (whole (readSix 1) body).map .alertClear
  | 0x13 => (whole (readFour 2) body).map .groupSet
  | 0x14 => (whole (readNat 1) body).map .feedSet
  | 0x15 => emptyBody .unitReset body
  | _ => none

/-! ## Bodies of panel requests -/

def readPick (bs : List Byte) : Option ((Nat × Option Nat) × List Byte) := do
  let (lane, bs) ← readNat 1 bs
  let (service, bs) ← readOpt (readNat 2) bs
  some ((lane, service), bs)

def readBuy (bs : List Byte) : Option ((Nat × Nat × Option PinField) × List Byte) := do
  let (lane, bs) ← readNat 1 bs
  let (title, bs) ← readNat 2 bs
  let (pin, bs) ← readOpt readPin bs
  some ((lane, title, pin), bs)

def readUnlock (bs : List Byte) : Option ((Nat × Option PinField) × List Byte) := do
  let (lane, bs) ← readNat 1 bs
  let (pin, bs) ← readOpt readPin bs
  some ((lane, pin), bs)

/-- The request a kind byte and a body spell, when the kind is one of Table 11-1 and the body fits it (R176). -/
def readPanel (kind : Nat) (body : List Byte) : Option PanelReq :=
  match kind with
  | 0x01 => (whole readPick body).map fun x => .pick x.1 x.2
  | 0x02 => (whole readBuy body).map fun x => .buy x.1 x.2.1 x.2.2
  | 0x03 => (whole (readNat 2) body).map .refund
  | 0x04 => (whole readUnlock body).map fun x => .unlock x.1 x.2
  | 0x05 => (whole (readNat 1) body).map .relock
  | 0x06 => (whole (readNat 1) body).map .askLane
  | 0x07 => (whole (readNat 2) body).map .askTitle
  | 0x08 => emptyBody .askRoom body
  | 0x09 => emptyBody .attnRead body
  | 0x0A => (whole (readNat 1) body).map .attnAck
  | 0x0B => (whole (readNat 1) body).map .attnFloor
  | _ => none

/-! ## Cells (R2, R184) -/

def CellKind.toField : CellKind → Nat
  | .media => 0
  | .management => 1
  | .fill => 2

def CellKind.ofField : Nat → Option CellKind
  | 0 => some .media
  | 1 => some .management
  | 2 => some .fill
  | _ => none

def Mark.toField : Mark → Nat
  | .clear => 0
  | .scrambled .even => 1
  | .scrambled .odd => 2

def Mark.ofField : Nat → Option Mark
  | 0 => some .clear
  | 1 => some (.scrambled .even)
  | 2 => some (.scrambled .odd)
  | _ => none

/-- The header check: the exclusive OR of bytes 2, 3 and 4. -/
def headerCheck (b2 b3 b4 : Byte) : Byte := b2 ^^^ b3 ^^^ b4

/-- The three header bytes that hold kind, mark, sequence count, tag and carry nibble (Table 11-4). -/
def Cell.headerBytes (c : Cell) : Byte × Byte × Byte :=
  (BitVec.ofNat 8 (c.kind.toField * 64 + c.mark.toField * 16 + c.seq),
    BitVec.ofNat 8 (c.tag / 16),
    BitVec.ofNat 8 (c.tag % 16 * 16 + c.carry))

/-- The 96 bytes of a cell as a screen port sends it. -/
def Cell.toBytes (c : Cell) : List Byte :=
  let h := c.headerBytes
  [0xC6, 0x39, h.1, h.2.1, h.2.2, headerCheck h.1 h.2.1 h.2.2] ++ c.payload

/-- The cell 96 bytes spell, when its header is good: the four conditions of R2. -/
def Cell.ofBytes (bs : List Byte) : Option Cell :=
  let b2 := bs.getD 2 0
  let b3 := bs.getD 3 0
  let b4 := bs.getD 4 0
  let b5 := bs.getD 5 0
  if b5 = headerCheck b2 b3 b4 then
    match CellKind.ofField (b2.toNat / 64), Mark.ofField (b2.toNat / 16 % 4) with
    | some kind, some mark =>
      if kind = .management ∧ mark ≠ .clear then none
      else
        some { kind, mark, seq := b2.toNat % 16, tag := b3.toNat * 16 + b4.toNat / 16,
               carry := b4.toNat % 16, payload := bs.drop 6 }
    | _, _ => none
  else none

/-! ## CRC-16 (R162) -/

/-- One bit of the register: generator x^16 + x^12 + x^5 + 1. -/
def crcBit (r : BitVec 16) : BitVec 16 := if r.msb then (r <<< 1) ^^^ 0x1021 else r <<< 1

/-- One byte, most significant bit first. -/
def crcByte (r : BitVec 16) (b : Byte) : BitVec 16 :=
  crcBit (crcBit (crcBit (crcBit (crcBit (crcBit (crcBit (crcBit (r ^^^ (b.setWidth 16 <<< 8)))))))))

/-- The CRC-16: preset to FFFFh, neither reflected nor inverted. -/
def crc16 (bs : List Byte) : BitVec 16 := bs.foldl crcByte 0xFFFF

/-! ## Envelopes and frames (Table 11-5) -/

/-- The bytes of a report: the start pair, then identity, kind, body length and body under the CRC. -/
def reportBytes (unitId : Nat) (r : Report) : List Byte :=
  let body := r.body.getD []
  let covered := bytesOf 4 unitId ++ bytesOf 1 r.kind.toField ++ bytesOf 2 body.length ++ body
  [0xA3, 0x5D] ++ covered ++ bytesOf 2 (crc16 covered).toNat

/-- The sum of bytes modulo 256. -/
def byteSum (bs : List Byte) : Byte := bs.foldl (· + ·) 0

/-- The flags byte of a reply: bit 0 EARLIER_REPLY_LOST, bit 1 RESTARTED (R185). -/
def Reply.flagsByte (r : Reply) : Byte := BitVec.ofNat 8 (r.earlierLost.toNat + 2 * r.restarted.toNat)

/-- The bytes of a reply frame. -/
def Reply.toBytes (r : Reply) : List Byte :=
  let body := r.flagsByte :: (bytesOf 1 r.result.toField ++ r.fields)
  let summed := bytesOf 1 r.kind ++ bytesOf 1 body.length ++ body
  0xE1 :: (summed ++ [-(byteSum summed)])

end Sys2Proof.Machine
end

