-- ==== Sys2Proof/Machine/Tariff.lean ====
section
/-! DEFINITION. The tariff unit (chapter 6): the five stages of the charge computation, TARIFF-PUT and the copy
at a new stay. -/

namespace Sys2Proof.Machine

/-- Stage 1: add the pre-offset, floored at 0 (R105). -/
def TariffSet.stage1 (t : TariffSet) (p : Nat) : Nat := ((p : Int) + t.preOffset).toNat

/-- Stage 2: scale in 256ths, half up (R106). -/
def TariffSet.stage2 (t : TariffSet) (x1 : Nat) : Nat := (x1 * t.scale + 128) / 256

/-- Stage 3: add the post-offset, saturated to 0..65,535 (R107). -/
def TariffSet.stage3 (t : TariffSet) (x2 : Nat) : Nat := min 65535 ((x2 : Int) + t.postOffset).toNat

/-- Stage 4: the limits, low test first (R108). -/
def TariffSet.stage4 (t : TariffSet) (x3 : Nat) : Nat :=
  if x3 < t.lowCompare then t.lowSet else if t.highCompare < x3 then t.highSet else x3

/-- The charge for a base price under a set (R104, R109). -/
def TariffSet.charge (t : TariffSet) (p : Nat) : Nat := t.stage4 (t.stage3 (t.stage2 (t.stage1 p)))

/-- The charge computed with the live set of the room's class (R104). -/
def State.chargeFor (s : State) (p : Nat) : Nat := s.live[s.room.cls].charge p

/-- The set a TARIFF-PUT carries, its scale clamped (R102). -/
def tariffOf (b : TariffPutBody) : TariffSet :=
  { preOffset := b.preOffset, scale := clamp 0 1023 b.scale, postOffset := b.postOffset,
    lowCompare := b.lowCompare, lowSet := b.lowSet, highCompare := b.highCompare, highSet := b.highSet }

/-- TARIFF-PUT at its owner: refused for a class above 3, else the staged set of the class is replaced whole
(R102). -/
def tariffPut (b : TariffPutBody) (s : State) : Option State :=
  match four? b.cls with
  | none => none
  | some c =>
    some { s with staged := s.staged.set c (tariffOf b) }

/-- The copy of the four staged sets into the live sets at a new stay (R103). -/
def State.copyTariffs (s : State) : State := { s with live := s.staged }

/-- TARIFF_PUT: a tariff set handed to the tariff unit (R102, R165). -/
def execTariffPut (b : TariffPutBody) (s : State) : Host.Outcome State Fault Refusal :=
  .next (s.running fun s => s.takeMsg (tariffPut b))

end Sys2Proof.Machine
end

