-- ==== Sys2Proof/Machine/Evaluation.lean ====
section
/-! DEFINITION. Lane evaluation (R56 to R60) and the making of rental records it may ask for (R81 to R83). -/

namespace Sys2Proof.Machine

/-! ## Making a record and making room -/

/-- A new record for a catalogued title: copies from the entry, nothing previewed, viewed or bought (R81). -/
def RentalRec.fresh (e : CatalogEntry) : RentalRec :=
  { title := e.title, rating := e.rating, window := e.window, allowance := e.preview, grace := e.grace,
    billAlias := e.billAlias, state := .preview, previewSec := 0, viewedSec := 0, windowLeft := 0,
    amount := none, serial := none, refunded := false, seen := false }

/-- The title an eviction would take out: with 16 records held, the oldest evictable one's (R82). -/
def State.evicted? (s : State) : Option Nat :=
  if s.rentals.length < 16 then none else (s.rentals.find? RentalRec.evictable).map RentalRec.title

/-- The table with a place made: with 16 records held, without the oldest evictable one (R82). -/
def State.roomForRecord (s : State) : List RentalRec :=
  if s.rentals.length < 16 then s.rentals else s.rentals.eraseP RentalRec.evictable

/-- Make a place and put a new record at the end of the creation order (R81, R82). -/
def State.createRecord (s : State) (r : RentalRec) : State := { s with rentals := s.roomForRecord ++ [r] }

/-! ## Evaluation -/

/-- The state the ordered tests give lane `n`, and whether step 7 asks for a record (R56, R58). -/
def State.laneChoice (s : State) (n : Fin 4) : LaneState × Bool :=
  match s.lanes[n].service with
  | none => (.idle, false)
  | some k =>
    match s.service? k with
    | none => (.absent, false)
    | some r =>
      if s.effectiveCeiling n < s.effectiveRating r then (.locked, false)
      else
        match r.onAir? with
        | none => (.clear, false)
        | some t =>
          if s.room.state = .vacant then (.offer, false)
          else
            match s.rental? t with
            | some rec =>
              match rec.state with
              | .active => (.rented, false)
              | .preview => (.preview, false)
              | .spent => (.offer, false)
              | .expired => (.offer, false)
              | .void => (.offer, false)
            | none =>
              match s.catalog? t with
              | none => (.offer, false)
              | some e => if 0 < e.preview ∧ s.placeAvailable then (.preview, true) else (.offer, false)

/-- The code raised by entering a state: LANE_LOCKED 4 + n, LANE_OFFER 8 + n (R60, R74). -/
def entryCode (st : LaneState) (n : Fin 4) : List Nat :=
  match st with
  | .locked => [4 + n.val]
  | .offer => [8 + n.val]
  | .idle | .absent | .clear | .preview | .rented => []

/-- Enter the state an evaluation gave: entering a non-viewing state purges, LOCKED and OFFER raise their codes,
and an evaluation that keeps the state does neither (R60). -/
def State.enter (s : State) (n : Fin 4) (st : LaneState) : State :=
  if st = s.lanes[n].state then s
  else
    (s.modLane n fun l => { (if st.viewing then l else l.purge) with state := st }).raiseCodes (entryCode st n)

/-- The catalog entry of the title for which an evaluation of the lane would create a record. -/
def State.wantedRecord? (s : State) (n : Fin 4) : Option CatalogEntry :=
  if (s.laneChoice n).2 then (s.titleRunning? n).bind s.catalog? else none

/-- One evaluation of lane `n` (R56): the title in view, the record step 7 may create, the new state with its
purge and code; and the lanes the rental engine then sends causes to, once each: the other lanes on a title a
record was created for and the lanes on a title evicted for it (R58, R81, R83). -/
def State.evaluate (s : State) (n : Fin 4) : State × List (Fin 4) :=
  let st := (s.laneChoice n).1
  let view := s.titleRunning? n
  let s1 := s.modLane n fun l => { l with title := view }
  match s.wantedRecord? n with
  | none => (s1.enter n st, [])
  | some e =>
    let s2 := (s1.createRecord (.fresh e)).enter n st
    (s2, lanesWhere fun m => m != n && (s2.onTitle e.title m || s1.evicted?.any fun t => s2.onTitle t m))

end Sys2Proof.Machine
end

