-- ==== Sys2Proof/Machine/Ticks.lean ====
section
/-! DEFINITION. What a second tick does at each of its owners (R149), and the one engine that brings outstanding
work to an end: causes of re-evaluation and owners' tick work, each taken whole, in an order the spec leaves
open. -/

namespace Sys2Proof.Machine

/-! ## House time (R150) -/

def State.houseTick (s : State) : State :=
  { s with clock.houseTime := if 4294967295 ≤ s.clock.houseTime then 0 else s.clock.houseTime + 1 }

/-! ## The framer (R8, R12) -/

/-- Leave LOCKED for HUNT: the partial cell discarded, a sync loss counted, FEED_LOST latched and code 1 raised
(R8). -/
def State.leaveLocked (s : State) : State :=
  let s1 : State :=
    { s with
      framer.state := .hunt, framer.integrator := 0, framer.silence := 0, framer.sawC6 := false,
      framer.bytes := [], framer.handOn := false, framer.syncLosses := satAdd s.framer.syncLosses 1 }
  (s1.latch .feedLost).raiseCode 1

/-- A tick that finds the framer LOCKED adds 1 to the silence count; at 2 the framer leaves LOCKED (R12). In
HUNT and CONFIRM the tick does nothing (R5). -/
def State.framerTick (s : State) : State :=
  match s.framer.state with
  | .locked =>
    if 2 ≤ s.framer.silence + 1 then s.leaveLocked
    else { s with framer.silence := s.framer.silence + 1 }
  | .hunt => s
  | .confirm => s

/-! ## A lane (R68, R69, R73) -/

/-- The events a lane's tick hands to the audit counters, before the mark is cleared (R73). -/
def State.laneTickEvents (s : State) (n : Fin 4) : List AuditEvent :=
  (if s.lanes[n].mark then [s.laneEvent n .viewSeconds] else []) ++
    (if s.lanes[n].state = .locked then [s.laneEvent n .lockSeconds] else [])

/-- The no-picture watch has run out at this tick: the run rises from 4 to 5 (R69). -/
def Lane.darkens (l : Lane) : Bool := !l.mark && l.state.viewing && l.run == 4

/-- The picture watch of one tick (R68). -/
def Lane.watch (l : Lane) : Lane :=
  if l.mark then { l with run := 0, mark := false }
  else if l.state.viewing then { l with run := min 5 (l.run + 1) }
  else l

def State.laneTick (s : State) (n : Fin 4) : State :=
  ((s.auditAll (s.laneTickEvents n)).modLane n Lane.watch).raiseCodes
    (if s.lanes[n].darkens then [12 + n.val] else [])

/-! ## The rental engine (R85 to R87) -/

/-- What one record's metering calls for once every record is metered. -/
structure MeterCalls where
  /-- Preview seconds rose. -/
  previewed : Bool
  /-- Viewed seconds rose. -/
  viewed    : Bool
  /-- PREVIEW_ENDING is due (R86). -/
  ending    : Bool
  /-- RENTAL_EXPIRING is due (R87). -/
  expiring  : Bool
  /-- The record entered SPENT or EXPIRED. -/
  ended     : Bool
  deriving DecidableEq, Repr

/-- PREVIEW: a marked second raises the preview seconds, and the rise may spend the allowance or bring what
remains to 30 or less for the first time (R85, R86). -/
def RentalRec.meterPreview (r : RentalRec) : RentalRec × MeterCalls :=
  if r.seen then
    let p := r.previewSec + 1
    let spent : Bool := p == r.allowance
    ({ r with previewSec := p, seen := false, state := if spent then .spent else .preview },
      { previewed := true, viewed := false, expiring := false, ended := spent,
        ending := !spent && decide (r.allowance - p ≤ 30) &&
          (decide (30 < r.allowance - r.previewSec) || r.previewSec == 0) })
  else ({ r with seen := false }, ⟨false, false, false, false, false⟩)

/-- ACTIVE: a marked second raises the viewed seconds, which stop at 172,800; the window falls by 1 at every
tick, and at 0 the record enters EXPIRED (R85, R87). -/
def RentalRec.meterActive (r : RentalRec) : RentalRec × MeterCalls :=
  let viewed : Bool := r.seen && decide (r.viewedSec < 172800)
  let left := r.windowLeft - 1
  let expired : Bool := left == 0
  ({ r with viewedSec := r.viewedSec + viewed.toNat, windowLeft := left, seen := false,
            state := if expired then .expired else .active },
    { previewed := false, viewed, ending := false, expiring := left == 300, ended := expired })

/-- One record at one tick (R85). -/
def RentalRec.meter (r : RentalRec) : RentalRec × MeterCalls :=
  match r.state with
  | .preview => r.meterPreview
  | .active => r.meterActive
  | .spent => ({ r with seen := false }, ⟨false, false, false, false, false⟩)
  | .expired => ({ r with seen := false }, ⟨false, false, false, false, false⟩)
  | .void => ({ r with seen := false }, ⟨false, false, false, false, false⟩)

/-- The audit events a record's metering calls for (R99). -/
def RentalRec.meterEvents (r : RentalRec) : List AuditEvent :=
  (if r.meter.2.previewed then [rentalEvent .previewSeconds r.rating] else []) ++
    (if r.meter.2.viewed then [rentalEvent .rentedSeconds r.rating] else [])

/-- The attention codes a record's metering calls for: 16 + n for each lane on the title in PREVIEW, and 20
(R86, R87, R98). -/
def State.meterCodes (s : State) (r : RentalRec) : List Nat :=
  (if r.meter.2.ending then
    (lanesWhere fun n => s.onTitle r.title n && s.lanes[n].state == .preview).map fun n => 16 + n.val
   else []) ++
    (if r.meter.2.expiring then [20] else [])

/-- The titles whose records enter SPENT or EXPIRED at this tick. -/
def State.endingTitles (s : State) : List Nat :=
  (s.rentals.filter fun r => r.meter.2.ended).map RentalRec.title

/-- The lanes a tick at the rental engine sends causes to (R86, R87). -/
def State.rentalTickCauses (s : State) : List (Fin 4) :=
  lanesWhere fun n => s.endingTitles.any fun t => s.onTitle t n

/-- The meter's work at one tick, whole for all records; codes and audit reports follow it (R85). -/
def State.rentalTick (s : State) : State :=
  let s1 : State := { s with rentals := s.rentals.map fun r => r.meter.1 }
  (s1.auditAll (s.rentals.flatMap RentalRec.meterEvents)).raiseCodes (s.rentals.flatMap s.meterCodes)

/-! ## The lock unit (R141, R143) -/

/-- One second less; at 0 it is over. -/
def countDown : Option Nat → Option Nat
  | none => none
  | some n => if n ≤ 1 then none else some (n - 1)

/-- The lease ends at this tick. -/
def State.leaseEnds (s : State) (n : Fin 4) : Bool :=
  match s.lock.leases[n] with
  | none => false
  | some k => k ≤ 1

def State.lockTick (s : State) : State :=
  let leases := mapEach countDown s.lock.leases
  { s with lock.lockout := countDown s.lock.lockout, lock.leases := leases }.raiseCodes
    (if leases.toList.any (· == some 60) then [21] else [])

/-- The lanes a tick at the lock unit sends causes to: those whose lease ends (R143). -/
def State.lockTickCauses (s : State) : List (Fin 4) := lanesWhere s.leaseEnds

/-! ## The audit counters (R158) -/

/-- How many lanes an occupancy setup finds in its states. -/
def State.occupied (s : State) (u : Setup) (o : Occupancy) : Nat :=
  (lanesWhere fun n =>
    o.states[s.lanes[n].state.index] &&
      (match u.filter with
       | .lanes set => set[n]
       | .none => true
       | .service _ => true
       | .ratingAtLeast _ => true)).length

/-- What a sample of `n` lanes adds to the value. -/
def Occupancy.gain (o : Occupancy) (last : Option Nat) (n : Nat) : Nat :=
  match o.mode with
  | .sum => n
  | .atLeast => if o.threshold ≤ n then 1 else 0
  | .rise =>
    match last with
    | none => 0
    | some k => if k < o.threshold ∧ o.threshold ≤ n then 1 else 0

/-- Counter 0 at a tick. -/
def State.sampled (s : State) (c : Counter) : Counter :=
  match c.setup with
  | none => c
  | some u =>
    match u.kind, u.occupancy with
    | .occupancy, some o =>
      let n := s.occupied u o
      { c with value := satAdd32 c.value (o.gain c.last n), last := some n }
    | _, _ => c

def State.countersTick (s : State) : State := { s with counters := s.counters.set 0 (s.sampled s.counters[0]) }

/-! ## The panel port (R176) -/

/-- The first tick that finds a frame in assembly marks it; the second abandons it with BAD_FRAME. -/
def State.panelTick (s : State) : State :=
  match s.frame with
  | none => s
  | some f =>
    if f.marked then { s with frame := none }.placeReply 0 .badFrame []
    else { s with frame := some { f with marked := true } }

/-! ## Outstanding work -/

def Task.isCause : Task → Bool
  | .cause _ => true
  | .houseTime | .framer | .laneTick _ | .rental | .lock | .counters | .panel => false

/-- Take one piece of outstanding work whole; the lanes it sends causes to are outstanding after it. -/
def State.perform (s : State) : Task → State × List (Fin 4)
  | .cause n => s.evaluate n
  | .houseTime => (s.houseTick, [])
  | .framer => (s.framerTick, [])
  | .laneTick n => (s.laneTick n, [])
  | .rental => (s.rentalTick, s.rentalTickCauses)
  | .lock => (s.lockTick, s.lockTickCauses)
  | .counters => (s.countersTick, [])
  | .panel => (s.panelTick, [])

/-- The titles the outstanding causes would have records created for. -/
def State.wantedTitles (s : State) (ts : List Task) : List Nat :=
  ts.filterMap fun t =>
    match t with
    | .cause n => (s.wantedRecord? n).map CatalogEntry.title
    | .houseTime | .framer | .laneTick _ | .rental | .lock | .counters | .panel => none

/-- The order of the outstanding work can make a difference. With owners' tick work among it, that is when a
cause is outstanding too or the rental engine's or the lock unit's tick would send one; with causes alone, when
records of two titles are asked for, or a record is asked for that evicts another. In every other case the
pieces leave the same state in any order, and the model takes them as they stand (log entry 1). -/
def State.racing (s : State) (ts : List Task) : Bool :=
  decide (1 < ts.length) &&
    (if ts.any (fun t => !t.isCause) then
      ts.any Task.isCause || (ts.contains .rental && !s.rentalTickCauses.isEmpty) ||
        (ts.contains .lock && !s.lockTickCauses.isEmpty)
     else
      match s.wantedTitles ts with
      | [] => false
      | t :: rest => rest.any (· != t) || decide (16 ≤ s.rentals.length))

/-- Which of the outstanding pieces is taken next: where the order makes a difference, any of them may be. -/
def State.nextTask (s : State) (ts : List Task) : Nat :=
  if s.racing ts then Config.arbiter s.choices % ts.length else 0

/-- A choice of order is used up where one was made. -/
def State.noteChoice (s : State) (ts : List Task) : State :=
  if s.racing ts then { s with choices := s.choices + 1 } else s

/-- Bring all outstanding work to an end, piece by piece. The first argument bounds the number of pieces. -/
def State.settle : Nat → List Task → State → State
  | 0, _, s => s
  | _ + 1, [], s => s
  | k + 1, t :: ts, s =>
    let i := s.nextTask (t :: ts)
    let r := (s.noteChoice (t :: ts)).perform ((t :: ts).getD i t)
    State.settle k ((t :: ts).eraseIdx i ++ r.2.map Task.cause) r.1

/-- More than the pieces of work that one command can leave: at most 10 owners' works and 8 causes to begin
with, and at most 32 creations, each of which sends at most 3 causes more (log entry 5). -/
def settleBound : Nat := 256

/-- Send one cause of re-evaluation to each of some lanes (R59). -/
def State.deliver (s : State) (ls : List (Fin 4)) : State := s.settle settleBound (ls.map Task.cause)

/-- Send causes as a filter of the lanes. -/
def State.causeWhere (s : State) (p : Fin 4 → Bool) : State := s.deliver (lanesWhere p)

/-- The owners of the second tick (R149); each lane takes the tick for itself (R68). -/
def tickOwners : List Task :=
  [.houseTime, .framer, .laneTick 0, .laneTick 1, .laneTick 2, .laneTick 3, .rental, .lock, .counters, .panel]

/-- A second tick: the prescaler returns to 0 and every owner takes the tick (R148, R149). -/
def State.secondTick (s : State) : State :=
  { s with clock.prescaler := 0 }.settle settleBound tickOwners

end Sys2Proof.Machine
end

