-- ==== Sys2Proof/Machine/ServiceMap.lean ====
section
/-! DEFINITION. The service map (chapter 2): SVC-PUT, SVC-DROP, ON-AIR and continuity counting. -/

namespace Sys2Proof.Machine

/-- Put an entry into a list kept in ascending order of a number, replacing the entry that has its number. -/
def insertBy {α : Type} (key : α → Nat) (x : α) : List α → List α
  | [] => [x]
  | y :: ys =>
    if key x < key y then x :: y :: ys
    else if key x = key y then x :: ys
    else y :: insertBy key x ys

/-! ## The field tests of SVC-PUT (R23) -/

/-- An absent key family, or one in 0..31. -/
def familyOpt? : Option Nat → Option (Option (Fin 32))
  | none => some none
  | some n => (family? n).map some

/-- The components of a list all of whose tags and roles are in range, with no continuity state yet. -/
def components? : List ComponentField → Option (List Component)
  | [] => some []
  | f :: fs =>
    match Role.ofField f.role, components? fs with
    | some role, some cs =>
      if f.tag ≤ 4095 then some ({ tag := f.tag, role, expect := none, discs := 0 } :: cs) else none
    | _, _ => none

/-- The title on air of an SVC-PUT: absent, or not 0 and on a PAY service. -/
def titleOk (kind : ServiceKind) : Option Nat → Bool
  | none => true
  | some t => t != 0 && kind == .pay

/-- The record an SVC-PUT that passes the field tests carries, its rating clamped (R23). -/
def serviceOf (b : SvcPutBody) : Option ServiceRec :=
  match ServiceKind.ofField b.kind, familyOpt? b.family, components? b.components with
  | some kind, some family, some components =>
    if serviceOk b.service && titleOk kind b.title && decide (1 ≤ components.length) &&
        decide (components.length ≤ 6) && decide (components.map Component.tag).Nodup then
      some { number := b.service, kind, family, rating := clamp 0 7 b.rating, title := b.title, components }
    else none
  | _, _, _ => none

/-! ## The placement test (R24) -/

/-- The directory without the entries of one service. -/
def State.othersEntries (s : State) (n : Nat) : Vector (List DirEntry) 4 :=
  mapEach (fun bank : List DirEntry => bank.filter (·.service != n)) s.directory

/-- A tag of the new list has an entry that belongs to another service. -/
def State.tagOwned (s : State) (r : ServiceRec) : Bool :=
  r.components.any fun c => (s.othersEntries r.number).toList.any fun bank => bank.any (·.tag == c.tag)

/-- Some bank would come to more than 16 entries. -/
def State.bankOverflow (s : State) (r : ServiceRec) : Bool :=
  allLanes.any fun i =>
    16 < (s.othersEntries r.number)[i].length + (r.components.filter fun c => foldBank c.tag == i).length

/-- The service is new and the table holds 48 records. -/
def State.tableFull (s : State) (r : ServiceRec) : Bool :=
  (s.service? r.number).isNone && decide (48 ≤ s.services.length)

def State.placementOk (s : State) (r : ServiceRec) : Bool :=
  !s.tagOwned r && !s.bankOverflow r && !s.tableFull r

/-! ## Loading (R25, R26) -/

/-- Place one component's entry in its fold bank. -/
def placeEntry (n : Nat) (d : Vector (List DirEntry) 4) (c : Component) : Vector (List DirEntry) 4 :=
  d.set (foldBank c.tag) (insertBy DirEntry.tag ⟨c.tag, n, c.role⟩ d[foldBank c.tag])

/-- Continuity state carries over by tag (R25). -/
def carryOver (old : List Component) (c : Component) : Component :=
  match old.find? (·.tag == c.tag) with
  | some o => { c with expect := o.expect, discs := o.discs }
  | none => c

/-- The record as loaded over the one it replaces. -/
def ServiceRec.loaded (r : ServiceRec) (old : Option ServiceRec) : ServiceRec :=
  { r with components := r.components.map (carryOver ((old.map ServiceRec.components).getD [])) }

/-- Load a record and its directory entries (R25). -/
def State.loadService (s : State) (r : ServiceRec) : State :=
  { s with
    services := insertBy ServiceRec.number (r.loaded (s.service? r.number)) s.services
    directory := r.components.foldl (placeEntry r.number) (s.othersEntries r.number) }

/-- Whether a load sends its cause: the service is new, or kind, rating, key family or title on air differ
(R26). -/
def loadCauses (old : Option ServiceRec) (r : ServiceRec) : Bool :=
  match old with
  | none => true
  | some o => o.kind != r.kind || o.rating != r.rating || o.family != r.family || o.title != r.title

/-- The lanes that select a service. -/
def State.selects (s : State) (n : Nat) (l : Fin 4) : Bool := s.lanes[l].service == some n

/-- SVC-PUT at its owner (R23 to R27). -/
def svcPut (b : SvcPutBody) (s : State) : Option State :=
  match serviceOf b with
  | none => none
  | some r =>
    if s.placementOk r then
      some ((s.loadService r).causeWhere fun l => loadCauses (s.service? r.number) r && s.selects r.number l)
    else none

/-! ## Dropping and titles on air -/

/-- Remove a service's directory entries, record and continuity state (R28). -/
def State.unloadService (s : State) (n : Nat) : State :=
  { s with services := s.services.filter (·.number != n), directory := s.othersEntries n }

/-- SVC-DROP at its owner (R28). -/
def svcDrop (n : Nat) (s : State) : Option State :=
  if serviceOk n then
    if (s.service? n).isSome then some ((s.unloadService n).causeWhere (s.selects n)) else some s
  else none

/-- Set the title on air of one service. -/
def State.setOnAir (s : State) (n : Nat) (title : Option Nat) : State :=
  { s with services := s.services.map fun r => if r.number = n then { r with title } else r }

/-- ON-AIR at its owner (R29). -/
def onAir (n : Nat) (title : Option Nat) (s : State) : Option State :=
  if serviceOk n then
    match s.service? n with
    | none => none
    | some r =>
      if titleOk r.kind title && r.kind == .pay then
        some ((s.setOnAir n title).causeWhere fun l => r.title != title && s.selects n l)
      else none
  else none

/-! ## Continuity (R31) -/

/-- A cell of the tag with sequence count `seq` has hit. -/
def Component.arrive (c : Component) (seq : Nat) : Component :=
  { c with
    expect := some ((seq + 1) % 16)
    discs := match c.expect with
      | none => c.discs
      | some e => if e = seq then c.discs else satAdd c.discs 1 }

def State.noteArrival (s : State) (n tag seq : Nat) : State :=
  { s with services := s.services.map fun r =>
      if r.number = n then
        { r with components := r.components.map fun c => if c.tag = tag then c.arrive seq else c }
      else r }

/-! ## The commands -/

/-- SVC_PUT: a service record handed to the service map (R25, R165). -/
def execSvcPut (b : SvcPutBody) (s : State) : Host.Outcome State Fault Refusal :=
  .next (s.running fun s => s.takeMsg (svcPut b))

/-- SVC_DROP (R28, R165). -/
def execSvcDrop (service : Nat) (s : State) : Host.Outcome State Fault Refusal :=
  .next (s.running fun s => s.takeMsg (svcDrop service))

/-- ON_AIR (R29, R165). -/
def execOnAir (service : Nat) (title : Option Nat) (s : State) : Host.Outcome State Fault Refusal :=
  .next (s.running fun s => s.takeMsg (onAir service title))

end Sys2Proof.Machine
end

