-- ==== Sys2Proof/Machine/KeyStore.lean ====
section
/-! DEFINITION. The key store and the cell cipher (chapter 3), and the way of a media cell from the service map
to the lanes' output queues (R13 to R15, R62 to R64, R67, R70). -/

namespace Sys2Proof.Machine

/-! ## Loading and wiping keys -/

def KeyFamily.setSlot (f : KeyFamily) (p : Parity) (k : KeySlot) : KeyFamily :=
  match p with
  | .even => { f with even := k }
  | .odd => { f with odd := k }

/-- A key goes live in an idle slot and is staged in the slot in use (R38, R39). -/
def KeyFamily.load (f : KeyFamily) (p : Parity) (k : Key) : KeyFamily :=
  if f.inUse p then f.setSlot p { f.slot p with staged := some k }
  else f.setSlot p { live := some k, staged := none }

def State.modFamily (s : State) (n : Fin 32) (f : KeyFamily → KeyFamily) : State :=
  { s with keys := s.keys.set n (f s.keys[n]) }

/-- KEY-PUT at its owner (R37 to R39). -/
def keyPut (b : KeyPutBody) (s : State) : Option State :=
  match family? b.family, Parity.ofField b.parity with
  | some n, some p => some (s.modFamily n fun f => f.load p ⟨b.key, b.check⟩)
  | _, _ => none

/-- Clear both slots and the parity last seen; the key-miss count is kept (R40). -/
def KeyFamily.wipe (f : KeyFamily) : KeyFamily := { KeyFamily.cold with keyMisses := f.keyMisses }

/-- KEY-WIPE at its owner (R40). -/
def keyWipe (family : Nat) (s : State) : Option State :=
  match family? family with
  | some n => some (s.modFamily n KeyFamily.wipe)
  | none => none

/-! ## A scrambled cell -/

/-- A slot that is left promotes its staged key, if it holds one (R44). -/
def KeySlot.promote (k : KeySlot) : KeySlot :=
  match k.staged with
  | some key => { live := some key, staged := none }
  | none => k

/-- The parity step: the first mark is noted, an equal one changes nothing, and a turn notes the new one and
promotes in the slot just left (R43, R44). -/
def KeyFamily.parityStep (f : KeyFamily) (p : Parity) : KeyFamily :=
  match f.parity with
  | none => { f with parity := some p }
  | some q =>
    if q = p then f
    else { f.setSlot q (f.slot q).promote with parity := some p }

/-- Keystream byte `j` for sequence count `seq` (R46). -/
def keystreamByte (k : Key) (seq j : Nat) : Byte :=
  BitVec.ofNat 8 ((k.bytes[j % 8]'(Nat.mod_lt j (by decide))).toNat + 73 * j + 151 * seq)

/-- Exclusive OR with the keystream, from byte `j` on (R47). -/
def decipher (k : Key) (seq : Nat) : Nat → List Byte → List Byte
  | _, [] => []
  | j, b :: bs => (b ^^^ keystreamByte k seq j) :: decipher k seq (j + 1) bs

/-- The cell under a live key: its clear bytes when clear byte 0 is the check byte (R47). -/
def Key.open? (k : Key) (c : Cell) : Option (List Byte) :=
  let clear := decipher k c.seq 0 c.payload
  if clear.head? = some k.check then some clear else none

/-! ## Key-misses (R49, R70) -/

/-- Tell a lane of a key-miss: its count rises and the audit counters are told, nothing else. -/
def State.tellKeyMiss (s : State) (n : Fin 4) : State :=
  (s.modLane n fun l => { l with keyMisses := satAdd l.keyMisses 1 }).audit (s.laneEvent n .keyMisses)

/-- A key-miss of a service's cell: the family's count, if there is a family, and every lane that selects the
service (R49). -/
def State.keyMiss (s : State) (family : Option (Fin 32)) (service : Nat) : State :=
  let s1 := match family with
    | some f => s.modFamily f fun k => { k with keyMisses := satAdd k.keyMisses 1 }
    | none => s
  (lanesWhere (s.selects service)).foldl State.tellKeyMiss s1

/-! ## The lanes' queues -/

/-- A queued cell, or an overrun: with 8 cells held the cell is dropped, counted, latched and reported with the
lane and the cell's service (R64). -/
def State.queueCell (s : State) (n : Fin 4) (service : Nat) (c : Cell) : State :=
  if s.lanes[n].queue.length < 8 then s.modLane n fun l => { l with queue := l.queue ++ [c] }
  else
    (s.modLane n fun l => { l with overruns := satAdd l.overruns 1, latch := true }).audit
      { kind := .overruns, lane := some n, service := some service, rating := none }

/-- A picture-seen event marks the title's record, if it has one (R84). -/
def State.pictureSeen (s : State) (t : Nat) : State :=
  { s with rentals := s.rentals.map fun r => if r.title = t then { r with seen := true } else r }

/-- The fill cell that stands for a media cell (R63). -/
def Cell.fillFor (c : Cell) : Cell :=
  { kind := .fill, mark := .clear, seq := c.seq, tag := c.tag, carry := c.carry, payload := .replicate 90 0 }

/-- What a PICTURE media cell does once queued: the picture mark and, in PREVIEW or RENTED, the picture-seen
event for the title in view (R67). -/
def State.notePicture (s : State) (n : Fin 4) : State :=
  let s1 := s.modLane n fun l => { l with mark := true }
  match s.lanes[n].state, s.lanes[n].title with
  | .preview, some t => s1.pictureSeen t
  | .rented, some t => s1.pictureSeen t
  | _, _ => s1

/-- Lane `n` takes a cell offered to it (Table 4-4). -/
def State.offerLane (s : State) (service : Nat) (role : Role) (c : Cell) (n : Fin 4) : State :=
  match s.lanes[n].state with
  | .clear | .preview | .rented =>
    if s.lanes[n].queue.length < 8 ∧ role = .picture then (s.queueCell n service c).notePicture n
    else s.queueCell n service c
  | .offer | .locked => s.queueCell n service c.fillFor
  | .idle | .absent => s

/-- Offer a clear media cell to every lane that selects its service (R15). -/
def State.offerCell (s : State) (service : Nat) (role : Role) (c : Cell) : State :=
  (lanesWhere (s.selects service)).foldl (fun s n => s.offerLane service role c n) s

/-! ## The path of a media cell -/

/-- A scrambled cell in the key store (R42 to R49). -/
def State.scrambledCell (s : State) (e : DirEntry) (c : Cell) (p : Parity) : State :=
  match (s.service? e.service).bind ServiceRec.family with
  | none => s.keyMiss none e.service
  | some f =>
    let s1 := s.modFamily f fun k => k.parityStep p
    match (s1.keys[f].slot p).live.bind fun k => k.open? c with
    | none => s1.keyMiss (some f) e.service
    | some clear => s1.offerCell e.service e.role { c with mark := .clear, payload := clear }

/-- A media cell at the service map (R13, R14, R21, R31). -/
def State.mediaCell (s : State) (c : Cell) : State :=
  match s.lookup? c.tag with
  | none => { s with framer.tagMiss := satAdd s.framer.tagMiss 1 }
  | some e =>
    let s1 := s.noteArrival e.service c.tag c.seq
    match c.mark with
    | .clear => s1.offerCell e.service e.role c
    | .scrambled p => s1.scrambledCell e c p

/-! ## The commands -/

/-- KEY_PUT: a key handed to the key store (R37, R165). -/
def execKeyPut (b : KeyPutBody) (s : State) : Host.Outcome State Fault Refusal :=
  .next (s.running fun s => s.takeMsg (keyPut b))

/-- KEY_WIPE (R40, R165). -/
def execKeyWipe (family : Nat) (s : State) : Host.Outcome State Fault Refusal :=
  .next (s.running fun s => s.takeMsg (keyWipe family))

end Sys2Proof.Machine
end

