-- ==== Sys2Proof/Machine/Lock.lean ====
section
/-! DEFINITION. The lock unit (chapter 8): LOCK-SET, the PIN test and the lockout, UNLOCK and RELOCK, and the
stay-end effects. -/

namespace Sys2Proof.Machine

/-- What a request is answered: the state its owner leaves, the result and the result's fields. -/
structure Answer where
  state  : State
  result : Result
  fields : List Byte

/-- Hand a request to its owner and place the reply it builds, under the request's kind byte (R177, R178). -/
def State.reply (s : State) (kind : Nat) (owner : State → Answer) : State :=
  let a := owner s
  a.state.placeReply kind a.result a.fields

/-- A request answered with no change and no fields. -/
def Answer.plain (s : State) (r : Result) : Answer := { state := s, result := r, fields := [] }

/-! ## LOCK-SET -/

/-- The policy a LOCK-SET carries, each quantity clamped (R135). -/
def policyOf (b : LockSetBody) : Policy :=
  { houseLimit := clamp 0 7 b.houseLimit, defaultCeiling := clamp 0 7 b.defaultCeiling,
    laneCeilings := mapEach (clamp 0 7) b.laneCeilings, barred := flagsOf b.barred,
    leaseLength := clamp 300 43200 b.leaseLength, discreet := clamp 0 8 b.discreet }

/-- Leases of barred lanes end. -/
def LockUnit.endBarred (l : LockUnit) : LockUnit :=
  { l with leases := zipEach (fun (b : Bool) lease => if b then none else lease) l.policy.barred l.leases }

/-- The effects of a LOCK-SET on the lock unit (R136). -/
def State.setPolicy (s : State) (p : Policy) : State :=
  let l : LockUnit :=
    { s.lock with
      policy := p
      roomCeiling := if s.room.state = .vacant then p.defaultCeiling else s.lock.roomCeiling }
  { s with lock := l.endBarred }

/-- LOCK-SET at its owner (R135, R136). -/
def lockSet (b : LockSetBody) (s : State) : Option State :=
  if flagsOk b.barred then some ((s.setPolicy (policyOf b)).deliver allLanes) else none

/-! ## The PIN test (R140, R141) -/

/-- A lockout starts: 900 s, the count back to 0, the alert latched and code 3 raised (R141). -/
def State.startLockout (s : State) : State :=
  ({ s with lock.attempts := 0, lock.lockout := some 900 }.latch .pinLockout).raiseCode 3

/-- A wrong or missing PIN: the attempt count rises, the third failure starts a lockout, and the failure is
reported with the lane (R140). -/
def State.pinFailure (s : State) (n : Fin 4) : State :=
  let s1 := s.audit { kind := .pinFailures, lane := some n, service := none, rating := none }
  if 3 ≤ s.lock.attempts + 1 then s1.startLockout else { s1 with lock.attempts := s.lock.attempts + 1 }

/-- The PIN test: the result that ends the request, or nothing when it passes, and the state it leaves. -/
def State.pinTest (s : State) (n : Fin 4) (pin : Option PinField) : Option Result × State :=
  if s.lock.lockout.isSome then (some .lockedOut, s)
  else
    match s.lock.pin with
    | none => (some .noPin, s)
    | some p =>
      if pin = some p then (none, { s with lock.attempts := 0 })
      else (some .badPin, s.pinFailure n)

/-! ## UNLOCK and RELOCK -/

/-- UNLOCK at its owner: lane in range, room OCCUPIED, lane not barred, PIN test; then the lease starts from the
policy's lease length and the lane evaluates (R142). -/
def unlock (lane : Nat) (pin : Option PinField) (s : State) : Answer :=
  match four? lane with
  | none => .plain s .badArg
  | some n =>
    if s.room.state = .vacant then .plain s .vacant
    else if s.lock.policy.barred[n] then .plain s .barred
    else
      match s.pinTest n pin with
      | (some r, t) => .plain t r
      | (none, t) =>
        let u := { t with lock.leases := t.lock.leases.set n (some t.lock.policy.leaseLength) }.deliver [n]
        { state := u, result := .done,
          fields := bytesOf 1 u.lanes[n].state.toField ++ bytesOf 2 t.lock.policy.leaseLength }

/-- RELOCK at its owner: a lease, if any, ends and the lane evaluates (R144). -/
def relock (lane : Nat) (s : State) : Answer :=
  match four? lane with
  | none => .plain s .badArg
  | some n =>
    let u := match s.lock.leases[n] with
      | none => s
      | some _ => { s with lock.leases := s.lock.leases.set n none }.deliver [n]
    { state := u, result := .done, fields := bytesOf 1 u.lanes[n].state.toField }

/-! ## Stay end (R138) -/

def State.stayEnd (s : State) : State :=
  { s with
    lock.pin := none, lock.attempts := 0, lock.lockout := none, lock.leases := .replicate 4 none,
    lock.roomCeiling := s.lock.policy.defaultCeiling }

/-! ## The commands -/

/-- LOCK_SET (R136, R165). -/
def execLockSet (b : LockSetBody) (s : State) : Host.Outcome State Fault Refusal :=
  .next (s.running fun s => s.takeMsg (lockSet b))

/-- UNLOCK, panel request 04h (R142). -/
def execUnlock (lane : Nat) (pin : Option PinField) (s : State) : Host.Outcome State Fault Refusal :=
  .next (s.running fun s => s.reply 0x04 (unlock lane pin))

/-- RELOCK, panel request 05h (R144). -/
def execRelock (lane : Nat) (s : State) : Host.Outcome State Fault Refusal :=
  .next (s.running fun s => s.reply 0x05 (relock lane))

/-- LOCKOUT_END: the lock unit's tick, in the case that it brings the lockout remaining to 0 (R141). In any
other state the event does not arise (log entry 4). -/
def execLockoutEnd (s : State) : Host.Outcome State Fault Refusal :=
  .next (s.running fun s => if s.lock.lockout = some 1 then s.settle settleBound [.lock] else s)

/-- LEASE_END: the lock unit's tick, in the case that it brings the lane's lease to 0 (R143; log entry 4). -/
def execLeaseEnd (lane : Fin 4) (s : State) : Host.Outcome State Fault Refusal :=
  .next (s.running fun s => if s.lock.leases[lane] = some 1 then s.settle settleBound [.lock] else s)

end Sys2Proof.Machine
end

