-- ==== Sys2Proof/Machine/Stay.lean ====
section
/-! DEFINITION. Stays and the charge list (chapter 7): STAY-OPEN, STAY-CLOSE, the making of charge records,
CHARGE-POLL, CHARGE-ACK and ASK-ROOM. -/

namespace Sys2Proof.Machine

/-! ## Charge records -/

/-- The record the charge list would make now (R122). -/
def State.chargeRecord (s : State) (kind : ChargeKind) (title billAlias rating amount : Nat)
    (reversed : Option Nat) : ChargeRec :=
  { serial := s.nextSerial, kind, stay := s.room.stay, title, billAlias,
    discreet := s.lock.policy.discreet ≤ rating, amount, stamp := s.houseTime?, reversed }

/-- Append a record: it takes the next serial and moves the spend by its amount (R122). -/
def State.appendCharge (s : State) (c : ChargeRec) : State :=
  { s with
    charges := s.charges ++ [c]
    nextSerial := s.nextSerial + 1
    room.spend := match c.kind with
      | .charge => s.room.spend + c.amount
      | .credit => s.room.spend - c.amount }

/-! ## STAY-OPEN and STAY-CLOSE -/

/-- Raise ROOM_CHANGED and send one cause to every lane. -/
def State.roomChanged (s : State) : State := (s.raiseCode 2).deliver allLanes

/-- A STAY-OPEN body that is not refused, with its class and flag read and its quantities clamped (R115). -/
structure StaySettings where
  stay        : Nat
  cls         : Fin 4
  ceiling     : Nat
  pin         : Option PinField
  roomCeiling : Nat
  purchasePin : Bool
  deriving DecidableEq, Repr

def staySettings (b : StayOpenBody) : Option StaySettings :=
  match four? b.cls, flag? b.purchasePin with
  | some cls, some purchasePin =>
    if b.stay != 0 && pinOptDigits b.pin then
      some { stay := b.stay, cls, ceiling := clamp 0 1000000 b.ceiling, pin := b.pin,
             roomCeiling := clamp 0 7 b.roomCeiling, purchasePin }
    else none
  | _, _ => none

/-- The effects of an open before its code and causes (R116, R137). -/
def State.openStay (s : State) (c : StaySettings) : State :=
  { s.copyTariffs with
    room := { state := .occupied, stay := c.stay, cls := c.cls, spend := 0, ceiling := c.ceiling,
              purchasePin := c.purchasePin, staleStays := s.room.staleStays }
    lock.pin := c.pin
    lock.roomCeiling := c.roomCeiling }

/-- The effects of an update before its code and causes (R117, R137). -/
def State.updateStay (s : State) (c : StaySettings) : State :=
  { s with
    room.cls := c.cls, room.ceiling := c.ceiling, room.purchasePin := c.purchasePin,
    lock.attempts := if c.pin = s.lock.pin then s.lock.attempts else 0,
    lock.pin := c.pin, lock.roomCeiling := c.roomCeiling }

/-- The effects of a matching STAY-CLOSE before its code and causes (R120, R138). -/
def State.closeStay (s : State) : State :=
  { s with
    room.state := .vacant, room.spend := 0, room.purchasePin := false, rentals := [] }.stayEnd

/-- STAY-OPEN at its owner: an open, an update, or a close and an open (R115 to R118). -/
def stayOpen (b : StayOpenBody) (s : State) : Option State :=
  match staySettings b with
  | none => none
  | some c =>
    match s.room.state with
    | .vacant => some (s.openStay c).roomChanged
    | .occupied =>
      if c.stay = s.room.stay then some (s.updateStay c).roomChanged
      else some (s.closeStay.openStay c).roomChanged

/-- STAY-CLOSE at its owner: it closes its own open stay, or is ignored as stale (R120, R121). -/
def stayClose (stay : Nat) (s : State) : Option State :=
  if stay = 0 then none
  else if s.room.state = .occupied ∧ stay = s.room.stay then some s.closeStay.roomChanged
  else some { s with room.staleStays := satAdd s.room.staleStays 1 }

/-! ## CHARGE-POLL and CHARGE-ACK -/

/-- One record as a CHARGE-RPT presents it: a discreet record shows title 0 and its alias (R126). -/
def ChargeRec.presented (c : ChargeRec) : List Byte :=
  bytesOf 3 c.serial ++ bytesOf 1 c.kind.toField ++ bytesOf 2 c.stay ++
    bytesOf 2 (if c.discreet then 0 else c.title) ++
    optBytes (bytesOf 2) (if c.discreet then some c.billAlias else none) ++
    bytesOf 2 c.amount ++ optBytes (bytesOf 4) c.stamp ++ optBytes (bytesOf 3) c.reversed

/-- The body of a CHARGE-RPT (R125). -/
def State.chargeReport (s : State) : List Byte :=
  bytesOf 1 s.charges.length ++ bytesOf 4 s.nextSerial ++ listBytes ChargeRec.presented (s.charges.take 4)

/-- CHARGE-POLL at its owner (R125). -/
def chargePoll (s : State) : Option State := some (s.offerReport .charge s.chargeReport)

/-- CHARGE-ACK at its owner: every record with a serial of `n` or less is removed (R127). -/
def chargeAck (n : Nat) (s : State) : Option State :=
  some { s with charges := s.charges.filter fun c => n < c.serial }

/-! ## ASK-ROOM (R129) -/

def State.roomFields (s : State) : List Byte :=
  bytesOf 1 s.room.state.toField ++ bytesOf 2 s.room.stay ++ bytesOf 1 s.room.cls.val ++
    bytesOf 3 s.room.spend ++ bytesOf 3 s.room.ceiling ++ flagByte s.room.purchasePin ++
    bytesOf 1 s.lock.roomCeiling ++ flagByte s.lock.pin.isSome ++ optBytes (bytesOf 2) s.lock.lockout ++
    bytesOf 1 s.framer.state.toField ++ optBytes (bytesOf 4) s.houseTime? ++ bytesOf 1 s.charges.length

def askRoom (s : State) : Answer := { state := s, result := .done, fields := s.roomFields }

/-! ## The commands -/

/-- STAY_OPEN (R115, R165). -/
def execStayOpen (b : StayOpenBody) (s : State) : Host.Outcome State Fault Refusal :=
  .next (s.running fun s => s.takeMsg (stayOpen b))

/-- STAY_CLOSE (R120, R165). -/
def execStayClose (stay : Nat) (s : State) : Host.Outcome State Fault Refusal :=
  .next (s.running fun s => s.takeMsg (stayClose stay))

/-- CHARGE_POLL (R125, R165). -/
def execChargePoll (s : State) : Host.Outcome State Fault Refusal :=
  .next (s.running fun s => s.takeMsg chargePoll)

/-- CHARGE_ACK (R127, R165). -/
def execChargeAck (serial : Nat) (s : State) : Host.Outcome State Fault Refusal :=
  .next (s.running fun s => s.takeMsg (chargeAck serial))

/-- ASK_ROOM, panel request 08h (R129). -/
def execAskRoom (s : State) : Host.Outcome State Fault Refusal :=
  .next (s.running fun s => s.reply 0x08 askRoom)

end Sys2Proof.Machine
end

