-- ==== Sys2Proof/Machine/Rental.lean ====
section
/-! DEFINITION. The rental engine's messages and requests (chapter 5): TITLE-PUT, TITLE-DROP, BUY, REFUND and
ASK-TITLE. Its tick is in Ticks.lean, its making of records in Evaluation.lean. -/

namespace Sys2Proof.Machine

/-! ## The catalog (R76 to R78) -/

/-- The entry a TITLE-PUT carries, its quantities clamped (R76). -/
def entryOf (b : TitlePutBody) : CatalogEntry :=
  { title := b.title, rating := clamp 0 7 b.rating, basePrice := clamp 0 60000 b.basePrice,
    window := clamp 600 172800 b.window, preview := clamp 0 600 b.preview, grace := clamp 0 900 b.grace,
    billAlias := b.billAlias }

/-- The lane's selection is a loaded PAY service with the title on air (R22, R78). -/
def State.runs (s : State) (t : Nat) (n : Fin 4) : Bool := s.titleRunning? n == some t

/-- TITLE-PUT at its owner (R76, R78). -/
def titlePut (b : TitlePutBody) (s : State) : Option State :=
  if b.title = 0 ∨ b.billAlias = 0 then none
  else if (s.catalog? b.title).isNone ∧ 32 ≤ s.catalog.length then none
  else
    some ({ s with catalog := insertBy CatalogEntry.title (entryOf b) s.catalog }.causeWhere (s.runs b.title))

/-- TITLE-DROP at its owner (R77, R78). -/
def titleDrop (t : Nat) (s : State) : Option State :=
  if t = 0 then none
  else if (s.catalog? t).isSome then
    some ({ s with catalog := s.catalog.filter (·.title != t) }.causeWhere (s.runs t))
  else some s

/-! ## BUY -/

def State.modRental (s : State) (t : Nat) (f : RentalRec → RentalRec) : State :=
  { s with rentals := s.rentals.map fun r => if r.title = t then f r else r }

/-- A record as a purchase leaves it: copies from the entry, preview seconds cut to the allowance, ACTIVE with a
fresh window, nothing viewed and the mark cleared (R92). -/
def RentalRec.bought (r : RentalRec) (e : CatalogEntry) (amount serial : Nat) : RentalRec :=
  { r with
    rating := e.rating, window := e.window, allowance := e.preview, grace := e.grace, billAlias := e.billAlias,
    previewSec := min r.previewSec e.preview, state := .active, viewedSec := 0, windowLeft := e.window,
    seen := false, amount := some amount, serial := some serial }

/-- The table with a record for the title, made if there was none (R92, effect 1). -/
def State.withRecord (s : State) (e : CatalogEntry) : State :=
  match s.rental? e.title with
  | some _ => s
  | none => s.createRecord (.fresh e)

/-- The title evicted when a purchase makes a record. -/
def State.purchaseEvicts? (s : State) (e : CatalogEntry) : Option Nat :=
  match s.rental? e.title with
  | some _ => none
  | none => s.evicted?

/-- A purchase taken (R92): the record, the CHARGE, the audit event and the causes. -/
def State.purchase (s : State) (n : Fin 4) (e : CatalogEntry) (amount : Nat) : State :=
  let s1 := (s.withRecord e).modRental e.title fun r => r.bought e amount s.nextSerial
  let s2 := s1.appendCharge (s1.chargeRecord .charge e.title e.billAlias e.rating amount none)
  let s3 := s2.audit { kind := .purchases, lane := some n, service := none, rating := some e.rating }
  s3.causeWhere fun m => s.onTitle e.title m || (s.purchaseEvicts? e).any fun t => s.onTitle t m

/-- The fields of BUY's answers DONE and ALREADY: amount, serial and a time (R93). -/
def purchaseFields (amount serial time : Nat) : List Byte :=
  bytesOf 2 amount ++ bytesOf 3 serial ++ bytesOf 3 time

/-- Tests 7 to 9 and the purchase, once the PIN test has passed or is not asked (Table 5-5). -/
def State.buyTested (s : State) (n : Fin 4) (e : CatalogEntry) : Answer :=
  if (s.rental? e.title).isNone ∧ s.placeAvailable = false then .plain s .tableFull
  else if s.canCharge = false then .plain (s.latch .listFull) .listFull
  else
    let amount := s.chargeFor e.basePrice
    if s.room.ceiling < s.room.spend + amount then
      { state := s.latch .spendCeiling, result := .ceiling,
        fields := bytesOf 2 amount ++ bytesOf 3 s.room.spend }
    else
      { state := s.purchase n e amount, result := .done,
        fields := purchaseFields amount s.nextSerial e.window }

/-- The title's record, when it is ACTIVE (BUY's test 3). -/
def State.activeRental? (s : State) (t : Nat) : Option RentalRec := (s.rental? t).filter (·.state == .active)

/-- BUY at its owner: the nine tests in order, then the purchase (R89 to R93). -/
def buy (lane title : Nat) (pin : Option PinField) (s : State) : Answer :=
  match four? lane with
  | none => .plain s .badArg
  | some n =>
    if title = 0 ∨ 65535 < title then .plain s .badArg
    else if s.room.state = .vacant then .plain s .vacant
    else
      match s.activeRental? title with
      | some r =>
        { state := s, result := .already,
          fields := purchaseFields (r.amount.getD 0) (r.serial.getD 0) r.windowLeft }
      | none =>
        match s.catalog? title with
        | none => .plain s .notOffered
        | some e =>
          if s.effectiveCeiling n < e.rating then .plain s .locked
          else if s.room.purchasePin then
            match s.pinTest n pin with
            | (some r, t) => .plain t r
            | (none, t) => t.buyTested n e
          else s.buyTested n e

/-! ## REFUND -/

/-- A refund taken (R95): the CREDIT, the record VOID, the audit event and the causes. -/
def State.refunded (s : State) (r : RentalRec) : State :=
  let s1 := s.appendCharge (s.chargeRecord .credit r.title r.billAlias r.rating (r.amount.getD 0) r.serial)
  let s2 := s1.modRental r.title fun r => { r with state := .void, refunded := true, windowLeft := 0 }
  let s3 := s2.audit (rentalEvent .refunds r.rating)
  s3.causeWhere (s.onTitle r.title)

/-- REFUND at its owner: the five tests in order, then the refund (R94, R95). -/
def refund (title : Nat) (s : State) : Answer :=
  if title = 0 ∨ 65535 < title then .plain s .badArg
  else
    match s.rental? title with
    | none => .plain s .notRented
    | some r =>
      if r.state ≠ .active then .plain s .notRented
      else if r.refunded then .plain s .refundedBefore
      else if r.grace ≤ r.viewedSec then .plain s .gracePassed
      else if s.canCharge = false then .plain (s.latch .listFull) .listFull
      else
        { state := s.refunded r, result := .done,
          fields := bytesOf 2 (r.amount.getD 0) ++ bytesOf 3 s.nextSerial }

/-! ## ASK-TITLE (R97) -/

/-- The catalog part, with the price now. -/
def State.catalogPart (s : State) (e : CatalogEntry) : List Byte :=
  bytesOf 1 e.rating ++ bytesOf 2 e.basePrice ++ bytesOf 3 e.window ++ bytesOf 2 e.preview ++
    bytesOf 2 e.grace ++ bytesOf 2 e.billAlias ++ bytesOf 2 (s.chargeFor e.basePrice)

def RentalRec.part (r : RentalRec) : List Byte :=
  bytesOf 1 r.state.toField ++ bytesOf 1 r.rating ++ bytesOf 2 r.allowance ++ bytesOf 2 r.previewSec ++
    bytesOf 3 r.viewedSec ++ bytesOf 2 r.grace ++ bytesOf 3 r.windowLeft ++ optBytes (bytesOf 2) r.amount ++
    optBytes (bytesOf 3) r.serial ++ flagByte r.refunded

def askTitle (title : Nat) (s : State) : Answer :=
  if title = 0 ∨ 65535 < title then .plain s .badArg
  else
    { state := s, result := .done,
      fields := optBytes s.catalogPart (s.catalog? title) ++ optBytes RentalRec.part (s.rental? title) }

/-! ## The commands -/

/-- TITLE_PUT (R76, R165). -/
def execTitlePut (b : TitlePutBody) (s : State) : Host.Outcome State Fault Refusal :=
  .next (s.running fun s => s.takeMsg (titlePut b))

/-- TITLE_DROP (R77, R165). -/
def execTitleDrop (title : Nat) (s : State) : Host.Outcome State Fault Refusal :=
  .next (s.running fun s => s.takeMsg (titleDrop title))

/-- BUY, panel request 02h (R89). -/
def execBuy (lane title : Nat) (pin : Option PinField) (s : State) : Host.Outcome State Fault Refusal :=
  .next (s.running fun s => s.reply 0x02 (buy lane title pin))

/-- REFUND, panel request 03h (R94). -/
def execRefund (title : Nat) (s : State) : Host.Outcome State Fault Refusal :=
  .next (s.running fun s => s.reply 0x03 (refund title))

/-- ASK_TITLE, panel request 07h (R97). -/
def execAskTitle (title : Nat) (s : State) : Host.Outcome State Fault Refusal :=
  .next (s.running fun s => s.reply 0x07 (askTitle title))

/-- PREVIEW_SPENT: the rental engine's tick, in the case that it brings the title's preview seconds to the
allowance (R86; log entry 4). -/
def execPreviewSpent (title : Nat) (s : State) : Host.Outcome State Fault Refusal :=
  .next (s.running fun s =>
    if s.rentals.any fun r => r.title == title && r.state == .preview && r.meter.2.ended then
      s.settle settleBound [.rental]
    else s)

/-- RENTAL_EXPIRY: the rental engine's tick, in the case that it brings the title's window to 0 (R87; log
entry 4). -/
def execRentalExpiry (title : Nat) (s : State) : Host.Outcome State Fault Refusal :=
  .next (s.running fun s =>
    if s.rentals.any fun r => r.title == title && r.state == .active && r.meter.2.ended then
      s.settle settleBound [.rental]
    else s)

end Sys2Proof.Machine
end

