-- ==== Sys2Proof/Machine/LaneCommands.lean ====
section
/-! DEFINITION. The lanes' requests and events (chapter 4): PICK, ASK-LANE, the screen port and the no-picture
watch. -/

namespace Sys2Proof.Machine

/-- The reply fields of PICK (section 4.3). -/
def Lane.pickFields (l : Lane) : List Byte :=
  bytesOf 1 l.state.toField ++ optBytes (bytesOf 2) l.service ++ optBytes (bytesOf 2) l.title

/-- A selection that differs purges the queue first and is then set (R61). -/
def Lane.select (l : Lane) (service : Option Nat) : Lane :=
  if l.service = service then l else { l.purge with service := service }

/-- An optional service number in range. -/
def serviceOptOk : Option Nat → Bool
  | none => true
  | some n => serviceOk n

/-- PICK at its owner (R61). -/
def pick (lane : Nat) (service : Option Nat) (s : State) : Answer :=
  match four? lane with
  | none => .plain s .badArg
  | some n =>
    if serviceOptOk service then
      let u := (s.modLane n fun l => l.select service).deliver [n]
      { state := u, result := .done, fields := u.lanes[n].pickFields }
    else .plain s .badArg

/-- The reply fields of ASK-LANE (R72). -/
def State.laneFields (s : State) (n : Fin 4) : List Byte :=
  let l := s.lanes[n]
  bytesOf 1 l.state.toField ++ optBytes (bytesOf 2) l.service ++ optBytes (bytesOf 2) l.title ++
    bytesOf 1 (s.effectiveCeiling n) ++ optBytes (bytesOf 2) s.lock.leases[n] ++
    bytesOf 1 l.queue.length ++ bytesOf 1 l.run ++ flagByte l.latch ++
    bytesOf 2 l.mediaSent ++ bytesOf 2 l.fillSent ++ bytesOf 2 l.overruns ++ bytesOf 2 l.keyMisses ++
    bytesOf 2 l.purged

/-- ASK-LANE at its owner: the record is reported and the overrun latch then cleared (R71, R72). -/
def askLane (lane : Nat) (s : State) : Answer :=
  match four? lane with
  | none => .plain s .badArg
  | some n =>
    { state := s.modLane n fun l => { l with latch := false }, result := .done, fields := s.laneFields n }

/-! ## The screen port (R65) -/

/-- The port begins the oldest queued cell when it is free. -/
def Lane.begin (l : Lane) : Lane :=
  match l.sending, l.queue with
  | none, c :: cs => { l with sending := some c, queue := cs }
  | _, _ => l

/-- The cell in transmission completes and is counted by its kind (R65). With none in transmission nothing happens, which
the rules do not say. DESIGN CHOICE (log entry 19), unsafe for claims about that case. -/
def Lane.complete (l : Lane) : Lane :=
  match l.sending with
  | none => l
  | some c =>
    match c.kind with
    | .fill => { l with sending := none, fillSent := satAdd l.fillSent 1 }
    | .media | .management => { l with sending := none, mediaSent := satAdd l.mediaSent 1 }

/-! ## The commands -/

/-- SCREEN_PORT_BEGIN: the port looks at the ready line, whose level the command carries, and begins a cell if
it is asserted, no cell is in transmission and the queue is not empty (R65; log entry 3). -/
def execScreenPortBegin (lane : Fin 4) (ready : Bool) (s : State) : Host.Outcome State Fault Refusal :=
  .next (s.running fun s =>
    let s1 := { s with screenReady := s.screenReady.set lane ready }
    if ready then s1.modLane lane Lane.begin else s1)

/-- CELL_SENT: the last byte of the cell in transmission (R65; log entry 19). -/
def execCellSent (lane : Fin 4) (s : State) : Host.Outcome State Fault Refusal :=
  .next (s.running fun s => s.modLane lane Lane.complete)

/-- NO_PICTURE: the lane's tick, in the case that it brings the no-picture run to 5 (R69; log entry 4). -/
def execNoPicture (lane : Fin 4) (s : State) : Host.Outcome State Fault Refusal :=
  .next (s.running fun s => if s.lanes[lane].darkens then s.settle settleBound [.laneTick lane] else s)

/-- PICK, panel request 01h (R61). -/
def execPick (lane : Nat) (service : Option Nat) (s : State) : Host.Outcome State Fault Refusal :=
  .next (s.running fun s => s.reply 0x01 (pick lane service))

/-- ASK_LANE, panel request 06h (R72). -/
def execAskLane (lane : Nat) (s : State) : Host.Outcome State Fault Refusal :=
  .next (s.running fun s => s.reply 0x06 (askLane lane))

end Sys2Proof.Machine
end

