-- ==== Sys2Proof/Machine/Time.lean ====
section
/-! DEFINITION. House time and the audit counters (chapter 9): the prescaler, the second tick, TIME-MARK,
COUNT-SET and COUNT-POLL. -/

namespace Sys2Proof.Machine

/-! ## The prescaler (R148) -/

/-- One cycle of the reference clock: the prescaler counts it, or the second tick comes. Held in reset, the
prescaler stays at 0 (R148, R182). -/
def State.clockCycle (s : State) : State :=
  s.running fun s =>
    if 24576000 ≤ s.clock.prescaler + 1 then s.secondTick
    else { s with clock.prescaler := s.clock.prescaler + 1 }

/-! ## TIME-MARK (R151) -/

/-- The step of a mark, formed in full as a signed number (R151). -/
def State.markStep (s : State) (t : Nat) : Int := (t : Int) - (s.clock.houseTime : Int)

/-- TIME-MARK at its owner. -/
def timeMark (t : Nat) (s : State) : Option State :=
  let u : State := { s with clock := { prescaler := 0, houseTime := t, timeSet := true } }
  some (if 2 < s.markStep t ∨ s.markStep t < -2 then u.latch .timeStep else u)

/-! ## COUNT-SET (R156) -/

/-- The occupancy part held: absent unless the kind is OCCUPANCY; nothing when the part is absent or has a flag
or a mode out of range. -/
def occupancyOf : Option OccupancyField → Option Occupancy
  | none => none
  | some o =>
    match OccupancyMode.ofField o.mode with
    | none => none
    | some mode =>
      if flagsOk o.states then
        some { states := flagsOf o.states, mode, threshold := clamp 1 4 o.threshold }
      else none

/-- The setup a COUNT-SET carries, unless its kind, filter or occupancy part is refused. -/
def setupOf (b : CountSetBody) : Option Setup :=
  match EventKind.ofField b.kind with
  | none => none
  | some kind =>
    if filterAllowed kind b.filter && filterFieldsOk b.filter then
      if kind = .occupancy then
        if b.counter = 0 then
          match occupancyOf b.occupancy with
          | none => none
          | some o => some { kind, filter := filterOf b.filter, occupancy := some o }
        else none
      else some { kind, filter := filterOf b.filter, occupancy := none }
    else none

/-- COUNT-SET at its owner: the setup is replaced whole, the value cleared and the last occupancy absent. -/
def countSet (b : CountSetBody) (s : State) : Option State :=
  match four? b.counter, setupOf b with
  | some n, some u => some { s with counters := s.counters.set n { setup := some u, last := none, value := 0 } }
  | _, _ => none

/-! ## COUNT-POLL (R160) -/

def Filter.bytes : Filter → List Byte
  | .none => bytesOf 1 0
  | .service n => bytesOf 1 1 ++ bytesOf 2 n
  | .lanes set => bytesOf 1 2 ++ set.toList.flatMap flagByte
  | .ratingAtLeast r => bytesOf 1 3 ++ bytesOf 1 r

def Occupancy.bytes (o : Occupancy) : List Byte :=
  o.states.toList.flatMap flagByte ++ bytesOf 1 o.mode.toField ++ bytesOf 1 o.threshold

/-- One counter entry of a COUNT-RPT. -/
def Counter.entry (c : Counter) : List Byte :=
  flagByte c.setup.isSome ++
    optBytes (fun u : Setup => bytesOf 1 u.kind.toField ++ u.filter.bytes) c.setup ++
    optBytes Occupancy.bytes (c.setup.bind Setup.occupancy) ++ bytesOf 4 c.value

/-- The body of a COUNT-RPT. -/
def State.countReport (s : State) : List Byte :=
  optBytes (bytesOf 4) s.houseTime? ++ s.counters.toList.flatMap Counter.entry

/-- COUNT-POLL at its owner. -/
def countPoll (s : State) : Option State := some (s.offerReport .count s.countReport)

/-! ## The commands -/

/-- SECOND_TICK: the prescaler reaches its count and every owner takes the tick (R148, R149). -/
def execSecondTick (s : State) : Host.Outcome State Fault Refusal := .next (s.running State.secondTick)

/-- TIME_MARK (R151, R165). -/
def execTimeMark (t : Nat) (s : State) : Host.Outcome State Fault Refusal :=
  .next (s.running fun s => s.takeMsg (timeMark t))

/-- COUNT_SET (R156, R165). -/
def execCountSet (b : CountSetBody) (s : State) : Host.Outcome State Fault Refusal :=
  .next (s.running fun s => s.takeMsg (countSet b))

/-- COUNT_POLL (R160, R165). -/
def execCountPoll (s : State) : Host.Outcome State Fault Refusal :=
  .next (s.running fun s => s.takeMsg countPoll)

end Sys2Proof.Machine
end

