-- ==== Sys2Proof/Machine/Management.lean ====
section
/-! DEFINITION. The management engine and the return line (chapter 10): STATUS-POLL, ALERT-CLEAR, GROUP-SET,
UNIT-RESET, FEED-SET, the dispatch of messages, the reset line and power, and the sending of reports. -/

namespace Sys2Proof.Machine

/-! ## The STATUS-RPT body (R168) -/

def State.unitPart (s : State) : List Byte :=
  s.groups.toList.flatMap (bytesOf 2) ++ bytesOf 2 s.counts.taken ++ bytesOf 2 s.counts.crcBad ++
    bytesOf 2 s.counts.malformed ++ bytesOf 2 s.counts.refused ++ bytesOf 2 s.counts.pollsMissed

def State.alertPart (s : State) : List Byte := s.alerts.toList.flatMap fun a => bytesOf 1 a.toField

def State.cellPathPart (s : State) : List Byte :=
  bytesOf 1 s.framer.state.toField ++ bytesOf 2 s.framer.taken ++ bytesOf 2 s.framer.syncBad ++
    bytesOf 2 s.framer.headerBad ++ bytesOf 2 s.framer.tagMiss ++ bytesOf 2 s.framer.syncLosses

def State.lanePart (s : State) : List Byte :=
  s.lanes.toList.flatMap fun l => bytesOf 1 l.state.toField ++ optBytes (bytesOf 2) l.service

def State.roomPart (s : State) : List Byte :=
  bytesOf 1 s.room.state.toField ++ bytesOf 2 s.room.stay ++ bytesOf 3 s.room.spend ++
    bytesOf 3 s.room.ceiling ++ bytesOf 1 s.charges.length ++ bytesOf 4 s.nextSerial ++
    bytesOf 2 s.room.staleStays

/-- The lock block of R146. -/
def State.lockPart (s : State) : List Byte :=
  bytesOf 1 s.lock.policy.houseLimit ++ bytesOf 1 s.lock.policy.defaultCeiling ++
    s.lock.policy.laneCeilings.toList.flatMap (bytesOf 1) ++ s.lock.policy.barred.toList.flatMap flagByte ++
    bytesOf 2 s.lock.policy.leaseLength ++ bytesOf 1 s.lock.policy.discreet ++ bytesOf 1 s.lock.roomCeiling ++
    flagByte s.lock.pin.isSome ++ bytesOf 1 s.lock.attempts ++ optBytes (bytesOf 2) s.lock.lockout ++
    s.lock.leases.toList.flatMap (optBytes (bytesOf 2))

def State.timePart (s : State) : List Byte := flagByte s.clock.timeSet ++ optBytes (bytesOf 4) s.houseTime?

def Component.entry (c : Component) : List Byte :=
  bytesOf 2 c.tag ++ bytesOf 1 c.role.toField ++ bytesOf 2 c.discs

/-- One entry of the service list (R33). -/
def ServiceRec.entry (r : ServiceRec) : List Byte :=
  bytesOf 2 r.number ++ bytesOf 1 r.kind.toField ++ optBytes (fun f : Fin 32 => bytesOf 1 f.val) r.family ++
    bytesOf 1 r.rating ++ optBytes (bytesOf 2) r.title ++ listBytes Component.entry r.components

/-- One entry of the family list (R52): presence marks, never keys. -/
def KeyFamily.entry (f : KeyFamily) : List Byte :=
  bytesOf 1 (parityField f.parity) ++ flagByte f.even.live.isSome ++ flagByte f.even.staged.isSome ++
    flagByte f.odd.live.isSome ++ flagByte f.odd.staged.isSome ++ bytesOf 2 f.keyMisses

/-- The body of a STATUS-RPT, its nine parts in order. -/
def State.statusReport (s : State) : List Byte :=
  s.unitPart ++ s.alertPart ++ s.cellPathPart ++ s.lanePart ++ s.roomPart ++ s.lockPart ++ s.timePart ++
    listBytes ServiceRec.entry s.services ++ listBytes KeyFamily.entry s.keys.toList

/-! ## The engine's own messages -/

/-- STATUS-POLL at its owner (R168). -/
def statusPoll (s : State) : Option State := some (s.offerReport .status s.statusReport)

/-- ALERT-CLEAR at its owner: each kind whose flag is 1 becomes CLEAR (R173). -/
def alertClear (flags : Vector Nat 6) (s : State) : Option State :=
  if flagsOk flags then
    some { s with alerts := zipEach (fun (f : Bool) a => if f then AlertState.clear else a) (flagsOf flags) s.alerts }
  else none

/-- GROUP-SET at its owner: the four group numbers are replaced together (R166). -/
def groupSet (groups : Vector Nat 4) (s : State) : Option State := some { s with groups := groups }

/-- UNIT-RESET at its owner: a warm reset (R167). -/
def unitReset (s : State) : Option State := some s.warmReset

/-- FEED-SET at its owner, the framer: the lock threshold, clamped to 2..15, for the next boundary test (R11). -/
def feedSet (n : Nat) (s : State) : Option State := some { s with framer.threshold := clamp 2 15 n }

/-! ## Dispatch (R165, Table 10-2) -/

/-- Hand a message that passed the tests of R163 to its owner. -/
def State.dispatchMsg (s : State) (m : MgmtMsg) : State :=
  s.takeMsg (match m with
    | .svcPut b => svcPut b
    | .svcDrop n => svcDrop n
    | .onAir n t => onAir n t
    | .keyPut b => keyPut b
    | .keyWipe f => keyWipe f
    | .titlePut b => titlePut b
    | .titleDrop t => titleDrop t
    | .stayOpen b => stayOpen b
    | .stayClose n => stayClose n
    | .lockSet b => lockSet b
    | .tariffPut b => tariffPut b
    | .chargePoll => chargePoll
    | .chargeAck n => chargeAck n
    | .statusPoll => statusPoll
    | .timeMark t => timeMark t
    | .countSet b => countSet b
    | .countPoll => countPoll
    | .alertClear fs => alertClear fs
    | .groupSet gs => groupSet gs
    | .feedSet n => feedSet n
    | .unitReset => unitReset)

/-! ## The tests of a management cell (R163, R164) -/

/-- The destination forms of the envelope (R185). -/
inductive Destination where
  | unit (v : Nat)
  | group (v : Nat)
  | all
  deriving DecidableEq, Repr

def Destination.ofFields (form value : Nat) : Option Destination :=
  match form with
  | 0 => some (.unit value)
  | 1 => some (.group value)
  | 2 => some .all
  | _ => none

/-- The message is addressed to this unit: by its identity, by a group number that is not 0, or to all (R164). -/
def State.addressed (s : State) : Destination → Bool
  | .unit v => v == s.unitId
  | .group v => v != 0 && s.groups.toList.contains v
  | .all => true

/-- A management cell's payload at the management engine: CRC, destination form, addressing, kind and body
length, dispatch; the first test that fails decides (R163). -/
def State.managementCell (s : State) (payload : List Byte) : State :=
  if (crc16 (payload.take 88)).toNat ≠ natOf ((payload.drop 88).take 2) then s.countCrcBad
  else
    match Destination.ofFields (payload.getD 0 0).toNat (natOf ((payload.drop 1).take 4)) with
    | none => s.countMalformed
    | some d =>
      if s.addressed d then
        let length := (payload.getD 6 0).toNat
        if 81 < length then s.countMalformed
        else
          match readMgmt (payload.getD 5 0).toNat ((payload.drop 7).take length) with
          | none => s.countMalformed
          | some m => s.dispatchMsg m
      else s

/-! ## The return line (R170 to R172) -/

/-- The kinds that are LATCHED, as an ALERT-RPT lists them: each by its place in Table 10-3 (R172). -/
def alertList (alerts : Vector AlertState 6) : List Nat :=
  [0, 1, 2, 3, 4, 5].filter fun i => alerts.toList.getD i .clear == .latched

/-- The body of an ALERT-RPT that begins now. -/
def State.alertReport (s : State) : List Byte := listBytes (bytesOf 1) (alertList s.alerts)

/-- What a kind becomes when an ALERT-RPT's body is built. -/
def AlertState.carried : AlertState → AlertState
  | .clear => .clear
  | .latched => .reported
  | .reported => .reported

/-- The head report begins: an ALERT-RPT's body is built and its kinds become LATCHED-REPORTED (R172). -/
def State.beginHead (s : State) : State :=
  match s.reports with
  | [] => s
  | r :: rs =>
    if r.waitingAlert then
      { s with reports := { r with body := some s.alertReport } :: rs, alerts := mapEach AlertState.carried s.alerts }
    else s

/-- The report-sent completion: the head leaves, and an owed ALERT-RPT takes the place just freed (R170, R171). -/
def State.completeReport (s : State) : State :=
  let s1 := { s with reports := s.reports.tail, reportSent := 0 }
  if s1.owed then { s1.enqueue .alertWaiting with owed := false } else s1

/-- The bytes of the head report. -/
def State.headBytes (s : State) : List Byte :=
  match s.reports with
  | [] => []
  | r :: _ => reportBytes s.unitId r

/-- The modem takes the next byte of the head report; the first begins it and the last completes it (R170). -/
def State.takeReportByte (s : State) : State :=
  match s.reports with
  | [] => s
  | _ :: _ =>
    let s1 := if s.reportSent = 0 then s.beginHead else s
    let bs := s1.headBytes
    let s2 := { s1 with returnData := bs[s1.reportSent]?, reportSent := s1.reportSent + 1 }
    if bs.length ≤ s2.reportSent then s2.completeReport else s2

/-! ## The commands -/

/-- COLD_START: power is applied (R174). -/
def execColdStart (s : State) : Host.Outcome State Fault Refusal := .next s.coldStart

/-- RESET_LINE_ASSERT: a warm reset, and the part stays in reset while the line is held (R182). -/
def execResetLineAssert (s : State) : Host.Outcome State Fault Refusal := .next { s.warmReset with held := true }

/-- RESET_LINE_RELEASE: every block resumes (R182). -/
def execResetLineRelease (s : State) : Host.Outcome State Fault Refusal := .next { s with held := false }

/-- STATUS_POLL (R168, R165). -/
def execStatusPoll (s : State) : Host.Outcome State Fault Refusal :=
  .next (s.running fun s => s.takeMsg statusPoll)

/-- ALERT_CLEAR (R173, R165). -/
def execAlertClear (flags : Vector Nat 6) (s : State) : Host.Outcome State Fault Refusal :=
  .next (s.running fun s => s.takeMsg (alertClear flags))

/-- GROUP_SET (R166, R165). -/
def execGroupSet (groups : Vector Nat 4) (s : State) : Host.Outcome State Fault Refusal :=
  .next (s.running fun s => s.takeMsg (groupSet groups))

/-- UNIT_RESET (R167). -/
def execUnitReset (s : State) : Host.Outcome State Fault Refusal :=
  .next (s.running fun s => s.takeMsg unitReset)

/-- FEED_SET (R11, R165). -/
def execFeedSet (threshold : Nat) (s : State) : Host.Outcome State Fault Refusal :=
  .next (s.running fun s => s.takeMsg (feedSet threshold))

/-- RETURN_BYTE: with return ready asserted the modem takes the next byte of the head report; with it withdrawn
the report waits where it stands (R170; log entry 3). -/
def execReturnByte (ready : Bool) (s : State) : Host.Outcome State Fault Refusal :=
  .next (s.running fun s =>
    let s1 := { s with returnReady := ready }
    if ready then s1.takeReportByte else s1)

/-- One byte of a head report in transmission is left: the second CRC byte. -/
def State.lastByteDue (s : State) : Bool :=
  decide (0 < s.reportSent) && s.headBytes.length == s.reportSent + 1

/-- REPORT_SENT: the modem takes the last byte of the head report, in the case that one byte is left (R170; log
entry 4). -/
def execReportSent (s : State) : Host.Outcome State Fault Refusal :=
  .next (s.running fun s => if s.lastByteDue then { s with returnReady := true }.takeReportByte else s)

end Sys2Proof.Machine
end

