-- ==== Sys2Proof/Machine/Panel.lean ====
section
/-! DEFINITION. The panel port (chapter 11): the frame receiver, the dispatch of requests, the attention
requests and the end of a reply. -/

namespace Sys2Proof.Machine

/-! ## The attention requests (R181) -/

def attnRead (s : State) : Answer :=
  { state := s, result := .done, fields := bytesOf 1 s.lowestCode ++ bytesOf 1 s.codesBelow.length }

def attnAck (code : Nat) (s : State) : Answer :=
  if code = 0 ∨ 21 < code then .plain s .badArg
  else
    let u := { s with codes := s.codes.filter (· != code) }
    { state := u, result := .done, fields := bytesOf 1 u.lowestCode }

def attnFloor (n : Nat) (s : State) : Answer :=
  { state := { s with floor := clamp 1 32 n }, result := .done, fields := bytesOf 1 (clamp 1 32 n) }

/-! ## Dispatch of requests (R177, Table 11-1) -/

/-- Hand a request to its owner and place its reply under the request's kind byte. -/
def State.request (s : State) : PanelReq → State
  | .pick lane service => s.reply 0x01 (pick lane service)
  | .buy lane title pin => s.reply 0x02 (buy lane title pin)
  | .refund title => s.reply 0x03 (refund title)
  | .unlock lane pin => s.reply 0x04 (unlock lane pin)
  | .relock lane => s.reply 0x05 (relock lane)
  | .askLane lane => s.reply 0x06 (askLane lane)
  | .askTitle title => s.reply 0x07 (askTitle title)
  | .askRoom => s.reply 0x08 askRoom
  | .attnRead => s.reply 0x09 attnRead
  | .attnAck code => s.reply 0x0A (attnAck code)
  | .attnFloor n => s.reply 0x0B (attnFloor n)

/-! ## The frame receiver (R176) -/

/-- The frame has its kind, its length, as many body bytes as the length gives, and its check. -/
def Frame.whole (f : Frame) : Bool :=
  decide (3 ≤ f.bytes.length) && f.bytes.length == 3 + (f.bytes.getD 1 0).toNat

/-- The request a whole frame is, unless it is bad. -/
def Frame.request? (f : Frame) : Option PanelReq :=
  if f.charError || byteSum f.bytes != 0 then none
  else readPanel (f.bytes.getD 0 0).toNat ((f.bytes.drop 2).take (f.bytes.getD 1 0).toNat)

/-- A frame that has just become whole: handed to dispatch, or answered BAD_FRAME. -/
def State.finishFrame (s : State) (f : Frame) : State :=
  let s1 := { s with frame := none }
  match f.request? with
  | some q => s1.request q
  | none => s1.placeReply 0 .badFrame []

/-- A byte on panel receive. -/
def State.panelByte (s : State) (b : Byte) (charError : Bool) : State :=
  match s.frame with
  | none =>
    if b = 0xE1 ∧ charError = false then { s with frame := some ⟨[], false, false⟩ } else s
  | some f =>
    let g := { f with bytes := f.bytes ++ [b], charError := f.charError || charError }
    if g.whole then s.finishFrame g else { s with frame := some g }

/-- The transmitter has sent a reply's check byte: it begins the waiting reply, if there is one (R178).
With the transmitter idle nothing happens, which the rules do not say. DESIGN CHOICE (log entry 19), unsafe for claims
about that case. -/
def State.replySent (s : State) : State :=
  match s.sending with
  | none => s
  | some _ => { s with sending := s.waiting, waiting := none }

/-! ## The commands -/

/-- PANEL_BYTE (R176). -/
def execPanelByte (b : Byte) (charError : Bool) (s : State) : Host.Outcome State Fault Refusal :=
  .next (s.running fun s => s.panelByte b charError)

/-- FRAME_ABANDON: the panel port's tick, in the case that it finds a marked frame (R176; log entry 4). -/
def execFrameAbandon (s : State) : Host.Outcome State Fault Refusal :=
  .next (s.running fun s => if s.frame.any Frame.marked then s.settle settleBound [.panel] else s)

/-- ATTN_READ, panel request 09h (R181). -/
def execAttnRead (s : State) : Host.Outcome State Fault Refusal :=
  .next (s.running fun s => s.reply 0x09 attnRead)

/-- ATTN_ACK, panel request 0Ah (R181). -/
def execAttnAck (code : Nat) (s : State) : Host.Outcome State Fault Refusal :=
  .next (s.running fun s => s.reply 0x0A (attnAck code))

/-- ATTN_FLOOR, panel request 0Bh (R181). -/
def execAttnFloor (n : Nat) (s : State) : Host.Outcome State Fault Refusal :=
  .next (s.running fun s => s.reply 0x0B (attnFloor n))

/-- REPLY_SENT (R178; log entry 19). -/
def execReplySent (s : State) : Host.Outcome State Fault Refusal := .next (s.running State.replySent)

end Sys2Proof.Machine
end

