-- ==== Sys2Proof/Machine/Feed.lean ====
section
/-! DEFINITION. The cell framer (chapter 1): scanning, boundary tests, the header test and the split by kind. -/

namespace Sys2Proof.Machine

/-- The sync word: C6h and then 39h. -/
def isSync (bs : List Byte) : Bool := bs.take 2 == [0xC6, 0x39]

/-- A byte in HUNT: a C6h followed at once by 39h begins a cell, and the framer enters CONFIRM (R4). -/
def Framer.scan (f : Framer) (b : Byte) : Framer :=
  if f.sawC6 ∧ b = 0x39 then
    { f with state := .confirm, integrator := 1, sawC6 := false, bytes := [0xC6, 0x39], handOn := false }
  else { f with sawC6 := b == 0xC6 }

/-- A boundary test first cuts an integrator that stands above the threshold (R11). -/
def Framer.cut (f : Framer) : Nat := min f.integrator f.threshold

/-- Taking the cell that begins at a boundary (R6). -/
def Framer.take (f : Framer) (integrator : Nat) : Framer :=
  { f with state := .locked, integrator, silence := 0, handOn := true, taken := satAdd f.taken 1 }

/-- A good sync word at a boundary in CONFIRM (R5). -/
def Framer.confirmGood (f : Framer) : Framer :=
  if f.threshold ≤ f.cut + 1 then f.take f.threshold else { f with integrator := f.cut + 1, handOn := false }

/-- A bad sync word at a boundary in CONFIRM; the second byte of the pair is scanned (R5). -/
def Framer.confirmBad (f : Framer) (second : Byte) : Framer :=
  { f with state := .hunt, integrator := 0, bytes := [], handOn := false, sawC6 := second == 0xC6 }

/-- A bad sync word at a boundary in LOCKED: the integrator falls, the cell is dropped and counted, and at 0 the
framer leaves LOCKED and scans from the second byte of the pair (R7, R8). -/
def State.lockedBad (s : State) (second : Byte) : State :=
  let s1 : State :=
    { s with
      framer.integrator := s.framer.cut - 1, framer.handOn := false,
      framer.syncBad := satAdd s.framer.syncBad 1 }
  if s1.framer.integrator = 0 then { s1.leaveLocked with framer.sawC6 := second == 0xC6 } else s1

/-- The boundary test, once the first two bytes of a cell have arrived (R5 to R7). -/
def State.boundaryTest (s : State) : State :=
  let good := isSync s.framer.bytes
  let second := s.framer.bytes.getD 1 0
  match s.framer.state with
  | .hunt => s
  | .confirm => { s with framer := if good then s.framer.confirmGood else s.framer.confirmBad second }
  | .locked =>
    if good then { s with framer := s.framer.take (min (s.framer.cut + 1) s.framer.threshold) }
    else s.lockedBad second

/-- A taken cell is whole: its header is tested and it is passed on by its kind (R9, R10). -/
def State.wholeCell (s : State) (bs : List Byte) : State :=
  match Cell.ofBytes bs with
  | none => { s with framer.headerBad := satAdd s.framer.headerBad 1 }
  | some c =>
    match c.kind with
    | .management => s.managementCell c.payload
    | .fill => s
    | .media => s.mediaCell c

/-- The 96th byte of a cell has arrived: the next boundary begins, and a cell that was taken is passed on. -/
def State.cellEnd (s : State) : State :=
  let s1 : State := { s with framer.bytes := [], framer.handOn := false }
  if s.framer.handOn then s1.wholeCell s.framer.bytes else s1

/-- A byte inside CONFIRM or LOCKED. -/
def State.assembleByte (s : State) (b : Byte) : State :=
  let s1 : State := { s with framer.bytes := s.framer.bytes ++ [b] }
  if s1.framer.bytes.length = 2 then s1.boundaryTest
  else if 96 ≤ s1.framer.bytes.length then s1.cellEnd
  else s1

/-- A byte at the feed port. -/
def State.feedByte (s : State) (b : Byte) : State :=
  match s.framer.state with
  | .hunt => { s with framer := s.framer.scan b }
  | .confirm => s.assembleByte b
  | .locked => s.assembleByte b

/-! ## The commands -/

/-- FEED_BYTE (R4 to R10). -/
def execFeedByte (b : Byte) (s : State) : Host.Outcome State Fault Refusal :=
  .next (s.running fun s => s.feedByte b)

/-- FEED_SILENCE: the framer's tick, in the case that it brings the silence count to 2 (R12; log entry 4). -/
def execFeedSilence (s : State) : Host.Outcome State Fault Refusal :=
  .next (s.running fun s =>
    if s.framer.state = .locked ∧ 2 ≤ s.framer.silence + 1 then s.settle settleBound [.framer] else s)

end Sys2Proof.Machine
end

