-- ==== Sys2Proof/Machine/Dispatch.lean ====
section
/-! DEFINITION. Which meaning each command has: one arm per row of spec/opcode_table.json. -/

namespace Sys2Proof.Machine

def exec (i : Instr) (s : State) : Host.Outcome State Fault Refusal :=
  match i with
  | .coldStart => Sys2Proof.Machine.execColdStart s
  | .resetLineAssert => Sys2Proof.Machine.execResetLineAssert s
  | .resetLineRelease => Sys2Proof.Machine.execResetLineRelease s
  | .feedByte b => Sys2Proof.Machine.execFeedByte b s
  | .screenPortBegin lane ready => Sys2Proof.Machine.execScreenPortBegin lane ready s
  | .cellSent lane => Sys2Proof.Machine.execCellSent lane s
  | .secondTick => Sys2Proof.Machine.execSecondTick s
  | .feedSilence => Sys2Proof.Machine.execFeedSilence s
  | .noPicture lane => Sys2Proof.Machine.execNoPicture lane s
  | .previewSpent title => Sys2Proof.Machine.execPreviewSpent title s
  | .rentalExpiry title => Sys2Proof.Machine.execRentalExpiry title s
  | .lockoutEnd => Sys2Proof.Machine.execLockoutEnd s
  | .leaseEnd lane => Sys2Proof.Machine.execLeaseEnd lane s
  | .frameAbandon => Sys2Proof.Machine.execFrameAbandon s
  | .svcPut b => Sys2Proof.Machine.execSvcPut b s
  | .svcDrop service => Sys2Proof.Machine.execSvcDrop service s
  | .onAir service title => Sys2Proof.Machine.execOnAir service title s
  | .keyPut b => Sys2Proof.Machine.execKeyPut b s
  | .keyWipe family => Sys2Proof.Machine.execKeyWipe family s
  | .titlePut b => Sys2Proof.Machine.execTitlePut b s
  | .titleDrop title => Sys2Proof.Machine.execTitleDrop title s
  | .tariffPut b => Sys2Proof.Machine.execTariffPut b s
  | .stayOpen b => Sys2Proof.Machine.execStayOpen b s
  | .stayClose stay => Sys2Proof.Machine.execStayClose stay s
  | .chargePoll => Sys2Proof.Machine.execChargePoll s
  | .chargeAck serial => Sys2Proof.Machine.execChargeAck serial s
  | .lockSet b => Sys2Proof.Machine.execLockSet b s
  | .timeMark t => Sys2Proof.Machine.execTimeMark t s
  | .countSet b => Sys2Proof.Machine.execCountSet b s
  | .countPoll => Sys2Proof.Machine.execCountPoll s
  | .statusPoll => Sys2Proof.Machine.execStatusPoll s
  | .alertClear flags => Sys2Proof.Machine.execAlertClear flags s
  | .groupSet groups => Sys2Proof.Machine.execGroupSet groups s
  | .unitReset => Sys2Proof.Machine.execUnitReset s
  | .feedSet threshold => Sys2Proof.Machine.execFeedSet threshold s
  | .returnByte ready => Sys2Proof.Machine.execReturnByte ready s
  | .reportSent => Sys2Proof.Machine.execReportSent s
  | .panelByte b charError => Sys2Proof.Machine.execPanelByte b charError s
  | .pick lane service => Sys2Proof.Machine.execPick lane service s
  | .buy lane title pin => Sys2Proof.Machine.execBuy lane title pin s
  | .refund title => Sys2Proof.Machine.execRefund title s
  | .unlock lane pin => Sys2Proof.Machine.execUnlock lane pin s
  | .relock lane => Sys2Proof.Machine.execRelock lane s
  | .askLane lane => Sys2Proof.Machine.execAskLane lane s
  | .askTitle title => Sys2Proof.Machine.execAskTitle title s
  | .askRoom => Sys2Proof.Machine.execAskRoom s
  | .attnRead => Sys2Proof.Machine.execAttnRead s
  | .attnAck code => Sys2Proof.Machine.execAttnAck code s
  | .attnFloor n => Sys2Proof.Machine.execAttnFloor n s
  | .replySent => Sys2Proof.Machine.execReplySent s

end Sys2Proof.Machine
end

