-- ==== Sys2Proof/Safety.lean ====
section
/-! DEFINITION. What counts as a right state of the part, in the terms the statements use: what causes of
re-evaluation may change, the state each lane is due, the invariants the rules state, and the command a message
or a request is. -/

namespace Sys2Proof.Machine

/-! ## Lanes -/

/-- The state the tests of R56 give lane `n` when every record that evaluation asks for has been made: steps 1
to 8 in order, with step 7 read off the record. -/
def State.due (s : State) (n : Fin 4) : LaneState :=
  match s.lanes[n].service with
  | none => .idle
  | some k =>
    match s.service? k with
    | none => .absent
    | some r =>
      if s.effectiveCeiling n < s.effectiveRating r then .locked
      else
        match r.onAir? with
        | none => .clear
        | some t =>
          if s.room.state = .vacant then .offer
          else
            match (s.rental? t).map RentalRec.state with
            | some .active => .rented
            | some .preview => .preview
            | _ => .offer

/-- Lane `n` is as its evaluation leaves it: in the state it is due, with the title its selection is running in
view (R54, R56). -/
def State.laneRight (s : State) (n : Fin 4) : Prop :=
  s.lanes[n].state = s.due n ∧ s.lanes[n].title = s.titleRunning? n

/-- What re-evaluations may do to one lane's record: a new state and title in view, and the queue kept or purged
into the purged count. The selection, the cell in transmission, the mark, the run, the latch and the other
counts stay (R56, R60, R66). -/
def Lane.causedTo (l m : Lane) : Prop :=
  m = { l with state := m.state, title := m.title, queue := m.queue, purged := m.purged } ∧
    (m.queue = l.queue ∧ m.purged = l.purged ∨ m.queue = [] ∧ m.purged = min 65535 (l.purged + l.queue.length))

/-- `t` is what causes of re-evaluation may make of `u`: only the lanes, the rental table, the pending codes and
the model's count of free choices may differ; each lane only as `causedTo` says; every record of the table stood
there before or is a new one in PREVIEW for a catalogued title; and no pending code is lost. -/
def causedFrom (u t : State) : Prop :=
  t = { u with lanes := t.lanes, rentals := t.rentals, codes := t.codes, choices := t.choices } ∧
    (∀ n : Fin 4, u.lanes[n].causedTo t.lanes[n]) ∧
    (∀ r ∈ t.rentals, r ∈ u.rentals ∨ ∃ e ∈ u.catalog, 0 < e.preview ∧ r = RentalRec.fresh e) ∧
    ∀ c ∈ u.codes, c ∈ t.codes

/-! ## Outstanding work, as the rules give it -/

/-- Evaluation of lane `n` reaches step 7 for a title that has no record and a record of entry `e` is made: the tests
before step 7 have passed in an OCCUPIED room, the title is catalogued with an allowance above 0, and a place can be
had, free or by evicting (R56, R58, R81, R82). -/
def State.asksRecord (s : State) (n : Fin 4) (e : CatalogEntry) : Prop :=
  ∃ (k : Nat) (r : ServiceRec) (x : Nat),
    s.lanes[n].service = some k ∧ s.service? k = some r ∧ s.effectiveRating r ≤ s.effectiveCeiling n ∧
      r.onAir? = some x ∧ s.room.state = .occupied ∧ s.rental? x = none ∧ s.catalog? x = some e ∧ 0 < e.preview ∧
      (s.rentals.length < 16 ∨ ∃ y ∈ s.rentals, y.state = .expired ∧ y.refunded = false)

/-- A lane's record once an evaluation has given it a state and a title in view: entering IDLE, ABSENT, OFFER or LOCKED
purges, and entering a viewing state or keeping the state purges nothing (R60, R66). -/
def Lane.entering (l : Lane) (state : LaneState) (title : Option Nat) : Lane :=
  if state = l.state ∨ state = .clear ∨ state = .preview ∨ state = .rented then
    { l with state := state, title := title }
  else { l with state := state, title := title, queue := [], purged := min 65535 (l.purged + l.queue.length) }

/-- `t` is what one evaluation of lane `n` makes of `s`, and `sent` are the lanes it sends causes to. The lane is right,
with the entry effects of R60 and Table 4-3: code 4 + n on entering LOCKED, 8 + n on entering OFFER, no other. A record
step 7 asks for stands at the end of the creation order; with 16 held the oldest EXPIRED record whose refunded flag is
clear goes, and no other record changes; the other lanes on the new title and the lanes on the evicted one are sent a
cause each (R56, R58, R60, R81 to R83). -/
def evaluation (s : State) (n : Fin 4) (t : State) (sent : List (Fin 4)) : Prop :=
  t = { s with lanes := t.lanes, rentals := t.rentals, codes := t.codes } ∧
    (∀ m : Fin 4, m ≠ n → t.lanes[m] = s.lanes[m]) ∧
    t.laneRight n ∧ t.lanes[n] = s.lanes[n].entering t.lanes[n].state t.lanes[n].title ∧
    (∀ c, c ∈ t.codes ↔
      c ∈ s.codes ∨
        t.lanes[n].state ≠ s.lanes[n].state ∧
          (t.lanes[n].state = .locked ∧ c = 4 + n.val ∨ t.lanes[n].state = .offer ∧ c = 8 + n.val)) ∧
    ((∀ e, ¬ s.asksRecord n e) → t.rentals = s.rentals ∧ sent = []) ∧
    ∀ e, s.asksRecord n e →
      t.rentals =
        (if s.rentals.length < 16 then s.rentals
         else s.rentals.eraseP fun r => r.state == .expired && !r.refunded) ++
          [{ title := e.title, rating := e.rating, window := e.window, allowance := e.preview, grace := e.grace,
             billAlias := e.billAlias, state := .preview, previewSec := 0, viewedSec := 0, windowLeft := 0,
             amount := none, serial := none, refunded := false, seen := false }] ∧
      sent.Nodup ∧
      ∀ m, m ∈ sent ↔
        m ≠ n ∧
          (s.lanes[m].title = some e.title ∨
            16 ≤ s.rentals.length ∧
              ∃ r, s.rentals.find? (fun r => r.state == .expired && !r.refunded) = some r ∧
                s.lanes[m].title = some r.title)

/-- The second a lane's tick hands to the audit counters (R73). -/
def State.laneSeconds (s : State) (n : Fin 4) : List AuditEvent :=
  (if s.lanes[n].mark = true then [s.laneEvent n .viewSeconds] else []) ++
    (if s.lanes[n].state = .locked then [s.laneEvent n .lockSeconds] else [])

/-- The seconds the meter hands to the audit counters at a tick, each tagged with the record's rating (R85, R99). -/
def State.meterSeconds (s : State) : List AuditEvent :=
  s.rentals.flatMap fun r =>
    (if r.state = .preview ∧ r.seen = true then [rentalEvent .previewSeconds r.rating] else []) ++
      (if r.state = .active ∧ r.seen = true ∧ r.viewedSec < 172800 then [rentalEvent .rentedSeconds r.rating] else [])

/-- The codes the meter raises at a tick: 16 + n for each lane n in PREVIEW on a title whose remaining allowance first
comes to 30 or less, and 20 for a window that comes to 300 (R86, R87, R98). -/
def State.meterRaises (s : State) (c : Nat) : Prop :=
  (∃ n : Fin 4, c = 16 + n.val ∧ s.lanes[n].state = .preview ∧
    ∃ r ∈ s.rentals, s.lanes[n].title = some r.title ∧ r.state = .preview ∧ r.seen = true ∧
      r.previewSec + 1 ≠ r.allowance ∧ r.allowance - (r.previewSec + 1) ≤ 30 ∧
      (30 < r.allowance - r.previewSec ∨ r.previewSec = 0)) ∨
    (c = 20 ∧ ∃ r ∈ s.rentals, r.state = .active ∧ r.windowLeft = 301)

/-- Lane `n` is on a title whose preview is spent or whose window ends at this tick (R86, R87). -/
def State.meterEnds (s : State) (n : Fin 4) : Prop :=
  ∃ r ∈ s.rentals, s.lanes[n].title = some r.title ∧
    (r.state = .preview ∧ r.seen = true ∧ r.previewSec + 1 = r.allowance ∨ r.state = .active ∧ r.windowLeft ≤ 1)

/-- `t` is what the rental engine's meter makes of `s` at one tick: every record metered, the seconds handed to the audit
counters, exactly its codes raised, and nothing else (R85 to R87, R98, R99). -/
def metered (s t : State) : Prop :=
  t =
    { s with
      rentals := s.rentals.map (fun r => r.meter.1), counters := (s.auditAll s.meterSeconds).counters
      codes := t.codes } ∧
    ∀ c, c ∈ t.codes ↔ c ∈ s.codes ∨ s.meterRaises c

/-- `t` is what the lock unit's countdowns make of `s` at one tick (R141, R143). -/
def countedDown (s t : State) : Prop :=
  t =
    { s with
      lock.lockout := s.lock.lockout.bind fun k => if k ≤ 1 then none else some (k - 1)
      lock.leases := mapEach (fun l => l.bind fun k => if k ≤ 1 then none else some (k - 1)) s.lock.leases
      codes := t.codes } ∧
    ∀ c, c ∈ t.codes ↔ c ∈ s.codes ∨ c = 21 ∧ ∃ n : Fin 4, s.lock.leases[n] = some 61

/-- `t` is what one piece of outstanding work makes of `s`, and `sent` are the lanes it sends causes to: an evaluation, or
one owner's work at a second tick (R149): house time (R150), the framer's silence (R8, R12), a lane's picture watch (R68,
R69, R73), the meter (R85), the countdowns (R141, R143), counter 0's sample (R158) and the panel's frame (R176). -/
def workDone (s : State) : Task → State → List (Fin 4) → Prop
  | .cause n, t, sent => evaluation s n t sent
  | .houseTime, t, sent =>
    sent = [] ∧
      t = { s with clock.houseTime := if 4294967295 ≤ s.clock.houseTime then 0 else s.clock.houseTime + 1 }
  | .framer, t, sent =>
    sent = [] ∧
      (s.framer.state ≠ .locked → t = s) ∧
      (s.framer.state = .locked → s.framer.silence = 0 → t = { s with framer.silence := 1 }) ∧
      (s.framer.state = .locked → 1 ≤ s.framer.silence →
        t =
          { s with
            framer :=
              { s.framer with
                state := .hunt, integrator := 0, silence := 0, sawC6 := false, bytes := [], handOn := false
                syncLosses := min 65535 (s.framer.syncLosses + 1) }
            alerts := (s.latch .feedLost).alerts, reports := (s.latch .feedLost).reports
            owed := (s.latch .feedLost).owed, codes := (s.raiseCode 1).codes })
  | .laneTick n, t, sent =>
    sent = [] ∧
      t =
        { s with
          lanes := s.lanes.set n
            { s.lanes[n] with
              mark := false
              run := if s.lanes[n].mark = true then 0
                else if s.lanes[n].state = .clear ∨ s.lanes[n].state = .preview ∨ s.lanes[n].state = .rented then
                  min 5 (s.lanes[n].run + 1)
                else s.lanes[n].run }
          counters := (s.auditAll (s.laneSeconds n)).counters, codes := t.codes } ∧
      ∀ c, c ∈ t.codes ↔
        c ∈ s.codes ∨
          c = 12 + n.val ∧ s.lanes[n].mark = false ∧ s.lanes[n].run = 4 ∧
            (s.lanes[n].state = .clear ∨ s.lanes[n].state = .preview ∨ s.lanes[n].state = .rented)
  | .rental, t, sent => metered s t ∧ sent.Nodup ∧ ∀ n, n ∈ sent ↔ s.meterEnds n
  | .lock, t, sent =>
    countedDown s t ∧ sent.Nodup ∧ ∀ n : Fin 4, n ∈ sent ↔ ∃ k, s.lock.leases[n] = some k ∧ k ≤ 1
  | .counters, t, sent => sent = [] ∧ t = s.countersTick
  | .panel, t, sent =>
    sent = [] ∧
      (s.frame = none → t = s) ∧
      (∀ f, s.frame = some f → f.marked = false → t = { s with frame := some { f with marked := true } }) ∧
      (∀ f, s.frame = some f → f.marked = true → t = { s with frame := none }.placeReply 0 .badFrame [])

/-- `t` is what is left of `s` once the outstanding work is done: any piece of it is taken next, whole, the causes it sends
join what is outstanding, and so on until nothing is (R59, R85, R149). The model's count of free choices may rise on the
way (log entry 1). -/
inductive Settled : List Task → State → State → Prop where
  | done (s : State) : Settled [] s s
  | chosen (ts : List Task) (s : State) (k : Nat) (t : State) :
      Settled ts { s with choices := k } t → Settled ts s t
  | taken (ts : List Task) (s : State) (i : Nat) (h : i < ts.length) (u : State) (sent : List (Fin 4)) (t : State) :
      workDone s ts[i] u sent → Settled (ts.eraseIdx i ++ sent.map Task.cause) u t → Settled ts s t

/-- `t` is what is left once causes of re-evaluation have been sent to the lanes `reached` of `u`, one each, and all the
work they call for is done, evaluation by evaluation in some order; so only what causes may change has changed, every
lane reached is right, and with no lane reached nothing has changed (R59). -/
def causesSent (u : State) (reached : Fin 4 → Prop) (t : State) : Prop :=
  (∃ ls : List (Fin 4), ls.Nodup ∧ (∀ n, n ∈ ls ↔ reached n) ∧ Settled (ls.map Task.cause) u t) ∧
    causedFrom u t ∧ (∀ n : Fin 4, reached n → t.laneRight n) ∧ ((∀ n : Fin 4, ¬ reached n) → t = u)

/-! ## Cells on their way to the lanes -/

/-- One lane's record after a clear media cell of its selection was offered to it (R62 to R64, R67): the media cell
or its fill cell queued, an overrun at 8 cells held, nothing in IDLE and ABSENT. -/
def Lane.offered (l : Lane) (role : Role) (c : Cell) : Lane :=
  match l.state with
  | .idle | .absent => l
  | .offer | .locked =>
    if l.queue.length < 8 then
      { l with queue := l.queue ++ [{ kind := .fill, mark := .clear, seq := c.seq, tag := c.tag, carry := c.carry,
                                      payload := List.replicate 90 0 }] }
    else { l with overruns := min 65535 (l.overruns + 1), latch := true }
  | .clear | .preview | .rented =>
    if l.queue.length < 8 then { l with queue := l.queue ++ [c], mark := l.mark || role == .picture }
    else { l with overruns := min 65535 (l.overruns + 1), latch := true }

/-- Lane `n` selects the service and its queue, with 8 cells held, makes an overrun of the cell offered (R64). -/
def State.overruns (s : State) (service : Nat) (n : Fin 4) : Bool :=
  s.lanes[n].service == some service && decide (8 ≤ s.lanes[n].queue.length) && s.lanes[n].state != .idle &&
    s.lanes[n].state != .absent

/-- Lane `n` queues the PICTURE cell offered in PREVIEW or RENTED with title `x` in view, so that the title's
record is told of a picture seen (R67). -/
def State.tellsPicture (s : State) (service : Nat) (role : Role) (x : Nat) (n : Fin 4) : Bool :=
  s.lanes[n].service == some service && role == .picture && decide (s.lanes[n].queue.length < 8) &&
    (s.lanes[n].state == .preview || s.lanes[n].state == .rented) && s.lanes[n].title == some x

/-- `t` is what offering a clear media cell of a service makes of `u` (R15, R62 to R64, R67, R84): the lanes that
select the service, the picture-seen marks, and the overruns handed to the audit counters; nothing else. -/
def offeredTo (u : State) (service : Nat) (role : Role) (c : Cell) (t : State) : Prop :=
  t = { u with lanes := t.lanes, rentals := t.rentals, counters := t.counters } ∧
    (∀ n : Fin 4, t.lanes[n] =
      if u.lanes[n].service = some service then u.lanes[n].offered role c else u.lanes[n]) ∧
    t.rentals = u.rentals.map (fun r =>
      { r with seen := r.seen || allLanes.any (u.tellsPicture service role r.title) }) ∧
    t.counters = (u.auditAll ((lanesWhere (u.overruns service)).map fun n =>
      { kind := .overruns, lane := some n, service := some service, rating := none })).counters

/-- `s` once its 96th byte has ended a taken media cell whose tag hit entry `e`: the cell has left the framer, and the
continuity state of its component is brought up to its sequence count (R21, R31). -/
def State.hit (s : State) (e : DirEntry) (c : Cell) : State :=
  { s with
    framer.bytes := [], framer.handOn := false
    services := s.services.map fun r =>
      if r.number = e.service then
        { r with components := r.components.map fun k =>
            if k.tag = c.tag then
              { k with
                expect := some ((c.seq + 1) % 16)
                discs := if k.expect = none ∨ k.expect = some c.seq then k.discs else min 65535 (k.discs + 1) }
            else k }
      else r }

/-- `t` is what a key-miss of a service's cell makes of `u`: every lane that selects the service counts it, whatever
its state, and the audit counters are told of it for each such lane; nothing else (R49, R70). -/
def keyMissTold (u : State) (service : Nat) (t : State) : Prop :=
  t = { u with lanes := t.lanes, counters := t.counters } ∧
    (∀ n : Fin 4, t.lanes[n] =
      if u.lanes[n].service = some service then
        { u.lanes[n] with keyMisses := min 65535 (u.lanes[n].keyMisses + 1) }
      else u.lanes[n]) ∧
    t.counters = (u.auditAll ((lanesWhere (u.selects service)).map fun n => u.laneEvent n .keyMisses)).counters

/-! ## Invariants -/

/-- The rental table holds at most 16 records and every lane is right (R54, R56, R59, R79). -/
def lanesInv (s : State) : Prop := s.rentals.length ≤ 16 ∧ ∀ n : Fin 4, s.laneRight n

/-- An output queue holds at most 8 cells, only fill cells outside the viewing states, and none in IDLE or
ABSENT (R60, R62, R64, R66). -/
def Lane.queueInv (l : Lane) : Prop :=
  l.queue.length ≤ 8 ∧
    (l.state.viewing = false → ∀ c ∈ l.queue, c.kind = .fill) ∧
    (l.state = .idle ∨ l.state = .absent → l.queue = [])

def queuesInv (s : State) : Prop := ∀ n : Fin 4, s.lanes[n].queueInv

/-- The charge list: at most 12 records, serials strictly rising, each in 1.. and below the next serial, which
is at most 16,777,216 (R123, R124). -/
def chargesInv (s : State) : Prop :=
  s.charges.length ≤ 12 ∧ (s.charges.map ChargeRec.serial).Pairwise (· < ·) ∧
    (∀ c ∈ s.charges, 1 ≤ c.serial ∧ c.serial < s.nextSerial) ∧ 1 ≤ s.nextSerial ∧ s.nextSerial ≤ 16777216

/-- The report queue: at most 6 reports, at most one ALERT-RPT waiting, every other report with its body built,
an alert owed only while the queue is full with none waiting, and bytes sent only of a head that has begun and has
bytes left (R169 to R172). -/
def reportsInv (s : State) : Prop :=
  s.reports.length ≤ 6 ∧ (s.reports.filter Report.waitingAlert).length ≤ 1 ∧
    (∀ r ∈ s.reports, r.kind ≠ .alert → r.body.isSome) ∧
    (s.owed = true → s.reports.length = 6 ∧ s.reports.filter Report.waitingAlert = []) ∧
    (0 < s.reportSent → ∃ r rs, s.reports = r :: rs ∧ r.waitingAlert = false ∧
      s.reportSent < (reportBytes s.unitId r).length)

/-- The pending set is ascending and drawn from 1..21, and the floor is 1..32 (R180). -/
def attentionInv (s : State) : Prop :=
  s.codes.Pairwise (· < ·) ∧ (∀ c ∈ s.codes, 1 ≤ c ∧ c ≤ 21) ∧ 1 ≤ s.floor ∧ s.floor ≤ 32

/-- A staged key is held in the slot in use alone (R35). -/
def KeyFamily.stagedInUse (f : KeyFamily) : Prop := ∀ p : Parity, (f.slot p).staged.isSome → f.inUse p

def keysInv (s : State) : Prop := ∀ n : Fin 32, s.keys[n].stagedInUse

/-- The directory holds exactly the components of the loaded services, each once, in its fold bank, with no more
than 16 to a bank; the service table is ascending with at most 48 records (R18, R20). -/
def directoryInv (s : State) : Prop :=
  s.services.length ≤ 48 ∧ (s.services.map ServiceRec.number).Pairwise (· < ·) ∧
    (∀ r ∈ s.services, (r.components.map Component.tag).Nodup) ∧
    (∀ i : Fin 4, s.directory[i].length ≤ 16 ∧ (s.directory[i].map DirEntry.tag).Pairwise (· < ·)) ∧
    ∀ (i : Fin 4) (e : DirEntry),
      e ∈ s.directory[i] ↔
        i = foldBank e.tag ∧ ∃ r ∈ s.services, r.number = e.service ∧
          ∃ c ∈ r.components, c.tag = e.tag ∧ c.role = e.role

/-- The lock unit in range (Table 8-1): the house limit, the default room ceiling, the lane ceilings and the room ceiling
0..7, a discreet threshold of 0..8, a lease length of 300..43,200, a PIN of four digits, attempts 0..2, a lockout of
1..900 s, and a lease of 1..43,200 s only while the room is OCCUPIED and the lane is not barred (R135, R137 to R143). -/
def lockInv (s : State) : Prop :=
  s.lock.policy.houseLimit ≤ 7 ∧ s.lock.policy.defaultCeiling ≤ 7 ∧
    (∀ n : Fin 4, s.lock.policy.laneCeilings[n] ≤ 7) ∧ s.lock.policy.discreet ≤ 8 ∧ s.lock.roomCeiling ≤ 7 ∧
    (∀ p, s.lock.pin = some p → p.d0 ≤ 9 ∧ p.d1 ≤ 9 ∧ p.d2 ≤ 9 ∧ p.d3 ≤ 9) ∧
    s.lock.attempts ≤ 2 ∧ (∀ k, s.lock.lockout = some k → 1 ≤ k ∧ k ≤ 900) ∧
    300 ≤ s.lock.policy.leaseLength ∧ s.lock.policy.leaseLength ≤ 43200 ∧
    ∀ (n : Fin 4) (k : Nat), s.lock.leases[n] = some k →
      1 ≤ k ∧ k ≤ 43200 ∧ s.room.state = .occupied ∧ s.lock.policy.barred[n] = false

/-- The catalog's entries are in range (Table 5-1). -/
def CatalogEntry.inRange (e : CatalogEntry) : Prop :=
  e.rating ≤ 7 ∧ e.basePrice ≤ 60000 ∧ 600 ≤ e.window ∧ e.window ≤ 172800 ∧ e.preview ≤ 600 ∧ e.grace ≤ 900

/-- A rental record: its window runs in ACTIVE alone and is then at most its length, an ACTIVE record names its
charge, and the preview seconds never pass the allowance, which they have not reached in PREVIEW (R79, R86). -/
def RentalRec.inRange (r : RentalRec) : Prop :=
  (r.state = .active → 1 ≤ r.windowLeft ∧ r.amount.isSome ∧ r.serial.isSome) ∧
    (r.state ≠ .active → r.windowLeft = 0) ∧ r.windowLeft ≤ 172800 ∧ r.viewedSec ≤ 172800 ∧
    r.previewSec ≤ r.allowance ∧ (r.state = .preview → r.previewSec < r.allowance)

/-- The catalog is ascending with at most 32 entries in range, and the rental table holds at most 16 records in
range, no two for one title, and none while the room is VACANT (R75, R79, R80). -/
def rentalsInv (s : State) : Prop :=
  s.catalog.length ≤ 32 ∧ (s.catalog.map CatalogEntry.title).Pairwise (· < ·) ∧
    (∀ e ∈ s.catalog, e.inRange) ∧
    s.rentals.length ≤ 16 ∧ (s.rentals.map RentalRec.title).Nodup ∧ (∀ r ∈ s.rentals, r.inRange) ∧
    (s.room.state = .vacant → s.rentals = [])

/-- Spend and spend ceiling are at most 1,000,000, and spend is 0 while the room is VACANT (R119). -/
def spendInv (s : State) : Prop :=
  s.room.spend ≤ 1000000 ∧ s.room.ceiling ≤ 1000000 ∧ (s.room.state = .vacant → s.room.spend = 0)

/-- The framer: integrator 0 and nothing in assembly in HUNT, 1..15 otherwise, fewer than 96 bytes in assembly,
a threshold of 2..15, and a silence count of 0 or 1, above 0 in LOCKED alone (section 1.2, R3 to R12). -/
def framerInv (s : State) : Prop :=
  2 ≤ s.framer.threshold ∧ s.framer.threshold ≤ 15 ∧ s.framer.bytes.length < 96 ∧ s.framer.silence ≤ 1 ∧
    (s.framer.state = .hunt → s.framer.integrator = 0 ∧ s.framer.bytes = [] ∧ s.framer.silence = 0) ∧
    (s.framer.state ≠ .hunt → 1 ≤ s.framer.integrator ∧ s.framer.integrator ≤ 15) ∧
    (s.framer.state = .confirm → s.framer.silence = 0 ∧ s.framer.handOn = false)

/-! ## The command a message or a request is -/

/-- The row of the opcode table that a management message is. -/
def messageCommand : MgmtMsg → Instr
  | .svcPut b => .svcPut b
  | .svcDrop n => .svcDrop n
  | .onAir n t => .onAir n t
  | .keyPut b => .keyPut b
  | .keyWipe f => .keyWipe f
  | .titlePut b => .titlePut b
  | .titleDrop t => .titleDrop t
  | .stayOpen b => .stayOpen b
  | .stayClose n => .stayClose n
  | .lockSet b => .lockSet b
  | .tariffPut b => .tariffPut b
  | .chargePoll => .chargePoll
  | .chargeAck n => .chargeAck n
  | .statusPoll => .statusPoll
  | .timeMark t => .timeMark t
  | .countSet b => .countSet b
  | .countPoll => .countPoll
  | .alertClear fs => .alertClear fs
  | .groupSet gs => .groupSet gs
  | .feedSet n => .feedSet n
  | .unitReset => .unitReset

/-- The row of the opcode table that a panel request is. -/
def requestCommand : PanelReq → Instr
  | .pick lane service => .pick lane service
  | .buy lane title pin => .buy lane title pin
  | .refund title => .refund title
  | .unlock lane pin => .unlock lane pin
  | .relock lane => .relock lane
  | .askLane lane => .askLane lane
  | .askTitle title => .askTitle title
  | .askRoom => .askRoom
  | .attnRead => .attnRead
  | .attnAck code => .attnAck code
  | .attnFloor n => .attnFloor n

/-! ## The bytes of a message or a request (R183, R185) -/

/-- The kind byte of a management message (Table 11-6). -/
def messageKind : MgmtMsg → Nat
  | .svcPut _ => 0x01
  | .svcDrop _ => 0x02
  | .onAir _ _ => 0x03
  | .keyPut _ => 0x04
  | .keyWipe _ => 0x05
  | .titlePut _ => 0x06
  | .titleDrop _ => 0x07
  | .stayOpen _ => 0x08
  | .stayClose _ => 0x09
  | .lockSet _ => 0x0A
  | .tariffPut _ => 0x0B
  | .chargePoll => 0x0C
  | .chargeAck _ => 0x0D
  | .statusPoll => 0x0E
  | .timeMark _ => 0x0F
  | .countSet _ => 0x10
  | .countPoll => 0x11
  | .alertClear _ => 0x12
  | .groupSet _ => 0x13
  | .feedSet _ => 0x14
  | .unitReset => 0x15

/-- A PIN field: four bytes, first digit first (R183). -/
def pinBytes (p : PinField) : List Byte := bytesOf 1 p.d0 ++ bytesOf 1 p.d1 ++ bytesOf 1 p.d2 ++ bytesOf 1 p.d3

/-- A signed field: two bytes of two's complement (R183). -/
def signedBytes (x : Int) : List Byte := bytesOf 2 (if x < 0 then x + 65536 else x).toNat

/-- The filter form of COUNT-SET and the argument it selects (R183, section 9.3.2). -/
def filterBytes : FilterField → List Byte
  | .none => bytesOf 1 0
  | .service n => bytesOf 1 1 ++ bytesOf 2 n
  | .lanes flags => bytesOf 1 2 ++ flags.toList.flatMap (bytesOf 1)
  | .ratingAtLeast r => bytesOf 1 3 ++ bytesOf 1 r

/-- The body of a management message: its fields in the order its section lists them, in the encoding of R183 (sections
2.3 to 2.5, 3.2, 5.1, 6.2, 7.2, 7.4, 7.6, 8.3, 9.2, 9.3, 10.3, 10.4, 10.6 and R11). -/
def messageBody : MgmtMsg → List Byte
  | .svcPut b =>
    bytesOf 2 b.service ++ bytesOf 1 b.kind ++ optBytes (bytesOf 1) b.family ++ bytesOf 1 b.rating ++
      optBytes (bytesOf 2) b.title ++
      (bytesOf 1 b.components.length ++ b.components.flatMap fun k => bytesOf 2 k.tag ++ bytesOf 1 k.role)
  | .svcDrop service => bytesOf 2 service
  | .onAir service title => bytesOf 2 service ++ optBytes (bytesOf 2) title
  | .keyPut b => bytesOf 1 b.family ++ bytesOf 1 b.parity ++ b.key.toList ++ [b.check]
  | .keyWipe family => bytesOf 1 family
  | .titlePut b =>
    bytesOf 2 b.title ++ bytesOf 1 b.rating ++ bytesOf 2 b.basePrice ++ bytesOf 3 b.window ++ bytesOf 2 b.preview ++
      bytesOf 2 b.grace ++ bytesOf 2 b.billAlias
  | .titleDrop title => bytesOf 2 title
  | .stayOpen b =>
    bytesOf 2 b.stay ++ bytesOf 1 b.cls ++ bytesOf 3 b.ceiling ++ optBytes pinBytes b.pin ++
      bytesOf 1 b.roomCeiling ++ bytesOf 1 b.purchasePin
  | .stayClose stay => bytesOf 2 stay
  | .lockSet b =>
    bytesOf 1 b.houseLimit ++ bytesOf 1 b.defaultCeiling ++ b.laneCeilings.toList.flatMap (bytesOf 1) ++
      b.barred.toList.flatMap (bytesOf 1) ++ bytesOf 2 b.leaseLength ++ bytesOf 1 b.discreet
  | .tariffPut b =>
    bytesOf 1 b.cls ++ signedBytes b.preOffset ++ bytesOf 2 b.scale ++ signedBytes b.postOffset ++
      bytesOf 2 b.lowCompare ++ bytesOf 2 b.lowSet ++ bytesOf 2 b.highCompare ++ bytesOf 2 b.highSet
  | .chargePoll => []
  | .chargeAck serial => bytesOf 3 serial
  | .statusPoll => []
  | .timeMark t => bytesOf 4 t
  | .countSet b =>
    bytesOf 1 b.counter ++ bytesOf 1 b.kind ++ filterBytes b.filter ++
      optBytes (fun o : OccupancyField =>
        o.states.toList.flatMap (bytesOf 1) ++ bytesOf 1 o.mode ++ bytesOf 1 o.threshold) b.occupancy
  | .countPoll => []
  | .alertClear flags => flags.toList.flatMap (bytesOf 1)
  | .groupSet groups => groups.toList.flatMap (bytesOf 2)
  | .feedSet threshold => bytesOf 1 threshold
  | .unitReset => []

/-- The kind byte of a panel request (Table 11-1). -/
def requestKind : PanelReq → Nat
  | .pick _ _ => 0x01
  | .buy _ _ _ => 0x02
  | .refund _ => 0x03
  | .unlock _ _ => 0x04
  | .relock _ => 0x05
  | .askLane _ => 0x06
  | .askTitle _ => 0x07
  | .askRoom => 0x08
  | .attnRead => 0x09
  | .attnAck _ => 0x0A
  | .attnFloor _ => 0x0B

/-- The body of a panel request (R183; sections 4.3, 4.8, 5.5 to 5.7, 7.8, 8.6, 8.7, 11.4). -/
def requestBody : PanelReq → List Byte
  | .pick lane service => bytesOf 1 lane ++ optBytes (bytesOf 2) service
  | .buy lane title pin => bytesOf 1 lane ++ bytesOf 2 title ++ optBytes pinBytes pin
  | .refund title => bytesOf 2 title
  | .unlock lane pin => bytesOf 1 lane ++ optBytes pinBytes pin
  | .relock lane => bytesOf 1 lane
  | .askLane lane => bytesOf 1 lane
  | .askTitle title => bytesOf 2 title
  | .askRoom => []
  | .attnRead => []
  | .attnAck code => bytesOf 1 code
  | .attnFloor n => bytesOf 1 n

end Sys2Proof.Machine
end

