-- ==== Sys2Proof/Certificates/Slice0/Obligations.lean ====
section
/-! DEFINITION. The statements for the provers. Each says what the spec's rules say a command does, from the state
before to the state after; the rules are cited in OBLIGATIONS.json and in the docstrings. -/

section Slice0Statements

open Sys2Proof Sys2Proof.Machine

/-! ## The queue, power and the reset line -/

/-- A step takes the command at the front of the queue and runs it with the queue's rest. The queue is the
model's own (log entry 11). -/
def Obligations.step_runs_front_command : Prop :=
  ∀ (c : Instr) (rest : List Instr) (s : State),
    step { s with pending := c :: rest } = exec c { s with pending := rest }

/-- With nothing waiting, a step is one cycle of the reference clock: it adds 1 to the prescaler, the cycle that
would bring it to 24,576,000 produces a second tick, and a held part counts nothing (R148, R182). That the clock
runs while nothing waits is the model's choice (log entry 7). -/
def Obligations.idle_step_counts_one_clock_cycle : Prop :=
  ∀ s : State, s.pending = [] →
    (s.held = true → step s = .next s) ∧
    (s.held = false → s.clock.prescaler + 1 < 24576000 →
      step s = .next { s with clock.prescaler := s.clock.prescaler + 1 }) ∧
    (s.held = false → 24576000 ≤ s.clock.prescaler + 1 → step s = exec .secondTick s)

/-- Every command, in every state and with every operand, answers a next state, and none touches the queue of
waiting commands or the unit identity fixed at manufacture (R164, R177). That no command stops the part, operands no
field can carry included (log entry 16), that a held part's commands change nothing (log entry 12), and the queue (log
entry 11) are the model's. -/
def Obligations.every_command_completes : Prop :=
  ∀ (c : Instr) (s : State), ∃ t, exec c s = .next t ∧ t.pending = s.pending ∧ t.unitId = s.unitId

/-- While the reset line is held the part takes no byte, sends nothing and produces no tick: every command but the
line's own and the application of power leaves the state as it stands (R182). That a message or request row does
nothing then is the model's reading (log entry 12). -/
def Obligations.held_part_does_nothing : Prop :=
  ∀ (c : Instr) (s : State), s.held = true → c ≠ .coldStart → c ≠ .resetLineAssert → c ≠ .resetLineRelease →
    exec c s = .next s

/-- Asserting the reset line makes the warm reset that each block's own rule gives, and releasing it changes
nothing else (R3, R19, R36, R55, R75, R80, R101, R114, R123, R132, R148, R150, R154, R161, R174, R182). That the unit
identity, the ready lines, the byte last handed to the modem, the queue and the count of free choices stay, and that
asserting a line already held repeats the reset, is the model's choice (log entry 10). -/
def Obligations.reset_line_makes_a_warm_reset : Prop :=
  ∀ s : State,
    exec .resetLineAssert s =
      .next
        { s with
          held := true
          framer :=
            { state := .hunt, integrator := 0, threshold := s.framer.threshold, silence := 0, sawC6 := false,
              bytes := [], handOn := false, taken := 0, syncBad := 0, headerBad := 0, tagMiss := 0, syncLosses := 0 }
          services := []
          directory := .replicate 4 []
          keys := .replicate 32 { parity := none, even := ⟨none, none⟩, odd := ⟨none, none⟩, keyMisses := 0 }
          lanes :=
            .replicate 4
              { state := .idle, service := none, title := none, queue := [], sending := none, mark := false,
                run := 0, latch := false, mediaSent := 0, fillSent := 0, overruns := 0, keyMisses := 0, purged := 0 }
          catalog := []
          rentals := s.rentals.map fun r => { r with seen := false }
          room.staleStays := 0
          lock.leases := .replicate 4 none
          clock.prescaler := 0
          counters := .replicate 4 { setup := none, last := none, value := 0 }
          counts := { taken := 0, crcBad := 0, malformed := 0, refused := 0, pollsMissed := 0 }
          alerts := mapEach (fun a => if a = .clear then .clear else .latched) s.alerts
          owed := false
          reports := if ∃ i : Fin 6, s.alerts[i] ≠ .clear then [{ kind := .alert, body := none }] else []
          reportSent := 0
          frame := none
          waiting := none
          sending := none
          restartOwed := true
          codes := []
          floor := 32 } ∧
    exec .resetLineRelease s = .next { s with held := false }

/-- Applying power puts every block in its cold-start state whatever stood before, with COLD_START latched and one
ALERT-RPT admitted (R3, R19, R36, R55, R75, R80, R100, R114, R123, R132, R148, R150, R154, R161, R174, R182). The
unit identity, the lines from outside, the queue of commands and the count of free choices stay (log entry 10). -/
def Obligations.cold_start_sets_every_block : Prop :=
  ∀ s : State,
    exec .coldStart s =
      .next
        { unitId := s.unitId, held := s.held, screenReady := s.screenReady, returnReady := s.returnReady
          framer :=
            { state := .hunt, integrator := 0, threshold := 4, silence := 0, sawC6 := false, bytes := [],
              handOn := false, taken := 0, syncBad := 0, headerBad := 0, tagMiss := 0, syncLosses := 0 }
          services := []
          directory := .replicate 4 []
          keys := .replicate 32 { parity := none, even := ⟨none, none⟩, odd := ⟨none, none⟩, keyMisses := 0 }
          lanes :=
            .replicate 4
              { state := .idle, service := none, title := none, queue := [], sending := none, mark := false,
                run := 0, latch := false, mediaSent := 0, fillSent := 0, overruns := 0, keyMisses := 0, purged := 0 }
          catalog := []
          rentals := []
          staged :=
            .replicate 4
              { preOffset := 0, scale := 256, postOffset := 0, lowCompare := 0, lowSet := 0, highCompare := 65535,
                highSet := 65535 }
          live :=
            .replicate 4
              { preOffset := 0, scale := 256, postOffset := 0, lowCompare := 0, lowSet := 0, highCompare := 65535,
                highSet := 65535 }
          room :=
            { state := .vacant, stay := 0, cls := 0, spend := 0, ceiling := 0, purchasePin := false, staleStays := 0 }
          charges := []
          nextSerial := 1
          lock :=
            { policy :=
                { houseLimit := 7, defaultCeiling := 4, laneCeilings := #v[7, 7, 7, 7],
                  barred := #v[false, false, false, false], leaseLength := 14400, discreet := 6 }
              roomCeiling := 4, pin := none, attempts := 0, lockout := none, leases := .replicate 4 none }
          clock := { prescaler := 0, houseTime := 0, timeSet := false }
          counters := .replicate 4 { setup := none, last := none, value := 0 }
          groups := #v[0, 0, 0, 0]
          counts := { taken := 0, crcBad := 0, malformed := 0, refused := 0, pollsMissed := 0 }
          alerts := #v[.latched, .clear, .clear, .clear, .clear, .clear]
          owed := false
          reports := [{ kind := .alert, body := none }]
          reportSent := 0, returnData := none, frame := none, waiting := none, sending := none, restartOwed := true
          codes := [], floor := 32, choices := s.choices, pending := s.pending } ∧
    exec .coldStart State.reset = .next State.reset

/-- UNIT-RESET completes in every state of a part not held. It makes the same warm reset as the reset line, and leaves no
trace in the message counts, its own among them (R161, R167). -/
def Obligations.unit_reset_equals_reset_line : Prop :=
  ∀ s : State, s.held = false →
    ∃ t, exec .resetLineAssert s = .next t ∧ exec .unitReset s = .next { t with held := false } ∧
      t.counts = { taken := 0, crcBad := 0, malformed := 0, refused := 0, pollsMissed := 0 }

/-! ## The feed and the cell path (chapter 1) -/

/-- In HUNT a 39h that follows a C6h at once begins a cell: the framer enters CONFIRM with the integrator at 1 and
the cell position at 2, and the cell is not handed on. Every other byte is discarded, and only whether it was a C6h
is remembered, so that of overlapping candidates the later one counts (R4). That HUNT remembers that one thing and nothing
else is the model's reading (log entry 14). -/
def Obligations.feed_byte_in_hunt : Prop :=
  ∀ (s : State) (b : Byte), s.held = false → s.framer.state = .hunt →
    (s.framer.sawC6 = true → b = 0x39 →
      exec (.feedByte b) s =
        .next
          { s with
            framer.state := .confirm, framer.integrator := 1, framer.sawC6 := false,
            framer.bytes := [0xC6, 0x39], framer.handOn := false }) ∧
    (¬ (s.framer.sawC6 = true ∧ b = 0x39) →
      exec (.feedByte b) s = .next { s with framer.sawC6 := decide (b = 0xC6) })

/-- The boundary test of CONFIRM and LOCKED, made when the second byte of a cell arrives, with the integrator first
cut to the threshold in force: the outcomes of Table 1-2, and on leaving LOCKED the sync loss, the FEED_LOST alert
and attention code 1 (R5 to R8, R11). That the test is made at the second byte is the model's reading (log entry 14). -/
def Obligations.boundary_test_outcomes : Prop :=
  ∀ (s : State) (first second : Byte), s.held = false → s.framer.bytes = [first] →
    (s.framer.state = .confirm → first = 0xC6 ∧ second = 0x39 →
      min s.framer.integrator s.framer.threshold + 1 < s.framer.threshold →
      exec (.feedByte second) s =
        .next
          { s with
            framer.bytes := [first, second], framer.handOn := false,
            framer.integrator := min s.framer.integrator s.framer.threshold + 1 }) ∧
    (s.framer.state = .confirm → first = 0xC6 ∧ second = 0x39 →
      s.framer.threshold ≤ min s.framer.integrator s.framer.threshold + 1 →
      exec (.feedByte second) s =
        .next
          { s with
            framer.state := .locked, framer.integrator := s.framer.threshold, framer.silence := 0,
            framer.bytes := [first, second], framer.handOn := true,
            framer.taken := min 65535 (s.framer.taken + 1) }) ∧
    (s.framer.state = .confirm → ¬ (first = 0xC6 ∧ second = 0x39) →
      exec (.feedByte second) s =
        .next
          { s with
            framer.state := .hunt, framer.integrator := 0, framer.bytes := [], framer.handOn := false,
            framer.sawC6 := decide (second = 0xC6) }) ∧
    (s.framer.state = .locked → first = 0xC6 ∧ second = 0x39 →
      exec (.feedByte second) s =
        .next
          { s with
            framer.integrator := min (min s.framer.integrator s.framer.threshold + 1) s.framer.threshold,
            framer.silence := 0, framer.bytes := [first, second], framer.handOn := true,
            framer.taken := min 65535 (s.framer.taken + 1) }) ∧
    (s.framer.state = .locked → ¬ (first = 0xC6 ∧ second = 0x39) →
      1 < min s.framer.integrator s.framer.threshold →
      exec (.feedByte second) s =
        .next
          { s with
            framer.integrator := min s.framer.integrator s.framer.threshold - 1,
            framer.bytes := [first, second], framer.handOn := false,
            framer.syncBad := min 65535 (s.framer.syncBad + 1) }) ∧
    (s.framer.state = .locked → ¬ (first = 0xC6 ∧ second = 0x39) →
      min s.framer.integrator s.framer.threshold ≤ 1 →
      ∃ t, exec (.feedByte second) s = .next t ∧
        t = { s with framer := t.framer, alerts := t.alerts, reports := t.reports, owed := t.owed,
                     codes := t.codes } ∧
        t.framer =
          { s.framer with
            state := .hunt, integrator := 0, silence := 0, bytes := [], handOn := false,
            sawC6 := decide (second = 0xC6), syncBad := min 65535 (s.framer.syncBad + 1),
            syncLosses := min 65535 (s.framer.syncLosses + 1) } ∧
        (∀ c, c ∈ t.codes ↔ c = 1 ∨ c ∈ s.codes) ∧
        t.alerts = (s.latch .feedLost).alerts ∧ t.reports = (s.latch .feedLost).reports ∧
        t.owed = (s.latch .feedLost).owed)

/-- Inside a cell a byte is only kept. The 96th byte ends the cell: a cell that was not taken is dropped, a taken
cell with a bad header adds 1 to the header-bad count, and a fill cell is discarded (R6, R9, R10). -/
def Obligations.cell_bytes_are_assembled : Prop :=
  ∀ (s : State) (b : Byte), s.held = false → s.framer.state ≠ .hunt →
    (s.framer.bytes.length ≠ 1 → s.framer.bytes.length < 95 →
      exec (.feedByte b) s = .next { s with framer.bytes := s.framer.bytes ++ [b] }) ∧
    (s.framer.bytes.length = 95 → s.framer.handOn = false →
      exec (.feedByte b) s = .next { s with framer.bytes := [] }) ∧
    (s.framer.bytes.length = 95 → s.framer.handOn = true → Cell.ofBytes (s.framer.bytes ++ [b]) = none →
      exec (.feedByte b) s =
        .next
          { s with
            framer.bytes := [], framer.handOn := false, framer.headerBad := min 65535 (s.framer.headerBad + 1) }) ∧
    (s.framer.bytes.length = 95 → s.framer.handOn = true →
      ∀ c, Cell.ofBytes (s.framer.bytes ++ [b]) = some c → c.kind = .fill →
        exec (.feedByte b) s = .next { s with framer.bytes := [], framer.handOn := false })

/-- A header is good exactly when the four conditions of R2 hold, read off the bytes of Table 11-4 (R2, R184). -/
def Obligations.good_header_conditions : Prop :=
  ∀ bs : List Byte,
    (Cell.ofBytes bs).isSome = true ↔
      bs.getD 5 0 = bs.getD 2 0 ^^^ bs.getD 3 0 ^^^ bs.getD 4 0 ∧
      (bs.getD 2 0).toNat / 64 ≤ 2 ∧ (bs.getD 2 0).toNat / 16 % 4 ≤ 2 ∧
      ((bs.getD 2 0).toNat / 64 = 1 → (bs.getD 2 0).toNat / 16 % 4 = 0)

/-- Decoding a cell's own 96 bytes gives the cell back, for every cell a good header can describe; so a cell that a
screen port sends has a good header, fill cells included. Bytes 2 to 5 are laid out as Table 11-4 says, written and read:
kind, mark and sequence count, the tag's upper eight bits, its lower four and the carry nibble, and the check (R2, R63,
R184). -/
def Obligations.cell_bytes_round_trip : Prop :=
  (∀ c : Cell, c.seq < 16 → c.tag < 4096 → c.carry < 16 → c.payload.length = 90 →
    (c.kind = .management → c.mark = .clear) →
    c.toBytes.length = 96 ∧ c.toBytes.take 2 = [0xC6, 0x39] ∧ Cell.ofBytes c.toBytes = some c ∧
    (c.toBytes.getD 2 0).toNat =
      64 * (match c.kind with
        | .media => 0
        | .management => 1
        | .fill => 2) +
      16 * (match c.mark with
        | .clear => 0
        | .scrambled .even => 1
        | .scrambled .odd => 2) + c.seq ∧
    (c.toBytes.getD 3 0).toNat = c.tag / 16 ∧ (c.toBytes.getD 4 0).toNat = 16 * (c.tag % 16) + c.carry ∧
    c.toBytes.getD 5 0 = c.toBytes.getD 2 0 ^^^ c.toBytes.getD 3 0 ^^^ c.toBytes.getD 4 0 ∧
    c.toBytes.drop 6 = c.payload) ∧
  ∀ (bs : List Byte) (c : Cell), Cell.ofBytes bs = some c →
    (bs.getD 2 0).toNat / 64 =
      (match c.kind with
        | .media => 0
        | .management => 1
        | .fill => 2) ∧
    (bs.getD 2 0).toNat / 16 % 4 =
      (match c.mark with
        | .clear => 0
        | .scrambled .even => 1
        | .scrambled .odd => 2) ∧
    c.seq = (bs.getD 2 0).toNat % 16 ∧ c.tag = 16 * (bs.getD 3 0).toNat + (bs.getD 4 0).toNat / 16 ∧
    c.carry = (bs.getD 4 0).toNat % 16 ∧ c.payload = bs.drop 6

/-- A taken management cell whose CRC is right, whose destination is this unit, one of its groups or every unit, and
whose body fits its kind is the command of its message, run as the cell's last byte arrives (R10, R163, R164, R165).
Every message is counted taken or refused by that command's own rules. A body fits its kind exactly when the kind byte is
the message's of Table 11-6 and the body is the bytes that the encoding of R183 writes for its fields in their order, each
a value its field can carry; so no other kind byte, no longer or shorter body, no presence byte above 1 and no filter form
above 3 fits (R183, R185). That groups of fixed size carry no count byte is the model's reading (log entry 8). -/
def Obligations.management_cell_is_its_command : Prop :=
  (∀ (kind : Nat) (body : List Byte) (m : MgmtMsg),
    readMgmt kind body = some m ↔
      kind = messageKind m ∧ body = messageBody m ∧ (messageCommand m).wf = true) ∧
  ∀ (s : State) (b : Byte) (c : Cell) (m : MgmtMsg),
    s.held = false → s.framer.state ≠ .hunt → s.framer.bytes.length = 95 → s.framer.handOn = true →
    Cell.ofBytes (s.framer.bytes ++ [b]) = some c → c.kind = .management →
    (crc16 (c.payload.take 88)).toNat = natOf ((c.payload.drop 88).take 2) →
    ((c.payload.getD 0 0 = 0 ∧ natOf ((c.payload.drop 1).take 4) = s.unitId) ∨
      (c.payload.getD 0 0 = 1 ∧ natOf ((c.payload.drop 1).take 4) ≠ 0 ∧
        ∃ i : Fin 4, s.groups[i] = natOf ((c.payload.drop 1).take 4)) ∨
      c.payload.getD 0 0 = 2) →
    (c.payload.getD 6 0).toNat ≤ 81 →
    readMgmt (c.payload.getD 5 0).toNat ((c.payload.drop 7).take (c.payload.getD 6 0).toNat) = some m →
    exec (.feedByte b) s = exec (messageCommand m) { s with framer.bytes := [], framer.handOn := false }

/-- The tests of a management cell in their order: a wrong CRC adds 1 to the CRC-bad count, a destination form above 2
to the malformed count, a message for others changes nothing, and in a message addressed to this unit, to one of its
groups or to every unit a length above 81 or a kind and body that do not fit add 1 to the malformed count (R163,
R164). -/
def Obligations.management_cell_turned_away : Prop :=
  ∀ (s : State) (b : Byte) (c : Cell),
    s.held = false → s.framer.state ≠ .hunt → s.framer.bytes.length = 95 → s.framer.handOn = true →
    Cell.ofBytes (s.framer.bytes ++ [b]) = some c → c.kind = .management →
    ((crc16 (c.payload.take 88)).toNat ≠ natOf ((c.payload.drop 88).take 2) →
      exec (.feedByte b) s =
        .next
          { s with
            framer.bytes := [], framer.handOn := false, counts.crcBad := min 65535 (s.counts.crcBad + 1) }) ∧
    ((crc16 (c.payload.take 88)).toNat = natOf ((c.payload.drop 88).take 2) →
      2 < (c.payload.getD 0 0).toNat →
      exec (.feedByte b) s =
        .next
          { s with
            framer.bytes := [], framer.handOn := false, counts.malformed := min 65535 (s.counts.malformed + 1) }) ∧
    ((crc16 (c.payload.take 88)).toNat = natOf ((c.payload.drop 88).take 2) →
      ((c.payload.getD 0 0 = 0 ∧ natOf ((c.payload.drop 1).take 4) ≠ s.unitId) ∨
        (c.payload.getD 0 0 = 1 ∧ (natOf ((c.payload.drop 1).take 4) = 0 ∨
          ∀ i : Fin 4, s.groups[i] ≠ natOf ((c.payload.drop 1).take 4)))) →
      exec (.feedByte b) s = .next { s with framer.bytes := [], framer.handOn := false }) ∧
    ((crc16 (c.payload.take 88)).toNat = natOf ((c.payload.drop 88).take 2) →
      ((c.payload.getD 0 0 = 0 ∧ natOf ((c.payload.drop 1).take 4) = s.unitId) ∨
        (c.payload.getD 0 0 = 1 ∧ natOf ((c.payload.drop 1).take 4) ≠ 0 ∧
          ∃ i : Fin 4, s.groups[i] = natOf ((c.payload.drop 1).take 4)) ∨
        c.payload.getD 0 0 = 2) →
      (81 < (c.payload.getD 6 0).toNat ∨
        readMgmt (c.payload.getD 5 0).toNat ((c.payload.drop 7).take (c.payload.getD 6 0).toNat) = none) →
      exec (.feedByte b) s =
        .next
          { s with
            framer.bytes := [], framer.handOn := false, counts.malformed := min 65535 (s.counts.malformed + 1) })

/-- A taken media cell is looked up in its tag's fold bank alone. On a miss it is dropped and the tag-miss count rises
by 1. On a hit the continuity of its component is brought up to it, and a cell marked CLEAR is offered unchanged to
every lane that selects its service (R13, R14, R15, R20, R21, R31, R62 to R64, R67). -/
def Obligations.clear_media_cell_reaches_its_lanes : Prop :=
  (∀ tag : Nat, (foldBank tag).val = (tag + tag / 16 + tag / 256) % 4) ∧
  ∀ (s : State) (b : Byte) (c : Cell),
    s.held = false → s.framer.state ≠ .hunt → s.framer.bytes.length = 95 → s.framer.handOn = true →
    Cell.ofBytes (s.framer.bytes ++ [b]) = some c → c.kind = .media →
    ((∀ e ∈ s.directory[foldBank c.tag], e.tag ≠ c.tag) →
      exec (.feedByte b) s =
        .next
          { s with
            framer.bytes := [], framer.handOn := false, framer.tagMiss := min 65535 (s.framer.tagMiss + 1) }) ∧
    (∀ e, s.directory[foldBank c.tag].find? (·.tag == c.tag) = some e → c.mark = .clear →
      ∃ t, exec (.feedByte b) s = .next t ∧ offeredTo (s.hit e c) e.service e.role c t)

/-- A scrambled cell of a service with a key family takes the parity step first. With a live key in the slot its mark
names and clear byte 0 equal to the check byte, the deciphered cell goes to the lanes marked CLEAR, its other fields as
they came (R14, R42, R45, R47, R48). -/
def Obligations.scrambled_cell_good : Prop :=
  ∀ (s : State) (b : Byte) (c : Cell) (p : Parity) (e : DirEntry) (r : ServiceRec) (f : Fin 32) (key : Key),
    s.held = false → s.framer.state ≠ .hunt → s.framer.bytes.length = 95 → s.framer.handOn = true →
    Cell.ofBytes (s.framer.bytes ++ [b]) = some c → c.kind = .media → c.mark = .scrambled p →
    s.directory[foldBank c.tag].find? (·.tag == c.tag) = some e →
    s.service? e.service = some r → r.family = some f →
    ((s.keys[f].parityStep p).slot p).live = some key →
    (decipher key c.seq 0 c.payload).head? = some key.check →
    ∃ t, exec (.feedByte b) s = .next t ∧
      offeredTo { s.hit e c with keys := s.keys.set f (s.keys[f].parityStep p) } e.service e.role
        { c with mark := .clear, payload := decipher key c.seq 0 c.payload } t

/-- The three key-misses: no family named, no live key in the slot the mark names, or a clear byte 0 that differs from
the check byte. The cell reaches no lane; the family, if there is one, takes the parity step and counts the miss, and
every lane that selects the service is told of it (R42, R45, R47, R49, R50, R70). -/
def Obligations.scrambled_cell_key_miss : Prop :=
  ∀ (s : State) (b : Byte) (c : Cell) (p : Parity) (e : DirEntry),
    s.held = false → s.framer.state ≠ .hunt → s.framer.bytes.length = 95 → s.framer.handOn = true →
    Cell.ofBytes (s.framer.bytes ++ [b]) = some c → c.kind = .media → c.mark = .scrambled p →
    s.directory[foldBank c.tag].find? (·.tag == c.tag) = some e →
    ((∀ r, s.service? e.service = some r → r.family = none) →
      ∃ t, exec (.feedByte b) s = .next t ∧ keyMissTold (s.hit e c) e.service t) ∧
    (∀ (r : ServiceRec) (f : Fin 32), s.service? e.service = some r → r.family = some f →
      (∀ key, ((s.keys[f].parityStep p).slot p).live = some key →
        (decipher key c.seq 0 c.payload).head? ≠ some key.check) →
      ∃ t, exec (.feedByte b) s = .next t ∧
        keyMissTold
          { s.hit e c with
            keys := s.keys.set f
              { s.keys[f].parityStep p with keyMisses := min 65535 (s.keys[f].keyMisses + 1) } }
          e.service t)

/-- The first scrambled cell sets the parity last seen, a cell of the same parity changes nothing, and a turn notes the
new parity and promotes the staged key, if there is one, in the slot just left alone (R43, R44). -/
def Obligations.parity_step_promotes_at_a_turn : Prop :=
  ∀ (f : KeyFamily) (p : Parity),
    (f.parity = none → f.parityStep p = { f with parity := some p }) ∧
    (f.parity = some p → f.parityStep p = f) ∧
    (∀ q, f.parity = some q → q ≠ p →
      (f.parityStep p).parity = some p ∧ (f.parityStep p).keyMisses = f.keyMisses ∧
      (f.parityStep p).slot p = f.slot p ∧
      (∀ k, (f.slot q).staged = some k → (f.parityStep p).slot q = { live := some k, staged := none }) ∧
      ((f.slot q).staged = none → (f.parityStep p).slot q = f.slot q))

/-- Clear byte j is the scrambled byte XOR keystream byte j, which is the sum of the key byte of index j mod 8,
73 × j and 151 × s, reduced modulo 256 (R46, R47). -/
def Obligations.deciphering_follows_the_keystream : Prop :=
  ∀ (k : Key) (seq : Nat) (payload : List Byte),
    (decipher k seq 0 payload).length = payload.length ∧
    ∀ (j : Nat) (h : j < payload.length),
      (decipher k seq 0 payload)[j]? =
        some (payload[j] ^^^
          BitVec.ofNat 8 (((k.bytes[j % 8]'(Nat.mod_lt j (by decide))).toNat + 73 * j + 151 * seq) % 256))

/-- KEY-PUT: taken, it puts the key live in an idle slot and clears the slot's staged key, and stages it in the slot in
use; the other slot, the parity and the count stay. KEY-WIPE clears both slots and the parity last seen and keeps the
count. Each is refused for a family above 31, KEY-PUT also for a parity above 1, with the refused count alone changed
(R37, R38, R39, R40, R165). -/
def Obligations.key_put_and_key_wipe : Prop :=
  ∀ s : State, s.held = false →
    (∀ (b : KeyPutBody) (f : Fin 32) (p : Parity), b.family = f.val → b.parity = (if p = .even then 0 else 1) →
      ∃ g : KeyFamily,
        exec (.keyPut b) s =
          .next { s with counts.taken := min 65535 (s.counts.taken + 1), keys := s.keys.set f g } ∧
        g.parity = s.keys[f].parity ∧ g.keyMisses = s.keys[f].keyMisses ∧
        (∀ q, q ≠ p → g.slot q = s.keys[f].slot q) ∧
        (s.keys[f].parity = some p →
          g.slot p = { live := (s.keys[f].slot p).live, staged := some { bytes := b.key, check := b.check } }) ∧
        (s.keys[f].parity ≠ some p →
          g.slot p = { live := some { bytes := b.key, check := b.check }, staged := none })) ∧
    (∀ b : KeyPutBody, 31 < b.family ∨ 1 < b.parity →
      exec (.keyPut b) s = .next { s with counts.refused := min 65535 (s.counts.refused + 1) }) ∧
    (∀ f : Fin 32,
      exec (.keyWipe f.val) s =
        .next
          { s with
            counts.taken := min 65535 (s.counts.taken + 1)
            keys := s.keys.set f
              { parity := none, even := ⟨none, none⟩, odd := ⟨none, none⟩, keyMisses := s.keys[f].keyMisses } }) ∧
    (∀ n : Nat, 31 < n →
      exec (.keyWipe n) s = .next { s with counts.refused := min 65535 (s.counts.refused + 1) })

/-! ## Services (chapter 2) -/

/-- The field tests of SVC-PUT are those of R23 and no others, and a body that passes them gives a record with its
fields, the rating clamped to 7 and every component with no expectation and no discontinuity (R23). -/
def Obligations.svc_put_field_tests : Prop :=
  ∀ b : SvcPutBody,
    (serviceOf b = none ↔
      b.service = 0 ∨ 999 < b.service ∨ 1 < b.kind ∨ (∃ f, b.family = some f ∧ 31 < f) ∨ b.title = some 0 ∨
        (b.title.isSome = true ∧ b.kind = 0) ∨ b.components = [] ∨ 6 < b.components.length ∨
        (∃ k ∈ b.components, 4095 < k.tag) ∨ (∃ k ∈ b.components, 3 < k.role) ∨
        ¬ (b.components.map ComponentField.tag).Nodup) ∧
    ∀ r, serviceOf b = some r →
      r.number = b.service ∧ (r.kind = .pay ↔ b.kind = 1) ∧ r.family.map Fin.val = b.family ∧
        r.rating = min 7 b.rating ∧ r.title = b.title ∧
        r.components.map (fun k => (k.tag, k.role.toField)) = b.components.map (fun k => (k.tag, k.role)) ∧
        ∀ k ∈ r.components, k.expect = none ∧ k.discs = 0

/-- SVC-PUT: a body that fails a field test or the placement test changes the refused count alone. One that passes both
is loaded whole: its record with continuity carried over by tag, its directory entries in their fold banks in place of
the service's old ones, and a cause to the lanes that select it when it is new or its kind, rating, key family or title
on air differ (R23, R24, R25, R26). -/
def Obligations.svc_put_loads_a_service : Prop :=
  ∀ (s : State) (b : SvcPutBody), s.held = false → s.rentals.length ≤ 16 → directoryInv s →
    (serviceOf b = none →
      exec (.svcPut b) s = .next { s with counts.refused := min 65535 (s.counts.refused + 1) }) ∧
    ∀ r, serviceOf b = some r →
      ((∃ k ∈ r.components, ∃ (i : Fin 4) (e : DirEntry), e ∈ s.directory[i] ∧ e.tag = k.tag ∧ e.service ≠ r.number) ∨
        (∃ i : Fin 4, 16 < (s.directory[i].filter (·.service != r.number)).length +
          (r.components.filter fun k => foldBank k.tag == i).length) ∨
        (s.service? r.number = none ∧ 48 ≤ s.services.length) →
        exec (.svcPut b) s = .next { s with counts.refused := min 65535 (s.counts.refused + 1) }) ∧
      ((∀ k ∈ r.components, ∀ (i : Fin 4) (e : DirEntry), e ∈ s.directory[i] → e.tag = k.tag → e.service = r.number) →
        (∀ i : Fin 4, (s.directory[i].filter (·.service != r.number)).length +
          (r.components.filter fun k => foldBank k.tag == i).length ≤ 16) →
        ((s.service? r.number).isSome = true ∨ s.services.length < 48) →
        ∃ u t, exec (.svcPut b) s = .next t ∧
          u = { s with counts.taken := min 65535 (s.counts.taken + 1), services := u.services,
                       directory := u.directory } ∧
          (u.services.map ServiceRec.number).Pairwise (· < ·) ∧
          (∀ x, x ∈ u.services ↔
            (x ∈ s.services ∧ x.number ≠ r.number) ∨
              x = { r with components := r.components.map fun k =>
                match ((s.service? r.number).map ServiceRec.components).getD [] |>.find? (·.tag == k.tag) with
                | some o => { k with expect := o.expect, discs := o.discs }
                | none => k }) ∧
          (∀ (i : Fin 4) (e : DirEntry), e ∈ u.directory[i] ↔
            (e ∈ s.directory[i] ∧ e.service ≠ r.number) ∨
              (i = foldBank e.tag ∧ e.service = r.number ∧ ∃ k ∈ r.components, k.tag = e.tag ∧ k.role = e.role)) ∧
          causesSent u
            (fun n => s.lanes[n].service = some r.number ∧
              ∀ o, s.service? r.number = some o →
                o.kind ≠ r.kind ∨ o.rating ≠ r.rating ∨ o.family ≠ r.family ∨ o.title ≠ r.title)
            t)

/-- SVC-DROP removes a loaded service with its directory entries and sends a cause to the lanes that select it, changes
nothing for a service that is not loaded, and is refused for a number out of range. ON-AIR sets the title on air of a
loaded PAY service and sends a cause to those lanes when it changed; in every other case it is refused (R28, R29). -/
def Obligations.svc_drop_and_on_air : Prop :=
  ∀ (s : State) (n : Nat), s.held = false → s.rentals.length ≤ 16 →
    (n = 0 ∨ 999 < n →
      exec (.svcDrop n) s = .next { s with counts.refused := min 65535 (s.counts.refused + 1) }) ∧
    (1 ≤ n → n ≤ 999 → s.service? n = none →
      exec (.svcDrop n) s = .next { s with counts.taken := min 65535 (s.counts.taken + 1) }) ∧
    (1 ≤ n → n ≤ 999 → (s.service? n).isSome = true →
      ∃ t, exec (.svcDrop n) s = .next t ∧
        causesSent
          { s with
            counts.taken := min 65535 (s.counts.taken + 1)
            services := s.services.filter (·.number != n)
            directory := mapEach (fun bank => bank.filter (·.service != n)) s.directory }
          (fun l => s.lanes[l].service = some n) t) ∧
    (∀ title : Option Nat,
      (n = 0 ∨ 999 < n ∨ title = some 0 ∨ (∀ r, s.service? n = some r → r.kind = .free) →
        exec (.onAir n title) s = .next { s with counts.refused := min 65535 (s.counts.refused + 1) }) ∧
      (∀ r, 1 ≤ n → n ≤ 999 → title ≠ some 0 → s.service? n = some r → r.kind = .pay →
        ∃ t, exec (.onAir n title) s = .next t ∧
          causesSent
            { s with
              counts.taken := min 65535 (s.counts.taken + 1)
              services := s.services.map fun x => if x.number = n then { x with title := title } else x }
            (fun l => s.lanes[l].service = some n ∧ r.title ≠ title) t))

/-! ## Lanes (chapter 4) -/

/-- PICK purges a queue whose lane's selection differs, sets the selection, has the lane evaluate and answers DONE with
state, selection and title in view; for a lane or a service out of range it answers BAD_ARG (R61, R66). -/
def Obligations.pick_selects_and_evaluates : Prop :=
  ∀ (s : State) (k : Option Nat), s.held = false → s.rentals.length ≤ 16 →
    (∀ lane : Nat, (3 < lane ∨ k = some 0 ∨ ∃ x, k = some x ∧ 999 < x) →
      exec (.pick lane k) s = .next (s.placeReply 0x01 .badArg [])) ∧
    (∀ n : Fin 4, (∀ x, k = some x → 1 ≤ x ∧ x ≤ 999) →
      ∃ u, exec (.pick n.val k) s =
          .next (u.placeReply 0x01 .done
            (bytesOf 1 u.lanes[n].state.toField ++ optBytes (bytesOf 2) u.lanes[n].service ++
              optBytes (bytesOf 2) u.lanes[n].title)) ∧
        causesSent
          { s with
            lanes := s.lanes.set n
              (if s.lanes[n].service = k then s.lanes[n]
               else
                { s.lanes[n] with
                  service := k, queue := []
                  purged := min 65535 (s.lanes[n].purged + s.lanes[n].queue.length) }) }
          (fun m => m = n) u)

/-- The screen port begins the oldest queued cell when ready is asserted and no cell is in transmission, and otherwise
begins nothing; at the cell-sent completion the sent count of the cell's kind rises by 1 and the port is free (R65).
That a command carries the level of the ready line (log entry 3), and that a completion with no cell in transmission
changes nothing (log entry 19), is the model's choice. -/
def Obligations.screen_port_sends_oldest_first : Prop :=
  ∀ (s : State) (n : Fin 4), s.held = false →
    exec (.screenPortBegin n false) s = .next { s with screenReady := s.screenReady.set n false } ∧
    (∀ (c : Cell) (q : List Cell), s.lanes[n].sending = none → s.lanes[n].queue = c :: q →
      exec (.screenPortBegin n true) s =
        .next
          { s with
            screenReady := s.screenReady.set n true
            lanes := s.lanes.set n { s.lanes[n] with sending := some c, queue := q } }) ∧
    (s.lanes[n].sending ≠ none ∨ s.lanes[n].queue = [] →
      exec (.screenPortBegin n true) s = .next { s with screenReady := s.screenReady.set n true }) ∧
    (∀ c, s.lanes[n].sending = some c →
      exec (.cellSent n) s =
        .next
          { s with
            lanes := s.lanes.set n
              (if c.kind = .fill then
                { s.lanes[n] with sending := none, fillSent := min 65535 (s.lanes[n].fillSent + 1) }
               else { s.lanes[n] with sending := none, mediaSent := min 65535 (s.lanes[n].mediaSent + 1) }) }) ∧
    (s.lanes[n].sending = none → exec (.cellSent n) s = .next s)

/-- ASK-LANE answers the lane record as it stands, with its effective ceiling and lease, and then clears the overrun
latch; a lane above 3 is answered BAD_ARG (R71, R72, R133). -/
def Obligations.ask_lane_reports_and_clears_the_latch : Prop :=
  ∀ s : State, s.held = false →
    (∀ lane : Nat, 3 < lane → exec (.askLane lane) s = .next (s.placeReply 0x06 .badArg [])) ∧
    ∀ n : Fin 4, ∃ ceiling : Nat,
      ceiling =
        (if (s.lock.leases[n]).isSome then s.lock.policy.houseLimit
         else min s.lock.roomCeiling (min s.lock.policy.laneCeilings[n] s.lock.policy.houseLimit)) ∧
      s.effectiveCeiling n = ceiling ∧
      exec (.askLane n.val) s =
        .next
          ({ s with lanes := s.lanes.set n { s.lanes[n] with latch := false } }.placeReply 0x06 .done
            (bytesOf 1 s.lanes[n].state.toField ++ optBytes (bytesOf 2) s.lanes[n].service ++
              optBytes (bytesOf 2) s.lanes[n].title ++ bytesOf 1 ceiling ++
              optBytes (bytesOf 2) s.lock.leases[n] ++ bytesOf 1 s.lanes[n].queue.length ++
              bytesOf 1 s.lanes[n].run ++ bytesOf 1 (if s.lanes[n].latch then 1 else 0) ++
              bytesOf 2 s.lanes[n].mediaSent ++ bytesOf 2 s.lanes[n].fillSent ++ bytesOf 2 s.lanes[n].overruns ++
              bytesOf 2 s.lanes[n].keyMisses ++ bytesOf 2 s.lanes[n].purged))

/-! ## Titles and rentals (chapter 5) -/

/-- TITLE-PUT places the entry with its quantities clamped, refused for title or alias 0 and for a new title at 32
entries; TITLE-DROP removes the entry, refused for title 0. Each that is taken, a drop of a title not catalogued apart,
sends a cause to the lanes whose selection is a PAY service with the title on air (R76, R77, R78). -/
def Obligations.title_put_and_drop : Prop :=
  ∀ s : State, s.held = false → s.rentals.length ≤ 16 → (s.catalog.map CatalogEntry.title).Pairwise (· < ·) →
    (∀ b : TitlePutBody,
      (b.title = 0 ∨ b.billAlias = 0 ∨ (s.catalog? b.title = none ∧ 32 ≤ s.catalog.length) →
        exec (.titlePut b) s = .next { s with counts.refused := min 65535 (s.counts.refused + 1) }) ∧
      (b.title ≠ 0 → b.billAlias ≠ 0 → ((s.catalog? b.title).isSome = true ∨ s.catalog.length < 32) →
        ∃ u t, exec (.titlePut b) s = .next t ∧
          u = { s with counts.taken := min 65535 (s.counts.taken + 1), catalog := u.catalog } ∧
          (u.catalog.map CatalogEntry.title).Pairwise (· < ·) ∧
          (∀ e, e ∈ u.catalog ↔
            (e ∈ s.catalog ∧ e.title ≠ b.title) ∨
              e = { title := b.title, rating := min 7 b.rating, basePrice := min 60000 b.basePrice,
                    window := max 600 (min 172800 b.window), preview := min 600 b.preview,
                    grace := min 900 b.grace, billAlias := b.billAlias }) ∧
          causesSent u
            (fun n => ∃ k r, s.lanes[n].service = some k ∧ s.service? k = some r ∧ r.kind = .pay ∧
              r.title = some b.title) t)) ∧
    exec (.titleDrop 0) s = .next { s with counts.refused := min 65535 (s.counts.refused + 1) } ∧
    ∀ x : Nat, x ≠ 0 →
      (s.catalog? x = none →
        exec (.titleDrop x) s = .next { s with counts.taken := min 65535 (s.counts.taken + 1) }) ∧
      ((s.catalog? x).isSome = true →
        ∃ t, exec (.titleDrop x) s = .next t ∧
          causesSent
            { s with
              counts.taken := min 65535 (s.counts.taken + 1)
              catalog := s.catalog.filter (·.title != x) }
            (fun n => ∃ k r, s.lanes[n].service = some k ∧ s.service? k = some r ∧ r.kind = .pay ∧
              r.title = some x) t)

/-- A BUY that passes its nine tests makes or reuses the title's record, with copies from the catalog and a fresh
window, appends a CHARGE of the computed amount under the next serial, moves the spend, tells the audit counters and
sends the causes, and is answered DONE with amount, serial and window (R89 to R93, R104, R122). -/
def Obligations.buy_taken_charges_and_activates : Prop :=
  ∀ (s : State) (n : Fin 4) (x : Nat) (pin : Option PinField) (e : CatalogEntry),
    s.held = false → s.rentals.length ≤ 16 → 1 ≤ x → x ≤ 65535 → s.room.state = .occupied →
    (∀ r, s.rental? x = some r → r.state ≠ .active) → s.catalog? x = some e →
    e.rating ≤ s.effectiveCeiling n →
    (s.room.purchasePin = true → s.lock.lockout = none ∧ pin.isSome = true ∧ s.lock.pin = pin) →
    ((s.rental? x).isSome = true ∨ s.rentals.length < 16 ∨
      ∃ r ∈ s.rentals, r.state = .expired ∧ r.refunded = false) →
    s.charges.length < 12 → s.nextSerial ≤ 16777215 →
    s.room.spend + s.live[s.room.cls].charge e.basePrice ≤ s.room.ceiling →
    ∃ u t, exec (.buy n.val x pin) s =
        .next (t.placeReply 0x02 .done
          (bytesOf 2 (s.live[s.room.cls].charge e.basePrice) ++ bytesOf 3 s.nextSerial ++ bytesOf 3 e.window)) ∧
      u =
        { s with
          rentals := u.rentals
          charges := s.charges ++
            [{ serial := s.nextSerial, kind := .charge, stay := s.room.stay, title := x, billAlias := e.billAlias,
               discreet := decide (s.lock.policy.discreet ≤ e.rating)
               amount := s.live[s.room.cls].charge e.basePrice
               stamp := if s.clock.timeSet then some s.clock.houseTime else none, reversed := none }]
          nextSerial := s.nextSerial + 1
          room.spend := s.room.spend + s.live[s.room.cls].charge e.basePrice
          lock.attempts := if s.room.purchasePin then 0 else s.lock.attempts
          counters :=
            (s.audit { kind := .purchases, lane := some n, service := none, rating := some e.rating }).counters } ∧
      ((s.rental? x).isSome = true →
        u.rentals = s.rentals.map fun r =>
          if r.title = x then
            { r with
              rating := e.rating, window := e.window, allowance := e.preview, grace := e.grace,
              billAlias := e.billAlias, previewSec := min r.previewSec e.preview, state := .active, viewedSec := 0,
              windowLeft := e.window, seen := false
              amount := some (s.live[s.room.cls].charge e.basePrice), serial := some s.nextSerial }
          else r) ∧
      (s.rental? x = none →
        u.rentals =
          (if s.rentals.length < 16 then s.rentals
           else s.rentals.eraseP fun r => r.state == .expired && !r.refunded) ++
            [{ title := x, rating := e.rating, window := e.window, allowance := e.preview, grace := e.grace,
               billAlias := e.billAlias, state := .active, previewSec := 0, viewedSec := 0, windowLeft := e.window,
               amount := some (s.live[s.room.cls].charge e.basePrice), serial := some s.nextSerial,
               refunded := false, seen := false }]) ∧
      causesSent u
        (fun m => s.lanes[m].title = some x ∨
          (s.rental? x = none ∧ 16 ≤ s.rentals.length ∧
            ∃ r, s.rentals.find? (fun r => r.state == .expired && !r.refunded) = some r ∧
              s.lanes[m].title = some r.title))
        t

/-- The tests of BUY in their order, each failing once those before it have passed, with its result, its fields and its
side effects: the PIN test's own, and the LIST_FULL and SPEND_CEILING alerts. Nothing else changes but the attempt count
that a PIN test passed at test 6 resets (R89, R90, R91, R93). -/
def Obligations.buy_turned_away : Prop :=
  ∀ (s : State) (lane x : Nat) (pin : Option PinField), s.held = false →
    (3 < lane ∨ x = 0 ∨ 65535 < x → exec (.buy lane x pin) s = .next (s.placeReply 0x02 .badArg [])) ∧
    ∀ n : Fin 4, lane = n.val → 1 ≤ x → x ≤ 65535 →
      (s.room.state = .vacant → exec (.buy lane x pin) s = .next (s.placeReply 0x02 .vacant [])) ∧
      (s.room.state = .occupied →
        (∀ r amount serial, s.rental? x = some r → r.state = .active → r.amount = some amount → r.serial = some serial →
          exec (.buy lane x pin) s =
            .next (s.placeReply 0x02 .already
              (bytesOf 2 amount ++ bytesOf 3 serial ++ bytesOf 3 r.windowLeft))) ∧
        ((∀ r, s.rental? x = some r → r.state ≠ .active) →
          (s.catalog? x = none → exec (.buy lane x pin) s = .next (s.placeReply 0x02 .notOffered [])) ∧
          ∀ e, s.catalog? x = some e →
            (s.effectiveCeiling n < e.rating → exec (.buy lane x pin) s = .next (s.placeReply 0x02 .locked [])) ∧
            (e.rating ≤ s.effectiveCeiling n →
              (∀ r, s.room.purchasePin = true → (s.pinTest n pin).1 = some r →
                exec (.buy lane x pin) s = .next ((s.pinTest n pin).2.placeReply 0x02 r [])) ∧
              ∀ u, (s.room.purchasePin = false ∧ u = s ∨
                  s.room.purchasePin = true ∧ (s.pinTest n pin).1 = none ∧ u = { s with lock.attempts := 0 }) →
                (s.rental? x = none → 16 ≤ s.rentals.length →
                  (∀ r ∈ s.rentals, r.state ≠ .expired ∨ r.refunded = true) →
                  exec (.buy lane x pin) s = .next (u.placeReply 0x02 .tableFull [])) ∧
                ((s.rental? x).isSome = true ∨ s.rentals.length < 16 ∨
                    (∃ r ∈ s.rentals, r.state = .expired ∧ r.refunded = false) →
                  (12 ≤ s.charges.length ∨ 16777215 < s.nextSerial →
                    exec (.buy lane x pin) s = .next ((u.latch .listFull).placeReply 0x02 .listFull [])) ∧
                  (s.charges.length < 12 → s.nextSerial ≤ 16777215 →
                    s.room.ceiling < s.room.spend + s.live[s.room.cls].charge e.basePrice →
                    exec (.buy lane x pin) s =
                      .next ((u.latch .spendCeiling).placeReply 0x02 .ceiling
                        (bytesOf 2 (s.live[s.room.cls].charge e.basePrice) ++ bytesOf 3 s.room.spend)))))))

/-- The tests of REFUND in their order with their results, and a REFUND that passes them: a CREDIT of the record's
amount that names the charge reversed, the spend lowered, the record VOID with its refunded flag set, the audit event
and the causes, answered DONE with amount and serial (R94, R95, R99, R122). -/
def Obligations.refund_credits_or_is_turned_away : Prop :=
  ∀ (s : State) (x : Nat), s.held = false → s.rentals.length ≤ 16 →
    (x = 0 ∨ 65535 < x → exec (.refund x) s = .next (s.placeReply 0x03 .badArg [])) ∧
    (1 ≤ x → x ≤ 65535 →
      ((∀ r, s.rental? x = some r → r.state ≠ .active) →
        exec (.refund x) s = .next (s.placeReply 0x03 .notRented [])) ∧
      ∀ r, s.rental? x = some r → r.state = .active →
        (r.refunded = true → exec (.refund x) s = .next (s.placeReply 0x03 .refundedBefore [])) ∧
        (r.refunded = false → r.grace ≤ r.viewedSec →
          exec (.refund x) s = .next (s.placeReply 0x03 .gracePassed [])) ∧
        (r.refunded = false → r.viewedSec < r.grace → 12 ≤ s.charges.length ∨ 16777215 < s.nextSerial →
          exec (.refund x) s = .next ((s.latch .listFull).placeReply 0x03 .listFull [])) ∧
        (∀ amount, r.refunded = false → r.viewedSec < r.grace → s.charges.length < 12 → s.nextSerial ≤ 16777215 →
          r.amount = some amount →
          ∃ t, exec (.refund x) s =
              .next (t.placeReply 0x03 .done (bytesOf 2 amount ++ bytesOf 3 s.nextSerial)) ∧
            causesSent
              { s with
                rentals := s.rentals.map fun y =>
                  if y.title = x then { y with state := .void, refunded := true, windowLeft := 0 } else y
                charges := s.charges ++
                  [{ serial := s.nextSerial, kind := .credit, stay := s.room.stay, title := x,
                     billAlias := r.billAlias, discreet := decide (s.lock.policy.discreet ≤ r.rating)
                     amount := amount
                     stamp := if s.clock.timeSet then some s.clock.houseTime else none, reversed := r.serial }]
                nextSerial := s.nextSerial + 1
                room.spend := s.room.spend - amount
                counters :=
                  (s.audit { kind := .refunds, lane := none, service := none, rating := some r.rating }).counters }
              (fun m => s.lanes[m].title = some x) t))

/-- ASK-TITLE answers the catalog part with the price now and the record part, each absent when there is none, and
BAD_ARG for title 0; ASK-ROOM answers the room, lock, framer and time fields. Neither changes anything (R97, R129). -/
def Obligations.ask_title_and_ask_room : Prop :=
  ∀ s : State, s.held = false →
    exec (.askTitle 0) s = .next (s.placeReply 0x07 .badArg []) ∧
    (∀ x : Nat, 1 ≤ x → x ≤ 65535 → ∃ part1 part2,
      exec (.askTitle x) s = .next (s.placeReply 0x07 .done (part1 ++ part2)) ∧
      (s.catalog? x = none → part1 = [0]) ∧
      (∀ e, s.catalog? x = some e →
        part1 = 1 :: (bytesOf 1 e.rating ++ bytesOf 2 e.basePrice ++ bytesOf 3 e.window ++ bytesOf 2 e.preview ++
          bytesOf 2 e.grace ++ bytesOf 2 e.billAlias ++ bytesOf 2 (s.live[s.room.cls].charge e.basePrice))) ∧
      (s.rental? x = none → part2 = [0]) ∧
      (∀ r, s.rental? x = some r →
        part2 = 1 :: (bytesOf 1 r.state.toField ++ bytesOf 1 r.rating ++ bytesOf 2 r.allowance ++
          bytesOf 2 r.previewSec ++ bytesOf 3 r.viewedSec ++ bytesOf 2 r.grace ++ bytesOf 3 r.windowLeft ++
          optBytes (bytesOf 2) r.amount ++ optBytes (bytesOf 3) r.serial ++
          bytesOf 1 (if r.refunded then 1 else 0)))) ∧
    exec .askRoom s =
      .next (s.placeReply 0x08 .done
        (bytesOf 1 s.room.state.toField ++ bytesOf 2 s.room.stay ++ bytesOf 1 s.room.cls.val ++
          bytesOf 3 s.room.spend ++ bytesOf 3 s.room.ceiling ++ bytesOf 1 (if s.room.purchasePin then 1 else 0) ++
          bytesOf 1 s.lock.roomCeiling ++ bytesOf 1 (if s.lock.pin.isSome then 1 else 0) ++
          optBytes (bytesOf 2) s.lock.lockout ++ bytesOf 1 s.framer.state.toField ++
          optBytes (bytesOf 4) (if s.clock.timeSet then some s.clock.houseTime else none) ++
          bytesOf 1 s.charges.length))

/-! ## The tariff (chapter 6) -/

/-- The five stages of the charge computation: pre-offset floored at 0, scale in 256ths rounded half up, post-offset
saturated to 0..65,535, limits with the low test first, and the result handed over as it is (R105 to R109). -/
def Obligations.tariff_stages : Prop :=
  ∀ (t : TariffSet) (p : Nat), ∃ x1 x2 x3 : Nat,
    ((p : Int) + t.preOffset < 0 → x1 = 0) ∧ (0 ≤ (p : Int) + t.preOffset → (x1 : Int) = p + t.preOffset) ∧
    256 * x2 ≤ x1 * t.scale + 128 ∧ x1 * t.scale + 128 < 256 * (x2 + 1) ∧
    ((x2 : Int) + t.postOffset < 0 → x3 = 0) ∧ (65535 < (x2 : Int) + t.postOffset → x3 = 65535) ∧
    (0 ≤ (x2 : Int) + t.postOffset → (x2 : Int) + t.postOffset ≤ 65535 → (x3 : Int) = x2 + t.postOffset) ∧
    (x3 < t.lowCompare → t.charge p = t.lowSet) ∧
    (t.lowCompare ≤ x3 → t.highCompare < x3 → t.charge p = t.highSet) ∧
    (t.lowCompare ≤ x3 → x3 ≤ t.highCompare → t.charge p = x3)

/-! ## Stays and the charge list (chapter 7) -/

/-- STAY-OPEN: refused for stay 0, a class above 3, a flag above 1 or a PIN that is not four digits. Taken, it opens a
VACANT room with the staged tariff sets made live, updates the open stay it names in place, or closes another stay and
opens its own in one; each raises ROOM_CHANGED and sends one cause to every lane (R103, R115 to R118, R137, R138). -/
def Obligations.stay_open_opens_updates_or_replaces : Prop :=
  ∀ (s : State) (b : StayOpenBody), s.held = false → s.rentals.length ≤ 16 →
    (b.stay = 0 ∨ 3 < b.cls ∨ 1 < b.purchasePin ∨
        (∃ p, b.pin = some p ∧ (9 < p.d0 ∨ 9 < p.d1 ∨ 9 < p.d2 ∨ 9 < p.d3)) →
      exec (.stayOpen b) s = .next { s with counts.refused := min 65535 (s.counts.refused + 1) }) ∧
    ∀ (cls : Fin 4) (flag : Bool), b.stay ≠ 0 → b.cls = cls.val → b.purchasePin = (if flag then 1 else 0) →
      (∀ p, b.pin = some p → p.d0 ≤ 9 ∧ p.d1 ≤ 9 ∧ p.d2 ≤ 9 ∧ p.d3 ≤ 9) →
      (s.room.state = .vacant →
        ∃ t, exec (.stayOpen b) s = .next t ∧
          causesSent
            { s with
              counts.taken := min 65535 (s.counts.taken + 1)
              live := s.staged
              room := { state := .occupied, stay := b.stay, cls := cls, spend := 0, ceiling := min 1000000 b.ceiling,
                        purchasePin := flag, staleStays := s.room.staleStays }
              lock.pin := b.pin, lock.roomCeiling := min 7 b.roomCeiling
              codes := (s.raiseCode 2).codes }
            (fun _ => True) t) ∧
      (s.room.state = .occupied → b.stay = s.room.stay →
        ∃ t, exec (.stayOpen b) s = .next t ∧
          causesSent
            { s with
              counts.taken := min 65535 (s.counts.taken + 1)
              room.cls := cls, room.ceiling := min 1000000 b.ceiling, room.purchasePin := flag
              lock.attempts := if b.pin = s.lock.pin then s.lock.attempts else 0
              lock.pin := b.pin, lock.roomCeiling := min 7 b.roomCeiling
              codes := (s.raiseCode 2).codes }
            (fun _ => True) t) ∧
      (s.room.state = .occupied → b.stay ≠ s.room.stay →
        ∃ t, exec (.stayOpen b) s = .next t ∧
          causesSent
            { s with
              counts.taken := min 65535 (s.counts.taken + 1)
              live := s.staged
              rentals := []
              room := { state := .occupied, stay := b.stay, cls := cls, spend := 0, ceiling := min 1000000 b.ceiling,
                        purchasePin := flag, staleStays := s.room.staleStays }
              lock.pin := b.pin, lock.roomCeiling := min 7 b.roomCeiling, lock.attempts := 0
              lock.lockout := none, lock.leases := .replicate 4 none
              codes := (s.raiseCode 2).codes }
            (fun _ => True) t)

/-- STAY-CLOSE of the open stay empties the room, the rental table and the stay's lock state, raises ROOM_CHANGED and
sends one cause to every lane; of any other stay it is ignored and counted stale; of stay 0 it is refused (R120, R121,
R138). -/
def Obligations.stay_close_closes_its_own_stay : Prop :=
  ∀ (s : State) (k : Nat), s.held = false → s.rentals.length ≤ 16 →
    (k = 0 → exec (.stayClose k) s = .next { s with counts.refused := min 65535 (s.counts.refused + 1) }) ∧
    (k ≠ 0 → s.room.state = .vacant ∨ k ≠ s.room.stay →
      exec (.stayClose k) s =
        .next
          { s with
            counts.taken := min 65535 (s.counts.taken + 1), room.staleStays := min 65535 (s.room.staleStays + 1) }) ∧
    (k ≠ 0 → s.room.state = .occupied → k = s.room.stay →
      ∃ t, exec (.stayClose k) s = .next t ∧
        causesSent
          { s with
            counts.taken := min 65535 (s.counts.taken + 1)
            rentals := []
            room.state := .vacant, room.spend := 0, room.purchasePin := false
            lock.pin := none, lock.attempts := 0, lock.lockout := none, lock.leases := .replicate 4 none
            lock.roomCeiling := s.lock.policy.defaultCeiling
            codes := (s.raiseCode 2).codes }
          (fun _ => True) t)

/-- The three polls build their bodies from the state as it stands and offer them to the report queue, or add 1 to the
polls-missed count when it holds six; CHARGE-ACK removes the records with its serial or a lower one and nothing else
(R125, R126, R127, R160, R168, R169). A STATUS-RPT holds the nine parts of R168: unit, alerts, cell path, lanes, room, the
lock block of R146, time, the service list of R33 and the family list of R52; a COUNT-RPT holds house time and the four
entries of R160. Enumerated fields are numbered from 0 in the order in which they are listed, and an optional field has its
presence byte (R183). That a STATUS-RPT already counts its own poll as taken (log entry 6), and that the groups of fixed size,
such as the four counter entries, carry no count byte (log entry 8), is the model's reading. -/
def Obligations.polls_offer_reports_and_ack_removes : Prop :=
  ∀ s : State, s.held = false →
    (6 ≤ s.reports.length → ∀ c, c = Instr.chargePoll ∨ c = Instr.statusPoll ∨ c = Instr.countPoll →
      exec c s =
        .next
          { s with
            counts.taken := min 65535 (s.counts.taken + 1)
            counts.pollsMissed := min 65535 (s.counts.pollsMissed + 1) }) ∧
    (s.reports.length < 6 →
      exec .chargePoll s =
        .next
          { s with
            counts.taken := min 65535 (s.counts.taken + 1)
            reports := s.reports ++
              [{ kind := .charge
                 body := some (bytesOf 1 s.charges.length ++ bytesOf 4 s.nextSerial ++
                  (bytesOf 1 (min 4 s.charges.length) ++ (s.charges.take 4).flatMap fun c =>
                    bytesOf 3 c.serial ++ bytesOf 1 c.kind.toField ++ bytesOf 2 c.stay ++
                      (if c.discreet then bytesOf 2 0 ++ 1 :: bytesOf 2 c.billAlias else bytesOf 2 c.title ++ [0]) ++
                      bytesOf 2 c.amount ++ optBytes (bytesOf 4) c.stamp ++ optBytes (bytesOf 3) c.reversed)) }] } ∧
      exec .statusPoll s =
        .next
          { s with
            counts.taken := min 65535 (s.counts.taken + 1)
            reports := s.reports ++
              [{ kind := .status
                 body := some
                  ((s.groups.toList.flatMap (bytesOf 2) ++ bytesOf 2 (min 65535 (s.counts.taken + 1)) ++
                      bytesOf 2 s.counts.crcBad ++ bytesOf 2 s.counts.malformed ++ bytesOf 2 s.counts.refused ++
                      bytesOf 2 s.counts.pollsMissed) ++
                    (s.alerts.toList.flatMap fun a => bytesOf 1 a.toField) ++
                    (bytesOf 1 s.framer.state.toField ++ bytesOf 2 s.framer.taken ++ bytesOf 2 s.framer.syncBad ++
                      bytesOf 2 s.framer.headerBad ++ bytesOf 2 s.framer.tagMiss ++ bytesOf 2 s.framer.syncLosses) ++
                    (s.lanes.toList.flatMap fun l => bytesOf 1 l.state.toField ++ optBytes (bytesOf 2) l.service) ++
                    (bytesOf 1 s.room.state.toField ++ bytesOf 2 s.room.stay ++ bytesOf 3 s.room.spend ++
                      bytesOf 3 s.room.ceiling ++ bytesOf 1 s.charges.length ++ bytesOf 4 s.nextSerial ++
                      bytesOf 2 s.room.staleStays) ++
                    (bytesOf 1 s.lock.policy.houseLimit ++ bytesOf 1 s.lock.policy.defaultCeiling ++
                      s.lock.policy.laneCeilings.toList.flatMap (bytesOf 1) ++
                      (s.lock.policy.barred.toList.flatMap fun b => bytesOf 1 b.toNat) ++
                      bytesOf 2 s.lock.policy.leaseLength ++ bytesOf 1 s.lock.policy.discreet ++
                      bytesOf 1 s.lock.roomCeiling ++ bytesOf 1 s.lock.pin.isSome.toNat ++
                      bytesOf 1 s.lock.attempts ++ optBytes (bytesOf 2) s.lock.lockout ++
                      s.lock.leases.toList.flatMap (optBytes (bytesOf 2))) ++
                    (bytesOf 1 s.clock.timeSet.toNat ++
                      optBytes (bytesOf 4) (if s.clock.timeSet then some s.clock.houseTime else none)) ++
                    (bytesOf 1 s.services.length ++ s.services.flatMap fun r =>
                      bytesOf 2 r.number ++ bytesOf 1 r.kind.toField ++
                        optBytes (fun f : Fin 32 => bytesOf 1 f.val) r.family ++ bytesOf 1 r.rating ++
                        optBytes (bytesOf 2) r.title ++
                        (bytesOf 1 r.components.length ++ r.components.flatMap fun k =>
                          bytesOf 2 k.tag ++ bytesOf 1 k.role.toField ++ bytesOf 2 k.discs)) ++
                    (bytesOf 1 32 ++ s.keys.toList.flatMap fun f =>
                      bytesOf 1 (match f.parity with
                        | none => 0
                        | some .even => 1
                        | some .odd => 2) ++
                        bytesOf 1 f.even.live.isSome.toNat ++ bytesOf 1 f.even.staged.isSome.toNat ++
                        bytesOf 1 f.odd.live.isSome.toNat ++ bytesOf 1 f.odd.staged.isSome.toNat ++
                        bytesOf 2 f.keyMisses)) }] } ∧
      exec .countPoll s =
        .next
          { s with
            counts.taken := min 65535 (s.counts.taken + 1)
            reports := s.reports ++
              [{ kind := .count
                 body := some (optBytes (bytesOf 4) (if s.clock.timeSet then some s.clock.houseTime else none) ++
                  s.counters.toList.flatMap fun c =>
                    bytesOf 1 c.setup.isSome.toNat ++
                      optBytes (fun u : Setup => bytesOf 1 u.kind.toField ++
                        (match u.filter with
                          | .none => bytesOf 1 0
                          | .service n => bytesOf 1 1 ++ bytesOf 2 n
                          | .lanes fs => bytesOf 1 2 ++ fs.toList.flatMap fun b => bytesOf 1 b.toNat
                          | .ratingAtLeast k => bytesOf 1 3 ++ bytesOf 1 k)) c.setup ++
                      optBytes (fun o : Occupancy => (o.states.toList.flatMap fun b => bytesOf 1 b.toNat) ++
                        bytesOf 1 o.mode.toField ++ bytesOf 1 o.threshold) (c.setup.bind Setup.occupancy) ++
                      bytesOf 4 c.value) }] }) ∧
    [LaneState.idle, .absent, .clear, .preview, .rented, .offer, .locked].map LaneState.toField =
      [0, 1, 2, 3, 4, 5, 6] ∧
    [FramerState.hunt, .confirm, .locked].map FramerState.toField = [0, 1, 2] ∧
    [AlertState.clear, .latched, .reported].map AlertState.toField = [0, 1, 2] ∧
    [RoomState.vacant, .occupied].map RoomState.toField = [0, 1] ∧
    [ChargeKind.charge, .credit].map ChargeKind.toField = [0, 1] ∧
    [ServiceKind.free, .pay].map ServiceKind.toField = [0, 1] ∧
    [RentalState.preview, .spent, .active, .expired, .void].map RentalState.toField = [0, 1, 2, 3, 4] ∧
    [Role.picture, .sound, .caption, .data].map Role.toField = [0, 1, 2, 3] ∧
    [EventKind.viewSeconds, .previewSeconds, .rentedSeconds, .purchases, .refunds, .lockSeconds, .pinFailures,
      .keyMisses, .overruns, .occupancy].map EventKind.toField = [0, 1, 2, 3, 4, 5, 6, 7, 8, 9] ∧
    [OccupancyMode.sum, .atLeast, .rise].map OccupancyMode.toField = [0, 1, 2] ∧
    (∀ (α : Type) (f : α → List Byte), optBytes f none = [0] ∧ ∀ x, optBytes f (some x) = 1 :: f x) ∧
    ∀ n : Nat,
      exec (.chargeAck n) s =
        .next
          { s with
            counts.taken := min 65535 (s.counts.taken + 1)
            charges := s.charges.filter fun c => decide (n < c.serial) }

/-! ## The lock unit (chapter 8) -/

/-- LOCK-SET replaces the policy whole with its quantities clamped, gives a VACANT room the new default ceiling, ends
the leases of barred lanes and sends every lane a cause; it is refused for a flag above 1 (R134, R135, R136). -/
def Obligations.lock_set_replaces_the_policy : Prop :=
  ∀ (s : State) (b : LockSetBody), s.held = false → s.rentals.length ≤ 16 →
    ((∃ i : Fin 4, 1 < b.barred[i]) →
      exec (.lockSet b) s = .next { s with counts.refused := min 65535 (s.counts.refused + 1) }) ∧
    ((∀ i : Fin 4, b.barred[i] ≤ 1) →
      ∃ u t, exec (.lockSet b) s = .next t ∧
        u =
          { s with
            counts.taken := min 65535 (s.counts.taken + 1)
            lock.policy :=
              { houseLimit := min 7 b.houseLimit, defaultCeiling := min 7 b.defaultCeiling
                laneCeilings := u.lock.policy.laneCeilings, barred := u.lock.policy.barred
                leaseLength := max 300 (min 43200 b.leaseLength), discreet := min 8 b.discreet }
            lock.roomCeiling := if s.room.state = .vacant then min 7 b.defaultCeiling else s.lock.roomCeiling
            lock.leases := u.lock.leases } ∧
        (∀ i : Fin 4,
          u.lock.policy.laneCeilings[i] = min 7 b.laneCeilings[i] ∧
          u.lock.policy.barred[i] = decide (b.barred[i] = 1) ∧
          u.lock.leases[i] = if b.barred[i] = 1 then none else s.lock.leases[i]) ∧
        causesSent u (fun _ => True) t)

/-- The PIN test's outcomes in their order: LOCKED_OUT, NO_PIN, BAD_PIN with the attempt counted and reported, the third
failure starting a lockout of 900 s with its alert and code 3, and passed with the count reset (R140, R141, R147). -/
def Obligations.pin_test_outcomes : Prop :=
  ∀ (s : State) (n : Fin 4) (pin : Option PinField),
    (s.lock.lockout ≠ none → s.pinTest n pin = (some .lockedOut, s)) ∧
    (s.lock.lockout = none → s.lock.pin = none → s.pinTest n pin = (some .noPin, s)) ∧
    (∀ p, s.lock.lockout = none → s.lock.pin = some p → pin = some p →
      s.pinTest n pin = (none, { s with lock.attempts := 0 })) ∧
    (∀ p, s.lock.lockout = none → s.lock.pin = some p → pin ≠ some p →
      ∃ t, s.pinTest n pin = (some .badPin, t) ∧
        t.counters = (s.audit { kind := .pinFailures, lane := some n, service := none, rating := none }).counters ∧
        (s.lock.attempts < 2 → t = { s with counters := t.counters, lock.attempts := s.lock.attempts + 1 }) ∧
        (2 ≤ s.lock.attempts →
          t = { s with
                counters := t.counters, lock.attempts := 0, lock.lockout := some 900
                alerts := (s.latch .pinLockout).alerts, reports := (s.latch .pinLockout).reports
                owed := (s.latch .pinLockout).owed, codes := (s.raiseCode 3).codes }))

/-- UNLOCK's tests in their order, and a lease of the policy's length for the lane when they pass; RELOCK ends a lease,
if there is one, for any lane in any room state. Each answers with the lane's state as the request leaves it (R142,
R144). -/
def Obligations.unlock_and_relock : Prop :=
  ∀ s : State, s.held = false → s.rentals.length ≤ 16 →
    (∀ (lane : Nat) (pin : Option PinField), 3 < lane →
      exec (.unlock lane pin) s = .next (s.placeReply 0x04 .badArg []) ∧
      exec (.relock lane) s = .next (s.placeReply 0x05 .badArg [])) ∧
    ∀ (n : Fin 4) (pin : Option PinField),
      (s.room.state = .vacant → exec (.unlock n.val pin) s = .next (s.placeReply 0x04 .vacant [])) ∧
      (s.room.state = .occupied → s.lock.policy.barred[n] = true →
        exec (.unlock n.val pin) s = .next (s.placeReply 0x04 .barred [])) ∧
      (∀ r, s.room.state = .occupied → s.lock.policy.barred[n] = false → (s.pinTest n pin).1 = some r →
        exec (.unlock n.val pin) s = .next ((s.pinTest n pin).2.placeReply 0x04 r [])) ∧
      (∀ p, s.room.state = .occupied → s.lock.policy.barred[n] = false → s.lock.lockout = none →
        s.lock.pin = some p → pin = some p →
        ∃ u, exec (.unlock n.val pin) s =
            .next (u.placeReply 0x04 .done
              (bytesOf 1 u.lanes[n].state.toField ++ bytesOf 2 s.lock.policy.leaseLength)) ∧
          causesSent
            { s with
              lock.attempts := 0
              lock.leases := s.lock.leases.set n (some s.lock.policy.leaseLength) }
            (fun m => m = n) u) ∧
      (s.lock.leases[n] = none →
        exec (.relock n.val) s = .next (s.placeReply 0x05 .done (bytesOf 1 s.lanes[n].state.toField))) ∧
      (s.lock.leases[n] ≠ none →
        ∃ u, exec (.relock n.val) s = .next (u.placeReply 0x05 .done (bytesOf 1 u.lanes[n].state.toField)) ∧
          causesSent { s with lock.leases := s.lock.leases.set n none } (fun m => m = n) u)

/-! ## The second tick, house time and the audit counters (chapter 9) -/

/-- A second tick does every owner's work once, with each cause an owner sends, in whatever order they are taken (log entry
1): the state left is one that taking each of the ten pieces of tick work whole, and the evaluations they call for, can
leave. So house time and the countdowns of the lock unit move by one, the framer counts silence or leaves LOCKED, every lane's mark is cleared and its run follows,
every record kept is metered once, the panel marks or abandons its frame, lanes that were right are right after it, and
everything else stays (R12, R68, R69, R73, R85 to R87, R99, R141, R143, R148, R149, R150, R158, R176). That each lane
takes the tick as a task of its own is the model's reading (log entry 13). -/
def Obligations.second_tick_in_any_order : Prop :=
  ∀ s : State, s.held = false → s.rentals.length ≤ 16 →
    ∃ t, exec .secondTick s = .next t ∧
      Settled
        [.houseTime, .framer, .laneTick 0, .laneTick 1, .laneTick 2, .laneTick 3, .rental, .lock, .counters, .panel]
        { s with clock.prescaler := 0 } t ∧
      t =
        { s with
          clock :=
            { prescaler := 0, timeSet := s.clock.timeSet
              houseTime := if 4294967295 ≤ s.clock.houseTime then 0 else s.clock.houseTime + 1 }
          lock.lockout := s.lock.lockout.bind fun k => if k ≤ 1 then none else some (k - 1)
          lock.leases := mapEach (fun l => l.bind fun k => if k ≤ 1 then none else some (k - 1)) s.lock.leases
          framer := t.framer, lanes := t.lanes, rentals := t.rentals, counters := t.counters, frame := t.frame
          waiting := t.waiting, sending := t.sending, restartOwed := t.restartOwed, alerts := t.alerts
          reports := t.reports, owed := t.owed, codes := t.codes, choices := t.choices } ∧
      (s.framer.state = .locked → 1 ≤ s.framer.silence →
        t.framer =
          { s.framer with
            state := .hunt, integrator := 0, silence := 0, sawC6 := false, bytes := [], handOn := false
            syncLosses := min 65535 (s.framer.syncLosses + 1) } ∧
        t.alerts = (s.latch .feedLost).alerts ∧ t.reports = (s.latch .feedLost).reports ∧
        t.owed = (s.latch .feedLost).owed ∧ 1 ∈ t.codes) ∧
      (¬ (s.framer.state = .locked ∧ 1 ≤ s.framer.silence) →
        t.framer =
          { s.framer with silence := if s.framer.state = .locked then s.framer.silence + 1 else s.framer.silence } ∧
        t.alerts = s.alerts ∧ t.reports = s.reports ∧ t.owed = s.owed) ∧
      (∀ n : Fin 4,
        t.lanes[n] =
          { s.lanes[n] with
            state := t.lanes[n].state, title := t.lanes[n].title, queue := t.lanes[n].queue
            purged := t.lanes[n].purged, run := t.lanes[n].run, mark := false } ∧
        (t.lanes[n].queue = s.lanes[n].queue ∧ t.lanes[n].purged = s.lanes[n].purged ∨
          t.lanes[n].queue = [] ∧
            t.lanes[n].purged = min 65535 (s.lanes[n].purged + s.lanes[n].queue.length)) ∧
        (s.lanes[n].mark = true → t.lanes[n].run = 0) ∧
        (s.lanes[n].mark = false →
          t.lanes[n].run = s.lanes[n].run ∨ t.lanes[n].run = min 5 (s.lanes[n].run + 1))) ∧
      (∀ r ∈ t.rentals,
        (∃ r0 ∈ s.rentals, r = r0.meter.1) ∨ ∃ e ∈ s.catalog, 0 < e.preview ∧ r = RentalRec.fresh e) ∧
      (∀ c ∈ s.codes, c ∈ t.codes) ∧
      ((∀ n : Fin 4, s.laneRight n) → ∀ n : Fin 4, t.laneRight n) ∧
      (s.frame = none →
        t.frame = none ∧ t.waiting = s.waiting ∧ t.sending = s.sending ∧ t.restartOwed = s.restartOwed) ∧
      (∀ f, s.frame = some f → f.marked = false →
        t.frame = some { f with marked := true } ∧ t.waiting = s.waiting ∧ t.sending = s.sending ∧
          t.restartOwed = s.restartOwed) ∧
      (∀ f, s.frame = some f → f.marked = true →
        t.frame = none ∧ t.waiting = (s.placeReply 0 .badFrame []).waiting ∧
          t.sending = (s.placeReply 0 .badFrame []).sending ∧ t.restartOwed = false)

/-- One record at one tick: a marked second is counted in PREVIEW, where the allowance may be spent, and in ACTIVE,
where the window falls by 1 at every tick and at 0 the record expires; nothing rises in the other states, and the mark
is cleared (R85, R86, R87). -/
def Obligations.metering_of_one_record : Prop :=
  ∀ r : RentalRec,
    (r.state = .preview → r.seen = true →
      r.meter.1 =
        { r with
          previewSec := r.previewSec + 1, seen := false
          state := if r.previewSec + 1 = r.allowance then .spent else .preview }) ∧
    (r.state = .active → 1 ≤ r.windowLeft →
      r.meter.1 =
        { r with
          viewedSec := if r.seen = true ∧ r.viewedSec < 172800 then r.viewedSec + 1 else r.viewedSec
          windowLeft := r.windowLeft - 1, seen := false
          state := if r.windowLeft = 1 then .expired else .active }) ∧
    (r.state = .preview ∧ r.seen = false ∨ r.state = .spent ∨ r.state = .expired ∨ r.state = .void →
      r.meter.1 = { r with seen := false })

/-- A tick at which no record and no lease ends leaves one state whatever the order: every lane's state, title and
queue as they were, its watch moved on, each record metered, the seconds reported to the audit counters before counter 0
samples, and exactly the codes raised that the framer, the picture watch, the meter and the leases call for (R8, R12,
R68, R69, R73, R86, R87, R99, R143, R158). That the model takes the owners as they stand where no order can make a
difference, and uses no choice then, is its own (log entry 1). -/
def Obligations.quiet_second_tick_is_exact : Prop :=
  ∀ s : State, s.held = false →
    (∀ r ∈ s.rentals, r.state = .preview → ¬ (r.seen = true ∧ r.previewSec + 1 = r.allowance)) →
    (∀ r ∈ s.rentals, r.state = .active → 1 < r.windowLeft) →
    (∀ (n : Fin 4) (k : Nat), s.lock.leases[n] = some k → 1 < k) →
    ∃ t, exec .secondTick s = .next t ∧
      t.rentals = s.rentals.map (fun r => r.meter.1) ∧ t.choices = s.choices ∧
      t.counters =
        { s with
          counters := (s.auditAll
            (allLanes.flatMap (fun (n : Fin 4) =>
              (if s.lanes[n].mark = true then [s.laneEvent n .viewSeconds] else []) ++
                (if s.lanes[n].state = LaneState.locked then [s.laneEvent n .lockSeconds] else [])) ++
              s.rentals.flatMap fun (r : RentalRec) =>
                (if r.state = RentalState.preview ∧ r.seen = true then [rentalEvent .previewSeconds r.rating] else []) ++
                  (if r.state = RentalState.active ∧ r.seen = true ∧ r.viewedSec < 172800 then
                    [rentalEvent .rentedSeconds r.rating]
                   else []))).counters }.countersTick.counters ∧
      (∀ n : Fin 4, t.lanes[n] =
        { s.lanes[n] with
          mark := false
          run := if s.lanes[n].mark = true then 0
            else if s.lanes[n].state = .clear ∨ s.lanes[n].state = .preview ∨ s.lanes[n].state = .rented then
              min 5 (s.lanes[n].run + 1)
            else s.lanes[n].run }) ∧
      (∀ c : Nat, c ∈ t.codes ↔
        c ∈ s.codes ∨
        (c = 1 ∧ s.framer.state = .locked ∧ 1 ≤ s.framer.silence) ∨
        (∃ n : Fin 4, c = 12 + n.val ∧ s.lanes[n].mark = false ∧ s.lanes[n].run = 4 ∧
          (s.lanes[n].state = .clear ∨ s.lanes[n].state = .preview ∨ s.lanes[n].state = .rented)) ∨
        (∃ n : Fin 4, c = 16 + n.val ∧ s.lanes[n].state = .preview ∧
          ∃ r ∈ s.rentals, s.lanes[n].title = some r.title ∧ r.state = .preview ∧ r.seen = true ∧
            r.allowance - (r.previewSec + 1) ≤ 30 ∧ (30 < r.allowance - r.previewSec ∨ r.previewSec = 0)) ∨
        (c = 20 ∧ ∃ r ∈ s.rentals, r.state = .active ∧ r.windowLeft = 301) ∨
        (c = 21 ∧ ∃ n : Fin 4, s.lock.leases[n] = some 61))

/-- Each row of the table that is an event of the tick, handed to its owner in the state where that owner's tick work
produces it: the second silent tick in LOCKED, the fifth dark tick of a lane, the tick that spends a preview or ends a
window, with the audit events and codes of all the meter's work, a lockout or a lease, and the tick that finds a marked
frame (R8, R12, R69, R86, R87, R98, R99, R141, R143, R176). That an
event row is its owner's tick work is the model's choice (log entry 4). -/
def Obligations.tick_events_do_their_owners_work : Prop :=
  ∀ s : State, s.held = false → s.rentals.length ≤ 16 →
    (s.framer.state = .locked → 1 ≤ s.framer.silence →
      exec .feedSilence s =
        .next
          { s with
            framer :=
              { s.framer with
                state := .hunt, integrator := 0, silence := 0, sawC6 := false, bytes := [], handOn := false
                syncLosses := min 65535 (s.framer.syncLosses + 1) }
            alerts := (s.latch .feedLost).alerts, reports := (s.latch .feedLost).reports
            owed := (s.latch .feedLost).owed, codes := (s.raiseCode 1).codes }) ∧
    (∀ n : Fin 4, s.lanes[n].mark = false → s.lanes[n].run = 4 →
      (s.lanes[n].state = .clear ∨ s.lanes[n].state = .preview ∨ s.lanes[n].state = .rented) →
      exec (.noPicture n) s =
        .next
          { s with
            lanes := s.lanes.set n { s.lanes[n] with run := 5 }, codes := (s.raiseCode (12 + n.val)).codes }) ∧
    (∀ (c : Instr) (r : RentalRec), r ∈ s.rentals →
      (c = .previewSpent r.title ∧ r.state = .preview ∧ r.seen = true ∧ r.previewSec + 1 = r.allowance ∨
        c = .rentalExpiry r.title ∧ r.state = .active ∧ r.windowLeft = 1) →
      ∃ u t, exec c s = .next t ∧
        u =
          { s with
            rentals := s.rentals.map (fun r => r.meter.1)
            counters :=
              (s.auditAll (s.rentals.flatMap fun (r : RentalRec) =>
                (if r.state = RentalState.preview ∧ r.seen = true then [rentalEvent .previewSeconds r.rating] else []) ++
                  (if r.state = RentalState.active ∧ r.seen = true ∧ r.viewedSec < 172800 then
                    [rentalEvent .rentedSeconds r.rating]
                   else []))).counters
            codes := u.codes } ∧
        (∀ k : Nat, k ∈ u.codes ↔
          k ∈ s.codes ∨
          (∃ n : Fin 4, k = 16 + n.val ∧ s.lanes[n].state = .preview ∧
            ∃ r ∈ s.rentals, s.lanes[n].title = some r.title ∧ r.state = .preview ∧ r.seen = true ∧
              r.previewSec + 1 ≠ r.allowance ∧ r.allowance - (r.previewSec + 1) ≤ 30 ∧
              (30 < r.allowance - r.previewSec ∨ r.previewSec = 0)) ∨
          (k = 20 ∧ ∃ r ∈ s.rentals, r.state = .active ∧ r.windowLeft = 301)) ∧
        causesSent u
          (fun n => ∃ y ∈ s.rentals, s.lanes[n].title = some y.title ∧
            (y.state = .preview ∧ y.seen = true ∧ y.previewSec + 1 = y.allowance ∨
              y.state = .active ∧ y.windowLeft ≤ 1)) t) ∧
    (∀ (c : Instr) (n : Fin 4), (c = .lockoutEnd ∧ s.lock.lockout = some 1 ∨
        c = .leaseEnd n ∧ s.lock.leases[n] = some 1) →
      ∃ u t, exec c s = .next t ∧
        u =
          { s with
            lock.lockout := s.lock.lockout.bind fun k => if k ≤ 1 then none else some (k - 1)
            lock.leases := mapEach (fun l => l.bind fun k => if k ≤ 1 then none else some (k - 1)) s.lock.leases
            codes := u.codes } ∧
        (∀ k, k ∈ u.codes ↔ k ∈ s.codes ∨ (k = 21 ∧ ∃ m : Fin 4, s.lock.leases[m] = some 61)) ∧
        causesSent u (fun m => ∃ k, s.lock.leases[m] = some k ∧ k ≤ 1) t) ∧
    (∀ f, s.frame = some f → f.marked = true →
      exec .frameAbandon s = .next ({ s with frame := none }.placeReply 0 .badFrame []))

/-- TIME-MARK sets house time and the flag and clears the prescaler, and latches TIME_STEP when the step, formed in
full, lies outside −2..2 (R151). -/
def Obligations.time_mark_sets_house_time : Prop :=
  ∀ (s : State) (x : Nat), s.held = false →
    ((x : Int) - s.clock.houseTime ≤ 2 → -2 ≤ (x : Int) - s.clock.houseTime →
      exec (.timeMark x) s =
        .next
          { s with
            counts.taken := min 65535 (s.counts.taken + 1)
            clock := { prescaler := 0, houseTime := x, timeSet := true } }) ∧
    (2 < (x : Int) - s.clock.houseTime ∨ (x : Int) - s.clock.houseTime < -2 →
      exec (.timeMark x) s =
        .next
          { s with
            counts.taken := min 65535 (s.counts.taken + 1)
            clock := { prescaler := 0, houseTime := x, timeSet := true }
            alerts := (s.latch .timeStep).alerts, reports := (s.latch .timeStep).reports
            owed := (s.latch .timeStep).owed })

/-- COUNT-SET replaces one counter's setup whole, with rating and threshold clamped, clears its value and forgets its
last occupancy; it is refused in the cases of R156, with the filters of Table 9-2, and in no other (R156). -/
def Obligations.count_set_arms_a_counter : Prop :=
  ∀ (s : State) (b : CountSetBody), s.held = false → ∀ bad : Prop,
    (bad ↔
      3 < b.counter ∨ 9 < b.kind ∨
      (match b.filter with
        | .none => False
        | .service n => b.kind ∉ [0, 5, 7, 8] ∨ n = 0 ∨ 999 < n
        | .lanes fs => b.kind ∉ [0, 3, 5, 6, 7, 8, 9] ∨ ∃ i : Fin 4, 1 < fs[i]
        | .ratingAtLeast _ => b.kind ∉ [0, 1, 2, 3, 4, 5, 7]) ∨
      (b.kind = 9 ∧ (b.counter ≠ 0 ∨ b.occupancy = none ∨
        ∃ o, b.occupancy = some o ∧ (2 < o.mode ∨ ∃ i : Fin 7, 1 < o.states[i])))) →
    (bad → exec (.countSet b) s = .next { s with counts.refused := min 65535 (s.counts.refused + 1) }) ∧
    (¬ bad → ∀ n : Fin 4, b.counter = n.val →
      ∃ u : Setup, exec (.countSet b) s =
          .next
            { s with
              counts.taken := min 65535 (s.counts.taken + 1)
              counters := s.counters.set n { setup := some u, last := none, value := 0 } } ∧
        u.kind.toField = b.kind ∧
        u.filter =
          (match b.filter with
            | .none => .none
            | .service k => .service k
            | .lanes fs => .lanes (mapEach (· == 1) fs)
            | .ratingAtLeast r => .ratingAtLeast (min 7 r)) ∧
        (b.kind ≠ 9 → u.occupancy = none) ∧
        (∀ o, b.kind = 9 → b.occupancy = some o →
          ∃ p, u.occupancy = some p ∧ p.mode.toField = o.mode ∧ p.threshold = max 1 (min 4 o.threshold) ∧
            ∀ i : Fin 7, p.states[i] = decide (o.states[i] = 1)))

/-- An event adds 1, up to 4,294,967,295, to each counter armed with its kind whose filter admits its tags, and to no
other; an OCCUPANCY counter is offered none. At a tick counter 0, armed with OCCUPANCY, gains by its mode from the
number of lanes found in its states, and notes that number; without such a setup it samples nothing. A lane's event
carries the lane, and the service and effective rating of a loaded selection; the rental engine's carries the record's
rating (R57, R73, R99, R155, R157, R158). -/
def Obligations.audit_events_and_occupancy : Prop :=
  (∀ (s : State) (e : AuditEvent),
    s.audit e = { s with counters := (s.audit e).counters } ∧
    ∀ i : Fin 4,
      ((∃ u, s.counters[i].setup = some u ∧ u.kind = e.kind ∧ e.kind ≠ .occupancy ∧
          (match u.filter with
            | .none => True
            | .service n => e.service = some n
            | .lanes fs => ∃ l : Fin 4, e.lane = some l ∧ fs[l] = true
            | .ratingAtLeast r => ∃ k, e.rating = some k ∧ r ≤ k)) →
        (s.audit e).counters[i] = { s.counters[i] with value := min 4294967295 (s.counters[i].value + 1) }) ∧
      (¬ (∃ u, s.counters[i].setup = some u ∧ u.kind = e.kind ∧ e.kind ≠ .occupancy ∧
          (match u.filter with
            | .none => True
            | .service n => e.service = some n
            | .lanes fs => ∃ l : Fin 4, e.lane = some l ∧ fs[l] = true
            | .ratingAtLeast r => ∃ k, e.rating = some k ∧ r ≤ k)) →
        (s.audit e).counters[i] = s.counters[i])) ∧
  (∀ (s : State) (u : Setup) (o : Occupancy) (found : Nat),
    s.counters[(0 : Fin 4)].setup = some u → u.kind = .occupancy → u.occupancy = some o →
    found =
      ((List.finRange 4).filter fun n =>
        o.states[s.lanes[n].state.index] &&
          (match u.filter with
            | .lanes fs => fs[n]
            | _ => true)).length →
    s.countersTick =
      { s with
        counters := s.counters.set 0
          { s.counters[(0 : Fin 4)] with
            last := some found
            value := min 4294967295 (s.counters[(0 : Fin 4)].value +
              (match o.mode with
                | .sum => found
                | .atLeast => if o.threshold ≤ found then 1 else 0
                | .rise =>
                  match s.counters[(0 : Fin 4)].last with
                  | none => 0
                  | some k => if k < o.threshold ∧ o.threshold ≤ found then 1 else 0)) } }) ∧
  (∀ s : State, (∀ u, s.counters[(0 : Fin 4)].setup = some u → u.kind ≠ .occupancy) → s.countersTick = s) ∧
  (∀ (s : State) (n : Fin 4) (k : EventKind),
    (∀ x r, s.lanes[n].service = some x → s.service? x = some r →
      s.laneEvent n k =
        { kind := k, lane := some n, service := some r.number
          rating := some
            (match r.onAir? with
              | none => r.rating
              | some t => max r.rating
                (match s.rental? t, s.catalog? t with
                  | some y, _ => y.rating
                  | none, some e => e.rating
                  | none, none => s.lock.policy.houseLimit)) }) ∧
    ((∀ x, s.lanes[n].service = some x → s.service? x = none) →
      s.laneEvent n k = { kind := k, lane := some n, service := none, rating := none })) ∧
  (∀ r : ServiceRec, r.onAir? = if r.kind = .pay then r.title else none) ∧
  (∀ (s : State) (r : ServiceRec),
    s.effectiveRating r =
      (match r.onAir? with
        | none => r.rating
        | some t => max r.rating
          (match s.rental? t, s.catalog? t with
            | some y, _ => y.rating
            | none, some e => e.rating
            | none, none => s.lock.policy.houseLimit))) ∧
  ∀ (k : EventKind) (rating : Nat),
    rentalEvent k rating = { kind := k, lane := none, service := none, rating := some rating }

/-! ## The management engine and the return line (chapter 10) -/

/-- TARIFF-PUT replaces the staged set of its class whole with the scale clamped, GROUP-SET the four group numbers,
FEED-SET the lock threshold clamped to 2..15, and ALERT-CLEAR clears the kinds flagged 1; a class above 3 and a flag
above 1 are refused (R11, R102, R166, R173). -/
def Obligations.settings_messages : Prop :=
  ∀ s : State, s.held = false →
    (∀ (b : TariffPutBody), 3 < b.cls →
      exec (.tariffPut b) s = .next { s with counts.refused := min 65535 (s.counts.refused + 1) }) ∧
    (∀ (b : TariffPutBody) (c : Fin 4), b.cls = c.val →
      exec (.tariffPut b) s =
        .next
          { s with
            counts.taken := min 65535 (s.counts.taken + 1)
            staged := s.staged.set c
              { preOffset := b.preOffset, scale := min 1023 b.scale, postOffset := b.postOffset
                lowCompare := b.lowCompare, lowSet := b.lowSet, highCompare := b.highCompare
                highSet := b.highSet } }) ∧
    (∀ g : Vector Nat 4,
      exec (.groupSet g) s = .next { s with counts.taken := min 65535 (s.counts.taken + 1), groups := g }) ∧
    (∀ n : Nat,
      exec (.feedSet n) s =
        .next
          { s with
            counts.taken := min 65535 (s.counts.taken + 1), framer.threshold := max 2 (min 15 n) }) ∧
    (∀ f : Vector Nat 6, (∃ i : Fin 6, 1 < f[i]) →
      exec (.alertClear f) s = .next { s with counts.refused := min 65535 (s.counts.refused + 1) }) ∧
    (∀ f : Vector Nat 6, (∀ i : Fin 6, f[i] ≤ 1) →
      ∃ t, exec (.alertClear f) s = .next t ∧
        t = { s with counts.taken := min 65535 (s.counts.taken + 1), alerts := t.alerts } ∧
        ∀ i : Fin 6, t.alerts[i] = if f[i] = 1 then .clear else s.alerts[i])

/-- A latch moves a CLEAR kind to LATCHED and then, unless an ALERT-RPT is waiting, admits one or, with the queue full,
sets the owed flag; any other state of the kind leaves all as it is. The six kinds stand in the order of Table 10-3, from
COLD_START to SPEND_CEILING (R171, section 10.6). -/
def Obligations.latching_an_alert : Prop :=
  [AlertKind.coldStart, .feedLost, .pinLockout, .listFull, .timeStep, .spendCeiling].map
      (fun k : AlertKind => k.index.val) = [0, 1, 2, 3, 4, 5] ∧
  ∀ (s : State) (k : AlertKind),
    (s.alerts[k.index] ≠ .clear → s.latch k = s) ∧
    (s.alerts[k.index] = .clear →
      ((∃ r ∈ s.reports, r.kind = .alert ∧ r.body = none) →
        s.latch k = { s with alerts := s.alerts.set k.index .latched }) ∧
      ((∀ r ∈ s.reports, ¬ (r.kind = .alert ∧ r.body = none)) → s.reports.length < 6 →
        s.latch k =
          { s with
            alerts := s.alerts.set k.index .latched, reports := s.reports ++ [{ kind := .alert, body := none }] }) ∧
      ((∀ r ∈ s.reports, ¬ (r.kind = .alert ∧ r.body = none)) → 6 ≤ s.reports.length →
        s.latch k = { s with alerts := s.alerts.set k.index .latched, owed := true }))

/-- The modem takes the next byte of the head report when return ready is asserted. The first byte begins it, which
builds an ALERT-RPT's body from the kinds that are LATCHED and moves them to LATCHED-REPORTED; the last completes it: it
leaves the queue and an owed ALERT-RPT takes the place. REPORT_SENT is the taking of the last byte (R170, R171, R172). The
bytes are the report envelope: A3h 5Dh, the unit identity, the kind, the body's length in two bytes and the body, all
fields big-endian, with the CRC-16 of identity to body after it (R162, R185). The event's reading, the sampled line and the kinds' numbers in the list are the model's choice (log entries 3, 4 and
9). -/
def Obligations.return_line_sends_the_head_report : Prop :=
  (∀ s : State, s.held = false →
    exec (.returnByte false) s = .next { s with returnReady := false } ∧
    (s.reports = [] →
      exec (.returnByte true) s = .next { s with returnReady := true } ∧ exec .reportSent s = .next s) ∧
    ∀ (r : Report) (rs : List Report) (head : Report) (alerts : Vector AlertState 6), s.reports = r :: rs →
      (s.reportSent = 0 ∧ r.kind = .alert ∧ r.body = none →
        (∃ kinds : List Nat, head = { r with body := some (bytesOf 1 kinds.length ++ kinds.flatMap (bytesOf 1)) } ∧
          kinds.Pairwise (· < ·) ∧ ∀ k : Nat, k ∈ kinds ↔ ∃ i : Fin 6, i.val = k ∧ s.alerts[i] = .latched) ∧
        ∀ i : Fin 6, alerts[i] = if s.alerts[i] = .latched then .reported else s.alerts[i]) →
      (¬ (s.reportSent = 0 ∧ r.kind = .alert ∧ r.body = none) → head = r ∧ alerts = s.alerts) →
      (s.reportSent + 1 < (reportBytes s.unitId head).length →
        exec (.returnByte true) s =
          .next
            { s with
              returnReady := true, reports := head :: rs, alerts := alerts, reportSent := s.reportSent + 1
              returnData := (reportBytes s.unitId head)[s.reportSent]? } ∧
        exec .reportSent s = .next s) ∧
      ((reportBytes s.unitId head).length = s.reportSent + 1 →
        ∀ c, c = Instr.returnByte true ∨ c = Instr.reportSent →
          exec c s =
            .next
              { s with
                returnReady := true, alerts := alerts, reportSent := 0, owed := false
                reports := rs ++ (if s.owed then [{ kind := .alert, body := none }] else [])
                returnData := (reportBytes s.unitId head)[s.reportSent]? })) ∧
  (∀ (unitId : Nat) (k : ReportKind) (body covered : List Byte),
    covered =
      bytesOf 4 unitId ++
        bytesOf 1 (match k with
          | .charge => 1
          | .status => 2
          | .count => 3
          | .alert => 4) ++
        bytesOf 2 body.length ++ body →
    reportBytes unitId { kind := k, body := some body } =
      [0xA3, 0x5D] ++ covered ++ bytesOf 2 (crc16 covered).toNat) ∧
  (∀ w n : Nat, (bytesOf w n).length = w ∧ natOf (bytesOf w n) = n % 256 ^ w) ∧
  natOf [] = 0 ∧ (∀ (bs : List Byte) (b : Byte), natOf (bs ++ [b]) = natOf bs * 256 + b.toNat) ∧
  crc16 [] = 0xFFFF ∧
  (∀ (bs : List Byte) (b : Byte),
    crc16 (bs ++ [b]) =
      (List.range 8).foldl
        (fun (r : BitVec 16) _ => if r.getLsbD 15 = true then (r <<< 1) ^^^ 0x1021 else r <<< 1)
        (crc16 bs ^^^ (b.setWidth 16 <<< 8))) ∧
  crc16 [0x31, 0x32, 0x33, 0x34, 0x35, 0x36, 0x37, 0x38, 0x39] = 0x29B1

/-! ## The panel port (chapter 11) -/

/-- A byte on panel receive: outside a frame only an E1h without a character error begins one; inside, the byte is kept
until kind, length, body and check have come. A whole frame with no character error, a sum of 0 modulo 256, a known kind
and a body that fits is its request; any other is answered BAD_FRAME. A body fits its kind exactly when the kind byte is
the request's of Table 11-1 and the body is the bytes that R183 writes for its fields, each a value its field can carry
(R176, R177, R183, R185). -/
def Obligations.panel_frames_are_requests : Prop :=
  (∀ (kind : Nat) (body : List Byte) (q : PanelReq),
    readPanel kind body = some q ↔
      kind = requestKind q ∧ body = requestBody q ∧ (requestCommand q).wf = true) ∧
  ∀ (s : State) (b : Byte) (err : Bool), s.held = false →
    (s.frame = none → b = 0xE1 → err = false →
      exec (.panelByte b err) s = .next { s with frame := some { bytes := [], charError := false, marked := false } }) ∧
    (s.frame = none → b ≠ 0xE1 ∨ err = true → exec (.panelByte b err) s = .next s) ∧
    ∀ (f : Frame) (bytes : List Byte), s.frame = some f → bytes = f.bytes ++ [b] →
      (bytes.length < 3 ∨ bytes.length ≠ 3 + (bytes.getD 1 0).toNat →
        exec (.panelByte b err) s =
          .next { s with frame := some { bytes := bytes, charError := f.charError || err, marked := f.marked } }) ∧
      (3 ≤ bytes.length → bytes.length = 3 + (bytes.getD 1 0).toNat →
        (f.charError = true ∨ err = true ∨ (bytes.map BitVec.toNat).sum % 256 ≠ 0 ∨
            readPanel (bytes.getD 0 0).toNat ((bytes.drop 2).take (bytes.getD 1 0).toNat) = none →
          exec (.panelByte b err) s = .next ({ s with frame := none }.placeReply 0 .badFrame [])) ∧
        (∀ q, f.charError = false → err = false → (bytes.map BitVec.toNat).sum % 256 = 0 →
          readPanel (bytes.getD 0 0).toNat ((bytes.drop 2).take (bytes.getD 1 0).toNat) = some q →
          exec (.panelByte b err) s = exec (requestCommand q) { s with frame := none }))

/-- A reply placed with the transmitter idle begins at once and otherwise waits in the buffer, in place of one that
waited. It carries EARLIER_REPLY_LOST when it replaced one, and RESTARTED when it is the first since a reset or replaced
a reply that carried it. When a reply has been sent the waiting one begins. A reply's frame is E1h, kind, length, flags,
result by the numbers of Table 11-2, fields and a check byte that brings the sum to 0 (R177, R178, R185). That the completion of a reply changes nothing with
the transmitter idle is the model's choice (log entry 19). -/
def Obligations.reply_buffer_holds_one_reply : Prop :=
  [Result.done, .already, .badArg, .badFrame, .vacant, .notOffered, .locked, .badPin, .lockedOut, .noPin, .barred,
    .tableFull, .listFull, .ceiling, .notRented, .gracePassed, .refundedBefore].map Result.toField =
      [0x00, 0x01, 0x02, 0x03, 0x04, 0x05, 0x06, 0x07, 0x08, 0x09, 0x0A, 0x0B, 0x0C, 0x0D, 0x0E, 0x0F, 0x10] ∧
  ∀ (s : State) (k : Nat) (r : Result) (fs : List Byte) (q : Reply),
    q = { kind := k, result := r, fields := fs, earlierLost := s.waiting.isSome
          restarted := s.restartOwed || s.waiting.any Reply.restarted } →
    (s.sending = none →
      s.placeReply k r fs = { s with waiting := none, sending := some q, restartOwed := false }) ∧
    (s.sending ≠ none → s.placeReply k r fs = { s with waiting := some q, restartOwed := false }) ∧
    (s.held = false → s.sending = none → exec .replySent s = .next s) ∧
    (s.held = false → s.sending ≠ none → exec .replySent s = .next { s with sending := s.waiting, waiting := none }) ∧
    (∃ check : Byte,
      q.toBytes =
        [0xE1, BitVec.ofNat 8 k, BitVec.ofNat 8 (fs.length + 2),
          BitVec.ofNat 8 ((if q.earlierLost then 1 else 0) + (if q.restarted then 2 else 0)),
          BitVec.ofNat 8 r.toField] ++ fs ++ [check]) ∧
    ((q.toBytes.drop 1).map BitVec.toNat).sum % 256 = 0

/-- The attention line is asserted exactly while a pending code lies below the floor. ATTN-READ answers the smallest such
code and their number, ATTN-ACK removes its code, ATTN-FLOOR moves the floor, and a code raised is added to the set if
it is absent (R180, R181). -/
def Obligations.attention_requests : Prop :=
  ∀ s : State, s.held = false →
    (s.attentionLine = true ↔ ∃ c ∈ s.codes, c < s.floor) ∧
    (∀ c x : Nat, x ∈ (s.raiseCode c).codes ↔ x = c ∨ x ∈ s.codes) ∧
    (∀ low : Nat, s.codes.Pairwise (· < ·) →
      ((∀ c ∈ s.codes, s.floor ≤ c) → low = 0) →
      ((∃ c ∈ s.codes, c < s.floor) → low ∈ s.codes ∧ low < s.floor ∧ ∀ c ∈ s.codes, low ≤ c) →
      exec .attnRead s =
        .next (s.placeReply 0x09 .done
          (bytesOf 1 low ++ bytesOf 1 (s.codes.filter fun c => decide (c < s.floor)).length))) ∧
    (∀ code : Nat, code = 0 ∨ 21 < code → exec (.attnAck code) s = .next (s.placeReply 0x0A .badArg [])) ∧
    (∀ code low : Nat, s.codes.Pairwise (· < ·) → 1 ≤ code → code ≤ 21 →
      ((∀ c ∈ s.codes, c ≠ code → s.floor ≤ c) → low = 0) →
      ((∃ c ∈ s.codes, c ≠ code ∧ c < s.floor) →
        low ∈ s.codes ∧ low ≠ code ∧ low < s.floor ∧ ∀ c ∈ s.codes, c ≠ code → low ≤ c) →
      exec (.attnAck code) s =
        .next ({ s with codes := s.codes.filter (· != code) }.placeReply 0x0A .done (bytesOf 1 low))) ∧
    (∀ n : Nat,
      exec (.attnFloor n) s =
        .next ({ s with floor := max 1 (min 32 n) }.placeReply 0x0B .done (bytesOf 1 (max 1 (min 32 n)))))

/-! ## What every step keeps -/

/-- Every step keeps every lane in the state the tests of R56 give it, with the title its selection is running in view,
and the rental table within 16 records (R54, R56, R59, R79). -/
def Obligations.every_step_keeps_lanes_right : Prop :=
  ∀ s t : State, lanesInv s → step s = .next t → lanesInv t

/-- Every step keeps each output queue within 8 cells, with fill cells alone outside the viewing states and none in IDLE
or ABSENT, so that no media cell waits behind a lock or an offer (R60, R62, R64, R66). -/
def Obligations.every_step_keeps_queues_right : Prop :=
  ∀ s t : State, queuesInv s → step s = .next t → queuesInv t

/-- Every step keeps the charge list within 12 records in strictly rising serial order below the next serial, spend
within 0..1,000,000, and spend at 0 while the room is VACANT (R119, R123, R124). -/
def Obligations.every_step_keeps_charges_and_spend : Prop :=
  ∀ s t : State, chargesInv s → spendInv s → step s = .next t → chargesInv t ∧ spendInv t

/-- Every step keeps the catalog and the rental table in order and in range, no two records for one title, and no record
while the room is VACANT (R75, R79, R80, R86). -/
def Obligations.every_step_keeps_rentals_right : Prop :=
  ∀ s t : State, rentalsInv s → step s = .next t → rentalsInv t

/-- Every step keeps the directory equal to the components of the loaded services, each in its fold bank, with no more
than 16 to a bank and 48 services in order (R18, R20). That a bank stands in ascending order of tag is the model's choice
(log entry 18). -/
def Obligations.every_step_keeps_the_directory : Prop :=
  ∀ s t : State, directoryInv s → step s = .next t → directoryInv t

/-- Every step keeps the lock unit in range: the house limit, the default, lane and room ceilings within 0..7, the discreet
threshold within 0..8, the lease length within 300..43,200, the PIN four digits, the attempts within 0..2, the lockout
within 1..900 and a lease within 1..43,200; and a lane holds a lease only while the room is OCCUPIED and the lane is not
barred (Table 8-1, R135, R137, R141, R143). -/
def Obligations.every_step_keeps_leases_lawful : Prop :=
  ∀ s t : State, lockInv s → step s = .next t → lockInv t

/-- Every step keeps at most 6 reports in the queue, at most one ALERT-RPT waiting, the owed flag set only while the queue
is full with none waiting, and bytes sent only of a head that has begun (R169, R171, R172). -/
def Obligations.every_step_keeps_the_report_queue : Prop :=
  ∀ s t : State, reportsInv s → step s = .next t → reportsInv t

/-- Every step keeps the framer in range, every staged key in a slot in use, the pending codes ascending within 1..21 and
the floor within 1..32 (R3, R11, R35, R180). -/
def Obligations.every_step_keeps_framer_keys_and_attention : Prop :=
  ∀ s t : State, framerInv s → keysInv s → attentionInv s → step s = .next t →
    framerInv t ∧ keysInv t ∧ attentionInv t

/-- The machine after reset meets every invariant. -/
def Obligations.reset_meets_every_invariant : Prop :=
  lanesInv State.reset ∧ queuesInv State.reset ∧ chargesInv State.reset ∧ spendInv State.reset ∧
    rentalsInv State.reset ∧ directoryInv State.reset ∧ lockInv State.reset ∧ reportsInv State.reset ∧
    framerInv State.reset ∧ keysInv State.reset ∧ attentionInv State.reset

end Slice0Statements
end

