-- ==== Sys2Proof/Laws/State.lean ====
section
/-! SUPPORT. What each shared update of the state leaves alone: one lemma for each field and update. An update
with cases has first a lemma that gives its shape. -/

namespace Sys2Proof.Machine

/-! ## Vectors entry by entry -/

theorem mapEach_getElem {α β : Type} {k : Nat} (f : α → β) (v : Vector α k) (i : Fin k) :
    (mapEach f v)[i] = f v[i] := by
  simp [mapEach]

theorem zipEach_getElem {α β γ : Type} {k : Nat} (f : α → β → γ) (v : Vector α k) (w : Vector β k) (i : Fin k) :
    (zipEach f v w)[i] = f v[i] w[i] := by
  simp [zipEach]

/-! ## `modLane` -/

@[simp] theorem State.modLane_unitId (s : State) (n : Fin 4) (f : Lane → Lane) : (s.modLane n f).unitId = s.unitId := rfl
@[simp] theorem State.modLane_held (s : State) (n : Fin 4) (f : Lane → Lane) : (s.modLane n f).held = s.held := rfl
@[simp] theorem State.modLane_screenReady (s : State) (n : Fin 4) (f : Lane → Lane) : (s.modLane n f).screenReady = s.screenReady := rfl
@[simp] theorem State.modLane_returnReady (s : State) (n : Fin 4) (f : Lane → Lane) : (s.modLane n f).returnReady = s.returnReady := rfl
@[simp] theorem State.modLane_framer (s : State) (n : Fin 4) (f : Lane → Lane) : (s.modLane n f).framer = s.framer := rfl
@[simp] theorem State.modLane_services (s : State) (n : Fin 4) (f : Lane → Lane) : (s.modLane n f).services = s.services := rfl
@[simp] theorem State.modLane_directory (s : State) (n : Fin 4) (f : Lane → Lane) : (s.modLane n f).directory = s.directory := rfl
@[simp] theorem State.modLane_keys (s : State) (n : Fin 4) (f : Lane → Lane) : (s.modLane n f).keys = s.keys := rfl
@[simp] theorem State.modLane_catalog (s : State) (n : Fin 4) (f : Lane → Lane) : (s.modLane n f).catalog = s.catalog := rfl
@[simp] theorem State.modLane_rentals (s : State) (n : Fin 4) (f : Lane → Lane) : (s.modLane n f).rentals = s.rentals := rfl
@[simp] theorem State.modLane_staged (s : State) (n : Fin 4) (f : Lane → Lane) : (s.modLane n f).staged = s.staged := rfl
@[simp] theorem State.modLane_live (s : State) (n : Fin 4) (f : Lane → Lane) : (s.modLane n f).live = s.live := rfl
@[simp] theorem State.modLane_room (s : State) (n : Fin 4) (f : Lane → Lane) : (s.modLane n f).room = s.room := rfl
@[simp] theorem State.modLane_charges (s : State) (n : Fin 4) (f : Lane → Lane) : (s.modLane n f).charges = s.charges := rfl
@[simp] theorem State.modLane_nextSerial (s : State) (n : Fin 4) (f : Lane → Lane) : (s.modLane n f).nextSerial = s.nextSerial := rfl
@[simp] theorem State.modLane_lock (s : State) (n : Fin 4) (f : Lane → Lane) : (s.modLane n f).lock = s.lock := rfl
@[simp] theorem State.modLane_clock (s : State) (n : Fin 4) (f : Lane → Lane) : (s.modLane n f).clock = s.clock := rfl
@[simp] theorem State.modLane_counters (s : State) (n : Fin 4) (f : Lane → Lane) : (s.modLane n f).counters = s.counters := rfl
@[simp] theorem State.modLane_groups (s : State) (n : Fin 4) (f : Lane → Lane) : (s.modLane n f).groups = s.groups := rfl
@[simp] theorem State.modLane_counts (s : State) (n : Fin 4) (f : Lane → Lane) : (s.modLane n f).counts = s.counts := rfl
@[simp] theorem State.modLane_alerts (s : State) (n : Fin 4) (f : Lane → Lane) : (s.modLane n f).alerts = s.alerts := rfl
@[simp] theorem State.modLane_owed (s : State) (n : Fin 4) (f : Lane → Lane) : (s.modLane n f).owed = s.owed := rfl
@[simp] theorem State.modLane_reports (s : State) (n : Fin 4) (f : Lane → Lane) : (s.modLane n f).reports = s.reports := rfl
@[simp] theorem State.modLane_reportSent (s : State) (n : Fin 4) (f : Lane → Lane) : (s.modLane n f).reportSent = s.reportSent := rfl
@[simp] theorem State.modLane_returnData (s : State) (n : Fin 4) (f : Lane → Lane) : (s.modLane n f).returnData = s.returnData := rfl
@[simp] theorem State.modLane_frame (s : State) (n : Fin 4) (f : Lane → Lane) : (s.modLane n f).frame = s.frame := rfl
@[simp] theorem State.modLane_waiting (s : State) (n : Fin 4) (f : Lane → Lane) : (s.modLane n f).waiting = s.waiting := rfl
@[simp] theorem State.modLane_sending (s : State) (n : Fin 4) (f : Lane → Lane) : (s.modLane n f).sending = s.sending := rfl
@[simp] theorem State.modLane_restartOwed (s : State) (n : Fin 4) (f : Lane → Lane) : (s.modLane n f).restartOwed = s.restartOwed := rfl
@[simp] theorem State.modLane_codes (s : State) (n : Fin 4) (f : Lane → Lane) : (s.modLane n f).codes = s.codes := rfl
@[simp] theorem State.modLane_floor (s : State) (n : Fin 4) (f : Lane → Lane) : (s.modLane n f).floor = s.floor := rfl
@[simp] theorem State.modLane_choices (s : State) (n : Fin 4) (f : Lane → Lane) : (s.modLane n f).choices = s.choices := rfl
@[simp] theorem State.modLane_pending (s : State) (n : Fin 4) (f : Lane → Lane) : (s.modLane n f).pending = s.pending := rfl

/-! ## `raiseCode` -/

@[simp] theorem State.raiseCode_unitId (s : State) (c : Nat) : (s.raiseCode c).unitId = s.unitId := rfl
@[simp] theorem State.raiseCode_held (s : State) (c : Nat) : (s.raiseCode c).held = s.held := rfl
@[simp] theorem State.raiseCode_screenReady (s : State) (c : Nat) : (s.raiseCode c).screenReady = s.screenReady := rfl
@[simp] theorem State.raiseCode_returnReady (s : State) (c : Nat) : (s.raiseCode c).returnReady = s.returnReady := rfl
@[simp] theorem State.raiseCode_framer (s : State) (c : Nat) : (s.raiseCode c).framer = s.framer := rfl
@[simp] theorem State.raiseCode_services (s : State) (c : Nat) : (s.raiseCode c).services = s.services := rfl
@[simp] theorem State.raiseCode_directory (s : State) (c : Nat) : (s.raiseCode c).directory = s.directory := rfl
@[simp] theorem State.raiseCode_keys (s : State) (c : Nat) : (s.raiseCode c).keys = s.keys := rfl
@[simp] theorem State.raiseCode_lanes (s : State) (c : Nat) : (s.raiseCode c).lanes = s.lanes := rfl
@[simp] theorem State.raiseCode_catalog (s : State) (c : Nat) : (s.raiseCode c).catalog = s.catalog := rfl
@[simp] theorem State.raiseCode_rentals (s : State) (c : Nat) : (s.raiseCode c).rentals = s.rentals := rfl
@[simp] theorem State.raiseCode_staged (s : State) (c : Nat) : (s.raiseCode c).staged = s.staged := rfl
@[simp] theorem State.raiseCode_live (s : State) (c : Nat) : (s.raiseCode c).live = s.live := rfl
@[simp] theorem State.raiseCode_room (s : State) (c : Nat) : (s.raiseCode c).room = s.room := rfl
@[simp] theorem State.raiseCode_charges (s : State) (c : Nat) : (s.raiseCode c).charges = s.charges := rfl
@[simp] theorem State.raiseCode_nextSerial (s : State) (c : Nat) : (s.raiseCode c).nextSerial = s.nextSerial := rfl
@[simp] theorem State.raiseCode_lock (s : State) (c : Nat) : (s.raiseCode c).lock = s.lock := rfl
@[simp] theorem State.raiseCode_clock (s : State) (c : Nat) : (s.raiseCode c).clock = s.clock := rfl
@[simp] theorem State.raiseCode_counters (s : State) (c : Nat) : (s.raiseCode c).counters = s.counters := rfl
@[simp] theorem State.raiseCode_groups (s : State) (c : Nat) : (s.raiseCode c).groups = s.groups := rfl
@[simp] theorem State.raiseCode_counts (s : State) (c : Nat) : (s.raiseCode c).counts = s.counts := rfl
@[simp] theorem State.raiseCode_alerts (s : State) (c : Nat) : (s.raiseCode c).alerts = s.alerts := rfl
@[simp] theorem State.raiseCode_owed (s : State) (c : Nat) : (s.raiseCode c).owed = s.owed := rfl
@[simp] theorem State.raiseCode_reports (s : State) (c : Nat) : (s.raiseCode c).reports = s.reports := rfl
@[simp] theorem State.raiseCode_reportSent (s : State) (c : Nat) : (s.raiseCode c).reportSent = s.reportSent := rfl
@[simp] theorem State.raiseCode_returnData (s : State) (c : Nat) : (s.raiseCode c).returnData = s.returnData := rfl
@[simp] theorem State.raiseCode_frame (s : State) (c : Nat) : (s.raiseCode c).frame = s.frame := rfl
@[simp] theorem State.raiseCode_waiting (s : State) (c : Nat) : (s.raiseCode c).waiting = s.waiting := rfl
@[simp] theorem State.raiseCode_sending (s : State) (c : Nat) : (s.raiseCode c).sending = s.sending := rfl
@[simp] theorem State.raiseCode_restartOwed (s : State) (c : Nat) : (s.raiseCode c).restartOwed = s.restartOwed := rfl
@[simp] theorem State.raiseCode_floor (s : State) (c : Nat) : (s.raiseCode c).floor = s.floor := rfl
@[simp] theorem State.raiseCode_choices (s : State) (c : Nat) : (s.raiseCode c).choices = s.choices := rfl
@[simp] theorem State.raiseCode_pending (s : State) (c : Nat) : (s.raiseCode c).pending = s.pending := rfl

/-! ## `setAlert` -/

@[simp] theorem State.setAlert_unitId (s : State) (k : AlertKind) (a : AlertState) : (s.setAlert k a).unitId = s.unitId := rfl
@[simp] theorem State.setAlert_held (s : State) (k : AlertKind) (a : AlertState) : (s.setAlert k a).held = s.held := rfl
@[simp] theorem State.setAlert_screenReady (s : State) (k : AlertKind) (a : AlertState) : (s.setAlert k a).screenReady = s.screenReady := rfl
@[simp] theorem State.setAlert_returnReady (s : State) (k : AlertKind) (a : AlertState) : (s.setAlert k a).returnReady = s.returnReady := rfl
@[simp] theorem State.setAlert_framer (s : State) (k : AlertKind) (a : AlertState) : (s.setAlert k a).framer = s.framer := rfl
@[simp] theorem State.setAlert_services (s : State) (k : AlertKind) (a : AlertState) : (s.setAlert k a).services = s.services := rfl
@[simp] theorem State.setAlert_directory (s : State) (k : AlertKind) (a : AlertState) : (s.setAlert k a).directory = s.directory := rfl
@[simp] theorem State.setAlert_keys (s : State) (k : AlertKind) (a : AlertState) : (s.setAlert k a).keys = s.keys := rfl
@[simp] theorem State.setAlert_lanes (s : State) (k : AlertKind) (a : AlertState) : (s.setAlert k a).lanes = s.lanes := rfl
@[simp] theorem State.setAlert_catalog (s : State) (k : AlertKind) (a : AlertState) : (s.setAlert k a).catalog = s.catalog := rfl
@[simp] theorem State.setAlert_rentals (s : State) (k : AlertKind) (a : AlertState) : (s.setAlert k a).rentals = s.rentals := rfl
@[simp] theorem State.setAlert_staged (s : State) (k : AlertKind) (a : AlertState) : (s.setAlert k a).staged = s.staged := rfl
@[simp] theorem State.setAlert_live (s : State) (k : AlertKind) (a : AlertState) : (s.setAlert k a).live = s.live := rfl
@[simp] theorem State.setAlert_room (s : State) (k : AlertKind) (a : AlertState) : (s.setAlert k a).room = s.room := rfl
@[simp] theorem State.setAlert_charges (s : State) (k : AlertKind) (a : AlertState) : (s.setAlert k a).charges = s.charges := rfl
@[simp] theorem State.setAlert_nextSerial (s : State) (k : AlertKind) (a : AlertState) : (s.setAlert k a).nextSerial = s.nextSerial := rfl
@[simp] theorem State.setAlert_lock (s : State) (k : AlertKind) (a : AlertState) : (s.setAlert k a).lock = s.lock := rfl
@[simp] theorem State.setAlert_clock (s : State) (k : AlertKind) (a : AlertState) : (s.setAlert k a).clock = s.clock := rfl
@[simp] theorem State.setAlert_counters (s : State) (k : AlertKind) (a : AlertState) : (s.setAlert k a).counters = s.counters := rfl
@[simp] theorem State.setAlert_groups (s : State) (k : AlertKind) (a : AlertState) : (s.setAlert k a).groups = s.groups := rfl
@[simp] theorem State.setAlert_counts (s : State) (k : AlertKind) (a : AlertState) : (s.setAlert k a).counts = s.counts := rfl
@[simp] theorem State.setAlert_owed (s : State) (k : AlertKind) (a : AlertState) : (s.setAlert k a).owed = s.owed := rfl
@[simp] theorem State.setAlert_reports (s : State) (k : AlertKind) (a : AlertState) : (s.setAlert k a).reports = s.reports := rfl
@[simp] theorem State.setAlert_reportSent (s : State) (k : AlertKind) (a : AlertState) : (s.setAlert k a).reportSent = s.reportSent := rfl
@[simp] theorem State.setAlert_returnData (s : State) (k : AlertKind) (a : AlertState) : (s.setAlert k a).returnData = s.returnData := rfl
@[simp] theorem State.setAlert_frame (s : State) (k : AlertKind) (a : AlertState) : (s.setAlert k a).frame = s.frame := rfl
@[simp] theorem State.setAlert_waiting (s : State) (k : AlertKind) (a : AlertState) : (s.setAlert k a).waiting = s.waiting := rfl
@[simp] theorem State.setAlert_sending (s : State) (k : AlertKind) (a : AlertState) : (s.setAlert k a).sending = s.sending := rfl
@[simp] theorem State.setAlert_restartOwed (s : State) (k : AlertKind) (a : AlertState) : (s.setAlert k a).restartOwed = s.restartOwed := rfl
@[simp] theorem State.setAlert_codes (s : State) (k : AlertKind) (a : AlertState) : (s.setAlert k a).codes = s.codes := rfl
@[simp] theorem State.setAlert_floor (s : State) (k : AlertKind) (a : AlertState) : (s.setAlert k a).floor = s.floor := rfl
@[simp] theorem State.setAlert_choices (s : State) (k : AlertKind) (a : AlertState) : (s.setAlert k a).choices = s.choices := rfl
@[simp] theorem State.setAlert_pending (s : State) (k : AlertKind) (a : AlertState) : (s.setAlert k a).pending = s.pending := rfl

/-! ## `enqueue` -/

@[simp] theorem State.enqueue_unitId (s : State) (r : Report) : (s.enqueue r).unitId = s.unitId := rfl
@[simp] theorem State.enqueue_held (s : State) (r : Report) : (s.enqueue r).held = s.held := rfl
@[simp] theorem State.enqueue_screenReady (s : State) (r : Report) : (s.enqueue r).screenReady = s.screenReady := rfl
@[simp] theorem State.enqueue_returnReady (s : State) (r : Report) : (s.enqueue r).returnReady = s.returnReady := rfl
@[simp] theorem State.enqueue_framer (s : State) (r : Report) : (s.enqueue r).framer = s.framer := rfl
@[simp] theorem State.enqueue_services (s : State) (r : Report) : (s.enqueue r).services = s.services := rfl
@[simp] theorem State.enqueue_directory (s : State) (r : Report) : (s.enqueue r).directory = s.directory := rfl
@[simp] theorem State.enqueue_keys (s : State) (r : Report) : (s.enqueue r).keys = s.keys := rfl
@[simp] theorem State.enqueue_lanes (s : State) (r : Report) : (s.enqueue r).lanes = s.lanes := rfl
@[simp] theorem State.enqueue_catalog (s : State) (r : Report) : (s.enqueue r).catalog = s.catalog := rfl
@[simp] theorem State.enqueue_rentals (s : State) (r : Report) : (s.enqueue r).rentals = s.rentals := rfl
@[simp] theorem State.enqueue_staged (s : State) (r : Report) : (s.enqueue r).staged = s.staged := rfl
@[simp] theorem State.enqueue_live (s : State) (r : Report) : (s.enqueue r).live = s.live := rfl
@[simp] theorem State.enqueue_room (s : State) (r : Report) : (s.enqueue r).room = s.room := rfl
@[simp] theorem State.enqueue_charges (s : State) (r : Report) : (s.enqueue r).charges = s.charges := rfl
@[simp] theorem State.enqueue_nextSerial (s : State) (r : Report) : (s.enqueue r).nextSerial = s.nextSerial := rfl
@[simp] theorem State.enqueue_lock (s : State) (r : Report) : (s.enqueue r).lock = s.lock := rfl
@[simp] theorem State.enqueue_clock (s : State) (r : Report) : (s.enqueue r).clock = s.clock := rfl
@[simp] theorem State.enqueue_counters (s : State) (r : Report) : (s.enqueue r).counters = s.counters := rfl
@[simp] theorem State.enqueue_groups (s : State) (r : Report) : (s.enqueue r).groups = s.groups := rfl
@[simp] theorem State.enqueue_counts (s : State) (r : Report) : (s.enqueue r).counts = s.counts := rfl
@[simp] theorem State.enqueue_alerts (s : State) (r : Report) : (s.enqueue r).alerts = s.alerts := rfl
@[simp] theorem State.enqueue_owed (s : State) (r : Report) : (s.enqueue r).owed = s.owed := rfl
@[simp] theorem State.enqueue_reportSent (s : State) (r : Report) : (s.enqueue r).reportSent = s.reportSent := rfl
@[simp] theorem State.enqueue_returnData (s : State) (r : Report) : (s.enqueue r).returnData = s.returnData := rfl
@[simp] theorem State.enqueue_frame (s : State) (r : Report) : (s.enqueue r).frame = s.frame := rfl
@[simp] theorem State.enqueue_waiting (s : State) (r : Report) : (s.enqueue r).waiting = s.waiting := rfl
@[simp] theorem State.enqueue_sending (s : State) (r : Report) : (s.enqueue r).sending = s.sending := rfl
@[simp] theorem State.enqueue_restartOwed (s : State) (r : Report) : (s.enqueue r).restartOwed = s.restartOwed := rfl
@[simp] theorem State.enqueue_codes (s : State) (r : Report) : (s.enqueue r).codes = s.codes := rfl
@[simp] theorem State.enqueue_floor (s : State) (r : Report) : (s.enqueue r).floor = s.floor := rfl
@[simp] theorem State.enqueue_choices (s : State) (r : Report) : (s.enqueue r).choices = s.choices := rfl
@[simp] theorem State.enqueue_pending (s : State) (r : Report) : (s.enqueue r).pending = s.pending := rfl

/-! ## `audit` -/

@[simp] theorem State.audit_unitId (s : State) (e : AuditEvent) : (s.audit e).unitId = s.unitId := rfl
@[simp] theorem State.audit_held (s : State) (e : AuditEvent) : (s.audit e).held = s.held := rfl
@[simp] theorem State.audit_screenReady (s : State) (e : AuditEvent) : (s.audit e).screenReady = s.screenReady := rfl
@[simp] theorem State.audit_returnReady (s : State) (e : AuditEvent) : (s.audit e).returnReady = s.returnReady := rfl
@[simp] theorem State.audit_framer (s : State) (e : AuditEvent) : (s.audit e).framer = s.framer := rfl
@[simp] theorem State.audit_services (s : State) (e : AuditEvent) : (s.audit e).services = s.services := rfl
@[simp] theorem State.audit_directory (s : State) (e : AuditEvent) : (s.audit e).directory = s.directory := rfl
@[simp] theorem State.audit_keys (s : State) (e : AuditEvent) : (s.audit e).keys = s.keys := rfl
@[simp] theorem State.audit_lanes (s : State) (e : AuditEvent) : (s.audit e).lanes = s.lanes := rfl
@[simp] theorem State.audit_catalog (s : State) (e : AuditEvent) : (s.audit e).catalog = s.catalog := rfl
@[simp] theorem State.audit_rentals (s : State) (e : AuditEvent) : (s.audit e).rentals = s.rentals := rfl
@[simp] theorem State.audit_staged (s : State) (e : AuditEvent) : (s.audit e).staged = s.staged := rfl
@[simp] theorem State.audit_live (s : State) (e : AuditEvent) : (s.audit e).live = s.live := rfl
@[simp] theorem State.audit_room (s : State) (e : AuditEvent) : (s.audit e).room = s.room := rfl
@[simp] theorem State.audit_charges (s : State) (e : AuditEvent) : (s.audit e).charges = s.charges := rfl
@[simp] theorem State.audit_nextSerial (s : State) (e : AuditEvent) : (s.audit e).nextSerial = s.nextSerial := rfl
@[simp] theorem State.audit_lock (s : State) (e : AuditEvent) : (s.audit e).lock = s.lock := rfl
@[simp] theorem State.audit_clock (s : State) (e : AuditEvent) : (s.audit e).clock = s.clock := rfl
@[simp] theorem State.audit_groups (s : State) (e : AuditEvent) : (s.audit e).groups = s.groups := rfl
@[simp] theorem State.audit_counts (s : State) (e : AuditEvent) : (s.audit e).counts = s.counts := rfl
@[simp] theorem State.audit_alerts (s : State) (e : AuditEvent) : (s.audit e).alerts = s.alerts := rfl
@[simp] theorem State.audit_owed (s : State) (e : AuditEvent) : (s.audit e).owed = s.owed := rfl
@[simp] theorem State.audit_reports (s : State) (e : AuditEvent) : (s.audit e).reports = s.reports := rfl
@[simp] theorem State.audit_reportSent (s : State) (e : AuditEvent) : (s.audit e).reportSent = s.reportSent := rfl
@[simp] theorem State.audit_returnData (s : State) (e : AuditEvent) : (s.audit e).returnData = s.returnData := rfl
@[simp] theorem State.audit_frame (s : State) (e : AuditEvent) : (s.audit e).frame = s.frame := rfl
@[simp] theorem State.audit_waiting (s : State) (e : AuditEvent) : (s.audit e).waiting = s.waiting := rfl
@[simp] theorem State.audit_sending (s : State) (e : AuditEvent) : (s.audit e).sending = s.sending := rfl
@[simp] theorem State.audit_restartOwed (s : State) (e : AuditEvent) : (s.audit e).restartOwed = s.restartOwed := rfl
@[simp] theorem State.audit_codes (s : State) (e : AuditEvent) : (s.audit e).codes = s.codes := rfl
@[simp] theorem State.audit_floor (s : State) (e : AuditEvent) : (s.audit e).floor = s.floor := rfl
@[simp] theorem State.audit_choices (s : State) (e : AuditEvent) : (s.audit e).choices = s.choices := rfl
@[simp] theorem State.audit_pending (s : State) (e : AuditEvent) : (s.audit e).pending = s.pending := rfl

/-! ## `createRecord` -/

@[simp] theorem State.createRecord_unitId (s : State) (r : RentalRec) : (s.createRecord r).unitId = s.unitId := rfl
@[simp] theorem State.createRecord_held (s : State) (r : RentalRec) : (s.createRecord r).held = s.held := rfl
@[simp] theorem State.createRecord_screenReady (s : State) (r : RentalRec) : (s.createRecord r).screenReady = s.screenReady := rfl
@[simp] theorem State.createRecord_returnReady (s : State) (r : RentalRec) : (s.createRecord r).returnReady = s.returnReady := rfl
@[simp] theorem State.createRecord_framer (s : State) (r : RentalRec) : (s.createRecord r).framer = s.framer := rfl
@[simp] theorem State.createRecord_services (s : State) (r : RentalRec) : (s.createRecord r).services = s.services := rfl
@[simp] theorem State.createRecord_directory (s : State) (r : RentalRec) : (s.createRecord r).directory = s.directory := rfl
@[simp] theorem State.createRecord_keys (s : State) (r : RentalRec) : (s.createRecord r).keys = s.keys := rfl
@[simp] theorem State.createRecord_lanes (s : State) (r : RentalRec) : (s.createRecord r).lanes = s.lanes := rfl
@[simp] theorem State.createRecord_catalog (s : State) (r : RentalRec) : (s.createRecord r).catalog = s.catalog := rfl
@[simp] theorem State.createRecord_staged (s : State) (r : RentalRec) : (s.createRecord r).staged = s.staged := rfl
@[simp] theorem State.createRecord_live (s : State) (r : RentalRec) : (s.createRecord r).live = s.live := rfl
@[simp] theorem State.createRecord_room (s : State) (r : RentalRec) : (s.createRecord r).room = s.room := rfl
@[simp] theorem State.createRecord_charges (s : State) (r : RentalRec) : (s.createRecord r).charges = s.charges := rfl
@[simp] theorem State.createRecord_nextSerial (s : State) (r : RentalRec) : (s.createRecord r).nextSerial = s.nextSerial := rfl
@[simp] theorem State.createRecord_lock (s : State) (r : RentalRec) : (s.createRecord r).lock = s.lock := rfl
@[simp] theorem State.createRecord_clock (s : State) (r : RentalRec) : (s.createRecord r).clock = s.clock := rfl
@[simp] theorem State.createRecord_counters (s : State) (r : RentalRec) : (s.createRecord r).counters = s.counters := rfl
@[simp] theorem State.createRecord_groups (s : State) (r : RentalRec) : (s.createRecord r).groups = s.groups := rfl
@[simp] theorem State.createRecord_counts (s : State) (r : RentalRec) : (s.createRecord r).counts = s.counts := rfl
@[simp] theorem State.createRecord_alerts (s : State) (r : RentalRec) : (s.createRecord r).alerts = s.alerts := rfl
@[simp] theorem State.createRecord_owed (s : State) (r : RentalRec) : (s.createRecord r).owed = s.owed := rfl
@[simp] theorem State.createRecord_reports (s : State) (r : RentalRec) : (s.createRecord r).reports = s.reports := rfl
@[simp] theorem State.createRecord_reportSent (s : State) (r : RentalRec) : (s.createRecord r).reportSent = s.reportSent := rfl
@[simp] theorem State.createRecord_returnData (s : State) (r : RentalRec) : (s.createRecord r).returnData = s.returnData := rfl
@[simp] theorem State.createRecord_frame (s : State) (r : RentalRec) : (s.createRecord r).frame = s.frame := rfl
@[simp] theorem State.createRecord_waiting (s : State) (r : RentalRec) : (s.createRecord r).waiting = s.waiting := rfl
@[simp] theorem State.createRecord_sending (s : State) (r : RentalRec) : (s.createRecord r).sending = s.sending := rfl
@[simp] theorem State.createRecord_restartOwed (s : State) (r : RentalRec) : (s.createRecord r).restartOwed = s.restartOwed := rfl
@[simp] theorem State.createRecord_codes (s : State) (r : RentalRec) : (s.createRecord r).codes = s.codes := rfl
@[simp] theorem State.createRecord_floor (s : State) (r : RentalRec) : (s.createRecord r).floor = s.floor := rfl
@[simp] theorem State.createRecord_choices (s : State) (r : RentalRec) : (s.createRecord r).choices = s.choices := rfl
@[simp] theorem State.createRecord_pending (s : State) (r : RentalRec) : (s.createRecord r).pending = s.pending := rfl

/-! ## `modRental` -/

@[simp] theorem State.modRental_unitId (s : State) (t : Nat) (f : RentalRec → RentalRec) : (s.modRental t f).unitId = s.unitId := rfl
@[simp] theorem State.modRental_held (s : State) (t : Nat) (f : RentalRec → RentalRec) : (s.modRental t f).held = s.held := rfl
@[simp] theorem State.modRental_screenReady (s : State) (t : Nat) (f : RentalRec → RentalRec) : (s.modRental t f).screenReady = s.screenReady := rfl
@[simp] theorem State.modRental_returnReady (s : State) (t : Nat) (f : RentalRec → RentalRec) : (s.modRental t f).returnReady = s.returnReady := rfl
@[simp] theorem State.modRental_framer (s : State) (t : Nat) (f : RentalRec → RentalRec) : (s.modRental t f).framer = s.framer := rfl
@[simp] theorem State.modRental_services (s : State) (t : Nat) (f : RentalRec → RentalRec) : (s.modRental t f).services = s.services := rfl
@[simp] theorem State.modRental_directory (s : State) (t : Nat) (f : RentalRec → RentalRec) : (s.modRental t f).directory = s.directory := rfl
@[simp] theorem State.modRental_keys (s : State) (t : Nat) (f : RentalRec → RentalRec) : (s.modRental t f).keys = s.keys := rfl
@[simp] theorem State.modRental_lanes (s : State) (t : Nat) (f : RentalRec → RentalRec) : (s.modRental t f).lanes = s.lanes := rfl
@[simp] theorem State.modRental_catalog (s : State) (t : Nat) (f : RentalRec → RentalRec) : (s.modRental t f).catalog = s.catalog := rfl
@[simp] theorem State.modRental_staged (s : State) (t : Nat) (f : RentalRec → RentalRec) : (s.modRental t f).staged = s.staged := rfl
@[simp] theorem State.modRental_live (s : State) (t : Nat) (f : RentalRec → RentalRec) : (s.modRental t f).live = s.live := rfl
@[simp] theorem State.modRental_room (s : State) (t : Nat) (f : RentalRec → RentalRec) : (s.modRental t f).room = s.room := rfl
@[simp] theorem State.modRental_charges (s : State) (t : Nat) (f : RentalRec → RentalRec) : (s.modRental t f).charges = s.charges := rfl
@[simp] theorem State.modRental_nextSerial (s : State) (t : Nat) (f : RentalRec → RentalRec) : (s.modRental t f).nextSerial = s.nextSerial := rfl
@[simp] theorem State.modRental_lock (s : State) (t : Nat) (f : RentalRec → RentalRec) : (s.modRental t f).lock = s.lock := rfl
@[simp] theorem State.modRental_clock (s : State) (t : Nat) (f : RentalRec → RentalRec) : (s.modRental t f).clock = s.clock := rfl
@[simp] theorem State.modRental_counters (s : State) (t : Nat) (f : RentalRec → RentalRec) : (s.modRental t f).counters = s.counters := rfl
@[simp] theorem State.modRental_groups (s : State) (t : Nat) (f : RentalRec → RentalRec) : (s.modRental t f).groups = s.groups := rfl
@[simp] theorem State.modRental_counts (s : State) (t : Nat) (f : RentalRec → RentalRec) : (s.modRental t f).counts = s.counts := rfl
@[simp] theorem State.modRental_alerts (s : State) (t : Nat) (f : RentalRec → RentalRec) : (s.modRental t f).alerts = s.alerts := rfl
@[simp] theorem State.modRental_owed (s : State) (t : Nat) (f : RentalRec → RentalRec) : (s.modRental t f).owed = s.owed := rfl
@[simp] theorem State.modRental_reports (s : State) (t : Nat) (f : RentalRec → RentalRec) : (s.modRental t f).reports = s.reports := rfl
@[simp] theorem State.modRental_reportSent (s : State) (t : Nat) (f : RentalRec → RentalRec) : (s.modRental t f).reportSent = s.reportSent := rfl
@[simp] theorem State.modRental_returnData (s : State) (t : Nat) (f : RentalRec → RentalRec) : (s.modRental t f).returnData = s.returnData := rfl
@[simp] theorem State.modRental_frame (s : State) (t : Nat) (f : RentalRec → RentalRec) : (s.modRental t f).frame = s.frame := rfl
@[simp] theorem State.modRental_waiting (s : State) (t : Nat) (f : RentalRec → RentalRec) : (s.modRental t f).waiting = s.waiting := rfl
@[simp] theorem State.modRental_sending (s : State) (t : Nat) (f : RentalRec → RentalRec) : (s.modRental t f).sending = s.sending := rfl
@[simp] theorem State.modRental_restartOwed (s : State) (t : Nat) (f : RentalRec → RentalRec) : (s.modRental t f).restartOwed = s.restartOwed := rfl
@[simp] theorem State.modRental_codes (s : State) (t : Nat) (f : RentalRec → RentalRec) : (s.modRental t f).codes = s.codes := rfl
@[simp] theorem State.modRental_floor (s : State) (t : Nat) (f : RentalRec → RentalRec) : (s.modRental t f).floor = s.floor := rfl
@[simp] theorem State.modRental_choices (s : State) (t : Nat) (f : RentalRec → RentalRec) : (s.modRental t f).choices = s.choices := rfl
@[simp] theorem State.modRental_pending (s : State) (t : Nat) (f : RentalRec → RentalRec) : (s.modRental t f).pending = s.pending := rfl

/-! ## `modFamily` -/

@[simp] theorem State.modFamily_unitId (s : State) (n : Fin 32) (f : KeyFamily → KeyFamily) : (s.modFamily n f).unitId = s.unitId := rfl
@[simp] theorem State.modFamily_held (s : State) (n : Fin 32) (f : KeyFamily → KeyFamily) : (s.modFamily n f).held = s.held := rfl
@[simp] theorem State.modFamily_screenReady (s : State) (n : Fin 32) (f : KeyFamily → KeyFamily) : (s.modFamily n f).screenReady = s.screenReady := rfl
@[simp] theorem State.modFamily_returnReady (s : State) (n : Fin 32) (f : KeyFamily → KeyFamily) : (s.modFamily n f).returnReady = s.returnReady := rfl
@[simp] theorem State.modFamily_framer (s : State) (n : Fin 32) (f : KeyFamily → KeyFamily) : (s.modFamily n f).framer = s.framer := rfl
@[simp] theorem State.modFamily_services (s : State) (n : Fin 32) (f : KeyFamily → KeyFamily) : (s.modFamily n f).services = s.services := rfl
@[simp] theorem State.modFamily_directory (s : State) (n : Fin 32) (f : KeyFamily → KeyFamily) : (s.modFamily n f).directory = s.directory := rfl
@[simp] theorem State.modFamily_lanes (s : State) (n : Fin 32) (f : KeyFamily → KeyFamily) : (s.modFamily n f).lanes = s.lanes := rfl
@[simp] theorem State.modFamily_catalog (s : State) (n : Fin 32) (f : KeyFamily → KeyFamily) : (s.modFamily n f).catalog = s.catalog := rfl
@[simp] theorem State.modFamily_rentals (s : State) (n : Fin 32) (f : KeyFamily → KeyFamily) : (s.modFamily n f).rentals = s.rentals := rfl
@[simp] theorem State.modFamily_staged (s : State) (n : Fin 32) (f : KeyFamily → KeyFamily) : (s.modFamily n f).staged = s.staged := rfl
@[simp] theorem State.modFamily_live (s : State) (n : Fin 32) (f : KeyFamily → KeyFamily) : (s.modFamily n f).live = s.live := rfl
@[simp] theorem State.modFamily_room (s : State) (n : Fin 32) (f : KeyFamily → KeyFamily) : (s.modFamily n f).room = s.room := rfl
@[simp] theorem State.modFamily_charges (s : State) (n : Fin 32) (f : KeyFamily → KeyFamily) : (s.modFamily n f).charges = s.charges := rfl
@[simp] theorem State.modFamily_nextSerial (s : State) (n : Fin 32) (f : KeyFamily → KeyFamily) : (s.modFamily n f).nextSerial = s.nextSerial := rfl
@[simp] theorem State.modFamily_lock (s : State) (n : Fin 32) (f : KeyFamily → KeyFamily) : (s.modFamily n f).lock = s.lock := rfl
@[simp] theorem State.modFamily_clock (s : State) (n : Fin 32) (f : KeyFamily → KeyFamily) : (s.modFamily n f).clock = s.clock := rfl
@[simp] theorem State.modFamily_counters (s : State) (n : Fin 32) (f : KeyFamily → KeyFamily) : (s.modFamily n f).counters = s.counters := rfl
@[simp] theorem State.modFamily_groups (s : State) (n : Fin 32) (f : KeyFamily → KeyFamily) : (s.modFamily n f).groups = s.groups := rfl
@[simp] theorem State.modFamily_counts (s : State) (n : Fin 32) (f : KeyFamily → KeyFamily) : (s.modFamily n f).counts = s.counts := rfl
@[simp] theorem State.modFamily_alerts (s : State) (n : Fin 32) (f : KeyFamily → KeyFamily) : (s.modFamily n f).alerts = s.alerts := rfl
@[simp] theorem State.modFamily_owed (s : State) (n : Fin 32) (f : KeyFamily → KeyFamily) : (s.modFamily n f).owed = s.owed := rfl
@[simp] theorem State.modFamily_reports (s : State) (n : Fin 32) (f : KeyFamily → KeyFamily) : (s.modFamily n f).reports = s.reports := rfl
@[simp] theorem State.modFamily_reportSent (s : State) (n : Fin 32) (f : KeyFamily → KeyFamily) : (s.modFamily n f).reportSent = s.reportSent := rfl
@[simp] theorem State.modFamily_returnData (s : State) (n : Fin 32) (f : KeyFamily → KeyFamily) : (s.modFamily n f).returnData = s.returnData := rfl
@[simp] theorem State.modFamily_frame (s : State) (n : Fin 32) (f : KeyFamily → KeyFamily) : (s.modFamily n f).frame = s.frame := rfl
@[simp] theorem State.modFamily_waiting (s : State) (n : Fin 32) (f : KeyFamily → KeyFamily) : (s.modFamily n f).waiting = s.waiting := rfl
@[simp] theorem State.modFamily_sending (s : State) (n : Fin 32) (f : KeyFamily → KeyFamily) : (s.modFamily n f).sending = s.sending := rfl
@[simp] theorem State.modFamily_restartOwed (s : State) (n : Fin 32) (f : KeyFamily → KeyFamily) : (s.modFamily n f).restartOwed = s.restartOwed := rfl
@[simp] theorem State.modFamily_codes (s : State) (n : Fin 32) (f : KeyFamily → KeyFamily) : (s.modFamily n f).codes = s.codes := rfl
@[simp] theorem State.modFamily_floor (s : State) (n : Fin 32) (f : KeyFamily → KeyFamily) : (s.modFamily n f).floor = s.floor := rfl
@[simp] theorem State.modFamily_choices (s : State) (n : Fin 32) (f : KeyFamily → KeyFamily) : (s.modFamily n f).choices = s.choices := rfl
@[simp] theorem State.modFamily_pending (s : State) (n : Fin 32) (f : KeyFamily → KeyFamily) : (s.modFamily n f).pending = s.pending := rfl

/-! ## `appendCharge` -/

@[simp] theorem State.appendCharge_unitId (s : State) (c : ChargeRec) : (s.appendCharge c).unitId = s.unitId := rfl
@[simp] theorem State.appendCharge_held (s : State) (c : ChargeRec) : (s.appendCharge c).held = s.held := rfl
@[simp] theorem State.appendCharge_screenReady (s : State) (c : ChargeRec) : (s.appendCharge c).screenReady = s.screenReady := rfl
@[simp] theorem State.appendCharge_returnReady (s : State) (c : ChargeRec) : (s.appendCharge c).returnReady = s.returnReady := rfl
@[simp] theorem State.appendCharge_framer (s : State) (c : ChargeRec) : (s.appendCharge c).framer = s.framer := rfl
@[simp] theorem State.appendCharge_services (s : State) (c : ChargeRec) : (s.appendCharge c).services = s.services := rfl
@[simp] theorem State.appendCharge_directory (s : State) (c : ChargeRec) : (s.appendCharge c).directory = s.directory := rfl
@[simp] theorem State.appendCharge_keys (s : State) (c : ChargeRec) : (s.appendCharge c).keys = s.keys := rfl
@[simp] theorem State.appendCharge_lanes (s : State) (c : ChargeRec) : (s.appendCharge c).lanes = s.lanes := rfl
@[simp] theorem State.appendCharge_catalog (s : State) (c : ChargeRec) : (s.appendCharge c).catalog = s.catalog := rfl
@[simp] theorem State.appendCharge_rentals (s : State) (c : ChargeRec) : (s.appendCharge c).rentals = s.rentals := rfl
@[simp] theorem State.appendCharge_staged (s : State) (c : ChargeRec) : (s.appendCharge c).staged = s.staged := rfl
@[simp] theorem State.appendCharge_live (s : State) (c : ChargeRec) : (s.appendCharge c).live = s.live := rfl
@[simp] theorem State.appendCharge_lock (s : State) (c : ChargeRec) : (s.appendCharge c).lock = s.lock := rfl
@[simp] theorem State.appendCharge_clock (s : State) (c : ChargeRec) : (s.appendCharge c).clock = s.clock := rfl
@[simp] theorem State.appendCharge_counters (s : State) (c : ChargeRec) : (s.appendCharge c).counters = s.counters := rfl
@[simp] theorem State.appendCharge_groups (s : State) (c : ChargeRec) : (s.appendCharge c).groups = s.groups := rfl
@[simp] theorem State.appendCharge_counts (s : State) (c : ChargeRec) : (s.appendCharge c).counts = s.counts := rfl
@[simp] theorem State.appendCharge_alerts (s : State) (c : ChargeRec) : (s.appendCharge c).alerts = s.alerts := rfl
@[simp] theorem State.appendCharge_owed (s : State) (c : ChargeRec) : (s.appendCharge c).owed = s.owed := rfl
@[simp] theorem State.appendCharge_reports (s : State) (c : ChargeRec) : (s.appendCharge c).reports = s.reports := rfl
@[simp] theorem State.appendCharge_reportSent (s : State) (c : ChargeRec) : (s.appendCharge c).reportSent = s.reportSent := rfl
@[simp] theorem State.appendCharge_returnData (s : State) (c : ChargeRec) : (s.appendCharge c).returnData = s.returnData := rfl
@[simp] theorem State.appendCharge_frame (s : State) (c : ChargeRec) : (s.appendCharge c).frame = s.frame := rfl
@[simp] theorem State.appendCharge_waiting (s : State) (c : ChargeRec) : (s.appendCharge c).waiting = s.waiting := rfl
@[simp] theorem State.appendCharge_sending (s : State) (c : ChargeRec) : (s.appendCharge c).sending = s.sending := rfl
@[simp] theorem State.appendCharge_restartOwed (s : State) (c : ChargeRec) : (s.appendCharge c).restartOwed = s.restartOwed := rfl
@[simp] theorem State.appendCharge_codes (s : State) (c : ChargeRec) : (s.appendCharge c).codes = s.codes := rfl
@[simp] theorem State.appendCharge_floor (s : State) (c : ChargeRec) : (s.appendCharge c).floor = s.floor := rfl
@[simp] theorem State.appendCharge_choices (s : State) (c : ChargeRec) : (s.appendCharge c).choices = s.choices := rfl
@[simp] theorem State.appendCharge_pending (s : State) (c : ChargeRec) : (s.appendCharge c).pending = s.pending := rfl

/-! ## `countTaken` -/

@[simp] theorem State.countTaken_unitId (s : State) : s.countTaken.unitId = s.unitId := rfl
@[simp] theorem State.countTaken_held (s : State) : s.countTaken.held = s.held := rfl
@[simp] theorem State.countTaken_screenReady (s : State) : s.countTaken.screenReady = s.screenReady := rfl
@[simp] theorem State.countTaken_returnReady (s : State) : s.countTaken.returnReady = s.returnReady := rfl
@[simp] theorem State.countTaken_framer (s : State) : s.countTaken.framer = s.framer := rfl
@[simp] theorem State.countTaken_services (s : State) : s.countTaken.services = s.services := rfl
@[simp] theorem State.countTaken_directory (s : State) : s.countTaken.directory = s.directory := rfl
@[simp] theorem State.countTaken_keys (s : State) : s.countTaken.keys = s.keys := rfl
@[simp] theorem State.countTaken_lanes (s : State) : s.countTaken.lanes = s.lanes := rfl
@[simp] theorem State.countTaken_catalog (s : State) : s.countTaken.catalog = s.catalog := rfl
@[simp] theorem State.countTaken_rentals (s : State) : s.countTaken.rentals = s.rentals := rfl
@[simp] theorem State.countTaken_staged (s : State) : s.countTaken.staged = s.staged := rfl
@[simp] theorem State.countTaken_live (s : State) : s.countTaken.live = s.live := rfl
@[simp] theorem State.countTaken_room (s : State) : s.countTaken.room = s.room := rfl
@[simp] theorem State.countTaken_charges (s : State) : s.countTaken.charges = s.charges := rfl
@[simp] theorem State.countTaken_nextSerial (s : State) : s.countTaken.nextSerial = s.nextSerial := rfl
@[simp] theorem State.countTaken_lock (s : State) : s.countTaken.lock = s.lock := rfl
@[simp] theorem State.countTaken_clock (s : State) : s.countTaken.clock = s.clock := rfl
@[simp] theorem State.countTaken_counters (s : State) : s.countTaken.counters = s.counters := rfl
@[simp] theorem State.countTaken_groups (s : State) : s.countTaken.groups = s.groups := rfl
@[simp] theorem State.countTaken_alerts (s : State) : s.countTaken.alerts = s.alerts := rfl
@[simp] theorem State.countTaken_owed (s : State) : s.countTaken.owed = s.owed := rfl
@[simp] theorem State.countTaken_reports (s : State) : s.countTaken.reports = s.reports := rfl
@[simp] theorem State.countTaken_reportSent (s : State) : s.countTaken.reportSent = s.reportSent := rfl
@[simp] theorem State.countTaken_returnData (s : State) : s.countTaken.returnData = s.returnData := rfl
@[simp] theorem State.countTaken_frame (s : State) : s.countTaken.frame = s.frame := rfl
@[simp] theorem State.countTaken_waiting (s : State) : s.countTaken.waiting = s.waiting := rfl
@[simp] theorem State.countTaken_sending (s : State) : s.countTaken.sending = s.sending := rfl
@[simp] theorem State.countTaken_restartOwed (s : State) : s.countTaken.restartOwed = s.restartOwed := rfl
@[simp] theorem State.countTaken_codes (s : State) : s.countTaken.codes = s.codes := rfl
@[simp] theorem State.countTaken_floor (s : State) : s.countTaken.floor = s.floor := rfl
@[simp] theorem State.countTaken_choices (s : State) : s.countTaken.choices = s.choices := rfl
@[simp] theorem State.countTaken_pending (s : State) : s.countTaken.pending = s.pending := rfl

/-! ## `countRefused` -/

@[simp] theorem State.countRefused_unitId (s : State) : s.countRefused.unitId = s.unitId := rfl
@[simp] theorem State.countRefused_held (s : State) : s.countRefused.held = s.held := rfl
@[simp] theorem State.countRefused_screenReady (s : State) : s.countRefused.screenReady = s.screenReady := rfl
@[simp] theorem State.countRefused_returnReady (s : State) : s.countRefused.returnReady = s.returnReady := rfl
@[simp] theorem State.countRefused_framer (s : State) : s.countRefused.framer = s.framer := rfl
@[simp] theorem State.countRefused_services (s : State) : s.countRefused.services = s.services := rfl
@[simp] theorem State.countRefused_directory (s : State) : s.countRefused.directory = s.directory := rfl
@[simp] theorem State.countRefused_keys (s : State) : s.countRefused.keys = s.keys := rfl
@[simp] theorem State.countRefused_lanes (s : State) : s.countRefused.lanes = s.lanes := rfl
@[simp] theorem State.countRefused_catalog (s : State) : s.countRefused.catalog = s.catalog := rfl
@[simp] theorem State.countRefused_rentals (s : State) : s.countRefused.rentals = s.rentals := rfl
@[simp] theorem State.countRefused_staged (s : State) : s.countRefused.staged = s.staged := rfl
@[simp] theorem State.countRefused_live (s : State) : s.countRefused.live = s.live := rfl
@[simp] theorem State.countRefused_room (s : State) : s.countRefused.room = s.room := rfl
@[simp] theorem State.countRefused_charges (s : State) : s.countRefused.charges = s.charges := rfl
@[simp] theorem State.countRefused_nextSerial (s : State) : s.countRefused.nextSerial = s.nextSerial := rfl
@[simp] theorem State.countRefused_lock (s : State) : s.countRefused.lock = s.lock := rfl
@[simp] theorem State.countRefused_clock (s : State) : s.countRefused.clock = s.clock := rfl
@[simp] theorem State.countRefused_counters (s : State) : s.countRefused.counters = s.counters := rfl
@[simp] theorem State.countRefused_groups (s : State) : s.countRefused.groups = s.groups := rfl
@[simp] theorem State.countRefused_alerts (s : State) : s.countRefused.alerts = s.alerts := rfl
@[simp] theorem State.countRefused_owed (s : State) : s.countRefused.owed = s.owed := rfl
@[simp] theorem State.countRefused_reports (s : State) : s.countRefused.reports = s.reports := rfl
@[simp] theorem State.countRefused_reportSent (s : State) : s.countRefused.reportSent = s.reportSent := rfl
@[simp] theorem State.countRefused_returnData (s : State) : s.countRefused.returnData = s.returnData := rfl
@[simp] theorem State.countRefused_frame (s : State) : s.countRefused.frame = s.frame := rfl
@[simp] theorem State.countRefused_waiting (s : State) : s.countRefused.waiting = s.waiting := rfl
@[simp] theorem State.countRefused_sending (s : State) : s.countRefused.sending = s.sending := rfl
@[simp] theorem State.countRefused_restartOwed (s : State) : s.countRefused.restartOwed = s.restartOwed := rfl
@[simp] theorem State.countRefused_codes (s : State) : s.countRefused.codes = s.codes := rfl
@[simp] theorem State.countRefused_floor (s : State) : s.countRefused.floor = s.floor := rfl
@[simp] theorem State.countRefused_choices (s : State) : s.countRefused.choices = s.choices := rfl
@[simp] theorem State.countRefused_pending (s : State) : s.countRefused.pending = s.pending := rfl

/-! ## `countCrcBad` -/

@[simp] theorem State.countCrcBad_unitId (s : State) : s.countCrcBad.unitId = s.unitId := rfl
@[simp] theorem State.countCrcBad_held (s : State) : s.countCrcBad.held = s.held := rfl
@[simp] theorem State.countCrcBad_screenReady (s : State) : s.countCrcBad.screenReady = s.screenReady := rfl
@[simp] theorem State.countCrcBad_returnReady (s : State) : s.countCrcBad.returnReady = s.returnReady := rfl
@[simp] theorem State.countCrcBad_framer (s : State) : s.countCrcBad.framer = s.framer := rfl
@[simp] theorem State.countCrcBad_services (s : State) : s.countCrcBad.services = s.services := rfl
@[simp] theorem State.countCrcBad_directory (s : State) : s.countCrcBad.directory = s.directory := rfl
@[simp] theorem State.countCrcBad_keys (s : State) : s.countCrcBad.keys = s.keys := rfl
@[simp] theorem State.countCrcBad_lanes (s : State) : s.countCrcBad.lanes = s.lanes := rfl
@[simp] theorem State.countCrcBad_catalog (s : State) : s.countCrcBad.catalog = s.catalog := rfl
@[simp] theorem State.countCrcBad_rentals (s : State) : s.countCrcBad.rentals = s.rentals := rfl
@[simp] theorem State.countCrcBad_staged (s : State) : s.countCrcBad.staged = s.staged := rfl
@[simp] theorem State.countCrcBad_live (s : State) : s.countCrcBad.live = s.live := rfl
@[simp] theorem State.countCrcBad_room (s : State) : s.countCrcBad.room = s.room := rfl
@[simp] theorem State.countCrcBad_charges (s : State) : s.countCrcBad.charges = s.charges := rfl
@[simp] theorem State.countCrcBad_nextSerial (s : State) : s.countCrcBad.nextSerial = s.nextSerial := rfl
@[simp] theorem State.countCrcBad_lock (s : State) : s.countCrcBad.lock = s.lock := rfl
@[simp] theorem State.countCrcBad_clock (s : State) : s.countCrcBad.clock = s.clock := rfl
@[simp] theorem State.countCrcBad_counters (s : State) : s.countCrcBad.counters = s.counters := rfl
@[simp] theorem State.countCrcBad_groups (s : State) : s.countCrcBad.groups = s.groups := rfl
@[simp] theorem State.countCrcBad_alerts (s : State) : s.countCrcBad.alerts = s.alerts := rfl
@[simp] theorem State.countCrcBad_owed (s : State) : s.countCrcBad.owed = s.owed := rfl
@[simp] theorem State.countCrcBad_reports (s : State) : s.countCrcBad.reports = s.reports := rfl
@[simp] theorem State.countCrcBad_reportSent (s : State) : s.countCrcBad.reportSent = s.reportSent := rfl
@[simp] theorem State.countCrcBad_returnData (s : State) : s.countCrcBad.returnData = s.returnData := rfl
@[simp] theorem State.countCrcBad_frame (s : State) : s.countCrcBad.frame = s.frame := rfl
@[simp] theorem State.countCrcBad_waiting (s : State) : s.countCrcBad.waiting = s.waiting := rfl
@[simp] theorem State.countCrcBad_sending (s : State) : s.countCrcBad.sending = s.sending := rfl
@[simp] theorem State.countCrcBad_restartOwed (s : State) : s.countCrcBad.restartOwed = s.restartOwed := rfl
@[simp] theorem State.countCrcBad_codes (s : State) : s.countCrcBad.codes = s.codes := rfl
@[simp] theorem State.countCrcBad_floor (s : State) : s.countCrcBad.floor = s.floor := rfl
@[simp] theorem State.countCrcBad_choices (s : State) : s.countCrcBad.choices = s.choices := rfl
@[simp] theorem State.countCrcBad_pending (s : State) : s.countCrcBad.pending = s.pending := rfl

/-! ## `countMalformed` -/

@[simp] theorem State.countMalformed_unitId (s : State) : s.countMalformed.unitId = s.unitId := rfl
@[simp] theorem State.countMalformed_held (s : State) : s.countMalformed.held = s.held := rfl
@[simp] theorem State.countMalformed_screenReady (s : State) : s.countMalformed.screenReady = s.screenReady := rfl
@[simp] theorem State.countMalformed_returnReady (s : State) : s.countMalformed.returnReady = s.returnReady := rfl
@[simp] theorem State.countMalformed_framer (s : State) : s.countMalformed.framer = s.framer := rfl
@[simp] theorem State.countMalformed_services (s : State) : s.countMalformed.services = s.services := rfl
@[simp] theorem State.countMalformed_directory (s : State) : s.countMalformed.directory = s.directory := rfl
@[simp] theorem State.countMalformed_keys (s : State) : s.countMalformed.keys = s.keys := rfl
@[simp] theorem State.countMalformed_lanes (s : State) : s.countMalformed.lanes = s.lanes := rfl
@[simp] theorem State.countMalformed_catalog (s : State) : s.countMalformed.catalog = s.catalog := rfl
@[simp] theorem State.countMalformed_rentals (s : State) : s.countMalformed.rentals = s.rentals := rfl
@[simp] theorem State.countMalformed_staged (s : State) : s.countMalformed.staged = s.staged := rfl
@[simp] theorem State.countMalformed_live (s : State) : s.countMalformed.live = s.live := rfl
@[simp] theorem State.countMalformed_room (s : State) : s.countMalformed.room = s.room := rfl
@[simp] theorem State.countMalformed_charges (s : State) : s.countMalformed.charges = s.charges := rfl
@[simp] theorem State.countMalformed_nextSerial (s : State) : s.countMalformed.nextSerial = s.nextSerial := rfl
@[simp] theorem State.countMalformed_lock (s : State) : s.countMalformed.lock = s.lock := rfl
@[simp] theorem State.countMalformed_clock (s : State) : s.countMalformed.clock = s.clock := rfl
@[simp] theorem State.countMalformed_counters (s : State) : s.countMalformed.counters = s.counters := rfl
@[simp] theorem State.countMalformed_groups (s : State) : s.countMalformed.groups = s.groups := rfl
@[simp] theorem State.countMalformed_alerts (s : State) : s.countMalformed.alerts = s.alerts := rfl
@[simp] theorem State.countMalformed_owed (s : State) : s.countMalformed.owed = s.owed := rfl
@[simp] theorem State.countMalformed_reports (s : State) : s.countMalformed.reports = s.reports := rfl
@[simp] theorem State.countMalformed_reportSent (s : State) : s.countMalformed.reportSent = s.reportSent := rfl
@[simp] theorem State.countMalformed_returnData (s : State) : s.countMalformed.returnData = s.returnData := rfl
@[simp] theorem State.countMalformed_frame (s : State) : s.countMalformed.frame = s.frame := rfl
@[simp] theorem State.countMalformed_waiting (s : State) : s.countMalformed.waiting = s.waiting := rfl
@[simp] theorem State.countMalformed_sending (s : State) : s.countMalformed.sending = s.sending := rfl
@[simp] theorem State.countMalformed_restartOwed (s : State) : s.countMalformed.restartOwed = s.restartOwed := rfl
@[simp] theorem State.countMalformed_codes (s : State) : s.countMalformed.codes = s.codes := rfl
@[simp] theorem State.countMalformed_floor (s : State) : s.countMalformed.floor = s.floor := rfl
@[simp] theorem State.countMalformed_choices (s : State) : s.countMalformed.choices = s.choices := rfl
@[simp] theorem State.countMalformed_pending (s : State) : s.countMalformed.pending = s.pending := rfl

/-! ## `copyTariffs` -/

@[simp] theorem State.copyTariffs_unitId (s : State) : s.copyTariffs.unitId = s.unitId := rfl
@[simp] theorem State.copyTariffs_held (s : State) : s.copyTariffs.held = s.held := rfl
@[simp] theorem State.copyTariffs_screenReady (s : State) : s.copyTariffs.screenReady = s.screenReady := rfl
@[simp] theorem State.copyTariffs_returnReady (s : State) : s.copyTariffs.returnReady = s.returnReady := rfl
@[simp] theorem State.copyTariffs_framer (s : State) : s.copyTariffs.framer = s.framer := rfl
@[simp] theorem State.copyTariffs_services (s : State) : s.copyTariffs.services = s.services := rfl
@[simp] theorem State.copyTariffs_directory (s : State) : s.copyTariffs.directory = s.directory := rfl
@[simp] theorem State.copyTariffs_keys (s : State) : s.copyTariffs.keys = s.keys := rfl
@[simp] theorem State.copyTariffs_lanes (s : State) : s.copyTariffs.lanes = s.lanes := rfl
@[simp] theorem State.copyTariffs_catalog (s : State) : s.copyTariffs.catalog = s.catalog := rfl
@[simp] theorem State.copyTariffs_rentals (s : State) : s.copyTariffs.rentals = s.rentals := rfl
@[simp] theorem State.copyTariffs_staged (s : State) : s.copyTariffs.staged = s.staged := rfl
@[simp] theorem State.copyTariffs_room (s : State) : s.copyTariffs.room = s.room := rfl
@[simp] theorem State.copyTariffs_charges (s : State) : s.copyTariffs.charges = s.charges := rfl
@[simp] theorem State.copyTariffs_nextSerial (s : State) : s.copyTariffs.nextSerial = s.nextSerial := rfl
@[simp] theorem State.copyTariffs_lock (s : State) : s.copyTariffs.lock = s.lock := rfl
@[simp] theorem State.copyTariffs_clock (s : State) : s.copyTariffs.clock = s.clock := rfl
@[simp] theorem State.copyTariffs_counters (s : State) : s.copyTariffs.counters = s.counters := rfl
@[simp] theorem State.copyTariffs_groups (s : State) : s.copyTariffs.groups = s.groups := rfl
@[simp] theorem State.copyTariffs_counts (s : State) : s.copyTariffs.counts = s.counts := rfl
@[simp] theorem State.copyTariffs_alerts (s : State) : s.copyTariffs.alerts = s.alerts := rfl
@[simp] theorem State.copyTariffs_owed (s : State) : s.copyTariffs.owed = s.owed := rfl
@[simp] theorem State.copyTariffs_reports (s : State) : s.copyTariffs.reports = s.reports := rfl
@[simp] theorem State.copyTariffs_reportSent (s : State) : s.copyTariffs.reportSent = s.reportSent := rfl
@[simp] theorem State.copyTariffs_returnData (s : State) : s.copyTariffs.returnData = s.returnData := rfl
@[simp] theorem State.copyTariffs_frame (s : State) : s.copyTariffs.frame = s.frame := rfl
@[simp] theorem State.copyTariffs_waiting (s : State) : s.copyTariffs.waiting = s.waiting := rfl
@[simp] theorem State.copyTariffs_sending (s : State) : s.copyTariffs.sending = s.sending := rfl
@[simp] theorem State.copyTariffs_restartOwed (s : State) : s.copyTariffs.restartOwed = s.restartOwed := rfl
@[simp] theorem State.copyTariffs_codes (s : State) : s.copyTariffs.codes = s.codes := rfl
@[simp] theorem State.copyTariffs_floor (s : State) : s.copyTariffs.floor = s.floor := rfl
@[simp] theorem State.copyTariffs_choices (s : State) : s.copyTariffs.choices = s.choices := rfl
@[simp] theorem State.copyTariffs_pending (s : State) : s.copyTariffs.pending = s.pending := rfl

/-! ## `raiseCodes` -/

theorem State.raiseCodes_shape (s : State) (cs : List Nat) :
    s.raiseCodes cs = { s with codes := cs.foldl (fun a c => insertCode c a) s.codes } := by
  induction cs generalizing s with
  | nil => rfl
  | cons c cs ih => exact ih (s.raiseCode c)

@[simp] theorem State.raiseCodes_unitId (s : State) (cs : List Nat) : (s.raiseCodes cs).unitId = s.unitId := by
  rw [State.raiseCodes_shape]
@[simp] theorem State.raiseCodes_held (s : State) (cs : List Nat) : (s.raiseCodes cs).held = s.held := by
  rw [State.raiseCodes_shape]
@[simp] theorem State.raiseCodes_screenReady (s : State) (cs : List Nat) : (s.raiseCodes cs).screenReady = s.screenReady := by
  rw [State.raiseCodes_shape]
@[simp] theorem State.raiseCodes_returnReady (s : State) (cs : List Nat) : (s.raiseCodes cs).returnReady = s.returnReady := by
  rw [State.raiseCodes_shape]
@[simp] theorem State.raiseCodes_framer (s : State) (cs : List Nat) : (s.raiseCodes cs).framer = s.framer := by
  rw [State.raiseCodes_shape]
@[simp] theorem State.raiseCodes_services (s : State) (cs : List Nat) : (s.raiseCodes cs).services = s.services := by
  rw [State.raiseCodes_shape]
@[simp] theorem State.raiseCodes_directory (s : State) (cs : List Nat) : (s.raiseCodes cs).directory = s.directory := by
  rw [State.raiseCodes_shape]
@[simp] theorem State.raiseCodes_keys (s : State) (cs : List Nat) : (s.raiseCodes cs).keys = s.keys := by
  rw [State.raiseCodes_shape]
@[simp] theorem State.raiseCodes_lanes (s : State) (cs : List Nat) : (s.raiseCodes cs).lanes = s.lanes := by
  rw [State.raiseCodes_shape]
@[simp] theorem State.raiseCodes_catalog (s : State) (cs : List Nat) : (s.raiseCodes cs).catalog = s.catalog := by
  rw [State.raiseCodes_shape]
@[simp] theorem State.raiseCodes_rentals (s : State) (cs : List Nat) : (s.raiseCodes cs).rentals = s.rentals := by
  rw [State.raiseCodes_shape]
@[simp] theorem State.raiseCodes_staged (s : State) (cs : List Nat) : (s.raiseCodes cs).staged = s.staged := by
  rw [State.raiseCodes_shape]
@[simp] theorem State.raiseCodes_live (s : State) (cs : List Nat) : (s.raiseCodes cs).live = s.live := by
  rw [State.raiseCodes_shape]
@[simp] theorem State.raiseCodes_room (s : State) (cs : List Nat) : (s.raiseCodes cs).room = s.room := by
  rw [State.raiseCodes_shape]
@[simp] theorem State.raiseCodes_charges (s : State) (cs : List Nat) : (s.raiseCodes cs).charges = s.charges := by
  rw [State.raiseCodes_shape]
@[simp] theorem State.raiseCodes_nextSerial (s : State) (cs : List Nat) : (s.raiseCodes cs).nextSerial = s.nextSerial := by
  rw [State.raiseCodes_shape]
@[simp] theorem State.raiseCodes_lock (s : State) (cs : List Nat) : (s.raiseCodes cs).lock = s.lock := by
  rw [State.raiseCodes_shape]
@[simp] theorem State.raiseCodes_clock (s : State) (cs : List Nat) : (s.raiseCodes cs).clock = s.clock := by
  rw [State.raiseCodes_shape]
@[simp] theorem State.raiseCodes_counters (s : State) (cs : List Nat) : (s.raiseCodes cs).counters = s.counters := by
  rw [State.raiseCodes_shape]
@[simp] theorem State.raiseCodes_groups (s : State) (cs : List Nat) : (s.raiseCodes cs).groups = s.groups := by
  rw [State.raiseCodes_shape]
@[simp] theorem State.raiseCodes_counts (s : State) (cs : List Nat) : (s.raiseCodes cs).counts = s.counts := by
  rw [State.raiseCodes_shape]
@[simp] theorem State.raiseCodes_alerts (s : State) (cs : List Nat) : (s.raiseCodes cs).alerts = s.alerts := by
  rw [State.raiseCodes_shape]
@[simp] theorem State.raiseCodes_owed (s : State) (cs : List Nat) : (s.raiseCodes cs).owed = s.owed := by
  rw [State.raiseCodes_shape]
@[simp] theorem State.raiseCodes_reports (s : State) (cs : List Nat) : (s.raiseCodes cs).reports = s.reports := by
  rw [State.raiseCodes_shape]
@[simp] theorem State.raiseCodes_reportSent (s : State) (cs : List Nat) : (s.raiseCodes cs).reportSent = s.reportSent := by
  rw [State.raiseCodes_shape]
@[simp] theorem State.raiseCodes_returnData (s : State) (cs : List Nat) : (s.raiseCodes cs).returnData = s.returnData := by
  rw [State.raiseCodes_shape]
@[simp] theorem State.raiseCodes_frame (s : State) (cs : List Nat) : (s.raiseCodes cs).frame = s.frame := by
  rw [State.raiseCodes_shape]
@[simp] theorem State.raiseCodes_waiting (s : State) (cs : List Nat) : (s.raiseCodes cs).waiting = s.waiting := by
  rw [State.raiseCodes_shape]
@[simp] theorem State.raiseCodes_sending (s : State) (cs : List Nat) : (s.raiseCodes cs).sending = s.sending := by
  rw [State.raiseCodes_shape]
@[simp] theorem State.raiseCodes_restartOwed (s : State) (cs : List Nat) : (s.raiseCodes cs).restartOwed = s.restartOwed := by
  rw [State.raiseCodes_shape]
@[simp] theorem State.raiseCodes_floor (s : State) (cs : List Nat) : (s.raiseCodes cs).floor = s.floor := by
  rw [State.raiseCodes_shape]
@[simp] theorem State.raiseCodes_choices (s : State) (cs : List Nat) : (s.raiseCodes cs).choices = s.choices := by
  rw [State.raiseCodes_shape]
@[simp] theorem State.raiseCodes_pending (s : State) (cs : List Nat) : (s.raiseCodes cs).pending = s.pending := by
  rw [State.raiseCodes_shape]

/-! ## `auditAll` -/

theorem State.auditAll_shape (s : State) (es : List AuditEvent) :
    s.auditAll es = { s with counters := es.foldl (fun v e => mapEach (Counter.offer e) v) s.counters } := by
  induction es generalizing s with
  | nil => rfl
  | cons e es ih => exact ih (s.audit e)

@[simp] theorem State.auditAll_unitId (s : State) (es : List AuditEvent) : (s.auditAll es).unitId = s.unitId := by
  rw [State.auditAll_shape]
@[simp] theorem State.auditAll_held (s : State) (es : List AuditEvent) : (s.auditAll es).held = s.held := by
  rw [State.auditAll_shape]
@[simp] theorem State.auditAll_screenReady (s : State) (es : List AuditEvent) : (s.auditAll es).screenReady = s.screenReady := by
  rw [State.auditAll_shape]
@[simp] theorem State.auditAll_returnReady (s : State) (es : List AuditEvent) : (s.auditAll es).returnReady = s.returnReady := by
  rw [State.auditAll_shape]
@[simp] theorem State.auditAll_framer (s : State) (es : List AuditEvent) : (s.auditAll es).framer = s.framer := by
  rw [State.auditAll_shape]
@[simp] theorem State.auditAll_services (s : State) (es : List AuditEvent) : (s.auditAll es).services = s.services := by
  rw [State.auditAll_shape]
@[simp] theorem State.auditAll_directory (s : State) (es : List AuditEvent) : (s.auditAll es).directory = s.directory := by
  rw [State.auditAll_shape]
@[simp] theorem State.auditAll_keys (s : State) (es : List AuditEvent) : (s.auditAll es).keys = s.keys := by
  rw [State.auditAll_shape]
@[simp] theorem State.auditAll_lanes (s : State) (es : List AuditEvent) : (s.auditAll es).lanes = s.lanes := by
  rw [State.auditAll_shape]
@[simp] theorem State.auditAll_catalog (s : State) (es : List AuditEvent) : (s.auditAll es).catalog = s.catalog := by
  rw [State.auditAll_shape]
@[simp] theorem State.auditAll_rentals (s : State) (es : List AuditEvent) : (s.auditAll es).rentals = s.rentals := by
  rw [State.auditAll_shape]
@[simp] theorem State.auditAll_staged (s : State) (es : List AuditEvent) : (s.auditAll es).staged = s.staged := by
  rw [State.auditAll_shape]
@[simp] theorem State.auditAll_live (s : State) (es : List AuditEvent) : (s.auditAll es).live = s.live := by
  rw [State.auditAll_shape]
@[simp] theorem State.auditAll_room (s : State) (es : List AuditEvent) : (s.auditAll es).room = s.room := by
  rw [State.auditAll_shape]
@[simp] theorem State.auditAll_charges (s : State) (es : List AuditEvent) : (s.auditAll es).charges = s.charges := by
  rw [State.auditAll_shape]
@[simp] theorem State.auditAll_nextSerial (s : State) (es : List AuditEvent) : (s.auditAll es).nextSerial = s.nextSerial := by
  rw [State.auditAll_shape]
@[simp] theorem State.auditAll_lock (s : State) (es : List AuditEvent) : (s.auditAll es).lock = s.lock := by
  rw [State.auditAll_shape]
@[simp] theorem State.auditAll_clock (s : State) (es : List AuditEvent) : (s.auditAll es).clock = s.clock := by
  rw [State.auditAll_shape]
@[simp] theorem State.auditAll_groups (s : State) (es : List AuditEvent) : (s.auditAll es).groups = s.groups := by
  rw [State.auditAll_shape]
@[simp] theorem State.auditAll_counts (s : State) (es : List AuditEvent) : (s.auditAll es).counts = s.counts := by
  rw [State.auditAll_shape]
@[simp] theorem State.auditAll_alerts (s : State) (es : List AuditEvent) : (s.auditAll es).alerts = s.alerts := by
  rw [State.auditAll_shape]
@[simp] theorem State.auditAll_owed (s : State) (es : List AuditEvent) : (s.auditAll es).owed = s.owed := by
  rw [State.auditAll_shape]
@[simp] theorem State.auditAll_reports (s : State) (es : List AuditEvent) : (s.auditAll es).reports = s.reports := by
  rw [State.auditAll_shape]
@[simp] theorem State.auditAll_reportSent (s : State) (es : List AuditEvent) : (s.auditAll es).reportSent = s.reportSent := by
  rw [State.auditAll_shape]
@[simp] theorem State.auditAll_returnData (s : State) (es : List AuditEvent) : (s.auditAll es).returnData = s.returnData := by
  rw [State.auditAll_shape]
@[simp] theorem State.auditAll_frame (s : State) (es : List AuditEvent) : (s.auditAll es).frame = s.frame := by
  rw [State.auditAll_shape]
@[simp] theorem State.auditAll_waiting (s : State) (es : List AuditEvent) : (s.auditAll es).waiting = s.waiting := by
  rw [State.auditAll_shape]
@[simp] theorem State.auditAll_sending (s : State) (es : List AuditEvent) : (s.auditAll es).sending = s.sending := by
  rw [State.auditAll_shape]
@[simp] theorem State.auditAll_restartOwed (s : State) (es : List AuditEvent) : (s.auditAll es).restartOwed = s.restartOwed := by
  rw [State.auditAll_shape]
@[simp] theorem State.auditAll_codes (s : State) (es : List AuditEvent) : (s.auditAll es).codes = s.codes := by
  rw [State.auditAll_shape]
@[simp] theorem State.auditAll_floor (s : State) (es : List AuditEvent) : (s.auditAll es).floor = s.floor := by
  rw [State.auditAll_shape]
@[simp] theorem State.auditAll_choices (s : State) (es : List AuditEvent) : (s.auditAll es).choices = s.choices := by
  rw [State.auditAll_shape]
@[simp] theorem State.auditAll_pending (s : State) (es : List AuditEvent) : (s.auditAll es).pending = s.pending := by
  rw [State.auditAll_shape]

/-! ## `latch` -/

theorem State.latch_shape (s : State) (k : AlertKind) :
    s.latch k = { s with alerts := (s.latch k).alerts, reports := (s.latch k).reports, owed := (s.latch k).owed } := by
  unfold State.latch
  split
  · dsimp only
    split
    · rfl
    · split <;> rfl
  · rfl

@[simp] theorem State.latch_unitId (s : State) (k : AlertKind) : (s.latch k).unitId = s.unitId := by
  rw [State.latch_shape]
@[simp] theorem State.latch_held (s : State) (k : AlertKind) : (s.latch k).held = s.held := by
  rw [State.latch_shape]
@[simp] theorem State.latch_screenReady (s : State) (k : AlertKind) : (s.latch k).screenReady = s.screenReady := by
  rw [State.latch_shape]
@[simp] theorem State.latch_returnReady (s : State) (k : AlertKind) : (s.latch k).returnReady = s.returnReady := by
  rw [State.latch_shape]
@[simp] theorem State.latch_framer (s : State) (k : AlertKind) : (s.latch k).framer = s.framer := by
  rw [State.latch_shape]
@[simp] theorem State.latch_services (s : State) (k : AlertKind) : (s.latch k).services = s.services := by
  rw [State.latch_shape]
@[simp] theorem State.latch_directory (s : State) (k : AlertKind) : (s.latch k).directory = s.directory := by
  rw [State.latch_shape]
@[simp] theorem State.latch_keys (s : State) (k : AlertKind) : (s.latch k).keys = s.keys := by
  rw [State.latch_shape]
@[simp] theorem State.latch_lanes (s : State) (k : AlertKind) : (s.latch k).lanes = s.lanes := by
  rw [State.latch_shape]
@[simp] theorem State.latch_catalog (s : State) (k : AlertKind) : (s.latch k).catalog = s.catalog := by
  rw [State.latch_shape]
@[simp] theorem State.latch_rentals (s : State) (k : AlertKind) : (s.latch k).rentals = s.rentals := by
  rw [State.latch_shape]
@[simp] theorem State.latch_staged (s : State) (k : AlertKind) : (s.latch k).staged = s.staged := by
  rw [State.latch_shape]
@[simp] theorem State.latch_live (s : State) (k : AlertKind) : (s.latch k).live = s.live := by
  rw [State.latch_shape]
@[simp] theorem State.latch_room (s : State) (k : AlertKind) : (s.latch k).room = s.room := by
  rw [State.latch_shape]
@[simp] theorem State.latch_charges (s : State) (k : AlertKind) : (s.latch k).charges = s.charges := by
  rw [State.latch_shape]
@[simp] theorem State.latch_nextSerial (s : State) (k : AlertKind) : (s.latch k).nextSerial = s.nextSerial := by
  rw [State.latch_shape]
@[simp] theorem State.latch_lock (s : State) (k : AlertKind) : (s.latch k).lock = s.lock := by
  rw [State.latch_shape]
@[simp] theorem State.latch_clock (s : State) (k : AlertKind) : (s.latch k).clock = s.clock := by
  rw [State.latch_shape]
@[simp] theorem State.latch_counters (s : State) (k : AlertKind) : (s.latch k).counters = s.counters := by
  rw [State.latch_shape]
@[simp] theorem State.latch_groups (s : State) (k : AlertKind) : (s.latch k).groups = s.groups := by
  rw [State.latch_shape]
@[simp] theorem State.latch_counts (s : State) (k : AlertKind) : (s.latch k).counts = s.counts := by
  rw [State.latch_shape]
@[simp] theorem State.latch_reportSent (s : State) (k : AlertKind) : (s.latch k).reportSent = s.reportSent := by
  rw [State.latch_shape]
@[simp] theorem State.latch_returnData (s : State) (k : AlertKind) : (s.latch k).returnData = s.returnData := by
  rw [State.latch_shape]
@[simp] theorem State.latch_frame (s : State) (k : AlertKind) : (s.latch k).frame = s.frame := by
  rw [State.latch_shape]
@[simp] theorem State.latch_waiting (s : State) (k : AlertKind) : (s.latch k).waiting = s.waiting := by
  rw [State.latch_shape]
@[simp] theorem State.latch_sending (s : State) (k : AlertKind) : (s.latch k).sending = s.sending := by
  rw [State.latch_shape]
@[simp] theorem State.latch_restartOwed (s : State) (k : AlertKind) : (s.latch k).restartOwed = s.restartOwed := by
  rw [State.latch_shape]
@[simp] theorem State.latch_codes (s : State) (k : AlertKind) : (s.latch k).codes = s.codes := by
  rw [State.latch_shape]
@[simp] theorem State.latch_floor (s : State) (k : AlertKind) : (s.latch k).floor = s.floor := by
  rw [State.latch_shape]
@[simp] theorem State.latch_choices (s : State) (k : AlertKind) : (s.latch k).choices = s.choices := by
  rw [State.latch_shape]
@[simp] theorem State.latch_pending (s : State) (k : AlertKind) : (s.latch k).pending = s.pending := by
  rw [State.latch_shape]

/-! ## `offerReport` -/

theorem State.offerReport_shape (s : State) (k : ReportKind) (b : List Byte) :
    s.offerReport k b =
      { s with reports := (s.offerReport k b).reports, counts := (s.offerReport k b).counts } := by
  unfold State.offerReport
  split <;> rfl

@[simp] theorem State.offerReport_unitId (s : State) (k : ReportKind) (b : List Byte) : (s.offerReport k b).unitId = s.unitId := by
  rw [State.offerReport_shape]
@[simp] theorem State.offerReport_held (s : State) (k : ReportKind) (b : List Byte) : (s.offerReport k b).held = s.held := by
  rw [State.offerReport_shape]
@[simp] theorem State.offerReport_screenReady (s : State) (k : ReportKind) (b : List Byte) : (s.offerReport k b).screenReady = s.screenReady := by
  rw [State.offerReport_shape]
@[simp] theorem State.offerReport_returnReady (s : State) (k : ReportKind) (b : List Byte) : (s.offerReport k b).returnReady = s.returnReady := by
  rw [State.offerReport_shape]
@[simp] theorem State.offerReport_framer (s : State) (k : ReportKind) (b : List Byte) : (s.offerReport k b).framer = s.framer := by
  rw [State.offerReport_shape]
@[simp] theorem State.offerReport_services (s : State) (k : ReportKind) (b : List Byte) : (s.offerReport k b).services = s.services := by
  rw [State.offerReport_shape]
@[simp] theorem State.offerReport_directory (s : State) (k : ReportKind) (b : List Byte) : (s.offerReport k b).directory = s.directory := by
  rw [State.offerReport_shape]
@[simp] theorem State.offerReport_keys (s : State) (k : ReportKind) (b : List Byte) : (s.offerReport k b).keys = s.keys := by
  rw [State.offerReport_shape]
@[simp] theorem State.offerReport_lanes (s : State) (k : ReportKind) (b : List Byte) : (s.offerReport k b).lanes = s.lanes := by
  rw [State.offerReport_shape]
@[simp] theorem State.offerReport_catalog (s : State) (k : ReportKind) (b : List Byte) : (s.offerReport k b).catalog = s.catalog := by
  rw [State.offerReport_shape]
@[simp] theorem State.offerReport_rentals (s : State) (k : ReportKind) (b : List Byte) : (s.offerReport k b).rentals = s.rentals := by
  rw [State.offerReport_shape]
@[simp] theorem State.offerReport_staged (s : State) (k : ReportKind) (b : List Byte) : (s.offerReport k b).staged = s.staged := by
  rw [State.offerReport_shape]
@[simp] theorem State.offerReport_live (s : State) (k : ReportKind) (b : List Byte) : (s.offerReport k b).live = s.live := by
  rw [State.offerReport_shape]
@[simp] theorem State.offerReport_room (s : State) (k : ReportKind) (b : List Byte) : (s.offerReport k b).room = s.room := by
  rw [State.offerReport_shape]
@[simp] theorem State.offerReport_charges (s : State) (k : ReportKind) (b : List Byte) : (s.offerReport k b).charges = s.charges := by
  rw [State.offerReport_shape]
@[simp] theorem State.offerReport_nextSerial (s : State) (k : ReportKind) (b : List Byte) : (s.offerReport k b).nextSerial = s.nextSerial := by
  rw [State.offerReport_shape]
@[simp] theorem State.offerReport_lock (s : State) (k : ReportKind) (b : List Byte) : (s.offerReport k b).lock = s.lock := by
  rw [State.offerReport_shape]
@[simp] theorem State.offerReport_clock (s : State) (k : ReportKind) (b : List Byte) : (s.offerReport k b).clock = s.clock := by
  rw [State.offerReport_shape]
@[simp] theorem State.offerReport_counters (s : State) (k : ReportKind) (b : List Byte) : (s.offerReport k b).counters = s.counters := by
  rw [State.offerReport_shape]
@[simp] theorem State.offerReport_groups (s : State) (k : ReportKind) (b : List Byte) : (s.offerReport k b).groups = s.groups := by
  rw [State.offerReport_shape]
@[simp] theorem State.offerReport_alerts (s : State) (k : ReportKind) (b : List Byte) : (s.offerReport k b).alerts = s.alerts := by
  rw [State.offerReport_shape]
@[simp] theorem State.offerReport_owed (s : State) (k : ReportKind) (b : List Byte) : (s.offerReport k b).owed = s.owed := by
  rw [State.offerReport_shape]
@[simp] theorem State.offerReport_reportSent (s : State) (k : ReportKind) (b : List Byte) : (s.offerReport k b).reportSent = s.reportSent := by
  rw [State.offerReport_shape]
@[simp] theorem State.offerReport_returnData (s : State) (k : ReportKind) (b : List Byte) : (s.offerReport k b).returnData = s.returnData := by
  rw [State.offerReport_shape]
@[simp] theorem State.offerReport_frame (s : State) (k : ReportKind) (b : List Byte) : (s.offerReport k b).frame = s.frame := by
  rw [State.offerReport_shape]
@[simp] theorem State.offerReport_waiting (s : State) (k : ReportKind) (b : List Byte) : (s.offerReport k b).waiting = s.waiting := by
  rw [State.offerReport_shape]
@[simp] theorem State.offerReport_sending (s : State) (k : ReportKind) (b : List Byte) : (s.offerReport k b).sending = s.sending := by
  rw [State.offerReport_shape]
@[simp] theorem State.offerReport_restartOwed (s : State) (k : ReportKind) (b : List Byte) : (s.offerReport k b).restartOwed = s.restartOwed := by
  rw [State.offerReport_shape]
@[simp] theorem State.offerReport_codes (s : State) (k : ReportKind) (b : List Byte) : (s.offerReport k b).codes = s.codes := by
  rw [State.offerReport_shape]
@[simp] theorem State.offerReport_floor (s : State) (k : ReportKind) (b : List Byte) : (s.offerReport k b).floor = s.floor := by
  rw [State.offerReport_shape]
@[simp] theorem State.offerReport_choices (s : State) (k : ReportKind) (b : List Byte) : (s.offerReport k b).choices = s.choices := by
  rw [State.offerReport_shape]
@[simp] theorem State.offerReport_pending (s : State) (k : ReportKind) (b : List Byte) : (s.offerReport k b).pending = s.pending := by
  rw [State.offerReport_shape]

/-! ## `placeReply` -/

theorem State.placeReply_shape (s : State) (k : Nat) (r : Result) (fs : List Byte) :
    s.placeReply k r fs =
      { s with waiting := (s.placeReply k r fs).waiting, sending := (s.placeReply k r fs).sending,
               restartOwed := (s.placeReply k r fs).restartOwed } := by
  unfold State.placeReply
  dsimp only
  split <;> rfl

@[simp] theorem State.placeReply_unitId (s : State) (k : Nat) (r : Result) (fs : List Byte) : (s.placeReply k r fs).unitId = s.unitId := by
  rw [State.placeReply_shape]
@[simp] theorem State.placeReply_held (s : State) (k : Nat) (r : Result) (fs : List Byte) : (s.placeReply k r fs).held = s.held := by
  rw [State.placeReply_shape]
@[simp] theorem State.placeReply_screenReady (s : State) (k : Nat) (r : Result) (fs : List Byte) : (s.placeReply k r fs).screenReady = s.screenReady := by
  rw [State.placeReply_shape]
@[simp] theorem State.placeReply_returnReady (s : State) (k : Nat) (r : Result) (fs : List Byte) : (s.placeReply k r fs).returnReady = s.returnReady := by
  rw [State.placeReply_shape]
@[simp] theorem State.placeReply_framer (s : State) (k : Nat) (r : Result) (fs : List Byte) : (s.placeReply k r fs).framer = s.framer := by
  rw [State.placeReply_shape]
@[simp] theorem State.placeReply_services (s : State) (k : Nat) (r : Result) (fs : List Byte) : (s.placeReply k r fs).services = s.services := by
  rw [State.placeReply_shape]
@[simp] theorem State.placeReply_directory (s : State) (k : Nat) (r : Result) (fs : List Byte) : (s.placeReply k r fs).directory = s.directory := by
  rw [State.placeReply_shape]
@[simp] theorem State.placeReply_keys (s : State) (k : Nat) (r : Result) (fs : List Byte) : (s.placeReply k r fs).keys = s.keys := by
  rw [State.placeReply_shape]
@[simp] theorem State.placeReply_lanes (s : State) (k : Nat) (r : Result) (fs : List Byte) : (s.placeReply k r fs).lanes = s.lanes := by
  rw [State.placeReply_shape]
@[simp] theorem State.placeReply_catalog (s : State) (k : Nat) (r : Result) (fs : List Byte) : (s.placeReply k r fs).catalog = s.catalog := by
  rw [State.placeReply_shape]
@[simp] theorem State.placeReply_rentals (s : State) (k : Nat) (r : Result) (fs : List Byte) : (s.placeReply k r fs).rentals = s.rentals := by
  rw [State.placeReply_shape]
@[simp] theorem State.placeReply_staged (s : State) (k : Nat) (r : Result) (fs : List Byte) : (s.placeReply k r fs).staged = s.staged := by
  rw [State.placeReply_shape]
@[simp] theorem State.placeReply_live (s : State) (k : Nat) (r : Result) (fs : List Byte) : (s.placeReply k r fs).live = s.live := by
  rw [State.placeReply_shape]
@[simp] theorem State.placeReply_room (s : State) (k : Nat) (r : Result) (fs : List Byte) : (s.placeReply k r fs).room = s.room := by
  rw [State.placeReply_shape]
@[simp] theorem State.placeReply_charges (s : State) (k : Nat) (r : Result) (fs : List Byte) : (s.placeReply k r fs).charges = s.charges := by
  rw [State.placeReply_shape]
@[simp] theorem State.placeReply_nextSerial (s : State) (k : Nat) (r : Result) (fs : List Byte) : (s.placeReply k r fs).nextSerial = s.nextSerial := by
  rw [State.placeReply_shape]
@[simp] theorem State.placeReply_lock (s : State) (k : Nat) (r : Result) (fs : List Byte) : (s.placeReply k r fs).lock = s.lock := by
  rw [State.placeReply_shape]
@[simp] theorem State.placeReply_clock (s : State) (k : Nat) (r : Result) (fs : List Byte) : (s.placeReply k r fs).clock = s.clock := by
  rw [State.placeReply_shape]
@[simp] theorem State.placeReply_counters (s : State) (k : Nat) (r : Result) (fs : List Byte) : (s.placeReply k r fs).counters = s.counters := by
  rw [State.placeReply_shape]
@[simp] theorem State.placeReply_groups (s : State) (k : Nat) (r : Result) (fs : List Byte) : (s.placeReply k r fs).groups = s.groups := by
  rw [State.placeReply_shape]
@[simp] theorem State.placeReply_counts (s : State) (k : Nat) (r : Result) (fs : List Byte) : (s.placeReply k r fs).counts = s.counts := by
  rw [State.placeReply_shape]
@[simp] theorem State.placeReply_alerts (s : State) (k : Nat) (r : Result) (fs : List Byte) : (s.placeReply k r fs).alerts = s.alerts := by
  rw [State.placeReply_shape]
@[simp] theorem State.placeReply_owed (s : State) (k : Nat) (r : Result) (fs : List Byte) : (s.placeReply k r fs).owed = s.owed := by
  rw [State.placeReply_shape]
@[simp] theorem State.placeReply_reports (s : State) (k : Nat) (r : Result) (fs : List Byte) : (s.placeReply k r fs).reports = s.reports := by
  rw [State.placeReply_shape]
@[simp] theorem State.placeReply_reportSent (s : State) (k : Nat) (r : Result) (fs : List Byte) : (s.placeReply k r fs).reportSent = s.reportSent := by
  rw [State.placeReply_shape]
@[simp] theorem State.placeReply_returnData (s : State) (k : Nat) (r : Result) (fs : List Byte) : (s.placeReply k r fs).returnData = s.returnData := by
  rw [State.placeReply_shape]
@[simp] theorem State.placeReply_frame (s : State) (k : Nat) (r : Result) (fs : List Byte) : (s.placeReply k r fs).frame = s.frame := by
  rw [State.placeReply_shape]
@[simp] theorem State.placeReply_codes (s : State) (k : Nat) (r : Result) (fs : List Byte) : (s.placeReply k r fs).codes = s.codes := by
  rw [State.placeReply_shape]
@[simp] theorem State.placeReply_floor (s : State) (k : Nat) (r : Result) (fs : List Byte) : (s.placeReply k r fs).floor = s.floor := by
  rw [State.placeReply_shape]
@[simp] theorem State.placeReply_choices (s : State) (k : Nat) (r : Result) (fs : List Byte) : (s.placeReply k r fs).choices = s.choices := by
  rw [State.placeReply_shape]
@[simp] theorem State.placeReply_pending (s : State) (k : Nat) (r : Result) (fs : List Byte) : (s.placeReply k r fs).pending = s.pending := by
  rw [State.placeReply_shape]

/-! ## `noteChoice` -/

theorem State.noteChoice_shape (s : State) (ts : List Task) :
    s.noteChoice ts = { s with choices := (s.noteChoice ts).choices } := by
  unfold State.noteChoice
  split <;> rfl

@[simp] theorem State.noteChoice_unitId (s : State) (ts : List Task) : (s.noteChoice ts).unitId = s.unitId := by
  rw [State.noteChoice_shape]
@[simp] theorem State.noteChoice_held (s : State) (ts : List Task) : (s.noteChoice ts).held = s.held := by
  rw [State.noteChoice_shape]
@[simp] theorem State.noteChoice_screenReady (s : State) (ts : List Task) : (s.noteChoice ts).screenReady = s.screenReady := by
  rw [State.noteChoice_shape]
@[simp] theorem State.noteChoice_returnReady (s : State) (ts : List Task) : (s.noteChoice ts).returnReady = s.returnReady := by
  rw [State.noteChoice_shape]
@[simp] theorem State.noteChoice_framer (s : State) (ts : List Task) : (s.noteChoice ts).framer = s.framer := by
  rw [State.noteChoice_shape]
@[simp] theorem State.noteChoice_services (s : State) (ts : List Task) : (s.noteChoice ts).services = s.services := by
  rw [State.noteChoice_shape]
@[simp] theorem State.noteChoice_directory (s : State) (ts : List Task) : (s.noteChoice ts).directory = s.directory := by
  rw [State.noteChoice_shape]
@[simp] theorem State.noteChoice_keys (s : State) (ts : List Task) : (s.noteChoice ts).keys = s.keys := by
  rw [State.noteChoice_shape]
@[simp] theorem State.noteChoice_lanes (s : State) (ts : List Task) : (s.noteChoice ts).lanes = s.lanes := by
  rw [State.noteChoice_shape]
@[simp] theorem State.noteChoice_catalog (s : State) (ts : List Task) : (s.noteChoice ts).catalog = s.catalog := by
  rw [State.noteChoice_shape]
@[simp] theorem State.noteChoice_rentals (s : State) (ts : List Task) : (s.noteChoice ts).rentals = s.rentals := by
  rw [State.noteChoice_shape]
@[simp] theorem State.noteChoice_staged (s : State) (ts : List Task) : (s.noteChoice ts).staged = s.staged := by
  rw [State.noteChoice_shape]
@[simp] theorem State.noteChoice_live (s : State) (ts : List Task) : (s.noteChoice ts).live = s.live := by
  rw [State.noteChoice_shape]
@[simp] theorem State.noteChoice_room (s : State) (ts : List Task) : (s.noteChoice ts).room = s.room := by
  rw [State.noteChoice_shape]
@[simp] theorem State.noteChoice_charges (s : State) (ts : List Task) : (s.noteChoice ts).charges = s.charges := by
  rw [State.noteChoice_shape]
@[simp] theorem State.noteChoice_nextSerial (s : State) (ts : List Task) : (s.noteChoice ts).nextSerial = s.nextSerial := by
  rw [State.noteChoice_shape]
@[simp] theorem State.noteChoice_lock (s : State) (ts : List Task) : (s.noteChoice ts).lock = s.lock := by
  rw [State.noteChoice_shape]
@[simp] theorem State.noteChoice_clock (s : State) (ts : List Task) : (s.noteChoice ts).clock = s.clock := by
  rw [State.noteChoice_shape]
@[simp] theorem State.noteChoice_counters (s : State) (ts : List Task) : (s.noteChoice ts).counters = s.counters := by
  rw [State.noteChoice_shape]
@[simp] theorem State.noteChoice_groups (s : State) (ts : List Task) : (s.noteChoice ts).groups = s.groups := by
  rw [State.noteChoice_shape]
@[simp] theorem State.noteChoice_counts (s : State) (ts : List Task) : (s.noteChoice ts).counts = s.counts := by
  rw [State.noteChoice_shape]
@[simp] theorem State.noteChoice_alerts (s : State) (ts : List Task) : (s.noteChoice ts).alerts = s.alerts := by
  rw [State.noteChoice_shape]
@[simp] theorem State.noteChoice_owed (s : State) (ts : List Task) : (s.noteChoice ts).owed = s.owed := by
  rw [State.noteChoice_shape]
@[simp] theorem State.noteChoice_reports (s : State) (ts : List Task) : (s.noteChoice ts).reports = s.reports := by
  rw [State.noteChoice_shape]
@[simp] theorem State.noteChoice_reportSent (s : State) (ts : List Task) : (s.noteChoice ts).reportSent = s.reportSent := by
  rw [State.noteChoice_shape]
@[simp] theorem State.noteChoice_returnData (s : State) (ts : List Task) : (s.noteChoice ts).returnData = s.returnData := by
  rw [State.noteChoice_shape]
@[simp] theorem State.noteChoice_frame (s : State) (ts : List Task) : (s.noteChoice ts).frame = s.frame := by
  rw [State.noteChoice_shape]
@[simp] theorem State.noteChoice_waiting (s : State) (ts : List Task) : (s.noteChoice ts).waiting = s.waiting := by
  rw [State.noteChoice_shape]
@[simp] theorem State.noteChoice_sending (s : State) (ts : List Task) : (s.noteChoice ts).sending = s.sending := by
  rw [State.noteChoice_shape]
@[simp] theorem State.noteChoice_restartOwed (s : State) (ts : List Task) : (s.noteChoice ts).restartOwed = s.restartOwed := by
  rw [State.noteChoice_shape]
@[simp] theorem State.noteChoice_codes (s : State) (ts : List Task) : (s.noteChoice ts).codes = s.codes := by
  rw [State.noteChoice_shape]
@[simp] theorem State.noteChoice_floor (s : State) (ts : List Task) : (s.noteChoice ts).floor = s.floor := by
  rw [State.noteChoice_shape]
@[simp] theorem State.noteChoice_pending (s : State) (ts : List Task) : (s.noteChoice ts).pending = s.pending := by
  rw [State.noteChoice_shape]

/-! ## `enter` -/

theorem State.enter_shape (s : State) (n : Fin 4) (st : LaneState) :
    s.enter n st = { s with lanes := (s.enter n st).lanes, codes := (s.enter n st).codes } := by
  unfold State.enter
  split
  · rfl
  · rw [State.raiseCodes_shape]; rfl

@[simp] theorem State.enter_unitId (s : State) (n : Fin 4) (st : LaneState) : (s.enter n st).unitId = s.unitId := by
  rw [State.enter_shape]
@[simp] theorem State.enter_held (s : State) (n : Fin 4) (st : LaneState) : (s.enter n st).held = s.held := by
  rw [State.enter_shape]
@[simp] theorem State.enter_screenReady (s : State) (n : Fin 4) (st : LaneState) : (s.enter n st).screenReady = s.screenReady := by
  rw [State.enter_shape]
@[simp] theorem State.enter_returnReady (s : State) (n : Fin 4) (st : LaneState) : (s.enter n st).returnReady = s.returnReady := by
  rw [State.enter_shape]
@[simp] theorem State.enter_framer (s : State) (n : Fin 4) (st : LaneState) : (s.enter n st).framer = s.framer := by
  rw [State.enter_shape]
@[simp] theorem State.enter_services (s : State) (n : Fin 4) (st : LaneState) : (s.enter n st).services = s.services := by
  rw [State.enter_shape]
@[simp] theorem State.enter_directory (s : State) (n : Fin 4) (st : LaneState) : (s.enter n st).directory = s.directory := by
  rw [State.enter_shape]
@[simp] theorem State.enter_keys (s : State) (n : Fin 4) (st : LaneState) : (s.enter n st).keys = s.keys := by
  rw [State.enter_shape]
@[simp] theorem State.enter_catalog (s : State) (n : Fin 4) (st : LaneState) : (s.enter n st).catalog = s.catalog := by
  rw [State.enter_shape]
@[simp] theorem State.enter_rentals (s : State) (n : Fin 4) (st : LaneState) : (s.enter n st).rentals = s.rentals := by
  rw [State.enter_shape]
@[simp] theorem State.enter_staged (s : State) (n : Fin 4) (st : LaneState) : (s.enter n st).staged = s.staged := by
  rw [State.enter_shape]
@[simp] theorem State.enter_live (s : State) (n : Fin 4) (st : LaneState) : (s.enter n st).live = s.live := by
  rw [State.enter_shape]
@[simp] theorem State.enter_room (s : State) (n : Fin 4) (st : LaneState) : (s.enter n st).room = s.room := by
  rw [State.enter_shape]
@[simp] theorem State.enter_charges (s : State) (n : Fin 4) (st : LaneState) : (s.enter n st).charges = s.charges := by
  rw [State.enter_shape]
@[simp] theorem State.enter_nextSerial (s : State) (n : Fin 4) (st : LaneState) : (s.enter n st).nextSerial = s.nextSerial := by
  rw [State.enter_shape]
@[simp] theorem State.enter_lock (s : State) (n : Fin 4) (st : LaneState) : (s.enter n st).lock = s.lock := by
  rw [State.enter_shape]
@[simp] theorem State.enter_clock (s : State) (n : Fin 4) (st : LaneState) : (s.enter n st).clock = s.clock := by
  rw [State.enter_shape]
@[simp] theorem State.enter_counters (s : State) (n : Fin 4) (st : LaneState) : (s.enter n st).counters = s.counters := by
  rw [State.enter_shape]
@[simp] theorem State.enter_groups (s : State) (n : Fin 4) (st : LaneState) : (s.enter n st).groups = s.groups := by
  rw [State.enter_shape]
@[simp] theorem State.enter_counts (s : State) (n : Fin 4) (st : LaneState) : (s.enter n st).counts = s.counts := by
  rw [State.enter_shape]
@[simp] theorem State.enter_alerts (s : State) (n : Fin 4) (st : LaneState) : (s.enter n st).alerts = s.alerts := by
  rw [State.enter_shape]
@[simp] theorem State.enter_owed (s : State) (n : Fin 4) (st : LaneState) : (s.enter n st).owed = s.owed := by
  rw [State.enter_shape]
@[simp] theorem State.enter_reports (s : State) (n : Fin 4) (st : LaneState) : (s.enter n st).reports = s.reports := by
  rw [State.enter_shape]
@[simp] theorem State.enter_reportSent (s : State) (n : Fin 4) (st : LaneState) : (s.enter n st).reportSent = s.reportSent := by
  rw [State.enter_shape]
@[simp] theorem State.enter_returnData (s : State) (n : Fin 4) (st : LaneState) : (s.enter n st).returnData = s.returnData := by
  rw [State.enter_shape]
@[simp] theorem State.enter_frame (s : State) (n : Fin 4) (st : LaneState) : (s.enter n st).frame = s.frame := by
  rw [State.enter_shape]
@[simp] theorem State.enter_waiting (s : State) (n : Fin 4) (st : LaneState) : (s.enter n st).waiting = s.waiting := by
  rw [State.enter_shape]
@[simp] theorem State.enter_sending (s : State) (n : Fin 4) (st : LaneState) : (s.enter n st).sending = s.sending := by
  rw [State.enter_shape]
@[simp] theorem State.enter_restartOwed (s : State) (n : Fin 4) (st : LaneState) : (s.enter n st).restartOwed = s.restartOwed := by
  rw [State.enter_shape]
@[simp] theorem State.enter_floor (s : State) (n : Fin 4) (st : LaneState) : (s.enter n st).floor = s.floor := by
  rw [State.enter_shape]
@[simp] theorem State.enter_choices (s : State) (n : Fin 4) (st : LaneState) : (s.enter n st).choices = s.choices := by
  rw [State.enter_shape]
@[simp] theorem State.enter_pending (s : State) (n : Fin 4) (st : LaneState) : (s.enter n st).pending = s.pending := by
  rw [State.enter_shape]

end Sys2Proof.Machine
end

