-- ==== Sys2Proof/Laws/Evaluation.lean ====
section
/-! SUPPORT. What one evaluation of a lane can do, said once (R56 to R60, R81 to R83). -/

namespace Sys2Proof.Machine

/-! ## Reading a lane after an update -/

theorem State.modLane_lanes (s : State) (n : Fin 4) (f : Lane → Lane) (m : Fin 4) :
    (s.modLane n f).lanes[m] = if m = n then f s.lanes[n] else s.lanes[m] := by
  unfold State.modLane
  by_cases h : m = n
  · subst h; simp
  · have : (n : Nat) ≠ m := fun e => h (Fin.ext e.symm)
    simp [h, this]

theorem State.modLane_same (s : State) (n : Fin 4) (f : Lane → Lane) :
    (s.modLane n f).lanes[n] = f s.lanes[n] := by rw [State.modLane_lanes, if_pos rfl]

theorem State.modLane_other (s : State) {n m : Fin 4} (f : Lane → Lane) (h : m ≠ n) :
    (s.modLane n f).lanes[m] = s.lanes[m] := by rw [State.modLane_lanes, if_neg h]

theorem State.raiseCodes_lane (s : State) (cs : List Nat) (m : Fin 4) :
    (s.raiseCodes cs).lanes[m] = s.lanes[m] := by rw [State.raiseCodes_shape]

/-! ## Entering a state -/

theorem State.enter_other (s : State) {n m : Fin 4} (st : LaneState) (h : m ≠ n) :
    (s.enter n st).lanes[m] = s.lanes[m] := by
  unfold State.enter
  split
  · rfl
  · exact (State.raiseCodes_lane _ _ _).trans (State.modLane_other s _ h)

/-- The lane that enters a state: its queue is purged when the state is a new one and not a viewing one. -/
theorem State.enter_same (s : State) (n : Fin 4) (st : LaneState) :
    (s.enter n st).lanes[n] =
      { (if st = s.lanes[n].state ∨ st.viewing then s.lanes[n] else s.lanes[n].purge) with state := st } := by
  unfold State.enter
  by_cases h : st = s.lanes[n].state
  · rw [if_pos h, if_pos (Or.inl h), h]
  · rw [if_neg h]
    refine (State.raiseCodes_lane _ _ _).trans ((State.modLane_same s n _).trans ?_)
    simp only [h, false_or]

/-- The codes pending after a lane entered a state. -/
theorem State.enter_codes (s : State) (n : Fin 4) (st : LaneState) :
    (s.enter n st).codes =
      if st = s.lanes[n].state then s.codes else (entryCode st n).foldl (fun a c => insertCode c a) s.codes := by
  unfold State.enter
  split
  · rfl
  · rw [State.raiseCodes_shape]; rfl

/-! ## What an evaluation asks -/

/-- Two states that agree on the lane's selection and on all that evaluation asks its owners. -/
structure SameQuestions (s t : State) (n : Fin 4) : Prop where
  service  : t.lanes[n].service = s.lanes[n].service
  services : t.services = s.services
  lock     : t.lock = s.lock
  room     : t.room = s.room
  catalog  : t.catalog = s.catalog

theorem SameQuestions.selected {s t : State} {n : Fin 4} (h : SameQuestions s t n) :
    t.selected? n = s.selected? n := by
  unfold State.selected? State.service?
  rw [h.service, h.services]

theorem SameQuestions.titleRunning {s t : State} {n : Fin 4} (h : SameQuestions s t n) :
    t.titleRunning? n = s.titleRunning? n := by
  unfold State.titleRunning?
  rw [h.selected]

theorem SameQuestions.effectiveCeiling {s t : State} {n : Fin 4} (h : SameQuestions s t n) :
    t.effectiveCeiling n = s.effectiveCeiling n := by
  unfold State.effectiveCeiling
  rw [h.lock]

theorem State.service?_congr {s t : State} (h : t.services = s.services) (k : Nat) :
    t.service? k = s.service? k := by unfold State.service?; rw [h]

theorem State.catalog?_congr {s t : State} (h : t.catalog = s.catalog) (k : Nat) :
    t.catalog? k = s.catalog? k := by unfold State.catalog?; rw [h]

/-- The title a lane's selection is running, spelt out. -/
theorem State.titleRunning?_of_service {s : State} {n : Fin 4} {k : Nat} {r : ServiceRec}
    (hk : s.lanes[n].service = some k) (hr : s.service? k = some r) : s.titleRunning? n = r.onAir? := by
  simp only [State.titleRunning?, State.selected?, hk, Option.bind_some, hr]

/-- What a lane is due depends on the rental table only through the record of the title it runs. -/
theorem State.due_congr {s t : State} {n : Fin 4} (h : SameQuestions s t n)
    (hr : ∀ x, s.titleRunning? n = some x →
      (t.rental? x).map (fun r => (r.rating, r.state)) = (s.rental? x).map (fun r => (r.rating, r.state))) :
    t.due n = s.due n := by
  have hst : ∀ x, s.titleRunning? n = some x →
      (t.rental? x).map RentalRec.state = (s.rental? x).map RentalRec.state := by
    intro x hx
    have := congrArg (Option.map Prod.snd) (hr x hx)
    simpa [Option.map_map, Function.comp_def] using this
  have hrat : ∀ x, s.titleRunning? n = some x → t.titleRating x = s.titleRating x := by
    intro x hx
    have := congrArg (Option.map Prod.fst) (hr x hx)
    simp only [Option.map_map, Function.comp_def] at this
    unfold State.titleRating
    rw [State.catalog?_congr h.catalog, h.lock]
    cases ht : t.rental? x <;> cases hs : s.rental? x <;> simp_all
  unfold State.due
  rw [h.service]
  cases hk : s.lanes[n].service with
  | none => rfl
  | some k =>
    simp only [State.service?_congr h.services]
    cases hr' : s.service? k with
    | none => rfl
    | some r =>
      have hrun := State.titleRunning?_of_service hk hr'
      have heff : t.effectiveRating r = s.effectiveRating r := by
        unfold State.effectiveRating
        cases hx : r.onAir? with
        | none => rfl
        | some x => simp only [hrat x (by rw [hrun, hx])]
      simp only [h.effectiveCeiling, heff, h.room]
      cases hx : r.onAir? with
      | none => rfl
      | some x => simp only [hst x (by rw [hrun, hx])]

/-- A lane stays right when its own record and all it depends on stay. -/
theorem State.laneRight_congr {s t : State} {n : Fin 4} (h : SameQuestions s t n)
    (hst : t.lanes[n].state = s.lanes[n].state) (ht : t.lanes[n].title = s.lanes[n].title)
    (hr : ∀ x, s.titleRunning? n = some x →
      (t.rental? x).map (fun r => (r.rating, r.state)) = (s.rental? x).map (fun r => (r.rating, r.state)))
    (hs : s.laneRight n) : t.laneRight n :=
  ⟨by rw [hst, State.due_congr h hr, hs.1], by rw [ht, h.titleRunning, hs.2]⟩

/-! ## The choice and the state due -/

/-- Without a creation, the choice is what the lane is due. -/
theorem State.laneChoice_fst_of_not_wanted (s : State) (n : Fin 4) (h : (s.laneChoice n).2 = false) :
    (s.laneChoice n).1 = s.due n := by
  unfold State.laneChoice at *
  unfold State.due
  cases hk : s.lanes[n].service with
  | none => simp only
  | some k =>
    simp only [hk] at h ⊢
    cases hr : s.service? k with
    | none => simp only
    | some r =>
      simp only [hr] at h ⊢
      by_cases hlt : s.effectiveCeiling n < s.effectiveRating r
      · simp only [hlt, if_true]
      · simp only [hlt, if_false] at h ⊢
        cases hon : r.onAir? with
        | none => simp only
        | some x =>
          simp only [hon] at h ⊢
          by_cases hroom : s.room.state = .vacant
          · simp only [hroom, if_true]
          · simp only [hroom, if_false] at h ⊢
            cases hrr : s.rental? x with
            | some rec => cases hs : rec.state <;> simp [hs]
            | none =>
              simp only [hrr] at h ⊢
              cases hc : s.catalog? x with
              | none => simp
              | some e =>
                simp only [hc] at h ⊢
                split at h
                · simp at h
                · rename_i hh; simp [hh]

/-! ## Making a record and making room (R81, R82) -/

theorem State.catalog?_title {s : State} {x : Nat} {e : CatalogEntry} (h : s.catalog? x = some e) : e.title = x := by
  have := List.find?_some h
  simpa using this

theorem State.catalog?_mem {s : State} {x : Nat} {e : CatalogEntry} (h : s.catalog? x = some e) :
    e ∈ s.catalog := List.mem_of_find?_eq_some h

theorem State.roomForRecord_sublist (s : State) : s.roomForRecord.Sublist s.rentals := by
  unfold State.roomForRecord
  split
  · exact List.Sublist.refl _
  · exact List.eraseP_sublist

/-- With a place available the table stays within its 16 places. -/
theorem State.createRecord_length (s : State) (r : RentalRec) (h : s.rentals.length ≤ 16)
    (hp : s.placeAvailable = true) : (s.createRecord r).rentals.length ≤ 16 := by
  have : s.roomForRecord.length ≤ 15 := by
    unfold State.roomForRecord
    split
    · omega
    · rename_i hlen
      have hany : s.rentals.any RentalRec.evictable = true := by
        simpa [State.placeAvailable, hlen] using hp
      obtain ⟨x, hx, hex⟩ := List.any_eq_true.mp hany
      rw [List.length_eraseP_of_mem hx hex]
      omega
  simp only [State.createRecord, List.length_append, List.length_singleton]
  omega

theorem find?_eraseP_of_ne {α : Type} (p q : α → Bool) (l : List α)
    (h : ∀ a, l.find? p = some a → q a = false) : (l.eraseP p).find? q = l.find? q := by
  induction l with
  | nil => rfl
  | cons a l ih =>
    by_cases ha : p a = true
    · have := h a (by simp [ha])
      simp [ha, this]
    · have ha' : p a = false := by simpa using ha
      rw [List.eraseP_cons_of_neg (by simpa using ha)]
      have ih' := ih (fun b hb => h b (by simp [ha', hb]))
      simp only [List.find?_cons, ih']

/-- Making room leaves every record but the evicted title's. -/
theorem State.roomForRecord_find? (s : State) (x : Nat) (h : s.evicted? ≠ some x) :
    s.roomForRecord.find? (·.title == x) = s.rentals.find? (·.title == x) := by
  unfold State.roomForRecord State.evicted? at *
  split
  · rfl
  · rename_i hlen
    apply find?_eraseP_of_ne
    intro a ha
    simp only [hlen, if_false, ha, Option.map_some] at h
    simpa using fun e => h (by rw [e])

theorem State.createRecord_rental?_other (s : State) (r : RentalRec) (x : Nat) (hx : x ≠ r.title)
    (he : s.evicted? ≠ some x) : (s.createRecord r).rental? x = s.rental? x := by
  unfold State.rental?
  simp only [State.createRecord, List.find?_append, State.roomForRecord_find? s x he]
  have : ([r].find? (·.title == x)) = none := by simpa using fun e => hx (Eq.symm e)
  rw [this]; simp

theorem State.createRecord_rental?_self (s : State) (r : RentalRec) (h : s.rental? r.title = none) :
    (s.createRecord r).rental? r.title = some r := by
  unfold State.rental? at *
  have : s.roomForRecord.find? (·.title == r.title) = none := by
    rw [List.find?_eq_none] at h ⊢
    exact fun y hy => h y (s.roomForRecord_sublist.subset hy)
  simp only [State.createRecord, List.find?_append, this]
  simp

theorem State.evicted?_ne_of_none {s : State} {x : Nat} (h : s.rental? x = none) : s.evicted? ≠ some x := by
  unfold State.evicted? State.rental? at *
  split
  · simp
  · intro he
    obtain ⟨r, hr, hrt⟩ := Option.map_eq_some_iff.mp he
    have := List.find?_eq_none.mp h r (List.mem_of_find?_eq_some hr)
    simp [hrt] at this

/-! ## When evaluation asks for a record -/

/-- Evaluation asks for a record only for a catalogued title with an allowance that has none, with the room
occupied and a place to be had; and the lane then enters PREVIEW (R58). -/
theorem State.wantedRecord?_spec {s : State} {n : Fin 4} {e : CatalogEntry} (h : s.wantedRecord? n = some e) :
    s.titleRunning? n = some e.title ∧ s.rental? e.title = none ∧ s.catalog? e.title = some e ∧
      0 < e.preview ∧ s.placeAvailable = true ∧ (s.laneChoice n).1 = .preview ∧ s.room.state = .occupied ∧
      ∃ k r, s.lanes[n].service = some k ∧ s.service? k = some r ∧ r.onAir? = some e.title ∧
        ¬ s.effectiveCeiling n < s.effectiveRating r := by
  unfold State.wantedRecord? at h
  split at h
  · rename_i hc
    obtain ⟨x, hx, he⟩ := Option.bind_eq_some_iff.mp h
    have hte := State.catalog?_title he
    subst hte
    unfold State.laneChoice at hc ⊢
    cases hk : s.lanes[n].service with
    | none => rw [hk] at hc; exact absurd hc (by simp)
    | some k =>
      simp only [hk] at hc ⊢
      cases hr : s.service? k with
      | none => simp [hr] at hc
      | some r =>
        simp only [hr] at hc ⊢
        have hrun := State.titleRunning?_of_service hk hr
        rw [hx] at hrun
        by_cases hlt : s.effectiveCeiling n < s.effectiveRating r
        · simp [hlt] at hc
        · simp only [hlt, if_false, ← hrun] at hc ⊢
          by_cases hroom : s.room.state = .vacant
          · simp [hroom] at hc
          · simp only [hroom, if_false] at hc ⊢
            have hocc : s.room.state = .occupied := by
              cases h' : s.room.state <;> simp_all
            cases hrr : s.rental? e.title with
            | some rec => cases hs : rec.state <;> simp [hrr, hs] at hc
            | none =>
              simp only [hrr, he] at hc ⊢
              split at hc
              · rename_i hh
                simp only [hh, and_self, if_true]
                exact ⟨hx, trivial, trivial, trivial, trivial, trivial, hocc, k, r, rfl, hr, hrun.symm, hlt⟩
              · simp at hc
  · simp at h

theorem State.laneChoice_snd (s : State) (n : Fin 4) : (s.laneChoice n).2 = (s.wantedRecord? n).isSome := by
  unfold State.wantedRecord?
  cases hc : (s.laneChoice n).2 with
  | false => simp
  | true =>
    simp only [if_true]
    unfold State.laneChoice at hc
    cases hk : s.lanes[n].service with
    | none => rw [hk] at hc; exact absurd hc (by simp)
    | some k =>
      simp only [hk] at hc
      cases hr : s.service? k with
      | none => simp [hr] at hc
      | some r =>
        simp only [hr] at hc
        have hrun := State.titleRunning?_of_service hk hr
        split at hc
        · simp at hc
        · cases hon : r.onAir? with
          | none => simp [hon] at hc
          | some x =>
            rw [hon] at hrun
            simp only [hon] at hc
            split at hc
            · simp at hc
            · cases hrr : s.rental? x with
              | some rec => cases hs : rec.state <;> simp [hrr, hs] at hc
              | none =>
                simp only [hrr] at hc
                cases hcat : s.catalog? x with
                | none => simp [hcat] at hc
                | some e => simp [hrun, hcat]

/-! ## One evaluation, said once -/

/-- The lane's record and the pending codes after an evaluation. -/
theorem State.evaluate_lane (s : State) (n : Fin 4) :
    (s.evaluate n).1.lanes[n] =
      { (if (s.laneChoice n).1 = s.lanes[n].state ∨ (s.laneChoice n).1.viewing then s.lanes[n]
         else s.lanes[n].purge) with
        state := (s.laneChoice n).1, title := s.titleRunning? n } := by
  have key : ∀ s1 : State, s1.lanes[n] = { s.lanes[n] with title := s.titleRunning? n } →
      (s1.enter n (s.laneChoice n).1).lanes[n] =
        { (if (s.laneChoice n).1 = s.lanes[n].state ∨ (s.laneChoice n).1.viewing then s.lanes[n]
           else s.lanes[n].purge) with
          state := (s.laneChoice n).1, title := s.titleRunning? n } := by
    intro s1 h1
    rw [State.enter_same, h1]
    split <;> rfl
  unfold State.evaluate
  cases hw : s.wantedRecord? n with
  | none => exact key _ (State.modLane_same s n _)
  | some e => exact key _ (State.modLane_same s n fun l => { l with title := s.titleRunning? n })

theorem State.evaluate_other (s : State) {n m : Fin 4} (h : m ≠ n) :
    (s.evaluate n).1.lanes[m] = s.lanes[m] := by
  unfold State.evaluate
  cases hw : s.wantedRecord? n with
  | none => exact (State.enter_other _ _ h).trans (State.modLane_other s _ h)
  | some e =>
    exact (State.enter_other _ _ h).trans
      (State.modLane_other s (fun l => { l with title := s.titleRunning? n }) h)

theorem State.evaluate_rentals (s : State) (n : Fin 4) :
    (s.evaluate n).1.rentals =
      match s.wantedRecord? n with
      | none => s.rentals
      | some e => s.roomForRecord ++ [RentalRec.fresh e] := by
  unfold State.evaluate
  cases hw : s.wantedRecord? n with
  | none => simp
  | some e => rw [State.enter_rentals]; rfl

/-- An evaluation writes the lanes, the rental table and the pending codes, and nothing else. -/
theorem State.evaluate_shape (s : State) (n : Fin 4) :
    (s.evaluate n).1 =
      { s with lanes := (s.evaluate n).1.lanes, rentals := (s.evaluate n).1.rentals,
               codes := (s.evaluate n).1.codes } := by
  unfold State.evaluate
  cases hw : s.wantedRecord? n with
  | none => simp only; rw [State.enter_shape]; rfl
  | some e => simp only; rw [State.enter_shape]; rfl

theorem State.evaluate_codes (s : State) (n : Fin 4) :
    (s.evaluate n).1.codes =
      if (s.laneChoice n).1 = s.lanes[n].state then s.codes
      else (entryCode (s.laneChoice n).1 n).foldl (fun a c => insertCode c a) s.codes := by
  unfold State.evaluate
  cases hw : s.wantedRecord? n with
  | none =>
    rw [State.enter_codes]
    have : ((s.modLane n fun l => { l with title := s.titleRunning? n }).lanes[n]).state = s.lanes[n].state := by
      rw [State.modLane_same]
    simp only [this, State.modLane_codes]
  | some e =>
    rw [State.enter_codes]
    have : (((s.modLane n fun l => { l with title := s.titleRunning? n }).createRecord
        (.fresh e)).lanes[n]).state = s.lanes[n].state := by
      show ((s.modLane n fun l => { l with title := s.titleRunning? n }).lanes[n]).state = _
      rw [State.modLane_same]
    simp only [this, State.createRecord_codes, State.modLane_codes]

/-- An evaluation leaves its own lane right. -/
theorem State.evaluate_right (s : State) (n : Fin 4) : (s.evaluate n).1.laneRight n := by
  have hl := s.evaluate_lane n
  have hserv : ((s.evaluate n).1.lanes[n]).service = s.lanes[n].service := by
    rw [hl]; split <;> rfl
  have hsh := s.evaluate_shape n
  have hq : SameQuestions s (s.evaluate n).1 n :=
    ⟨hserv, by rw [hsh], by rw [hsh], by rw [hsh], by rw [hsh]⟩
  refine ⟨?_, by rw [hl, hq.titleRunning]⟩
  have hstate : ((s.evaluate n).1.lanes[n]).state = (s.laneChoice n).1 := by rw [hl]
  rw [hstate]
  cases hw : s.wantedRecord? n with
  | none =>
    have hr : (s.evaluate n).1.rentals = s.rentals := by rw [State.evaluate_rentals, hw]
    have hdue : (s.evaluate n).1.due n = s.due n :=
      State.due_congr hq (fun x _ => by unfold State.rental?; rw [hr])
    rw [hdue]
    exact State.laneChoice_fst_of_not_wanted s n (by rw [State.laneChoice_snd, hw]; rfl)
  | some e =>
    obtain ⟨hrun, hnone, hcat, _, _, hpre, hocc, k, r, hk, hr, hon, hlt⟩ := State.wantedRecord?_spec hw
    have hrent : (s.evaluate n).1.rental? e.title = some (.fresh e) := by
      have := State.createRecord_rental?_self s (.fresh e) hnone
      unfold State.rental? at this ⊢
      rw [State.evaluate_rentals, hw]
      exact this
    have hrat : (s.evaluate n).1.effectiveRating r = s.effectiveRating r := by
      unfold State.effectiveRating State.titleRating
      simp only [hon, hrent, hnone, hcat]
      rfl
    rw [hpre]
    unfold State.due
    rw [hserv, hk]
    simp only [State.service?_congr hq.services, hr, hq.effectiveCeiling, hrat, hlt, if_false, hon, hq.room, hocc,
      hrent, Option.map_some, RentalRec.fresh]
    rfl

/-- A lane that was right and is not sent a cause by another lane's evaluation is right after it. -/
theorem State.evaluate_keeps_right (s : State) (n m : Fin 4) (hm : s.laneRight m)
    (hc : m ∉ (s.evaluate n).2) : (s.evaluate n).1.laneRight m := by
  by_cases hmn : m = n
  · subst hmn; exact s.evaluate_right m
  have hl := s.evaluate_other hmn
  have hsh := s.evaluate_shape n
  have hq : SameQuestions s (s.evaluate n).1 m :=
    ⟨by rw [hl], by rw [hsh], by rw [hsh], by rw [hsh], by rw [hsh]⟩
  refine State.laneRight_congr hq (by rw [hl]) (by rw [hl]) ?_ hm
  intro x hx
  have htitle : s.lanes[m].title = some x := by rw [hm.2, hx]
  have key : (s.evaluate n).1.rental? x = s.rental? x := by
    cases hw : s.wantedRecord? n with
    | none => unfold State.rental?; rw [State.evaluate_rentals, hw]
    | some e =>
      have hcauses : x ≠ e.title ∧ s.evicted? ≠ some x := by
        have hl2 : ∀ y, (s.evaluate n).1.onTitle y m = (s.lanes[m].title == some y) := by
          intro y; unfold State.onTitle; rw [hl]
        unfold State.evaluate at hc hl2
        simp only [hw] at hc hl2
        constructor
        · intro hxe
          apply hc
          simp only [lanesWhere, List.mem_filter]
          refine ⟨by fin_cases m <;> simp [allLanes], ?_⟩
          rw [hl2, htitle, hxe]
          simp [hmn]
        · intro hev
          apply hc
          simp only [lanesWhere, List.mem_filter]
          refine ⟨by fin_cases m <;> simp [allLanes], ?_⟩
          have : (s.modLane n fun l => { l with title := s.titleRunning? n }).evicted? = some x := hev
          rw [this]
          simp only [Option.any_some, hl2, htitle]
          simp [hmn]
      have := State.createRecord_rental?_other s (.fresh e) x (by simpa [RentalRec.fresh] using hcauses.1) hcauses.2
      unfold State.rental? at this ⊢
      rw [State.evaluate_rentals, hw]
      exact this
  rw [key]

end Sys2Proof.Machine
end

