-- ==== Sys2Proof/Laws/Settle.lean ====
section
/-! SUPPORT. Bringing outstanding work to an end, said once: `settleBound` is enough whenever the rental table is
within its 16 places, every owner's tick work is taken exactly once, every lane a cause reached ends right, and
whatever each piece of work keeps the whole keeps. -/

namespace Sys2Proof.Machine

/-! ## What keeps through every piece of work -/

/-- A property of the state that every piece of work keeps is kept by the whole, whatever the order. -/
theorem State.settle_keeps (P : State → Prop) (hnote : ∀ s ts, P s → P (s.noteChoice ts))
    (hperf : ∀ s t, P s → P (s.perform t).1) : ∀ (k : Nat) (ts : List Task) (s : State), P s → P (s.settle k ts)
  | 0, ts, s, h => by cases ts <;> exact h
  | k + 1, [], s, h => h
  | k + 1, t :: ts, s, h => State.settle_keeps P hnote hperf k _ _ (hperf _ _ (hnote _ _ h))

/-- The same, for the pieces of work that come up: those given and the causes they send. -/
theorem State.settle_keeps_of (P : State → Prop) (Q : Task → Prop) (hcause : ∀ n, Q (.cause n))
    (hnote : ∀ s ts, P s → P (s.noteChoice ts)) (hperf : ∀ s t, Q t → P s → P (s.perform t).1) :
    ∀ (k : Nat) (ts : List Task) (s : State), (∀ t ∈ ts, Q t) → P s → P (s.settle k ts)
  | 0, ts, s, _, h => by cases ts <;> exact h
  | k + 1, [], s, _, h => h
  | k + 1, t :: ts, s, hq, h => by
    refine State.settle_keeps_of P Q hcause hnote hperf k _ _ ?_ (hperf _ _ ?_ (hnote _ _ h))
    · intro u hu
      rcases List.mem_append.mp hu with hu | hu
      · exact hq u (List.mem_of_mem_eraseIdx hu)
      · obtain ⟨n, -, rfl⟩ := List.mem_map.mp hu
        exact hcause n
    · rw [List.getD_eq_getElem?_getD]
      cases hi : (t :: ts)[s.nextTask (t :: ts)]? with
      | none => exact hq t (List.mem_cons_self ..)
      | some u => exact hq u (List.mem_of_getElem? hi)

/-! ## The work ends -/

/-- How many records could still be made: places free and places that can be freed. -/
def State.makeable (s : State) : Nat := (16 - s.rentals.length) + s.rentals.countP RentalRec.evictable

/-- What one piece of work may still call for, in pieces. -/
def Task.weight : Task → Nat
  | .cause _ => 1
  | .rental => 69
  | .lock => 5
  | .houseTime | .framer | .laneTick _ | .counters | .panel => 1

def State.workLeft (s : State) (ts : List Task) : Nat := (ts.map Task.weight).sum + 4 * s.makeable

theorem State.makeable_le (s : State) (h : s.rentals.length ≤ 16) : s.makeable ≤ 16 := by
  have := List.countP_le_length (p := RentalRec.evictable) (l := s.rentals)
  unfold State.makeable
  omega

theorem lanesWhere_length_le (p : Fin 4 → Bool) : (lanesWhere p).length ≤ 4 :=
  List.length_filter_le _ _

theorem mem_lanesWhere (p : Fin 4 → Bool) (n : Fin 4) : n ∈ lanesWhere p ↔ p n = true := by
  simp only [lanesWhere, List.mem_filter, and_iff_right_iff_imp]
  intro _
  fin_cases n <;> simp [allLanes]

theorem mem_allLanes (n : Fin 4) : n ∈ allLanes := by fin_cases n <;> simp [allLanes]

theorem countP_eraseP {α : Type} (p : α → Bool) (l : List α) (x : α) (hx : x ∈ l) (hp : p x = true) :
    (l.eraseP p).countP p + 1 = l.countP p := by
  induction l with
  | nil => simp at hx
  | cons a l ih =>
    by_cases ha : p a = true
    · simp [ha]
    · rw [List.eraseP_cons_of_neg ha, List.countP_cons_of_neg ha, List.countP_cons_of_neg ha]
      rcases List.mem_cons.mp hx with rfl | hx
      · exact absurd hp ha
      · exact ih hx

/-- An evaluation that makes a record sends at most three causes and leaves one record less to make. -/
theorem State.evaluate_work (s : State) (n : Fin 4) (h : s.rentals.length ≤ 16) :
    (s.evaluate n).1.rentals.length ≤ 16 ∧
      (((s.evaluate n).2 = [] ∧ (s.evaluate n).1.makeable = s.makeable) ∨
        ((s.evaluate n).2.length ≤ 3 ∧ (s.evaluate n).1.makeable + 1 ≤ s.makeable)) := by
  cases hw : s.wantedRecord? n with
  | none =>
    have hr : (s.evaluate n).1.rentals = s.rentals := by rw [State.evaluate_rentals, hw]
    refine ⟨by rw [hr]; exact h, Or.inl ⟨?_, by unfold State.makeable; rw [hr]⟩⟩
    unfold State.evaluate; simp only [hw]
  | some e =>
    obtain ⟨-, -, -, -, hplace, -⟩ := State.wantedRecord?_spec hw
    have hr : (s.evaluate n).1.rentals = (s.createRecord (.fresh e)).rentals := by
      rw [State.evaluate_rentals, hw]; rfl
    have hlen := s.createRecord_length (.fresh e) h hplace
    refine ⟨by rw [hr]; exact hlen, Or.inr ⟨?_, ?_⟩⟩
    · have hsub : (s.evaluate n).2.length ≤ (allLanes.filter fun m => m != n).length := by
        unfold State.evaluate
        simp only [hw, lanesWhere]
        have : ∀ q : Fin 4 → Bool, (allLanes.filter fun m => m != n && q m).length ≤
            (allLanes.filter fun m => m != n).length := by
          intro q
          rw [← List.countP_eq_length_filter, ← List.countP_eq_length_filter]
          exact List.countP_mono_left (fun m _ hm => by simp at hm ⊢; exact hm.1)
        exact this _
      have : (allLanes.filter fun m => m != n).length = 3 := by fin_cases n <;> rfl
      omega
    · unfold State.makeable
      rw [hr]
      simp only [State.createRecord, State.roomForRecord, List.length_append, List.length_singleton,
        List.countP_append]
      have hf : [RentalRec.fresh e].countP RentalRec.evictable = 0 := by
        simp [RentalRec.evictable, RentalRec.fresh]
      rw [hf]
      split
      · omega
      · rename_i hl
        have hany : s.rentals.any RentalRec.evictable = true := by
          simpa [State.placeAvailable, hl] using hplace
        obtain ⟨x, hx, hex⟩ := List.any_eq_true.mp hany
        rw [List.length_eraseP_of_mem hx hex]
        have hc := countP_eraseP RentalRec.evictable s.rentals x hx hex
        omega

/-! ## What each owner's tick work leaves alone -/

theorem State.houseTick_shape (s : State) : s.houseTick = { s with clock := s.houseTick.clock } := rfl

theorem State.leaveLocked_shape (s : State) :
    s.leaveLocked =
      { s with framer := s.leaveLocked.framer, alerts := s.leaveLocked.alerts, reports := s.leaveLocked.reports,
               owed := s.leaveLocked.owed, codes := s.leaveLocked.codes } := by
  unfold State.leaveLocked
  dsimp only
  rw [State.latch_shape]
  rfl

theorem State.framerTick_shape (s : State) :
    s.framerTick =
      { s with framer := s.framerTick.framer, alerts := s.framerTick.alerts, reports := s.framerTick.reports,
               owed := s.framerTick.owed, codes := s.framerTick.codes } := by
  unfold State.framerTick
  split
  · split
    · exact s.leaveLocked_shape
    · rfl
  · rfl
  · rfl

theorem State.laneTick_shape (s : State) (n : Fin 4) :
    s.laneTick n =
      { s with lanes := s.lanes.set n s.lanes[n].watch, counters := (s.laneTick n).counters,
               codes := (s.laneTick n).codes } := by
  unfold State.laneTick
  rw [State.raiseCodes_shape, State.auditAll_shape]
  rfl

theorem State.laneTick_lane (s : State) (n m : Fin 4) :
    (s.laneTick n).lanes[m] = if m = n then s.lanes[n].watch else s.lanes[m] := by
  have h : (s.laneTick n).lanes = (s.modLane n Lane.watch).lanes := by rw [State.laneTick_shape]; rfl
  rw [← State.modLane_lanes]
  simp only [h]

theorem State.rentalTick_shape (s : State) :
    s.rentalTick =
      { s with rentals := s.rentals.map fun r => r.meter.1, counters := s.rentalTick.counters,
               codes := s.rentalTick.codes } := by
  unfold State.rentalTick
  rw [State.raiseCodes_shape, State.auditAll_shape]

theorem State.lockTick_shape (s : State) :
    s.lockTick =
      { s with lock.lockout := countDown s.lock.lockout, lock.leases := mapEach countDown s.lock.leases,
               codes := s.lockTick.codes } := by
  unfold State.lockTick
  rw [State.raiseCodes_shape]

theorem State.countersTick_shape (s : State) :
    s.countersTick = { s with counters := s.countersTick.counters } := rfl

theorem State.panelTick_shape (s : State) :
    s.panelTick =
      { s with frame := s.panelTick.frame, waiting := s.panelTick.waiting, sending := s.panelTick.sending,
               restartOwed := s.panelTick.restartOwed } := by
  unfold State.panelTick
  split
  · rfl
  · split
    · rw [State.placeReply_shape]
    · rfl

/-- Only an evaluation and the rental engine's tick write the rental table. -/
theorem State.perform_rentals (s : State) (t : Task) (hc : ∀ n, t ≠ .cause n) (hr : t ≠ .rental) :
    (s.perform t).1.rentals = s.rentals := by
  cases t with
  | cause n => exact absurd rfl (hc n)
  | rental => exact absurd rfl hr
  | houseTime => rfl
  | framer => simp only [State.perform]; rw [State.framerTick_shape]
  | laneTick n => simp only [State.perform]; rw [State.laneTick_shape]
  | lock => simp only [State.perform]; rw [State.lockTick_shape]
  | counters => rfl
  | panel => simp only [State.perform]; rw [State.panelTick_shape]

/-- Each piece of work taken leaves less to do. -/
theorem State.perform_work (s : State) (t : Task) (h : s.rentals.length ≤ 16) :
    (s.perform t).1.rentals.length ≤ 16 ∧
      (s.perform t).2.length + 4 * (s.perform t).1.makeable + 1 ≤ t.weight + 4 * s.makeable := by
  have other : (∀ n, t ≠ .cause n) → t ≠ .rental → (s.perform t).2.length + 1 ≤ t.weight →
      (s.perform t).1.rentals.length ≤ 16 ∧
        (s.perform t).2.length + 4 * (s.perform t).1.makeable + 1 ≤ t.weight + 4 * s.makeable := by
    intro hc hr hw
    have := s.perform_rentals t hc hr
    refine ⟨by rw [this]; exact h, ?_⟩
    unfold State.makeable
    rw [this]
    omega
  cases t with
  | cause n =>
    obtain ⟨hl, h1 | h1⟩ := s.evaluate_work n h
    · refine ⟨hl, ?_⟩
      simp only [State.perform, Task.weight, h1.1, h1.2, List.length_nil]
      omega
    · refine ⟨hl, ?_⟩
      simp only [State.perform, Task.weight]
      omega
  | rental =>
    have hl : s.rentalTick.rentals.length ≤ 16 := by
      rw [State.rentalTick_shape]; simpa using h
    refine ⟨hl, ?_⟩
    have h1 := State.makeable_le _ hl
    have h2 : s.rentalTickCauses.length ≤ 4 := lanesWhere_length_le _
    simp only [State.perform, Task.weight]
    omega
  | lock =>
    refine other (by simp) (by simp) ?_
    have h2 : s.lockTickCauses.length ≤ 4 := lanesWhere_length_le _
    simp only [State.perform, Task.weight]
    omega
  | houseTime => exact other (by simp) (by simp) (by simp [State.perform, Task.weight])
  | framer => exact other (by simp) (by simp) (by simp [State.perform, Task.weight])
  | laneTick n => exact other (by simp) (by simp) (by simp [State.perform, Task.weight])
  | counters => exact other (by simp) (by simp) (by simp [State.perform, Task.weight])
  | panel => exact other (by simp) (by simp) (by simp [State.perform, Task.weight])

/-- Which piece is taken next is one of the outstanding ones. -/
theorem State.nextTask_lt (s : State) (t : Task) (ts : List Task) : s.nextTask (t :: ts) < (t :: ts).length := by
  unfold State.nextTask
  split
  · exact Nat.mod_lt _ (by simp)
  · simp

theorem sum_eraseIdx (l : List Nat) (i : Nat) (h : i < l.length) : (l.eraseIdx i).sum + l[i] = l.sum := by
  induction l generalizing i with
  | nil => simp at h
  | cons a l ih =>
    cases i with
    | zero => simp; omega
    | succ i =>
      have := ih i (by simpa using h)
      simp
      omega

theorem sum_weight_causes (ns : List (Fin 4)) : ((ns.map Task.cause).map Task.weight).sum = ns.length := by
  induction ns with
  | nil => rfl
  | cons n ns ih => simp only [List.map_cons, List.sum_cons, ih, Task.weight, List.length_cons]; omega

/-- Induction over the pieces taken: whatever relates the outstanding work to the state, and is carried by each
piece whichever is taken next, holds at the end with nothing outstanding. -/
theorem State.settle_induction (I : List Task → State → Prop)
    (hnote : ∀ ts s, I ts s → I ts (s.noteChoice ts))
    (hperf : ∀ ts s (i : Nat) (h : i < ts.length), s.rentals.length ≤ 16 → I ts s →
      I (ts.eraseIdx i ++ (s.perform ts[i]).2.map Task.cause) (s.perform ts[i]).1) :
    ∀ (k : Nat) (ts : List Task) (s : State), s.rentals.length ≤ 16 → s.workLeft ts ≤ k → I ts s →
      (s.settle k ts).rentals.length ≤ 16 ∧ I [] (s.settle k ts)
  | k, [], s, hl, _, h => by cases k <;> exact ⟨hl, h⟩
  | 0, t :: ts, s, hl, hk, h => by
    have : 1 ≤ t.weight := by cases t <;> simp [Task.weight]
    simp only [State.workLeft, List.map_cons, List.sum_cons] at hk
    omega
  | k + 1, t :: ts, s, hl, hk, h => by
    have hi := s.nextTask_lt t ts
    have hn : (s.noteChoice (t :: ts)).rentals = s.rentals := State.noteChoice_rentals _ _
    have hget : (t :: ts).getD (s.nextTask (t :: ts)) t = (t :: ts)[s.nextTask (t :: ts)] := by
      rw [List.getD_eq_getElem?_getD, List.getElem?_eq_getElem hi]; rfl
    have hw := (s.noteChoice (t :: ts)).perform_work ((t :: ts)[s.nextTask (t :: ts)]) (by rw [hn]; exact hl)
    have hI := hperf _ _ _ hi (by rw [hn]; exact hl) (hnote _ _ h)
    have hmk : (s.noteChoice (t :: ts)).makeable = s.makeable := by unfold State.makeable; rw [hn]
    simp only [State.settle, hget]
    refine State.settle_induction I hnote hperf k _ _ hw.1 ?_ hI
    have hsum := sum_eraseIdx ((t :: ts).map Task.weight) (s.nextTask (t :: ts)) (by simpa using hi)
    rw [List.getElem_map] at hsum
    unfold State.workLeft at hk ⊢
    rw [List.map_append, List.sum_append, sum_weight_causes, ← List.eraseIdx_map]
    rw [hmk] at hw
    omega

/-- The causes of one message or request always come to an end. -/
theorem State.workLeft_causes (s : State) (ls : List (Fin 4)) (h : s.rentals.length ≤ 16) (hl : ls.length ≤ 4) :
    s.workLeft (ls.map Task.cause) ≤ settleBound := by
  have := s.makeable_le h
  unfold State.workLeft settleBound
  rw [sum_weight_causes]
  omega

/-- The work of one second tick always comes to an end. -/
theorem State.workLeft_tick (s : State) (h : s.rentals.length ≤ 16) : s.workLeft tickOwners ≤ settleBound := by
  have := s.makeable_le h
  have h2 : (tickOwners.map Task.weight).sum = 82 := rfl
  unfold State.workLeft settleBound
  rw [h2]
  omega

/-- The work of one owner always comes to an end. -/
theorem State.workLeft_one (s : State) (t : Task) (h : s.rentals.length ≤ 16) : s.workLeft [t] ≤ settleBound := by
  have := s.makeable_le h
  unfold State.workLeft settleBound
  cases t <;> simp [Task.weight] <;> omega

/-! ## Every lane a cause reached ends right -/

/-- A lane stays right under an update that leaves its own record and all it depends on. -/
theorem State.laneRight_of_same {s t : State} {m : Fin 4}
    (hl : t.lanes[m].service = s.lanes[m].service ∧ t.lanes[m].state = s.lanes[m].state ∧
      t.lanes[m].title = s.lanes[m].title)
    (h1 : t.services = s.services) (h2 : t.lock = s.lock) (h3 : t.room = s.room) (h4 : t.catalog = s.catalog)
    (h5 : t.rentals = s.rentals) (hm : s.laneRight m) : t.laneRight m :=
  State.laneRight_congr ⟨hl.1, h1, h2, h3, h4⟩ hl.2.1 hl.2.2
    (fun x _ => by unfold State.rental?; rw [h5]) hm

theorem RentalRec.meter_title (r : RentalRec) : r.meter.1.title = r.title := by
  unfold RentalRec.meter RentalRec.meterPreview RentalRec.meterActive
  split <;> (try split) <;> rfl

theorem RentalRec.meter_rating (r : RentalRec) : r.meter.1.rating = r.rating := by
  unfold RentalRec.meter RentalRec.meterPreview RentalRec.meterActive
  split <;> (try split) <;> rfl

/-- A record's state changes at a tick only when the metering says that it ended. -/
theorem RentalRec.meter_state (r : RentalRec) (h : r.meter.2.ended = false) : r.meter.1.state = r.state := by
  cases hs : r.state with
  | preview =>
    unfold RentalRec.meter RentalRec.meterPreview at *
    simp only [hs] at h ⊢
    by_cases hseen : r.seen = true
    · simp only [hseen, if_true] at h ⊢
      simp only [h, Bool.false_eq_true, if_false]
    · simp [hseen]
  | active =>
    unfold RentalRec.meter RentalRec.meterActive at *
    simp only [hs] at h ⊢
    simp only [h, Bool.false_eq_true, if_false]
  | spent => unfold RentalRec.meter; simp only [hs]
  | expired => unfold RentalRec.meter; simp only [hs]
  | void => unfold RentalRec.meter; simp only [hs]

/-- The rental engine's tick leaves the records of every title it does not send causes for. -/
theorem State.rentalTick_rental? (s : State) (x : Nat) (h : x ∉ s.endingTitles) :
    (s.rentalTick.rental? x).map (fun r => (r.rating, r.state)) =
      (s.rental? x).map (fun r => (r.rating, r.state)) := by
  have hend : ∀ r ∈ s.rentals, r.title = x → r.meter.2.ended = false := by
    intro r hr hx
    by_contra hne
    apply h
    unfold State.endingTitles
    exact List.mem_map.mpr ⟨r, List.mem_filter.mpr ⟨hr, by simpa using hne⟩, hx⟩
  unfold State.rental?
  rw [State.rentalTick_shape]
  simp only
  generalize s.rentals = l at hend
  induction l with
  | nil => rfl
  | cons a l ih =>
    simp only [List.map_cons, List.find?_cons, RentalRec.meter_title]
    by_cases ha : a.title = x
    · have hm := RentalRec.meter_state a (hend a (List.mem_cons_self ..) ha)
      simp [ha, RentalRec.meter_rating, hm]
    · have : (a.title == x) = false := by simpa using ha
      simp only [this]
      exact ih fun r hr => hend r (List.mem_cons_of_mem _ hr)

theorem Lane.watch_keeps (l : Lane) :
    l.watch.service = l.service ∧ l.watch.state = l.state ∧ l.watch.title = l.title := by
  unfold Lane.watch
  split
  · exact ⟨rfl, rfl, rfl⟩
  · split <;> exact ⟨rfl, rfl, rfl⟩

/-- A lane that is right and is sent no cause by a piece of work is right after it. -/
theorem State.perform_keeps_right (s : State) (t : Task) (m : Fin 4) (hm : s.laneRight m)
    (hc : m ∉ (s.perform t).2) : (s.perform t).1.laneRight m := by
  cases t with
  | cause n => exact s.evaluate_keeps_right n m hm hc
  | houseTime => exact State.laneRight_of_same ⟨rfl, rfl, rfl⟩ rfl rfl rfl rfl rfl hm
  | counters => exact State.laneRight_of_same ⟨rfl, rfl, rfl⟩ rfl rfl rfl rfl rfl hm
  | framer =>
    simp only [State.perform]; rw [State.framerTick_shape]
    exact State.laneRight_of_same ⟨rfl, rfl, rfl⟩ rfl rfl rfl rfl rfl hm
  | panel =>
    simp only [State.perform]; rw [State.panelTick_shape]
    exact State.laneRight_of_same ⟨rfl, rfl, rfl⟩ rfl rfl rfl rfl rfl hm
  | laneTick n =>
    have hl : (s.laneTick n).lanes[m].service = s.lanes[m].service ∧
        (s.laneTick n).lanes[m].state = s.lanes[m].state ∧
        (s.laneTick n).lanes[m].title = s.lanes[m].title := by
      rw [State.laneTick_lane]
      split
      · rename_i h; rw [h]; exact Lane.watch_keeps _
      · exact ⟨rfl, rfl, rfl⟩
    exact State.laneRight_of_same (t := s.laneTick n) hl (by rw [State.laneTick_shape])
      (by rw [State.laneTick_shape]) (by rw [State.laneTick_shape]) (by rw [State.laneTick_shape])
      (by rw [State.laneTick_shape]) hm
  | rental =>
    have hlanes : s.rentalTick.lanes = s.lanes := by rw [State.rentalTick_shape]
    have hl : s.rentalTick.lanes[m] = s.lanes[m] := by simp only [hlanes]
    refine State.laneRight_congr (s := s) (t := s.rentalTick)
      ⟨by rw [hl], by rw [State.rentalTick_shape], by rw [State.rentalTick_shape], by rw [State.rentalTick_shape],
        by rw [State.rentalTick_shape]⟩ (by rw [hl]) (by rw [hl]) ?_ hm
    intro x hx
    apply State.rentalTick_rental?
    intro hmem
    apply hc
    simp only [State.perform, State.rentalTickCauses, mem_lanesWhere, List.any_eq_true]
    exact ⟨x, hmem, by unfold State.onTitle; rw [hm.2, hx]; simp⟩
  | lock =>
    have hl : s.lockTick.lanes[m] = s.lanes[m] := by
      have : s.lockTick.lanes = s.lanes := by rw [State.lockTick_shape]
      simp only [this]
    have hleases : s.lockTick.lock.leases[m] = countDown s.lock.leases[m] := by
      have : s.lockTick.lock.leases = mapEach countDown s.lock.leases := by rw [State.lockTick_shape]
      simp only [this, mapEach_getElem]
    have hpol : s.lockTick.lock.policy = s.lock.policy ∧ s.lockTick.lock.roomCeiling = s.lock.roomCeiling := by
      rw [State.lockTick_shape]; exact ⟨rfl, rfl⟩
    have hceil : s.lockTick.effectiveCeiling m = s.effectiveCeiling m := by
      have hend : s.leaseEnds m = false := by
        by_contra hne
        exact hc (by simpa [State.perform, State.lockTickCauses, mem_lanesWhere] using hne)
      unfold State.leaseEnds at hend
      unfold State.effectiveCeiling
      rw [hleases, hpol.1, hpol.2]
      cases hk : s.lock.leases[m] with
      | none => rfl
      | some k =>
        rw [hk] at hend
        have : ¬ k ≤ 1 := by simpa using hend
        simp [countDown, this]
    have hserv : s.lockTick.services = s.services := by rw [State.lockTick_shape]
    have hcat : s.lockTick.catalog = s.catalog := by rw [State.lockTick_shape]
    have hrent : s.lockTick.rentals = s.rentals := by rw [State.lockTick_shape]
    have hroom : s.lockTick.room = s.room := by rw [State.lockTick_shape]
    have hrun : s.lockTick.titleRunning? m = s.titleRunning? m := by
      unfold State.titleRunning? State.selected? State.service?
      rw [hl, hserv]
    have hrat : ∀ r, s.lockTick.effectiveRating r = s.effectiveRating r := by
      intro r
      unfold State.effectiveRating State.titleRating State.rental? State.catalog?
      rw [hrent, hcat, hpol.1]
    have hdue : s.lockTick.due m = s.due m := by
      unfold State.due State.service? State.rental?
      simp only [hl, hserv, hceil, hrat, hroom, hrent]
    exact ⟨by rw [show (s.perform .lock).1 = s.lockTick from rfl, hl, hdue]; exact hm.1,
      by rw [show (s.perform .lock).1 = s.lockTick from rfl, hl, hrun]; exact hm.2⟩

theorem State.noteChoice_right (s : State) (ts : List Task) (m : Fin 4) (h : s.laneRight m) :
    (s.noteChoice ts).laneRight m := by
  rw [State.noteChoice_shape]
  exact State.laneRight_of_same ⟨rfl, rfl, rfl⟩ rfl rfl rfl rfl rfl h

theorem mem_eraseIdx_or {α : Type} (l : List α) (i : Nat) (h : i < l.length) (a : α) (ha : a ∈ l) :
    a = l[i] ∨ a ∈ l.eraseIdx i := by
  induction l generalizing i with
  | nil => simp at ha
  | cons b l ih =>
    cases i with
    | zero => simpa using ha
    | succ i =>
      rcases List.mem_cons.mp ha with rfl | ha
      · exact Or.inr (by simp)
      · rcases ih i (by simpa using h) ha with h1 | h1
        · exact Or.inl (by simpa using h1)
        · exact Or.inr (by simp [h1])

/-- A lane that is right, or for which a cause is outstanding, is right when all work is done. -/
theorem State.settle_right (k : Nat) (ts : List Task) (s : State) (m : Fin 4) (hl : s.rentals.length ≤ 16)
    (hk : s.workLeft ts ≤ k) (h : s.laneRight m ∨ Task.cause m ∈ ts) : (s.settle k ts).laneRight m := by
  have := State.settle_induction (fun ts s => s.laneRight m ∨ Task.cause m ∈ ts)
    (fun ts s h => h.imp_left (State.noteChoice_right s ts m)) ?_ k ts s hl hk h
  · simpa using this.2
  · intro ts s i hi _ h
    by_cases hc : m ∈ (s.perform ts[i]).2
    · exact Or.inr (List.mem_append_right _ (List.mem_map.mpr ⟨m, hc, rfl⟩))
    · rcases h with h | h
      · exact Or.inl (s.perform_keeps_right _ m h hc)
      · rcases mem_eraseIdx_or ts i hi _ h with h | h
        · refine Or.inl ?_
          rw [← h]
          exact s.evaluate_right m
        · exact Or.inr (List.mem_append_left _ h)

/-! ## What causes may change -/

theorem Lane.causedTo_refl (l : Lane) : l.causedTo l := ⟨rfl, Or.inl ⟨rfl, rfl⟩⟩

theorem Lane.causedTo_trans {a b c : Lane} (h1 : a.causedTo b) (h2 : b.causedTo c) : a.causedTo c := by
  obtain ⟨e1, q1⟩ := h1
  obtain ⟨e2, q2⟩ := h2
  refine ⟨by rw [e2, e1], ?_⟩
  rcases q1 with ⟨q1, p1⟩ | ⟨q1, p1⟩ <;> rcases q2 with ⟨q2, p2⟩ | ⟨q2, p2⟩
  · exact Or.inl ⟨by rw [q2, q1], by rw [p2, p1]⟩
  · exact Or.inr ⟨q2, by rw [p2, p1, q1]⟩
  · exact Or.inr ⟨by rw [q2, q1], by rw [p2, p1]⟩
  · refine Or.inr ⟨q2, ?_⟩
    rw [p2, p1, q1]
    simp

theorem causedFrom_refl (s : State) : causedFrom s s :=
  ⟨rfl, fun _ => Lane.causedTo_refl _, fun _ h => Or.inl h, fun _ h => h⟩

theorem causedFrom_trans {a b c : State} (h1 : causedFrom a b) (h2 : causedFrom b c) : causedFrom a c := by
  obtain ⟨e1, l1, r1, c1⟩ := h1
  obtain ⟨e2, l2, r2, c2⟩ := h2
  refine ⟨by rw [e2, e1], fun n => Lane.causedTo_trans (l1 n) (l2 n), ?_, fun x hx => c2 x (c1 x hx)⟩
  intro r hr
  rcases r2 r hr with h | ⟨e, he, hp, rfl⟩
  · exact r1 r h
  · refine Or.inr ⟨e, ?_, hp, rfl⟩
    rw [e1] at he
    exact he

theorem mem_insertCode (c x : Nat) (l : List Nat) : x ∈ insertCode c l ↔ x = c ∨ x ∈ l := by
  induction l with
  | nil => simp [insertCode]
  | cons d ds ih =>
    unfold insertCode
    split
    · simp
    · split
      · rename_i h; subst h; simp
      · simp only [List.mem_cons, ih]; tauto

theorem mem_foldl_insertCode (cs : List Nat) (l : List Nat) (x : Nat) :
    x ∈ cs.foldl (fun a c => insertCode c a) l ↔ x ∈ cs ∨ x ∈ l := by
  induction cs generalizing l with
  | nil => simp
  | cons c cs ih => simp only [List.foldl_cons, ih, mem_insertCode, List.mem_cons]; tauto

theorem State.mem_raiseCodes (s : State) (cs : List Nat) (x : Nat) :
    x ∈ (s.raiseCodes cs).codes ↔ x ∈ cs ∨ x ∈ s.codes := by
  rw [State.raiseCodes_shape]; exact mem_foldl_insertCode _ _ _

/-- One evaluation is a cause's work. -/
theorem State.evaluate_causedFrom (s : State) (n : Fin 4) : causedFrom s (s.evaluate n).1 := by
  refine ⟨?_, ?_, ?_, ?_⟩
  · conv_lhs => rw [State.evaluate_shape]
    rw [State.evaluate_shape]
  · intro m
    by_cases hm : m = n
    · subst hm
      rw [State.evaluate_lane]
      by_cases hc : (s.laneChoice m).1 = s.lanes[m].state ∨ (s.laneChoice m).1.viewing = true
      · simp only [hc, if_true]; exact ⟨rfl, Or.inl ⟨rfl, rfl⟩⟩
      · simp only [hc, if_false]; exact ⟨rfl, Or.inr ⟨rfl, rfl⟩⟩
    · rw [State.evaluate_other s hm]; exact Lane.causedTo_refl _
  · intro r hr
    rw [State.evaluate_rentals] at hr
    cases hw : s.wantedRecord? n with
    | none => rw [hw] at hr; exact Or.inl hr
    | some e =>
      rw [hw] at hr
      obtain ⟨-, -, hcat, hp, -⟩ := State.wantedRecord?_spec hw
      rcases List.mem_append.mp hr with h | h
      · exact Or.inl (s.roomForRecord_sublist.subset h)
      · exact Or.inr ⟨e, State.catalog?_mem hcat, hp, by simpa using h⟩
  · intro c hc
    rw [State.evaluate_codes]
    split
    · exact hc
    · exact (mem_foldl_insertCode _ _ _).mpr (Or.inr hc)

/-- Work that consists of causes changes no more than causes may. -/
theorem State.settle_causedFrom (k : Nat) (ls : List (Fin 4)) (s : State) :
    causedFrom s (s.settle k (ls.map Task.cause)) := by
  refine State.settle_keeps_of (causedFrom s) (fun t => t.isCause = true) (fun _ => rfl) ?_ ?_ k _ s ?_
    (causedFrom_refl s)
  · intro t ts h
    refine causedFrom_trans h ?_
    rw [State.noteChoice_shape]
    exact ⟨rfl, fun _ => Lane.causedTo_refl _, fun _ h => Or.inl h, fun _ h => h⟩
  · intro t u hu h
    cases u with
    | cause n => exact causedFrom_trans h (t.evaluate_causedFrom n)
    | houseTime => simp [Task.isCause] at hu
    | framer => simp [Task.isCause] at hu
    | laneTick n => simp [Task.isCause] at hu
    | rental => simp [Task.isCause] at hu
    | lock => simp [Task.isCause] at hu
    | counters => simp [Task.isCause] at hu
    | panel => simp [Task.isCause] at hu
  · intro t ht
    obtain ⟨n, -, rfl⟩ := List.mem_map.mp ht
    rfl

/-- Sending causes: only what causes may change changes, the table stays within its places, and every lane that
was right or was reached is right. -/
theorem State.deliver_spec (s : State) (ls : List (Fin 4)) (hl : ls.length ≤ 4) (h : s.rentals.length ≤ 16) :
    causedFrom s (s.deliver ls) ∧ (s.deliver ls).rentals.length ≤ 16 ∧
      ∀ m, s.laneRight m ∨ m ∈ ls → (s.deliver ls).laneRight m := by
  refine ⟨State.settle_causedFrom _ _ _, ?_, ?_⟩
  · exact (State.settle_induction (fun _ _ => True) (fun _ _ _ => trivial) (fun _ _ _ _ _ _ => trivial) _ _ _ h
      (s.workLeft_causes ls h hl) trivial).1
  · intro m hm
    refine State.settle_right _ _ _ m h (s.workLeft_causes ls h hl) (hm.imp_right fun hm => ?_)
    exact List.mem_map.mpr ⟨m, hm, rfl⟩

theorem State.causeWhere_spec (s : State) (p : Fin 4 → Bool) (h : s.rentals.length ≤ 16) :
    causedFrom s (s.causeWhere p) ∧ (s.causeWhere p).rentals.length ≤ 16 ∧
      ∀ m, s.laneRight m ∨ p m = true → (s.causeWhere p).laneRight m := by
  have := s.deliver_spec (lanesWhere p) (lanesWhere_length_le p) h
  simp only [mem_lanesWhere] at this
  exact this

/-- With no lane reached nothing happens. -/
theorem State.deliver_nil (s : State) : s.deliver [] = s := rfl

/-! ## Every owner takes the tick once -/

/-- What one owner's tick does to a part of the state that no other work writes happens exactly once. -/
theorem State.settle_owner {α : Type} (g : State → α) (f : α → α) (o : Task) (ho : o.isCause = false)
    (hown : ∀ s, g (s.perform o).1 = f (g s)) (hother : ∀ s t, t ≠ o → g (s.perform t).1 = g s)
    (hnote : ∀ s ts, g (s.noteChoice ts) = g s) (k : Nat) (ts : List Task) (s : State)
    (hl : s.rentals.length ≤ 16) (hk : s.workLeft ts ≤ k) (hc : ts.count o = 1) :
    g (s.settle k ts) = f (g s) := by
  have := State.settle_induction
    (fun ts t => (ts.count o = 1 ∧ g t = g s) ∨ (ts.count o = 0 ∧ g t = f (g s)))
    (fun ts t h => by simpa only [hnote] using h) ?_ k ts s hl hk (Or.inl ⟨hc, rfl⟩)
  · simpa using this.2
  · intro ts t i hi _ h
    have hcauses : ((t.perform ts[i]).2.map Task.cause).count o = 0 := by
      rw [List.count_eq_zero]
      intro hmem
      obtain ⟨n, -, rfl⟩ := List.mem_map.mp hmem
      simp [Task.isCause] at ho
    rw [List.count_append, hcauses, Nat.add_zero]
    have hcount : (ts.eraseIdx i).count o + (if ts[i] = o then 1 else 0) = ts.count o := by
      clear h hk hc hcauses
      induction ts generalizing i with
      | nil => simp at hi
      | cons a ts ih =>
        cases i with
        | zero => simp [List.count_cons]
        | succ i =>
          have := ih i (by simpa using hi)
          simp only [List.eraseIdx_cons_succ, List.count_cons, List.getElem_cons_succ]
          omega
    by_cases heq : ts[i] = o
    · rw [if_pos heq] at hcount
      rw [heq, hown]
      rcases h with ⟨h1, h2⟩ | ⟨h1, h2⟩
      · exact Or.inr ⟨by omega, by rw [h2]⟩
      · omega
    · rw [if_neg heq] at hcount
      rw [hother _ _ heq]
      rcases h with ⟨h1, h2⟩ | ⟨h1, h2⟩
      · exact Or.inl ⟨by omega, h2⟩
      · exact Or.inr ⟨by omega, h2⟩

end Sys2Proof.Machine
end

