-- ==== Sys2Proof/Laws/Ops.lean ====
section
/-! SUPPORT. What the shared operations do, said once: latching an alert, offering a report, placing a reply,
taking a message, and a command while the reset line is or is not held. -/

namespace Sys2Proof.Machine

/-! ## Held and running -/

theorem State.running_of_not_held {s : State} {f : State → State} (h : s.held = false) : s.running f = f s := by
  simp [State.running, h]

theorem State.running_of_held {s : State} {f : State → State} (h : s.held = true) : s.running f = s := by
  simp [State.running, h]

/-! ## Latching an alert (R171) -/

/-- The kind becomes LATCHED from CLEAR and stays otherwise. -/
theorem State.latch_alerts (s : State) (k : AlertKind) :
    (s.latch k).alerts = if s.alert k = .clear then s.alerts.set k.index .latched else s.alerts := by
  unfold State.latch
  by_cases h1 : s.alert k = .clear
  · rw [if_pos h1, if_pos h1]
    dsimp only
    split
    · rfl
    · split <;> rfl
  · rw [if_neg h1, if_neg h1]

/-- An ALERT-RPT is admitted when the kind was CLEAR, none is waiting and the queue has room. -/
theorem State.latch_reports (s : State) (k : AlertKind) :
    (s.latch k).reports =
      if s.alert k = .clear ∧ s.reports.any Report.waitingAlert = false ∧ s.reports.length < 6 then
        s.reports ++ [.alertWaiting]
      else s.reports := by
  unfold State.latch
  by_cases h1 : s.alert k = .clear
  · by_cases h2 : s.reports.any Report.waitingAlert = true
    · have h2' : (s.setAlert k .latched).reports.any Report.waitingAlert = true := h2
      rw [if_pos h1, if_pos h2', if_neg (by simp [h2])]
      rfl
    · have h2' : ¬ (s.setAlert k .latched).reports.any Report.waitingAlert = true := h2
      by_cases h3 : s.reports.length < 6
      · have h3' : (s.setAlert k .latched).queueOpen = true := decide_eq_true h3
        rw [if_pos h1, if_neg h2', if_pos h3', if_pos ⟨h1, by simpa using h2, h3⟩]
        rfl
      · have h3' : ¬ (s.setAlert k .latched).queueOpen = true := fun h => h3 (of_decide_eq_true h)
        rw [if_pos h1, if_neg h2', if_neg h3', if_neg (fun h => h3 h.2.2)]
        rfl
  · rw [if_neg h1, if_neg (fun h => h1 h.1)]

/-- The alert is owed when the kind was CLEAR, none is waiting and the queue is full. -/
theorem State.latch_owed (s : State) (k : AlertKind) :
    (s.latch k).owed =
      if s.alert k = .clear ∧ s.reports.any Report.waitingAlert = false ∧ 6 ≤ s.reports.length then true
      else s.owed := by
  unfold State.latch
  by_cases h1 : s.alert k = .clear
  · by_cases h2 : s.reports.any Report.waitingAlert = true
    · have h2' : (s.setAlert k .latched).reports.any Report.waitingAlert = true := h2
      rw [if_pos h1, if_pos h2', if_neg (by simp [h2])]
      rfl
    · have h2' : ¬ (s.setAlert k .latched).reports.any Report.waitingAlert = true := h2
      by_cases h3 : s.reports.length < 6
      · have h3' : (s.setAlert k .latched).queueOpen = true := decide_eq_true h3
        rw [if_pos h1, if_neg h2', if_pos h3', if_neg (fun h => by omega)]
        rfl
      · have h3' : ¬ (s.setAlert k .latched).queueOpen = true := fun h => h3 (of_decide_eq_true h)
        rw [if_pos h1, if_neg h2', if_neg h3', if_pos ⟨h1, by simpa using h2, by omega⟩]
  · rw [if_neg h1, if_neg (fun h => h1 h.1)]

/-- What a latch does rests on the alert states, the report queue and the owed flag alone. -/
theorem State.latch_congr {s t : State} (k : AlertKind) (h1 : t.alerts = s.alerts) (h2 : t.reports = s.reports)
    (h3 : t.owed = s.owed) :
    (t.latch k).alerts = (s.latch k).alerts ∧ (t.latch k).reports = (s.latch k).reports ∧
      (t.latch k).owed = (s.latch k).owed := by
  have h : t.alert k = s.alert k := by simp only [State.alert, h1]
  simp only [State.latch_alerts, State.latch_reports, State.latch_owed, h, h1, h2, h3, and_self]

/-! ## Two states with the same fields -/

theorem State.eq_of_fields {s t : State}
    (unitId_eq : s.unitId = t.unitId)
    (held_eq : s.held = t.held)
    (screenReady_eq : s.screenReady = t.screenReady)
    (returnReady_eq : s.returnReady = t.returnReady)
    (framer_eq : s.framer = t.framer)
    (services_eq : s.services = t.services)
    (directory_eq : s.directory = t.directory)
    (keys_eq : s.keys = t.keys)
    (lanes_eq : s.lanes = t.lanes)
    (catalog_eq : s.catalog = t.catalog)
    (rentals_eq : s.rentals = t.rentals)
    (staged_eq : s.staged = t.staged)
    (live_eq : s.live = t.live)
    (room_eq : s.room = t.room)
    (charges_eq : s.charges = t.charges)
    (nextSerial_eq : s.nextSerial = t.nextSerial)
    (lock_eq : s.lock = t.lock)
    (clock_eq : s.clock = t.clock)
    (counters_eq : s.counters = t.counters)
    (groups_eq : s.groups = t.groups)
    (counts_eq : s.counts = t.counts)
    (alerts_eq : s.alerts = t.alerts)
    (owed_eq : s.owed = t.owed)
    (reports_eq : s.reports = t.reports)
    (reportSent_eq : s.reportSent = t.reportSent)
    (returnData_eq : s.returnData = t.returnData)
    (frame_eq : s.frame = t.frame)
    (waiting_eq : s.waiting = t.waiting)
    (sending_eq : s.sending = t.sending)
    (restartOwed_eq : s.restartOwed = t.restartOwed)
    (codes_eq : s.codes = t.codes)
    (floor_eq : s.floor = t.floor)
    (choices_eq : s.choices = t.choices)
    (pending_eq : s.pending = t.pending) : s = t := by
  cases s; cases t
  simp only at *
  subst_vars
  rfl

/-! ## Leaving LOCKED (R8) -/

theorem State.leaveLocked_framer (s : State) :
    s.leaveLocked.framer =
      { s.framer with
        state := .hunt, integrator := 0, silence := 0, sawC6 := false, bytes := [], handOn := false,
        syncLosses := satAdd s.framer.syncLosses 1 } := by
  simp only [State.leaveLocked, State.raiseCode_framer, State.latch_framer]

theorem State.leaveLocked_codes (s : State) : s.leaveLocked.codes = insertCode 1 s.codes := by
  simp only [State.leaveLocked, State.raiseCode, State.latch_codes]

theorem State.leaveLocked_alert (s : State) :
    s.leaveLocked.alerts = (s.latch .feedLost).alerts ∧ s.leaveLocked.reports = (s.latch .feedLost).reports ∧
      s.leaveLocked.owed = (s.latch .feedLost).owed := by
  simp only [State.leaveLocked, State.raiseCode_alerts, State.raiseCode_reports, State.raiseCode_owed]
  exact State.latch_congr _ rfl rfl rfl

/-! ## Offering a report (R169) -/

theorem State.offerReport_open {s : State} (h : s.reports.length < 6) (k : ReportKind) (b : List Byte) :
    s.offerReport k b = { s with reports := s.reports ++ [{ kind := k, body := some b }] } := by
  have : s.queueOpen = true := by simpa [State.queueOpen] using h
  unfold State.offerReport
  rw [if_pos this]
  rfl

theorem State.offerReport_full {s : State} (h : 6 ≤ s.reports.length) (k : ReportKind) (b : List Byte) :
    s.offerReport k b = { s with counts.pollsMissed := satAdd s.counts.pollsMissed 1 } := by
  have : ¬ s.queueOpen = true := by simpa [State.queueOpen] using h
  unfold State.offerReport
  rw [if_neg this]

/-! ## Taking and refusing a message (R165) -/

theorem State.takeMsg_taken {s t : State} {owner : State → Option State} (h : owner s.countTaken = some t) :
    s.takeMsg owner = t := by simp [State.takeMsg, h]

theorem State.takeMsg_refused {s : State} {owner : State → Option State} (h : owner s.countTaken = none) :
    s.takeMsg owner = s.countRefused := by simp [State.takeMsg, h]

/-! ## Placing a reply (R178) -/

/-- With the transmitter idle the reply begins at once and the buffer is left empty. -/
theorem State.placeReply_idle {s : State} (h : s.sending = none) (k : Nat) (r : Result) (fs : List Byte) :
    s.placeReply k r fs =
      { s with
        waiting := none
        sending := some
          { kind := k, result := r, fields := fs, earlierLost := s.waiting.isSome,
            restarted := s.restartOwed || (s.waiting.map Reply.restarted).getD false }
        restartOwed := false } := by
  unfold State.placeReply
  simp only [h]

/-- While a reply is being sent the new one waits, in place of one that was waiting. -/
theorem State.placeReply_busy {s : State} {q : Reply} (h : s.sending = some q) (k : Nat) (r : Result)
    (fs : List Byte) :
    s.placeReply k r fs =
      { s with
        waiting := some
          { kind := k, result := r, fields := fs, earlierLost := s.waiting.isSome,
            restarted := s.restartOwed || (s.waiting.map Reply.restarted).getD false }
        restartOwed := false } := by
  unfold State.placeReply
  simp only [h]

end Sys2Proof.Machine
end

