-- ==== Sys2Proof/Laws/Exec.lean ====
section
/-! SUPPORT. What each command is while the reset line is not held: one lemma per row, the call it makes. -/

namespace Sys2Proof.Machine

theorem exec_svcPut {s : State} (h : s.held = false) (b : SvcPutBody) :
    exec (.svcPut b) s = .next (s.takeMsg (Sys2Proof.Machine.svcPut b)) :=
  congrArg Host.Outcome.next (State.running_of_not_held h)

theorem exec_svcDrop {s : State} (h : s.held = false) (n : Nat) :
    exec (.svcDrop n) s = .next (s.takeMsg (Sys2Proof.Machine.svcDrop n)) :=
  congrArg Host.Outcome.next (State.running_of_not_held h)

theorem exec_onAir {s : State} (h : s.held = false) (n : Nat) (t : Option Nat) :
    exec (.onAir n t) s = .next (s.takeMsg (Sys2Proof.Machine.onAir n t)) :=
  congrArg Host.Outcome.next (State.running_of_not_held h)

theorem exec_keyPut {s : State} (h : s.held = false) (b : KeyPutBody) :
    exec (.keyPut b) s = .next (s.takeMsg (Sys2Proof.Machine.keyPut b)) :=
  congrArg Host.Outcome.next (State.running_of_not_held h)

theorem exec_keyWipe {s : State} (h : s.held = false) (n : Nat) :
    exec (.keyWipe n) s = .next (s.takeMsg (Sys2Proof.Machine.keyWipe n)) :=
  congrArg Host.Outcome.next (State.running_of_not_held h)

theorem exec_titlePut {s : State} (h : s.held = false) (b : TitlePutBody) :
    exec (.titlePut b) s = .next (s.takeMsg (Sys2Proof.Machine.titlePut b)) :=
  congrArg Host.Outcome.next (State.running_of_not_held h)

theorem exec_titleDrop {s : State} (h : s.held = false) (n : Nat) :
    exec (.titleDrop n) s = .next (s.takeMsg (Sys2Proof.Machine.titleDrop n)) :=
  congrArg Host.Outcome.next (State.running_of_not_held h)

theorem exec_tariffPut {s : State} (h : s.held = false) (b : TariffPutBody) :
    exec (.tariffPut b) s = .next (s.takeMsg (Sys2Proof.Machine.tariffPut b)) :=
  congrArg Host.Outcome.next (State.running_of_not_held h)

theorem exec_stayOpen {s : State} (h : s.held = false) (b : StayOpenBody) :
    exec (.stayOpen b) s = .next (s.takeMsg (Sys2Proof.Machine.stayOpen b)) :=
  congrArg Host.Outcome.next (State.running_of_not_held h)

theorem exec_stayClose {s : State} (h : s.held = false) (n : Nat) :
    exec (.stayClose n) s = .next (s.takeMsg (Sys2Proof.Machine.stayClose n)) :=
  congrArg Host.Outcome.next (State.running_of_not_held h)

theorem exec_chargePoll {s : State} (h : s.held = false) :
    exec .chargePoll s = .next (s.takeMsg Sys2Proof.Machine.chargePoll) :=
  congrArg Host.Outcome.next (State.running_of_not_held h)

theorem exec_chargeAck {s : State} (h : s.held = false) (n : Nat) :
    exec (.chargeAck n) s = .next (s.takeMsg (Sys2Proof.Machine.chargeAck n)) :=
  congrArg Host.Outcome.next (State.running_of_not_held h)

theorem exec_lockSet {s : State} (h : s.held = false) (b : LockSetBody) :
    exec (.lockSet b) s = .next (s.takeMsg (Sys2Proof.Machine.lockSet b)) :=
  congrArg Host.Outcome.next (State.running_of_not_held h)

theorem exec_timeMark {s : State} (h : s.held = false) (n : Nat) :
    exec (.timeMark n) s = .next (s.takeMsg (Sys2Proof.Machine.timeMark n)) :=
  congrArg Host.Outcome.next (State.running_of_not_held h)

theorem exec_countSet {s : State} (h : s.held = false) (b : CountSetBody) :
    exec (.countSet b) s = .next (s.takeMsg (Sys2Proof.Machine.countSet b)) :=
  congrArg Host.Outcome.next (State.running_of_not_held h)

theorem exec_countPoll {s : State} (h : s.held = false) :
    exec .countPoll s = .next (s.takeMsg Sys2Proof.Machine.countPoll) :=
  congrArg Host.Outcome.next (State.running_of_not_held h)

theorem exec_statusPoll {s : State} (h : s.held = false) :
    exec .statusPoll s = .next (s.takeMsg Sys2Proof.Machine.statusPoll) :=
  congrArg Host.Outcome.next (State.running_of_not_held h)

theorem exec_alertClear {s : State} (h : s.held = false) (v : Vector Nat 6) :
    exec (.alertClear v) s = .next (s.takeMsg (Sys2Proof.Machine.alertClear v)) :=
  congrArg Host.Outcome.next (State.running_of_not_held h)

theorem exec_groupSet {s : State} (h : s.held = false) (v : Vector Nat 4) :
    exec (.groupSet v) s = .next (s.takeMsg (Sys2Proof.Machine.groupSet v)) :=
  congrArg Host.Outcome.next (State.running_of_not_held h)

theorem exec_unitReset {s : State} (h : s.held = false) :
    exec .unitReset s = .next (s.takeMsg Sys2Proof.Machine.unitReset) :=
  congrArg Host.Outcome.next (State.running_of_not_held h)

theorem exec_feedSet {s : State} (h : s.held = false) (n : Nat) :
    exec (.feedSet n) s = .next (s.takeMsg (Sys2Proof.Machine.feedSet n)) :=
  congrArg Host.Outcome.next (State.running_of_not_held h)

theorem exec_pick {s : State} (h : s.held = false) (n : Nat) (k : Option Nat) :
    exec (.pick n k) s = .next (s.reply 1 (Sys2Proof.Machine.pick n k)) :=
  congrArg Host.Outcome.next (State.running_of_not_held h)

theorem exec_buy {s : State} (h : s.held = false) (n t : Nat) (p : Option PinField) :
    exec (.buy n t p) s = .next (s.reply 2 (Sys2Proof.Machine.buy n t p)) :=
  congrArg Host.Outcome.next (State.running_of_not_held h)

theorem exec_refund {s : State} (h : s.held = false) (t : Nat) :
    exec (.refund t) s = .next (s.reply 3 (Sys2Proof.Machine.refund t)) :=
  congrArg Host.Outcome.next (State.running_of_not_held h)

theorem exec_unlock {s : State} (h : s.held = false) (n : Nat) (p : Option PinField) :
    exec (.unlock n p) s = .next (s.reply 4 (Sys2Proof.Machine.unlock n p)) :=
  congrArg Host.Outcome.next (State.running_of_not_held h)

theorem exec_relock {s : State} (h : s.held = false) (n : Nat) :
    exec (.relock n) s = .next (s.reply 5 (Sys2Proof.Machine.relock n)) :=
  congrArg Host.Outcome.next (State.running_of_not_held h)

theorem exec_askLane {s : State} (h : s.held = false) (n : Nat) :
    exec (.askLane n) s = .next (s.reply 6 (Sys2Proof.Machine.askLane n)) :=
  congrArg Host.Outcome.next (State.running_of_not_held h)

theorem exec_askTitle {s : State} (h : s.held = false) (t : Nat) :
    exec (.askTitle t) s = .next (s.reply 7 (Sys2Proof.Machine.askTitle t)) :=
  congrArg Host.Outcome.next (State.running_of_not_held h)

theorem exec_askRoom {s : State} (h : s.held = false) :
    exec .askRoom s = .next (s.reply 8 Sys2Proof.Machine.askRoom) :=
  congrArg Host.Outcome.next (State.running_of_not_held h)

theorem exec_attnRead {s : State} (h : s.held = false) :
    exec .attnRead s = .next (s.reply 9 Sys2Proof.Machine.attnRead) :=
  congrArg Host.Outcome.next (State.running_of_not_held h)

theorem exec_attnAck {s : State} (h : s.held = false) (n : Nat) :
    exec (.attnAck n) s = .next (s.reply 10 (Sys2Proof.Machine.attnAck n)) :=
  congrArg Host.Outcome.next (State.running_of_not_held h)

theorem exec_attnFloor {s : State} (h : s.held = false) (n : Nat) :
    exec (.attnFloor n) s = .next (s.reply 11 (Sys2Proof.Machine.attnFloor n)) :=
  congrArg Host.Outcome.next (State.running_of_not_held h)

theorem exec_feedByte {s : State} (h : s.held = false) (b : Byte) :
    exec (.feedByte b) s = .next (s.feedByte b) :=
  congrArg Host.Outcome.next (State.running_of_not_held h)

theorem exec_panelByte {s : State} (h : s.held = false) (b : Byte) (e : Bool) :
    exec (.panelByte b e) s = .next (s.panelByte b e) :=
  congrArg Host.Outcome.next (State.running_of_not_held h)

theorem exec_secondTick {s : State} (h : s.held = false) :
    exec .secondTick s = .next (s.secondTick) :=
  congrArg Host.Outcome.next (State.running_of_not_held h)

theorem exec_replySent {s : State} (h : s.held = false) :
    exec .replySent s = .next (s.replySent) :=
  congrArg Host.Outcome.next (State.running_of_not_held h)

theorem exec_cellSent {s : State} (h : s.held = false) (n : Fin 4) :
    exec (.cellSent n) s = .next (s.modLane n Lane.complete) :=
  congrArg Host.Outcome.next (State.running_of_not_held h)

theorem exec_screenPortBegin {s : State} (h : s.held = false) (n : Fin 4) (r : Bool) :
    exec (.screenPortBegin n r) s = .next (if r then { s with screenReady := s.screenReady.set n r }.modLane n Lane.begin else { s with screenReady := s.screenReady.set n r }) :=
  congrArg Host.Outcome.next (State.running_of_not_held h)

theorem exec_returnByte {s : State} (h : s.held = false) (r : Bool) :
    exec (.returnByte r) s = .next (if r then { s with returnReady := r }.takeReportByte else { s with returnReady := r }) :=
  congrArg Host.Outcome.next (State.running_of_not_held h)

theorem exec_reportSent {s : State} (h : s.held = false) :
    exec .reportSent s = .next (if s.lastByteDue then { s with returnReady := true }.takeReportByte else s) :=
  congrArg Host.Outcome.next (State.running_of_not_held h)

theorem exec_feedSilence {s : State} (h : s.held = false) :
    exec .feedSilence s = .next (if s.framer.state = .locked ∧ 2 ≤ s.framer.silence + 1 then s.settle settleBound [.framer] else s) :=
  congrArg Host.Outcome.next (State.running_of_not_held h)

theorem exec_noPicture {s : State} (h : s.held = false) (n : Fin 4) :
    exec (.noPicture n) s = .next (if s.lanes[n].darkens then s.settle settleBound [.laneTick n] else s) :=
  congrArg Host.Outcome.next (State.running_of_not_held h)

theorem exec_previewSpent {s : State} (h : s.held = false) (t : Nat) :
    exec (.previewSpent t) s = .next (if s.rentals.any fun r => r.title == t && r.state == .preview && r.meter.2.ended then s.settle settleBound [.rental] else s) :=
  congrArg Host.Outcome.next (State.running_of_not_held h)

theorem exec_rentalExpiry {s : State} (h : s.held = false) (t : Nat) :
    exec (.rentalExpiry t) s = .next (if s.rentals.any fun r => r.title == t && r.state == .active && r.meter.2.ended then s.settle settleBound [.rental] else s) :=
  congrArg Host.Outcome.next (State.running_of_not_held h)

theorem exec_lockoutEnd {s : State} (h : s.held = false) :
    exec .lockoutEnd s = .next (if s.lock.lockout = some 1 then s.settle settleBound [.lock] else s) :=
  congrArg Host.Outcome.next (State.running_of_not_held h)

theorem exec_leaseEnd {s : State} (h : s.held = false) (n : Fin 4) :
    exec (.leaseEnd n) s = .next (if s.lock.leases[n] = some 1 then s.settle settleBound [.lock] else s) :=
  congrArg Host.Outcome.next (State.running_of_not_held h)

theorem exec_frameAbandon {s : State} (h : s.held = false) :
    exec .frameAbandon s = .next (if s.frame.any Frame.marked then s.settle settleBound [.panel] else s) :=
  congrArg Host.Outcome.next (State.running_of_not_held h)

end Sys2Proof.Machine
end

