-- ==== Sys2Proof/Laws/Wire.lean ====
section
/-! SUPPORT. The wire encodings read and written, said once (R183): each reader of a field or a body accepts exactly the
bytes that the encoding writes for a value the field can carry, and leaves the bytes after them. -/

namespace Sys2Proof.Machine

/-! ## Integers -/

@[simp] theorem bytesOf_length (w n : Nat) : (bytesOf w n).length = w := by
  induction w generalizing n with
  | zero => rfl
  | succ w ih => simp [bytesOf, ih]

@[simp] theorem natOf_nil : natOf [] = 0 := rfl

theorem natOf_concat (bs : List Byte) (b : Byte) : natOf (bs ++ [b]) = natOf bs * 256 + b.toNat := by
  simp [natOf, List.foldl_append]

theorem natOf_bytesOf (w n : Nat) : natOf (bytesOf w n) = n % 256 ^ w := by
  induction w generalizing n with
  | zero => simp [bytesOf, Nat.mod_one]
  | succ w ih =>
    have h := @Nat.mod_mul 256 (256 ^ w) n
    have e : (256 : Nat) ^ (w + 1) = 256 * 256 ^ w := by rw [Nat.pow_succ, Nat.mul_comm]
    simp only [bytesOf, natOf_concat, ih, BitVec.toNat_ofNat, e, h]
    show _ + n % 256 = _
    omega

theorem bytesOf_natOf (bs : List Byte) : bytesOf bs.length (natOf bs) = bs := by
  induction bs using List.reverseRecOn with
  | nil => rfl
  | append_singleton bs b ih =>
    have hb := b.isLt
    have h1 : (natOf bs * 256 + b.toNat) / 256 = natOf bs := by omega
    have h2 : BitVec.ofNat 8 (natOf bs * 256 + b.toNat) = b := by
      apply BitVec.eq_of_toNat_eq
      simp only [BitVec.toNat_ofNat]
      omega
    simp only [List.length_append, List.length_singleton, bytesOf, natOf_concat, h1, h2, ih]

theorem natOf_lt (bs : List Byte) : natOf bs < 256 ^ bs.length := by
  induction bs using List.reverseRecOn with
  | nil => simp
  | append_singleton bs b ih =>
    have hb := b.isLt
    simp only [List.length_append, List.length_singleton, natOf_concat, Nat.pow_succ]
    omega

/-! ## Readers -/

/-- The reader accepts exactly what the encoding writes for the values allowed, and leaves the rest. -/
def Reads {α : Type} (p : List Byte → Option (α × List Byte)) (enc : α → List Byte) (ok : α → Prop) : Prop :=
  ∀ (bs : List Byte) (a : α) (rest : List Byte), p bs = some (a, rest) ↔ ok a ∧ bs = enc a ++ rest

theorem Reads.whole_iff {α : Type} {p : List Byte → Option (α × List Byte)} {enc : α → List Byte} {ok : α → Prop}
    (h : Reads p enc ok) (bs : List Byte) (a : α) : whole p bs = some a ↔ ok a ∧ bs = enc a := by
  have := h bs a []
  rw [List.append_nil] at this
  rw [← this]
  unfold whole
  split <;> simp_all

theorem readNat_reads (w : Nat) : Reads (readNat w) (bytesOf w) (fun n => n < 256 ^ w) := by
  intro bs n rest
  unfold readNat
  constructor
  · intro h
    split at h
    · rename_i hl
      simp only [Option.some.injEq, Prod.mk.injEq] at h
      obtain ⟨rfl, rfl⟩ := h
      have hlen : (bs.take w).length = w := by simpa using hl
      have h1 := natOf_lt (bs.take w)
      have h2 := bytesOf_natOf (bs.take w)
      rw [hlen] at h1 h2
      exact ⟨h1, by rw [h2, List.take_append_drop]⟩
    · simp at h
  · rintro ⟨hn, rfl⟩
    simp [natOf_bytesOf, Nat.mod_eq_of_lt hn]

/-- An optional field: a presence byte of 0 or 1 alone. -/
theorem readOpt_reads {α : Type} {p : List Byte → Option (α × List Byte)} {enc : α → List Byte} {ok : α → Prop}
    (h : Reads p enc ok) : Reads (readOpt p) (optBytes enc) (fun o => ∀ a, o = some a → ok a) := by
  intro bs o rest
  cases bs with
  | nil => cases o <;> simp [readOpt, optBytes]
  | cons b r =>
    by_cases h0 : b = 0
    · subst h0
      cases o <;> simp [readOpt, optBytes, eq_comm]
    · by_cases h1 : b = 1
      · subst h1
        cases o with
        | none => simp [readOpt, optBytes]
        | some a => simpa [readOpt, optBytes] using h r a rest
      · have h0' : ¬ b = 0#8 := h0
        have h1' : ¬ b = 1#8 := h1
        cases o <;> simp [readOpt, optBytes, h0', h1']

theorem readMany_reads {α : Type} {p : List Byte → Option (α × List Byte)} {enc : α → List Byte} {ok : α → Prop}
    (h : Reads p enc ok) (k : Nat) :
    Reads (readMany p k) (fun as => as.flatMap enc) (fun as => as.length = k ∧ ∀ a ∈ as, ok a) := by
  induction k with
  | zero =>
    intro bs as rest
    cases as <;> simp [readMany, eq_comm]
  | succ k ih =>
    intro bs as rest
    simp only [readMany, Option.bind_eq_bind, Option.bind_eq_some_iff, Prod.exists, Option.some.injEq, Prod.mk.injEq,
      h bs, ih _]
    constructor
    · rintro ⟨a, r, ⟨ha, rfl⟩, as', r', ⟨⟨rfl, has⟩, rfl⟩, rfl, rfl⟩
      simpa using ⟨ha, has⟩
    · rintro ⟨⟨hl, hok⟩, rfl⟩
      cases as with
      | nil => simp at hl
      | cons a as =>
        simp only [List.length_cons, Nat.add_right_cancel_iff] at hl
        exact ⟨a, _, ⟨hok a (List.mem_cons_self ..), by simp⟩, as, rest,
          ⟨⟨hl, fun x hx => hok x (List.mem_cons_of_mem _ hx)⟩, rfl⟩, rfl, rfl⟩

/-- A list: a count byte, then that many entries. -/
theorem readList_reads {α : Type} {p : List Byte → Option (α × List Byte)} {enc : α → List Byte} {ok : α → Prop}
    (h : Reads p enc ok) :
    Reads (readList p) (fun as => bytesOf 1 as.length ++ as.flatMap enc)
      (fun as => as.length < 256 ∧ ∀ a ∈ as, ok a) := by
  intro bs as rest
  simp only [readList, Option.bind_eq_bind, Option.bind_eq_some_iff, Prod.exists, readNat_reads 1 bs,
    readMany_reads h _ _]
  constructor
  · rintro ⟨k, r, ⟨hk, rfl⟩, ⟨rfl, hok⟩, rfl⟩
    exact ⟨⟨by simpa using hk, hok⟩, by simp⟩
  · rintro ⟨⟨hl, hok⟩, rfl⟩
    exact ⟨as.length, _, ⟨by simpa using hl, by rw [List.append_assoc]⟩, ⟨rfl, hok⟩, rfl⟩

/-! ## Fixed groups -/

theorem vector4_ext {α : Type} (v : Vector α 4) : v = #v[v[0], v[1], v[2], v[3]] := by
  ext i hi
  rcases i with _ | _ | _ | _ | i <;> first | rfl | omega

theorem vector6_ext {α : Type} (v : Vector α 6) : v = #v[v[0], v[1], v[2], v[3], v[4], v[5]] := by
  ext i hi
  rcases i with _ | _ | _ | _ | _ | _ | i <;> first | rfl | omega

theorem vector7_ext {α : Type} (v : Vector α 7) : v = #v[v[0], v[1], v[2], v[3], v[4], v[5], v[6]] := by
  ext i hi
  rcases i with _ | _ | _ | _ | _ | _ | _ | i <;> first | rfl | omega

theorem vector8_ext {α : Type} (v : Vector α 8) : v = #v[v[0], v[1], v[2], v[3], v[4], v[5], v[6], v[7]] := by
  ext i hi
  rcases i with _ | _ | _ | _ | _ | _ | _ | _ | i <;> first | rfl | omega

theorem readFour_reads (w : Nat) :
    Reads (readFour w) (fun v => v.toList.flatMap (bytesOf w)) (fun v => v.toList.all (fits w) = true) := by
  intro bs v rest
  simp only [readFour, Option.bind_eq_bind, Option.bind_eq_some_iff, Prod.exists, Option.some.injEq, Prod.mk.injEq,
    readNat_reads w _]
  constructor
  · rintro ⟨a, _, ⟨ha, rfl⟩, b, _, ⟨hb, rfl⟩, c, _, ⟨hc, rfl⟩, d, _, ⟨hd, rfl⟩, rfl, rfl⟩
    simp [fits, ha, hb, hc, hd]
  · rintro ⟨h, rfl⟩
    rw [vector4_ext v] at h ⊢
    simp [fits] at h
    obtain ⟨h0, h1, h2, h3⟩ := h
    exact ⟨_, _, ⟨h0, by simp⟩, _, _, ⟨h1, rfl⟩, _, _, ⟨h2, rfl⟩, _, _, ⟨h3, rfl⟩, rfl, rfl⟩

theorem readSix_reads (w : Nat) :
    Reads (readSix w) (fun v => v.toList.flatMap (bytesOf w)) (fun v => v.toList.all (fits w) = true) := by
  intro bs v rest
  simp only [readSix, Option.bind_eq_bind, Option.bind_eq_some_iff, Prod.exists, Option.some.injEq, Prod.mk.injEq,
    readNat_reads w _]
  constructor
  · rintro ⟨a, _, ⟨ha, rfl⟩, b, _, ⟨hb, rfl⟩, c, _, ⟨hc, rfl⟩, d, _, ⟨hd, rfl⟩, e, _, ⟨he, rfl⟩, f, _, ⟨hf, rfl⟩,
      rfl, rfl⟩
    simp [fits, ha, hb, hc, hd, he, hf]
  · rintro ⟨h, rfl⟩
    rw [vector6_ext v] at h ⊢
    simp [fits] at h
    obtain ⟨h0, h1, h2, h3, h4, h5⟩ := h
    exact ⟨_, _, ⟨h0, by simp⟩, _, _, ⟨h1, rfl⟩, _, _, ⟨h2, rfl⟩, _, _, ⟨h3, rfl⟩, _, _, ⟨h4, rfl⟩, _, _, ⟨h5, rfl⟩,
      rfl, rfl⟩

theorem readSeven_reads (w : Nat) :
    Reads (readSeven w) (fun v => v.toList.flatMap (bytesOf w)) (fun v => v.toList.all (fits w) = true) := by
  intro bs v rest
  simp only [readSeven, Option.bind_eq_bind, Option.bind_eq_some_iff, Prod.exists, Option.some.injEq, Prod.mk.injEq,
    readNat_reads w _, readSix_reads w _]
  constructor
  · rintro ⟨u, _, ⟨hu, rfl⟩, g, _, ⟨hg, rfl⟩, rfl, rfl⟩
    refine ⟨?_, by simp [Vector.toList_push]⟩
    rw [Vector.toList_push, List.all_append, hu]
    simp [fits, hg]
  · rintro ⟨h, rfl⟩
    rw [vector7_ext v] at h ⊢
    simp [fits] at h
    obtain ⟨h0, h1, h2, h3, h4, h5, h6⟩ := h
    exact ⟨#v[v[0], v[1], v[2], v[3], v[4], v[5]], _, ⟨by simp [fits, h0, h1, h2, h3, h4, h5], by simp⟩, v[6], rest,
      ⟨h6, rfl⟩, rfl, rfl⟩

/-! ## Fields of their own layout -/

theorem readPin_reads : Reads readPin pinBytes (fun p => p.wf = true) := by
  intro bs p rest
  simp only [readPin, Option.bind_eq_bind, Option.bind_eq_some_iff, Prod.exists, Option.some.injEq, Prod.mk.injEq,
    readFour_reads 1 _]
  constructor
  · rintro ⟨v, _, ⟨hv, rfl⟩, rfl, rfl⟩
    rw [vector4_ext v] at hv
    simp at hv
    refine ⟨by simpa [PinField.wf, and_assoc] using hv, ?_⟩
    rw [vector4_ext v]
    simp [pinBytes]
  · rintro ⟨h, rfl⟩
    simp [PinField.wf] at h
    exact ⟨#v[p.d0, p.d1, p.d2, p.d3], rest, ⟨by simp [h], by simp [pinBytes]⟩, rfl, rfl⟩

theorem readSigned_reads : Reads readSigned signedBytes (fun x => fitsSigned x = true) := by
  intro bs x rest
  simp only [readSigned, Option.bind_eq_bind, Option.bind_eq_some_iff, Prod.exists, Option.some.injEq, Prod.mk.injEq,
    readNat_reads 2 _]
  constructor
  · rintro ⟨n, _, ⟨hn, rfl⟩, rfl, rfl⟩
    by_cases h : n < 32768
    · have e : ¬ (n : Int) < 0 := by omega
      simp [h, fitsSigned, signedBytes, e]
      omega
    · have e : (n : Int) - 65536 < 0 := by omega
      simp [h, fitsSigned, signedBytes, e]
      omega
  · rintro ⟨h, rfl⟩
    simp [fitsSigned] at h
    refine ⟨(if x < 0 then x + 65536 else x).toNat, rest, ⟨?_, rfl⟩, ?_, rfl⟩
    · split <;> omega
    · split <;> split <;> omega

theorem readKey_reads : Reads readKey (fun k => k.toList) (fun _ => True) := by
  intro bs k rest
  constructor
  · intro h
    unfold readKey at h
    split at h
    · simp only [Option.some.injEq, Prod.mk.injEq] at h
      obtain ⟨rfl, rfl⟩ := h
      exact ⟨trivial, rfl⟩
    · simp at h
  · rintro ⟨-, rfl⟩
    rw [vector8_ext k]
    rfl

/-- The filter form selects the layout of its argument, and a form above 3 fits nothing. -/
theorem readFilter_reads : Reads readFilter filterBytes (fun f => f.wf = true) := by
  intro bs f rest
  simp only [readFilter, Option.bind_eq_bind, Option.bind_eq_some_iff, Prod.exists, readNat_reads 1 _]
  constructor
  · rintro ⟨form, r, ⟨hform, rfl⟩, h⟩
    split at h
    · simp only [Option.some.injEq, Prod.mk.injEq] at h
      obtain ⟨rfl, rfl⟩ := h
      exact ⟨rfl, rfl⟩
    · simp only [Option.map_eq_some_iff, Prod.exists, readNat_reads 2 _, Prod.mk.injEq] at h
      obtain ⟨n, _, ⟨hn, rfl⟩, rfl, rfl⟩ := h
      exact ⟨by simpa [FilterField.wf, fits] using hn, by simp [filterBytes]⟩
    · simp only [Option.map_eq_some_iff, Prod.exists, readFour_reads 1 _, Prod.mk.injEq] at h
      obtain ⟨v, _, ⟨hv, rfl⟩, rfl, rfl⟩ := h
      exact ⟨hv, by simp [filterBytes]⟩
    · simp only [Option.map_eq_some_iff, Prod.exists, readNat_reads 1 _, Prod.mk.injEq] at h
      obtain ⟨n, _, ⟨hn, rfl⟩, rfl, rfl⟩ := h
      exact ⟨by simpa [FilterField.wf, fits] using hn, by simp [filterBytes]⟩
    · simp at h
  · rintro ⟨h, rfl⟩
    cases f with
    | none => exact ⟨0, rest, ⟨by decide, rfl⟩, rfl⟩
    | service n =>
      refine ⟨1, bytesOf 2 n ++ rest, ⟨by decide, by simp [filterBytes]⟩, ?_⟩
      simp only [Option.map_eq_some_iff, Prod.exists, readNat_reads 2 _, Prod.mk.injEq]
      exact ⟨n, rest, ⟨by simpa [FilterField.wf, fits] using h, rfl⟩, rfl, rfl⟩
    | lanes v =>
      refine ⟨2, v.toList.flatMap (bytesOf 1) ++ rest, ⟨by decide, by simp [filterBytes]⟩, ?_⟩
      simp only [Option.map_eq_some_iff, Prod.exists, readFour_reads 1 _, Prod.mk.injEq]
      exact ⟨v, rest, ⟨h, rfl⟩, rfl, rfl⟩
    | ratingAtLeast n =>
      refine ⟨3, bytesOf 1 n ++ rest, ⟨by decide, by simp [filterBytes]⟩, ?_⟩
      simp only [Option.map_eq_some_iff, Prod.exists, readNat_reads 1 _, Prod.mk.injEq]
      exact ⟨n, rest, ⟨by simpa [FilterField.wf, fits] using h, rfl⟩, rfl, rfl⟩

/-! ## Bodies of management messages -/

theorem readComponent_reads :
    Reads readComponent (fun k => bytesOf 2 k.tag ++ bytesOf 1 k.role) (fun k => k.wf = true) := by
  intro bs k rest
  simp only [readComponent, Option.bind_eq_bind, Option.bind_eq_some_iff, Prod.exists, Option.some.injEq, Prod.mk.injEq,
    readNat_reads _ _, ComponentField.wf, fits, Bool.and_eq_true, decide_eq_true_eq]
  constructor
  · rintro ⟨tag, _, ⟨ht, rfl⟩, role, _, ⟨hr, rfl⟩, rfl, rfl⟩
    exact ⟨⟨ht, hr⟩, by simp⟩
  · rintro ⟨⟨ht, hr⟩, rfl⟩
    exact ⟨_, _, ⟨ht, by simp⟩, _, _, ⟨hr, rfl⟩, rfl, rfl⟩

theorem fitsOpt_iff (w : Nat) (o : Option Nat) : fitsOpt w o = true ↔ ∀ n, o = some n → n < 256 ^ w := by
  cases o <;> simp [fitsOpt, fits]

theorem pinOptWf_iff (o : Option PinField) : pinOptWf o = true ↔ ∀ p, o = some p → p.wf = true := by
  cases o <;> simp [pinOptWf]

theorem occupancyOptWf_iff (o : Option OccupancyField) :
    occupancyOptWf o = true ↔ ∀ p, o = some p → p.wf = true := by cases o <;> simp [occupancyOptWf]

theorem readSvcPut_reads : Reads readSvcPut (fun b => messageBody (.svcPut b)) (fun b => b.wf = true) := by
  intro bs b rest
  simp only [readSvcPut, Option.bind_eq_bind, Option.bind_eq_some_iff, Prod.exists, Option.some.injEq, Prod.mk.injEq,
    readNat_reads _ _, readOpt_reads (readNat_reads _) _, readList_reads readComponent_reads _, SvcPutBody.wf, fits,
    fitsOpt_iff, List.all_eq_true, Bool.and_eq_true, decide_eq_true_eq, Nat.pow_one]
  constructor
  · rintro ⟨a, _, ⟨ha, rfl⟩, b, _, ⟨hb, rfl⟩, c, _, ⟨hc, rfl⟩, d, _, ⟨hd, rfl⟩, e, _, ⟨he, rfl⟩, f, _, ⟨hf, rfl⟩,
      rfl, rfl⟩
    exact ⟨⟨⟨⟨⟨⟨⟨ha, hb⟩, hc⟩, hd⟩, he⟩, hf.1⟩, hf.2⟩, by simp only [messageBody, List.append_assoc]⟩
  · rintro ⟨⟨⟨⟨⟨⟨⟨ha, hb⟩, hc⟩, hd⟩, he⟩, hf⟩, hg⟩, rfl⟩
    exact ⟨_, _, ⟨ha, by simp only [messageBody, List.append_assoc]⟩, _, _, ⟨hb, rfl⟩, _, _, ⟨hc, rfl⟩, _, _, ⟨hd, rfl⟩,
      _, bytesOf 1 b.components.length ++
        (b.components.flatMap (fun k => bytesOf 2 k.tag ++ bytesOf 1 k.role) ++ rest), ⟨he, rfl⟩, _, _,
      ⟨⟨hf, hg⟩, by simp only [List.append_assoc]⟩, rfl, rfl⟩

theorem readOnAir_reads : Reads readOnAir (fun x => messageBody (.onAir x.1 x.2))
    (fun x => fits 2 x.1 = true ∧ fitsOpt 2 x.2 = true) := by
  rintro bs ⟨a, b⟩ rest
  simp only [readOnAir, Option.bind_eq_bind, Option.bind_eq_some_iff, Prod.exists, Option.some.injEq, Prod.mk.injEq,
    readNat_reads _ _, readOpt_reads (readNat_reads _) _, fits, fitsOpt_iff, decide_eq_true_eq]
  constructor
  · rintro ⟨a, _, ⟨ha, rfl⟩, b, _, ⟨hb, rfl⟩, ⟨rfl, rfl⟩, rfl⟩
    exact ⟨⟨ha, hb⟩, by simp only [messageBody, List.append_assoc]⟩
  · rintro ⟨⟨ha, hb⟩, rfl⟩
    exact ⟨_, _, ⟨ha, by simp only [messageBody, List.append_assoc]⟩, _, _, ⟨hb, rfl⟩, ⟨rfl, rfl⟩, rfl⟩

theorem readKeyPut_reads : Reads readKeyPut (fun b => messageBody (.keyPut b)) (fun b => b.wf = true) := by
  intro bs b rest
  have hc : ∀ c : Byte, bytesOf 1 c.toNat = [c] := fun c => by simp [bytesOf]
  simp only [readKeyPut, Option.bind_eq_bind, Option.bind_eq_some_iff, Prod.exists, Option.some.injEq, Prod.mk.injEq,
    readNat_reads _ _, readKey_reads _, KeyPutBody.wf, fits, Bool.and_eq_true, decide_eq_true_eq]
  constructor
  · rintro ⟨a, _, ⟨ha, rfl⟩, b, _, ⟨hb, rfl⟩, c, _, ⟨-, rfl⟩, d, _, ⟨hd, rfl⟩, rfl, rfl⟩
    refine ⟨⟨ha, hb⟩, ?_⟩
    simp only [messageBody, List.append_assoc]
    rfl
  · rintro ⟨⟨ha, hb⟩, rfl⟩
    exact ⟨_, _, ⟨ha, by simp only [messageBody, List.append_assoc]⟩, _, _, ⟨hb, rfl⟩, b.key, [b.check] ++ rest,
      ⟨trivial, rfl⟩, b.check.toNat, _, ⟨b.check.isLt, by rw [hc]⟩, by simp, rfl⟩

theorem readTitlePut_reads : Reads readTitlePut (fun b => messageBody (.titlePut b)) (fun b => b.wf = true) := by
  intro bs b rest
  simp only [readTitlePut, Option.bind_eq_bind, Option.bind_eq_some_iff, Prod.exists, Option.some.injEq, Prod.mk.injEq,
    readNat_reads _ _, TitlePutBody.wf, fits, Bool.and_eq_true, decide_eq_true_eq]
  constructor
  · rintro ⟨a, _, ⟨ha, rfl⟩, b, _, ⟨hb, rfl⟩, c, _, ⟨hc, rfl⟩, d, _, ⟨hd, rfl⟩, e, _, ⟨he, rfl⟩, f, _, ⟨hf, rfl⟩,
      g, _, ⟨hg, rfl⟩, rfl, rfl⟩
    exact ⟨⟨⟨⟨⟨⟨⟨ha, hb⟩, hc⟩, hd⟩, he⟩, hf⟩, hg⟩, by simp only [messageBody, List.append_assoc]⟩
  · rintro ⟨⟨⟨⟨⟨⟨⟨ha, hb⟩, hc⟩, hd⟩, he⟩, hf⟩, hg⟩, rfl⟩
    exact ⟨_, _, ⟨ha, by simp only [messageBody, List.append_assoc]⟩, _, _, ⟨hb, rfl⟩, _, _, ⟨hc, rfl⟩, _, _, ⟨hd, rfl⟩,
      _, _, ⟨he, rfl⟩, _, _, ⟨hf, rfl⟩, _, _, ⟨hg, rfl⟩, rfl, rfl⟩

theorem readTariffPut_reads : Reads readTariffPut (fun b => messageBody (.tariffPut b)) (fun b => b.wf = true) := by
  intro bs b rest
  simp only [readTariffPut, Option.bind_eq_bind, Option.bind_eq_some_iff, Prod.exists, Option.some.injEq, Prod.mk.injEq,
    readNat_reads _ _, readSigned_reads _, readFour_reads _ _, TariffPutBody.wf, Bool.and_eq_true]
  constructor
  · rintro ⟨a, _, ⟨ha, rfl⟩, b, _, ⟨hb, rfl⟩, c, _, ⟨hc, rfl⟩, d, _, ⟨hd, rfl⟩, v, _, ⟨hv, rfl⟩, rfl, rfl⟩
    rw [vector4_ext v] at hv
    simp at hv
    refine ⟨⟨⟨⟨⟨⟨⟨⟨by simpa [fits] using ha, hb⟩, by simpa [fits] using hc⟩, hd⟩, hv.1⟩, hv.2.1⟩, hv.2.2.1⟩, hv.2.2.2⟩, ?_⟩
    rw [vector4_ext v]
    simp [messageBody]
  · rintro ⟨⟨⟨⟨⟨⟨⟨⟨ha, hb⟩, hc⟩, hd⟩, h0⟩, h1⟩, h2⟩, h3⟩, rfl⟩
    exact ⟨_, _, ⟨by simpa [fits] using ha, by simp only [messageBody, List.append_assoc]⟩, _, _, ⟨hb, rfl⟩, _, _,
      ⟨by simpa [fits] using hc, rfl⟩, _,
      bytesOf 2 b.lowCompare ++ (bytesOf 2 b.lowSet ++ (bytesOf 2 b.highCompare ++ (bytesOf 2 b.highSet ++ rest))),
      ⟨hd, rfl⟩, #v[b.lowCompare, b.lowSet, b.highCompare, b.highSet], rest,
      ⟨by simp [h0, h1, h2, h3], by simp⟩, rfl, rfl⟩

theorem readStayOpen_reads : Reads readStayOpen (fun b => messageBody (.stayOpen b)) (fun b => b.wf = true) := by
  intro bs b rest
  simp only [readStayOpen, Option.bind_eq_bind, Option.bind_eq_some_iff, Prod.exists, Option.some.injEq, Prod.mk.injEq,
    readNat_reads _ _, readOpt_reads readPin_reads _, StayOpenBody.wf, fits, pinOptWf_iff, Bool.and_eq_true,
    decide_eq_true_eq]
  constructor
  · rintro ⟨a, _, ⟨ha, rfl⟩, b, _, ⟨hb, rfl⟩, c, _, ⟨hc, rfl⟩, d, _, ⟨hd, rfl⟩, e, _, ⟨he, rfl⟩, f, _, ⟨hf, rfl⟩,
      rfl, rfl⟩
    exact ⟨⟨⟨⟨⟨⟨ha, hb⟩, hc⟩, hd⟩, he⟩, hf⟩, by simp only [messageBody, List.append_assoc]⟩
  · rintro ⟨⟨⟨⟨⟨⟨ha, hb⟩, hc⟩, hd⟩, he⟩, hf⟩, rfl⟩
    exact ⟨_, _, ⟨ha, by simp only [messageBody, List.append_assoc]⟩, _, _, ⟨hb, rfl⟩, _, _, ⟨hc, rfl⟩, _, _, ⟨hd, rfl⟩,
      _, _, ⟨he, rfl⟩, _, _, ⟨hf, rfl⟩, rfl, rfl⟩

theorem readLockSet_reads : Reads readLockSet (fun b => messageBody (.lockSet b)) (fun b => b.wf = true) := by
  intro bs b rest
  simp only [readLockSet, Option.bind_eq_bind, Option.bind_eq_some_iff, Prod.exists, Option.some.injEq, Prod.mk.injEq,
    readNat_reads _ _, readFour_reads _ _, LockSetBody.wf, Bool.and_eq_true]
  simp only [fits, decide_eq_true_eq]
  constructor
  · rintro ⟨a, _, ⟨ha, rfl⟩, b, _, ⟨hb, rfl⟩, c, _, ⟨hc, rfl⟩, d, _, ⟨hd, rfl⟩, e, _, ⟨he, rfl⟩, f, _, ⟨hf, rfl⟩,
      rfl, rfl⟩
    exact ⟨⟨⟨⟨⟨⟨ha, hb⟩, hc⟩, hd⟩, he⟩, hf⟩, by simp only [messageBody, List.append_assoc]⟩
  · rintro ⟨⟨⟨⟨⟨⟨ha, hb⟩, hc⟩, hd⟩, he⟩, hf⟩, rfl⟩
    exact ⟨_, _, ⟨ha, by simp only [messageBody, List.append_assoc]⟩, _, _, ⟨hb, rfl⟩, _, _, ⟨hc, rfl⟩, _, _, ⟨hd, rfl⟩,
      _, _, ⟨he, rfl⟩, _, _, ⟨hf, rfl⟩, rfl, rfl⟩

theorem readOccupancy_reads :
    Reads readOccupancy
      (fun o => o.states.toList.flatMap (bytesOf 1) ++ bytesOf 1 o.mode ++ bytesOf 1 o.threshold)
      (fun o => o.wf = true) := by
  intro bs o rest
  simp only [readOccupancy, Option.bind_eq_bind, Option.bind_eq_some_iff, Prod.exists, Option.some.injEq, Prod.mk.injEq,
    readNat_reads _ _, readSeven_reads _ _, OccupancyField.wf, Bool.and_eq_true]
  simp only [fits, decide_eq_true_eq]
  constructor
  · rintro ⟨a, _, ⟨ha, rfl⟩, b, _, ⟨hb, rfl⟩, c, _, ⟨hc, rfl⟩, rfl, rfl⟩
    exact ⟨⟨⟨ha, hb⟩, hc⟩, by simp only [List.append_assoc]⟩
  · rintro ⟨⟨⟨ha, hb⟩, hc⟩, rfl⟩
    exact ⟨_, _, ⟨ha, by simp only [List.append_assoc]⟩, _, _, ⟨hb, rfl⟩, _, _, ⟨hc, rfl⟩, rfl, rfl⟩

theorem readCountSet_reads : Reads readCountSet (fun b => messageBody (.countSet b)) (fun b => b.wf = true) := by
  intro bs b rest
  simp only [readCountSet, Option.bind_eq_bind, Option.bind_eq_some_iff, Prod.exists, Option.some.injEq, Prod.mk.injEq,
    readNat_reads _ _, readFilter_reads _, readOpt_reads readOccupancy_reads _, CountSetBody.wf, fits,
    occupancyOptWf_iff, Bool.and_eq_true, decide_eq_true_eq]
  constructor
  · rintro ⟨a, _, ⟨ha, rfl⟩, b, _, ⟨hb, rfl⟩, c, _, ⟨hc, rfl⟩, d, _, ⟨hd, rfl⟩, rfl, rfl⟩
    exact ⟨⟨⟨⟨ha, hb⟩, hc⟩, hd⟩, by simp only [messageBody, List.append_assoc]⟩
  · rintro ⟨⟨⟨⟨ha, hb⟩, hc⟩, hd⟩, rfl⟩
    exact ⟨_, _, ⟨ha, by simp only [messageBody, List.append_assoc]⟩, _, _, ⟨hb, rfl⟩, _, _, ⟨hc, rfl⟩, _, _, ⟨hd, rfl⟩,
      rfl, rfl⟩

theorem emptyBody_iff {α : Type} (m a : α) (bs : List Byte) : emptyBody m bs = some a ↔ m = a ∧ bs = [] := by
  cases bs <;> simp [emptyBody]

/-! ## Bodies of panel requests -/

theorem readPick_reads : Reads readPick (fun x => requestBody (.pick x.1 x.2))
    (fun x => fits 1 x.1 = true ∧ fitsOpt 2 x.2 = true) := by
  rintro bs ⟨a, b⟩ rest
  simp only [readPick, Option.bind_eq_bind, Option.bind_eq_some_iff, Prod.exists, Option.some.injEq, Prod.mk.injEq,
    readNat_reads _ _, readOpt_reads (readNat_reads _) _, fits, fitsOpt_iff, decide_eq_true_eq]
  constructor
  · rintro ⟨a, _, ⟨ha, rfl⟩, b, _, ⟨hb, rfl⟩, ⟨rfl, rfl⟩, rfl⟩
    exact ⟨⟨ha, hb⟩, by simp only [requestBody, List.append_assoc]⟩
  · rintro ⟨⟨ha, hb⟩, rfl⟩
    exact ⟨_, _, ⟨ha, by simp only [requestBody, List.append_assoc]⟩, _, _, ⟨hb, rfl⟩, ⟨rfl, rfl⟩, rfl⟩

theorem readBuy_reads : Reads readBuy (fun x => requestBody (.buy x.1 x.2.1 x.2.2))
    (fun x => fits 1 x.1 = true ∧ fits 2 x.2.1 = true ∧ pinOptWf x.2.2 = true) := by
  rintro bs ⟨a, b, c⟩ rest
  simp only [readBuy, Option.bind_eq_bind, Option.bind_eq_some_iff, Prod.exists, Option.some.injEq, Prod.mk.injEq,
    readNat_reads _ _, readOpt_reads readPin_reads _, fits, pinOptWf_iff, decide_eq_true_eq]
  constructor
  · rintro ⟨a, _, ⟨ha, rfl⟩, b, _, ⟨hb, rfl⟩, c, _, ⟨hc, rfl⟩, ⟨rfl, rfl, rfl⟩, rfl⟩
    exact ⟨⟨ha, hb, hc⟩, by simp only [requestBody, List.append_assoc]⟩
  · rintro ⟨⟨ha, hb, hc⟩, rfl⟩
    exact ⟨_, _, ⟨ha, by simp only [requestBody, List.append_assoc]⟩, _, _, ⟨hb, rfl⟩, _, _, ⟨hc, rfl⟩,
      ⟨rfl, rfl, rfl⟩, rfl⟩

theorem readUnlock_reads : Reads readUnlock (fun x => requestBody (.unlock x.1 x.2))
    (fun x => fits 1 x.1 = true ∧ pinOptWf x.2 = true) := by
  rintro bs ⟨a, b⟩ rest
  simp only [readUnlock, Option.bind_eq_bind, Option.bind_eq_some_iff, Prod.exists, Option.some.injEq, Prod.mk.injEq,
    readNat_reads _ _, readOpt_reads readPin_reads _, fits, pinOptWf_iff, decide_eq_true_eq]
  constructor
  · rintro ⟨a, _, ⟨ha, rfl⟩, b, _, ⟨hb, rfl⟩, ⟨rfl, rfl⟩, rfl⟩
    exact ⟨⟨ha, hb⟩, by simp only [requestBody, List.append_assoc]⟩
  · rintro ⟨⟨ha, hb⟩, rfl⟩
    exact ⟨_, _, ⟨ha, by simp only [requestBody, List.append_assoc]⟩, _, _, ⟨hb, rfl⟩, ⟨rfl, rfl⟩, rfl⟩

end Sys2Proof.Machine
end

