-- ==== Sys2Proof/Laws/Work.lean ====
section
/-! SUPPORT. Each piece of outstanding work does what its rules say and sends the causes they say, and the engine that
brings the work to an end takes every piece of it (R56 to R60, R81 to R83, R149). -/

namespace Sys2Proof.Machine

/-! ## Evaluation -/

theorem State.placeAvailable_iff (s : State) :
    s.placeAvailable = true ↔ s.rentals.length < 16 ∨ ∃ y ∈ s.rentals, y.state = .expired ∧ y.refunded = false := by
  simp [State.placeAvailable, RentalRec.evictable]

/-- An evaluation asks for a record exactly where step 7 makes one. -/
theorem State.wantedRecord?_iff (s : State) (n : Fin 4) (e : CatalogEntry) :
    s.wantedRecord? n = some e ↔ s.asksRecord n e := by
  constructor
  · intro h
    obtain ⟨-, hnone, hcat, hp, hplace, -, hocc, k, r, hk, hr, hon, hlt⟩ := State.wantedRecord?_spec h
    exact ⟨k, r, e.title, hk, hr, by omega, hon, hocc, hnone, hcat, hp, s.placeAvailable_iff.mp hplace⟩
  · rintro ⟨k, r, x, hk, hr, hle, hon, hocc, hnone, hcat, hp, hplace⟩
    have hplace := s.placeAvailable_iff.mpr hplace
    have hrun := State.titleRunning?_of_service hk hr
    have hlt : ¬ s.effectiveCeiling n < s.effectiveRating r := by omega
    have hc : (s.laneChoice n).2 = true := by
      unfold State.laneChoice
      simp only [hk, hr, hlt, if_false, hon, hocc, hnone, hcat, hp, hplace, and_self, if_true, reduceCtorEq]
    unfold State.wantedRecord?
    rw [if_pos hc, hrun, hon]
    exact hcat

theorem State.asksRecord_unique {s : State} {n : Fin 4} {e f : CatalogEntry} (h : s.asksRecord n e)
    (hf : s.asksRecord n f) : f = e := by
  rw [← State.wantedRecord?_iff] at h hf
  exact Option.some.inj (hf.symm.trans h)

theorem lanesWhere_nodup (p : Fin 4 → Bool) : (lanesWhere p).Nodup := (by decide : allLanes.Nodup).filter p

/-- The lanes an evaluation sends causes to. -/
theorem State.mem_evaluate_sent {s : State} {n : Fin 4} {e : CatalogEntry} (h : s.wantedRecord? n = some e)
    (m : Fin 4) :
    m ∈ (s.evaluate n).2 ↔
      m ≠ n ∧
        (s.lanes[m].title = some e.title ∨
          16 ≤ s.rentals.length ∧
            ∃ r, s.rentals.find? (fun r => r.state == .expired && !r.refunded) = some r ∧
              s.lanes[m].title = some r.title) := by
  by_cases hm : m = n
  · subst hm
    unfold State.evaluate
    simp only [h, mem_lanesWhere]
    simp
  have hl := s.evaluate_other hm
  have hon : ∀ y, (s.evaluate n).1.onTitle y m = (s.lanes[m].title == some y) := by
    intro y; unfold State.onTitle; rw [hl]
  have hev : (s.modLane n fun l => { l with title := s.titleRunning? n }).evicted? = s.evicted? := rfl
  unfold State.evaluate at hon ⊢
  simp only [h] at hon ⊢
  rw [mem_lanesWhere, hev]
  simp only [hon]
  unfold State.evicted?
  by_cases hlen : s.rentals.length < 16
  · simp [hm, hlen]
  · have h16 : 16 ≤ s.rentals.length := by omega
    rw [if_neg hlen, show s.rentals.find? RentalRec.evictable =
      s.rentals.find? (fun r => r.state == .expired && !r.refunded) from rfl]
    cases s.rentals.find? (fun r => r.state == .expired && !r.refunded) <;> simp [hm, h16]

/-- One evaluation is the evaluation of the rules. -/
theorem State.evaluate_evaluation (s : State) (n : Fin 4) : evaluation s n (s.evaluate n).1 (s.evaluate n).2 := by
  have hstate : ((s.evaluate n).1.lanes[n]).state = (s.laneChoice n).1 := by rw [State.evaluate_lane]
  refine ⟨s.evaluate_shape n, fun m hm => s.evaluate_other hm, s.evaluate_right n, ?_, ?_, ?_, ?_⟩
  · rw [hstate, State.evaluate_lane]
    unfold Lane.entering Lane.purge
    cases (s.laneChoice n).1 <;> simp [LaneState.viewing] <;> split <;> rfl
  · intro c
    rw [hstate, State.evaluate_codes]
    by_cases h : (s.laneChoice n).1 = s.lanes[n].state
    · simp [h]
    · rw [if_neg h, mem_foldl_insertCode]
      cases h2 : (s.laneChoice n).1 <;> rw [h2] at h <;> simp [-Fin.getElem_fin, entryCode, h, or_comm]
  · intro h
    have hw : s.wantedRecord? n = none := by
      cases hw : s.wantedRecord? n with
      | none => rfl
      | some e => exact absurd ((s.wantedRecord?_iff n e).mp hw) (h e)
    refine ⟨by rw [State.evaluate_rentals, hw], ?_⟩
    unfold State.evaluate
    simp only [hw]
  · intro e he
    have hw := (s.wantedRecord?_iff n e).mpr he
    refine ⟨?_, ?_, State.mem_evaluate_sent hw⟩
    · rw [State.evaluate_rentals, hw]; rfl
    · unfold State.evaluate
      simp only [hw]
      exact lanesWhere_nodup _

/-! ## Owners -/

theorem State.auditAll_counters_congr {s t : State} (h : t.counters = s.counters) (es : List AuditEvent) :
    (t.auditAll es).counters = (s.auditAll es).counters := by
  rw [State.auditAll_shape, State.auditAll_shape, h]

theorem LaneState.viewing_iff (x : LaneState) : x.viewing = true ↔ x = .clear ∨ x = .preview ∨ x = .rented := by
  cases x <;> simp [LaneState.viewing]

theorem State.framerTick_spec (s : State) : workDone s .framer s.framerTick [] := by
  refine ⟨rfl, ?_, ?_, ?_⟩
  · intro h
    unfold State.framerTick
    cases hs : s.framer.state <;> simp_all
  · intro h h0
    unfold State.framerTick
    simp [h, h0]
  · intro h h1
    unfold State.framerTick
    rw [h]
    simp only
    rw [if_pos (by omega)]
    unfold State.leaveLocked
    dsimp only
    have hc := State.latch_congr (s := s)
      (t := { s with
        framer.state := .hunt, framer.integrator := 0, framer.silence := 0, framer.sawC6 := false,
        framer.bytes := [], framer.handOn := false, framer.syncLosses := satAdd s.framer.syncLosses 1 })
      .feedLost rfl rfl rfl
    rw [State.latch_shape]
    simp only [hc.1, hc.2.1, hc.2.2]
    rfl

theorem State.laneTick_counters (s : State) (n : Fin 4) :
    (s.laneTick n).counters = (s.auditAll (s.laneSeconds n)).counters := by
  unfold State.laneTick
  rw [State.raiseCodes_shape]
  rfl

theorem State.laneTick_spec (s : State) (n : Fin 4) : workDone s (.laneTick n) (s.laneTick n) [] := by
  refine ⟨rfl, ?_, ?_⟩
  · have hw : s.lanes[n].watch =
        { s.lanes[n] with
          mark := false
          run := if s.lanes[n].mark = true then 0
            else if s.lanes[n].state = .clear ∨ s.lanes[n].state = .preview ∨ s.lanes[n].state = .rented then
              min 5 (s.lanes[n].run + 1)
            else s.lanes[n].run } := by
      unfold Lane.watch
      simp only [← LaneState.viewing_iff]
      by_cases hm : s.lanes[n].mark = true
      · simp only [hm, if_true]
      · have hm' : s.lanes[n].mark = false := by simpa using hm
        generalize s.lanes[n] = l at hm' ⊢
        obtain ⟨⟩ := l
        simp only at hm'
        subst hm'
        simp only [Bool.false_eq_true, if_false]
        split <;> rfl
    conv_lhs => rw [State.laneTick_shape, State.laneTick_counters]
    rw [hw]
  · intro c
    unfold State.laneTick
    rw [State.mem_raiseCodes]
    simp only [State.modLane_codes, State.auditAll_codes, ← LaneState.viewing_iff]
    by_cases hd : s.lanes[n].darkens = true
    · rw [if_pos hd]
      simp only [Lane.darkens, Bool.and_eq_true, Bool.not_eq_true', beq_iff_eq] at hd
      simp [-Fin.getElem_fin, hd, or_comm]
    · rw [if_neg hd]
      simp only [Lane.darkens, Bool.and_eq_true, Bool.not_eq_true', beq_iff_eq] at hd
      constructor
      · intro h; exact Or.inl (by simpa using h)
      · rintro (h | ⟨-, h1, h2, h3⟩)
        · exact Or.inr h
        · exact absurd ⟨⟨h1, h3⟩, h2⟩ hd

/-! ## The meter -/

theorem RentalRec.meter_calls (r : RentalRec) :
    (r.meter.2.previewed = true ↔ r.state = .preview ∧ r.seen = true) ∧
      (r.meter.2.viewed = true ↔ r.state = .active ∧ r.seen = true ∧ r.viewedSec < 172800) ∧
      (r.meter.2.ending = true ↔
        r.state = .preview ∧ r.seen = true ∧ r.previewSec + 1 ≠ r.allowance ∧
          r.allowance - (r.previewSec + 1) ≤ 30 ∧ (30 < r.allowance - r.previewSec ∨ r.previewSec = 0)) ∧
      (r.meter.2.expiring = true ↔ r.state = .active ∧ r.windowLeft = 301) ∧
      (r.meter.2.ended = true ↔
        r.state = .preview ∧ r.seen = true ∧ r.previewSec + 1 = r.allowance ∨
          r.state = .active ∧ r.windowLeft ≤ 1) := by
  unfold RentalRec.meter
  cases hs : r.state with
  | preview =>
    unfold RentalRec.meterPreview
    cases hseen : r.seen <;> simp [and_assoc]
  | active =>
    unfold RentalRec.meterActive
    simp
    omega
  | spent => simp
  | expired => simp
  | void => simp

theorem State.meterEvents_flatMap (s : State) : s.rentals.flatMap RentalRec.meterEvents = s.meterSeconds := by
  unfold State.meterSeconds
  congr 1
  funext r
  obtain ⟨h1, h2, -⟩ := r.meter_calls
  unfold RentalRec.meterEvents
  simp only [h1, h2]

theorem State.mem_meterCodes (s : State) (c : Nat) : c ∈ s.rentals.flatMap s.meterCodes ↔ s.meterRaises c := by
  simp only [List.mem_flatMap, State.meterRaises]
  constructor
  · rintro ⟨r, hr, hc⟩
    obtain ⟨-, -, h3, h4, -⟩ := r.meter_calls
    rcases List.mem_append.mp hc with hc | hc
    · split at hc
      · rename_i he
        obtain ⟨n, hn, rfl⟩ := List.mem_map.mp hc
        simp only [mem_lanesWhere, State.onTitle, Bool.and_eq_true, beq_iff_eq] at hn
        exact Or.inl ⟨n, rfl, hn.2, r, hr, hn.1, h3.mp he⟩
      · simp at hc
    · split at hc
      · rename_i he
        exact Or.inr ⟨by simpa using hc, r, hr, h4.mp he⟩
      · simp at hc
  · rintro (⟨n, rfl, hp, r, hr, ht, he⟩ | ⟨rfl, r, hr, he⟩)
    · obtain ⟨-, -, h3, -⟩ := r.meter_calls
      refine ⟨r, hr, List.mem_append_left _ ?_⟩
      rw [if_pos (h3.mpr he)]
      refine List.mem_map.mpr ⟨n, ?_, rfl⟩
      simp [-Fin.getElem_fin, mem_lanesWhere, State.onTitle, hp, ht]
    · obtain ⟨-, -, -, h4, -⟩ := r.meter_calls
      refine ⟨r, hr, List.mem_append_right _ ?_⟩
      rw [if_pos (h4.mpr he)]
      simp

theorem State.mem_rentalTickCauses (s : State) (n : Fin 4) : n ∈ s.rentalTickCauses ↔ s.meterEnds n := by
  simp only [State.rentalTickCauses, mem_lanesWhere, List.any_eq_true, State.endingTitles, List.mem_map,
    List.mem_filter, State.onTitle, beq_iff_eq, State.meterEnds]
  constructor
  · rintro ⟨x, ⟨r, ⟨hr, he⟩, rfl⟩, ht⟩
    exact ⟨r, hr, ht, r.meter_calls.2.2.2.2.mp he⟩
  · rintro ⟨r, hr, ht, he⟩
    exact ⟨r.title, ⟨r, ⟨hr, r.meter_calls.2.2.2.2.mpr he⟩, rfl⟩, ht⟩

theorem State.rentalTick_metered (s : State) : metered s s.rentalTick := by
  constructor
  · unfold State.rentalTick
    rw [State.raiseCodes_shape, State.auditAll_shape, State.meterEvents_flatMap]
    conv_rhs => rw [State.auditAll_shape]
  · intro c
    unfold State.rentalTick
    rw [State.mem_raiseCodes, State.mem_meterCodes, State.auditAll_codes, or_comm]

/-! ## The countdowns -/

theorem countDown_bind : countDown = fun o : Option Nat => o.bind fun k => if k ≤ 1 then none else some (k - 1) := by
  funext o
  cases o <;> rfl

theorem State.mem_lockTickCauses (s : State) (n : Fin 4) :
    n ∈ s.lockTickCauses ↔ ∃ k, s.lock.leases[n] = some k ∧ k ≤ 1 := by
  simp only [State.lockTickCauses, mem_lanesWhere, State.leaseEnds]
  cases s.lock.leases[n] <;> simp

theorem State.lockTick_countedDown (s : State) : countedDown s s.lockTick := by
  constructor
  · conv_lhs => rw [State.lockTick_shape]
    simp only [countDown_bind]
  · intro c
    unfold State.lockTick
    rw [State.mem_raiseCodes]
    have hany : ((mapEach countDown s.lock.leases).toList.any (· == some 60)) = true ↔
        ∃ n : Fin 4, s.lock.leases[n] = some 61 := by
      rw [List.any_eq_true]
      constructor
      · rintro ⟨x, hx, h60⟩
        obtain ⟨i, hi, rfl⟩ := List.getElem_of_mem hx
        have hi4 : i < 4 := by simpa using hi
        refine ⟨⟨i, hi4⟩, ?_⟩
        have h := mapEach_getElem countDown s.lock.leases ⟨i, hi4⟩
        simp only [Vector.getElem_toList, beq_iff_eq] at h60
        simp only [Fin.getElem_fin] at h ⊢
        rw [h60] at h
        cases hk : s.lock.leases[i] with
        | none => rw [hk] at h; simp [countDown] at h
        | some k =>
          rw [hk] at h
          simp only [countDown] at h
          split at h
          · simp at h
          · simp at h; simp; omega
      · rintro ⟨n, hn⟩
        refine ⟨some 60, ?_, by simp⟩
        have h := mapEach_getElem countDown s.lock.leases n
        rw [hn] at h
        have : (mapEach countDown s.lock.leases).toList[n.val]'(by simp) = some 60 := by
          rw [Vector.getElem_toList]; exact h
        rw [← this]
        exact List.getElem_mem _
    by_cases h : ∃ n : Fin 4, s.lock.leases[n] = some 61
    · rw [if_pos (hany.mpr h)]; simp [-Fin.getElem_fin, h, or_comm]
    · rw [if_neg (fun hh => h (hany.mp hh))]; simp only [h, and_false, or_false, List.not_mem_nil, false_or]

theorem State.panelTick_spec (s : State) : workDone s .panel s.panelTick [] := by
  refine ⟨rfl, ?_, ?_, ?_⟩
  · intro h; unfold State.panelTick; rw [h]
  · intro f h hm; unfold State.panelTick; rw [h]; simp [hm]
  · intro f h hm; unfold State.panelTick; rw [h]; simp [hm]

/-! ## Every piece, and all of them -/

/-- Whatever piece of work is taken does what its rules say. -/
theorem State.perform_workDone (s : State) (t : Task) : workDone s t (s.perform t).1 (s.perform t).2 := by
  cases t with
  | cause n => exact s.evaluate_evaluation n
  | houseTime => exact ⟨rfl, rfl⟩
  | framer => exact s.framerTick_spec
  | laneTick n => exact s.laneTick_spec n
  | rental => exact 
    ⟨s.rentalTick_metered, lanesWhere_nodup fun n => s.endingTitles.any fun t => s.onTitle t n,
      s.mem_rentalTickCauses⟩
  | lock => exact ⟨s.lockTick_countedDown, lanesWhere_nodup s.leaseEnds, s.mem_lockTickCauses⟩
  | counters => exact ⟨rfl, rfl⟩
  | panel => exact s.panelTick_spec

theorem Settled.noteChoice {ts : List Task} {s t : State} (us : List Task) (h : Settled ts (s.noteChoice us) t) :
    Settled ts s t := by
  rw [State.noteChoice_shape] at h
  exact Settled.chosen ts s _ t h

/-- The engine takes every piece of outstanding work. -/
theorem State.settle_settled : ∀ (k : Nat) (ts : List Task) (s : State), s.rentals.length ≤ 16 → s.workLeft ts ≤ k →
    Settled ts s (s.settle k ts)
  | k, [], s, _, _ => by cases k <;> exact Settled.done s
  | 0, t :: ts, s, _, hk => by
    have : 1 ≤ t.weight := by cases t <;> simp [Task.weight]
    simp only [State.workLeft, List.map_cons, List.sum_cons] at hk
    omega
  | k + 1, t :: ts, s, hl, hk => by
    have hi := s.nextTask_lt t ts
    have hn : (s.noteChoice (t :: ts)).rentals = s.rentals := State.noteChoice_rentals _ _
    have hget : (t :: ts).getD (s.nextTask (t :: ts)) t = (t :: ts)[s.nextTask (t :: ts)] := by
      rw [List.getD_eq_getElem?_getD, List.getElem?_eq_getElem hi]; rfl
    have hw := (s.noteChoice (t :: ts)).perform_work ((t :: ts)[s.nextTask (t :: ts)]) (by rw [hn]; exact hl)
    have hmk : (s.noteChoice (t :: ts)).makeable = s.makeable := by unfold State.makeable; rw [hn]
    simp only [State.settle, hget]
    refine Settled.noteChoice (t :: ts)
      (Settled.taken _ _ _ hi _ _ _ (State.perform_workDone _ _) (State.settle_settled k _ _ hw.1 ?_))
    have hsum := sum_eraseIdx ((t :: ts).map Task.weight) (s.nextTask (t :: ts)) (by simpa using hi)
    rw [List.getElem_map] at hsum
    unfold State.workLeft at hk ⊢
    rw [List.map_append, List.sum_append, sum_weight_causes, ← List.eraseIdx_map]
    rw [hmk] at hw
    omega

/-- A second tick takes every owner's work, whatever the order. -/
theorem State.secondTick_settled (s : State) (h : s.rentals.length ≤ 16) :
    Settled tickOwners { s with clock.prescaler := 0 } s.secondTick :=
  State.settle_settled _ _ _ h (State.workLeft_tick { s with clock.prescaler := 0 } h)

/-- Bringing causes to some lanes, one each, to an end is sending causes to exactly those lanes. -/
theorem causesSent_settle (k : Nat) (u : State) (ls : List (Fin 4)) (reached : Fin 4 → Prop) (hnd : ls.Nodup)
    (h : u.rentals.length ≤ 16) (hk : u.workLeft (ls.map Task.cause) ≤ k) (hr : ∀ n, reached n ↔ n ∈ ls) :
    causesSent u reached (u.settle k (ls.map Task.cause)) := by
  refine ⟨⟨ls, hnd, fun n => (hr n).symm, State.settle_settled _ _ _ h hk⟩, State.settle_causedFrom _ _ _, ?_, ?_⟩
  · exact fun n hn => State.settle_right _ _ _ n h hk (.inr (List.mem_map.mpr ⟨n, (hr n).mp hn, rfl⟩))
  · intro hn
    rw [List.eq_nil_iff_forall_not_mem.mpr fun n hm => hn n ((hr n).mpr hm)]
    cases k <;> rfl

theorem causesSent_deliver (u : State) (ls : List (Fin 4)) (reached : Fin 4 → Prop) (hnd : ls.Nodup)
    (h : u.rentals.length ≤ 16) (hr : ∀ n, reached n ↔ n ∈ ls) : causesSent u reached (u.deliver ls) :=
  causesSent_settle _ u ls reached hnd h (u.workLeft_causes ls h (by simpa using hnd.length_le_card)) hr

theorem causesSent_causeWhere (u : State) (p : Fin 4 → Bool) (reached : Fin 4 → Prop)
    (h : u.rentals.length ≤ 16) (hr : ∀ n, reached n ↔ p n = true) : causesSent u reached (u.causeWhere p) :=
  causesSent_deliver u (lanesWhere p) reached (lanesWhere_nodup p) h fun n => by rw [hr, mem_lanesWhere]

/-- One owner's tick work, and the causes it sends, brought to an end. -/
theorem State.settle_one (s : State) (o : Task) (ho : o.isCause = false) (h : s.rentals.length ≤ 16) :
    causesSent (s.perform o).1 (fun n => n ∈ (s.perform o).2) (s.settle settleBound [o]) := by
  have hnd : (s.perform o).2.Nodup := by
    cases o with
    | cause n => simp [Task.isCause] at ho
    | rental => exact (s.perform_workDone .rental).2.1
    | lock => exact (s.perform_workDone .lock).2.1
    | houseTime | framer | laneTick | counters | panel => exact List.nodup_nil
  have hlen : (s.perform o).2.length ≤ 4 := by simpa using hnd.length_le_card
  have hl := (s.perform_work o h).1
  have hm := State.makeable_le _ hl
  have hnote : s.noteChoice [o] = s := by simp [State.noteChoice, State.racing]
  have hnext : s.nextTask [o] = 0 := by simp [State.nextTask, State.racing]
  have he : s.settle settleBound [o] = (s.perform o).1.settle 255 ((s.perform o).2.map Task.cause) := by
    show s.settle (255 + 1) [o] = _
    simp only [State.settle, hnote, hnext, List.getD_cons_zero, List.eraseIdx_cons_zero, List.nil_append]
  rw [he]
  refine causesSent_settle _ _ _ _ hnd hl ?_ fun n => Iff.rfl
  unfold State.workLeft
  rw [sum_weight_causes]
  omega

end Sys2Proof.Machine
end

