-- ==== Sys2Proof/Tests/Slice0.lean ====
section
/-! SUPPORT. Small tests of one step each. The expected values are the spec's own: its tables, worked figures and
worked sequences, named in each docstring. Then, for each statement with hypotheses, a witness that meets them. -/

namespace Sys2Proof.Tests

open Sys2Proof Sys2Proof.Machine

/-- The state a command leaves. -/
def after (s : State) (c : Instr) : State :=
  match exec c s with
  | .next t => t
  | _ => s

/-- What holds of the value of an option holds of every value it is said to have. -/
theorem forall_of_all {α : Type} {P : α → Prop} [DecidablePred P] {o : Option α}
    (h : o.all (fun a => decide (P a)) = true) : ∀ r, o = some r → P r := by
  intro r hr; subst hr; simpa using h

/-! ## The suite of the worked sequences of chapters 1 to 11 -/

def part (tag : Nat) (role : Role) : Component := { tag := tag, role := role, expect := none, discs := 0 }

/-- Service 204: FREE, family 9, rating 2 (section 3.8). -/
def free204 : ServiceRec :=
  { number := 204, kind := .free, family := some 9, rating := 2, title := none
    components := [part 1410 .picture, part 1411 .sound] }

/-- Service 311: PAY, rating 3, no family (section 2.8). -/
def pay311 (title : Option Nat) : ServiceRec :=
  { number := 311, kind := .pay, family := none, rating := 3, title := title
    components := [part 512 .picture, part 514 .sound] }

/-- The directory the two services give. -/
def banks : Vector (List DirEntry) 4 :=
  #v[[⟨514, 311, .sound⟩, ⟨1411, 204, .sound⟩], [], [⟨512, 311, .picture⟩], [⟨1410, 204, .picture⟩]]

/-- Title 7140 (section 5.8). -/
def film : CatalogEntry :=
  { title := 7140, rating := 5, basePrice := 1495, window := 7200, preview := 120, grace := 300, billAlias := 9001 }

/-- The live set of Table 6-4. -/
def table64 : TariffSet :=
  { preOffset := 0, scale := 230, postOffset := 100, lowCompare := 500, lowSet := 500, highCompare := 2500, highSet := 2500 }

def lane (state : LaneState) (service title : Option Nat) : Lane :=
  { Lane.cold with state := state, service := service, title := title }

/-- The room of section 5.8 before its first step: lanes 0 and 1 CLEAR on service 311 with nothing on air. -/
def suite : State :=
  { State.reset with
    services := [free204, pay311 none], directory := banks
    lanes := #v[lane .clear (some 311) none, lane .clear (some 311) none, lane .clear (some 204) none,
                lane .idle none none]
    catalog := [film], live := .replicate 4 table64, staged := .replicate 4 table64
    room := { Room.cold with state := .occupied, stay := 41, cls := 1, ceiling := 5000 }
    nextSerial := 57
    lock := { LockUnit.cold with
      policy.laneCeilings := #v[7, 4, 7, 7], roomCeiling := 6, pin := some ⟨2, 4, 6, 8⟩
      leases := #v[none, some 200, none, none] }
    alerts := .replicate 6 .clear, reports := [], restartOwed := false }

def record (state : RentalState) : RentalRec := { RentalRec.fresh film with state := state }

/-- The record as its purchase left it, with a number of viewed seconds. -/
def bought (viewed windowLeft : Nat) : RentalRec :=
  { record .active with
    previewSec := 95, viewedSec := viewed, windowLeft := windowLeft, amount := some 1443, serial := some 57 }

/-- The suite with title 7140 on air, lanes 0 and 1 in `state`, and its record. -/
def onAir (state : LaneState) (records : List RentalRec) : State :=
  { suite with
    services := [free204, pay311 (some 7140)], rentals := records
    lanes := #v[lane state (some 311) (some 7140), lane state (some 311) (some 7140), lane .clear (some 204) none,
                lane .idle none none] }

/-! ## WellFormed refuses what no field can carry (R183) -/

theorem test_wf_pick : (Instr.pick 3 (some 999)).wf = true ∧ (Instr.pick 256 none).wf = false ∧
    (Instr.pick 0 (some 65536)).wf = false := by decide

theorem test_wf_titles : (Instr.previewSpent 65536).wf = false ∧ (Instr.rentalExpiry 65536).wf = false ∧
    (Instr.refund 65536).wf = false ∧ (Instr.askTitle 65536).wf = false ∧ (Instr.titleDrop 65536).wf = false := by decide

theorem test_wf_lanes : (Instr.relock 256).wf = false ∧ (Instr.askLane 256).wf = false ∧
    (Instr.unlock 256 none).wf = false ∧ (Instr.unlock 0 (some ⟨256, 0, 0, 0⟩)).wf = false ∧
    (Instr.buy 256 1 none).wf = false ∧ (Instr.buy 0 65536 none).wf = false ∧
    (Instr.buy 0 1 (some ⟨0, 0, 0, 256⟩)).wf = false ∧ (Instr.buy 0 1 (some ⟨255, 0, 0, 255⟩)).wf = true := by decide

theorem test_wf_small_messages : (Instr.svcDrop 65536).wf = false ∧ (Instr.onAir 65536 none).wf = false ∧
    (Instr.onAir 1 (some 65536)).wf = false ∧ (Instr.keyWipe 256).wf = false ∧ (Instr.stayClose 65536).wf = false ∧
    (Instr.chargeAck 16777216).wf = false ∧ (Instr.timeMark 4294967296).wf = false ∧ (Instr.feedSet 256).wf = false ∧
    (Instr.attnAck 256).wf = false ∧ (Instr.attnFloor 256).wf = false ∧
    (Instr.groupSet #v[0, 0, 0, 65536]).wf = false ∧ (Instr.alertClear #v[0, 0, 0, 0, 0, 256]).wf = false := by decide

def svcBody : SvcPutBody :=
  { service := 311, kind := 1, family := none, rating := 3, title := some 7140, components := [⟨512, 0⟩, ⟨514, 1⟩] }

theorem test_wf_svc_put : (Instr.svcPut svcBody).wf = true ∧
    (Instr.svcPut { svcBody with service := 65536 }).wf = false ∧ (Instr.svcPut { svcBody with kind := 256 }).wf = false ∧
    (Instr.svcPut { svcBody with family := some 256 }).wf = false ∧
    (Instr.svcPut { svcBody with rating := 256 }).wf = false ∧
    (Instr.svcPut { svcBody with title := some 65536 }).wf = false ∧
    (Instr.svcPut { svcBody with components := [⟨65536, 0⟩] }).wf = false ∧
    (Instr.svcPut { svcBody with components := [⟨0, 256⟩] }).wf = false := by decide

theorem test_wf_svc_put_list : (Instr.svcPut { svcBody with components := List.replicate 256 ⟨0, 0⟩ }).wf = false := by
  decide +kernel

def keyBody (family parity : Nat) (check : Byte) : KeyPutBody :=
  { family := family, parity := parity, key := #v[0x12, 0x34, 0x56, 0x78, 0x9A, 0xBC, 0xDE, 0xF0], check := check }

theorem test_wf_key_put : (Instr.keyPut (keyBody 255 255 0)).wf = true ∧ (Instr.keyPut (keyBody 256 0 0)).wf = false ∧
    (Instr.keyPut (keyBody 0 256 0)).wf = false := by decide

def titleBody : TitlePutBody :=
  { title := 7140, rating := 5, basePrice := 1495, window := 7200, preview := 120, grace := 300, billAlias := 9001 }

theorem test_wf_title_put : (Instr.titlePut titleBody).wf = true ∧
    (Instr.titlePut { titleBody with title := 65536 }).wf = false ∧
    (Instr.titlePut { titleBody with rating := 256 }).wf = false ∧
    (Instr.titlePut { titleBody with basePrice := 65536 }).wf = false ∧
    (Instr.titlePut { titleBody with window := 16777216 }).wf = false ∧
    (Instr.titlePut { titleBody with preview := 65536 }).wf = false ∧
    (Instr.titlePut { titleBody with grace := 65536 }).wf = false ∧
    (Instr.titlePut { titleBody with billAlias := 65536 }).wf = false := by decide

def tariffBody (pre : Int) (scale : Nat) : TariffPutBody :=
  { cls := 1, preOffset := pre, scale := scale, postOffset := 0, lowCompare := 500, lowSet := 500, highCompare := 2500,
    highSet := 2500 }

theorem test_wf_tariff_put : (Instr.tariffPut (tariffBody (-32768) 65535)).wf = true ∧
    (Instr.tariffPut (tariffBody (-32769) 0)).wf = false ∧ (Instr.tariffPut (tariffBody 32768 0)).wf = false ∧
    (Instr.tariffPut (tariffBody 0 65536)).wf = false ∧
    (Instr.tariffPut { tariffBody 0 0 with cls := 256 }).wf = false ∧
    (Instr.tariffPut { tariffBody 0 0 with postOffset := 32768 }).wf = false ∧
    (Instr.tariffPut { tariffBody 0 0 with lowCompare := 65536 }).wf = false ∧
    (Instr.tariffPut { tariffBody 0 0 with lowSet := 65536 }).wf = false ∧
    (Instr.tariffPut { tariffBody 0 0 with highCompare := 65536 }).wf = false ∧
    (Instr.tariffPut { tariffBody 0 0 with highSet := 65536 }).wf = false := by decide

def stayBody (stay : Nat) : StayOpenBody :=
  { stay := stay, cls := 1, ceiling := 5000, pin := some ⟨2, 4, 6, 8⟩, roomCeiling := 6, purchasePin := 0 }

theorem test_wf_stay_open : (Instr.stayOpen (stayBody 42)).wf = true ∧ (Instr.stayOpen (stayBody 65536)).wf = false ∧
    (Instr.stayOpen { stayBody 42 with cls := 256 }).wf = false ∧
    (Instr.stayOpen { stayBody 42 with ceiling := 16777216 }).wf = false ∧
    (Instr.stayOpen { stayBody 42 with pin := some ⟨0, 256, 0, 0⟩ }).wf = false ∧
    (Instr.stayOpen { stayBody 42 with roomCeiling := 256 }).wf = false ∧
    (Instr.stayOpen { stayBody 42 with purchasePin := 256 }).wf = false := by decide

def lockBody (house : Nat) : LockSetBody :=
  { houseLimit := house, defaultCeiling := 4, laneCeilings := #v[7, 4, 7, 7], barred := .replicate 4 0,
    leaseLength := 14400, discreet := 6 }

theorem test_wf_lock_set : (Instr.lockSet (lockBody 255)).wf = true ∧ (Instr.lockSet (lockBody 256)).wf = false ∧
    (Instr.lockSet { lockBody 7 with defaultCeiling := 256 }).wf = false ∧
    (Instr.lockSet { lockBody 7 with laneCeilings := #v[7, 7, 7, 256] }).wf = false ∧
    (Instr.lockSet { lockBody 7 with barred := #v[256, 0, 0, 0] }).wf = false ∧
    (Instr.lockSet { lockBody 7 with leaseLength := 65536 }).wf = false ∧
    (Instr.lockSet { lockBody 7 with discreet := 256 }).wf = false := by decide

/-- Counter 0 of section 9.5: OCCUPANCY over the viewing states, RISE(2). -/
def countBody : CountSetBody :=
  { counter := 0, kind := 9, filter := .none
    occupancy := some { states := #v[0, 0, 1, 1, 1, 0, 0], mode := 2, threshold := 2 } }

theorem test_wf_count_set : (Instr.countSet countBody).wf = true ∧
    (Instr.countSet { countBody with counter := 256 }).wf = false ∧
    (Instr.countSet { countBody with kind := 256 }).wf = false ∧
    (Instr.countSet { countBody with filter := .service 65536 }).wf = false ∧
    (Instr.countSet { countBody with filter := .lanes #v[0, 0, 0, 256] }).wf = false ∧
    (Instr.countSet { countBody with filter := .ratingAtLeast 256 }).wf = false ∧
    (Instr.countSet { countBody with occupancy := some ⟨#v[0, 0, 0, 0, 0, 0, 256], 0, 1⟩ }).wf = false ∧
    (Instr.countSet { countBody with occupancy := some ⟨.replicate 7 0, 256, 1⟩ }).wf = false ∧
    (Instr.countSet { countBody with occupancy := some ⟨.replicate 7 0, 0, 256⟩ }).wf = false := by decide

/-- The table gives no row any bits, so no word spells a command, and the queue stays as it is. -/
theorem test_no_word_is_a_command : decodeTableWord 8 0 = none ∧ State.reset.withFetchWord 8 0 = State.reset := by
  exact ⟨rfl, rfl⟩

/-! ## The worked figures -/

/-- R162's check value: the CRC-16 of the ASCII digits 1 to 9 is 29B1h. -/
theorem test_crc_check_value : crc16 [0x31, 0x32, 0x33, 0x34, 0x35, 0x36, 0x37, 0x38, 0x39] = 0x29B1 := by decide +kernel

/-- Table 2-3, the fold bank of twelve tags. -/
theorem test_fold_examples :
    [0, 1, 16, 17, 256, 512, 513, 514, 528, 547, 1410, 4095].map foldBank = [0, 1, 1, 2, 1, 2, 3, 0, 3, 3, 3, 1] := by decide

def keyA : Key := { bytes := #v[0x12, 0x34, 0x56, 0x78, 0x9A, 0xBC, 0xDE, 0xF0], check := 0x5A }

/-- Table 3-3, the keystream for the worked key with s = 3, and the byte given for s = 4. -/
theorem test_keystream : [0, 1, 2, 3, 4, 5, 6, 7, 8, 89].map (keystreamByte keyA 3) =
      [0xD7, 0x42, 0xAD, 0x18, 0x83, 0xEE, 0x59, 0xB4, 0x1F, 0x5A] ∧ keystreamByte keyA 4 0 = 0x6E := by decide +kernel

/-- The cell of section 1.8 with the payload given. -/
def cell (mark : Mark) (payload : List Byte) : Cell :=
  { kind := .media, mark := mark, seq := 6, tag := 1410, carry := 3, payload := payload }

/-- R184: the bytes 2 to 4 and the header check of that cell as it came, deciphered, and of its fill cell. -/
theorem test_header_bytes :
    (cell (.scrambled .odd) []).toBytes = [0xC6, 0x39, 0x26, 0x58, 0x23, 0x5D] ∧
    ((cell .clear []).toBytes.getD 2 0, (cell .clear []).toBytes.getD 5 0) = (0x06, 0x7D) ∧
    ((cell .clear []).fillFor.toBytes.getD 2 0, (cell .clear []).fillFor.toBytes.getD 5 0) = (0x86, 0xFD) := by decide

/-- Cases 1 to 3 of section 6.7, and the price of section 6.8 in the new stay. -/
theorem test_tariff_cases : table64.charge 1495 = 1443 ∧ { table64 with scale := 256 }.charge 2995 = 2500 ∧
    { table64 with preOffset := -500 }.charge 300 = 500 ∧
    { table64 with preOffset := -95, scale := 256, postOffset := 0 }.charge 1495 = 1400 := by decide +kernel

/-! ## The feed (sections 1.6 to 1.8, 3.8 and 2.9) -/

def confirming (integrator : Nat) : Framer :=
  { Framer.cold with state := .confirm, integrator := integrator, bytes := [0xC6] }

/-- Table 1-3 step 4: the good boundary that brings the integrator to 4 locks, and its cell is the first taken. -/
theorem test_feed_byte_locks : (after { State.reset with framer := confirming 3 } (.feedByte 0x39)).framer =
    { Framer.cold with state := .locked, integrator := 4, bytes := [0xC6, 0x39], handOn := true, taken := 1 } := by decide

/-- Table 1-3 step 9: with the integrator at 1 a bad boundary loses lock, latches FEED_LOST, queues an ALERT-RPT,
raises code 1, and scanning resumes at the second byte. -/
theorem test_feed_byte_loses_lock :
    let t := after { suite with framer := { Framer.cold with
      state := .locked, integrator := 1, threshold := 2, bytes := [0x00], taken := 3, syncBad := 1 } } (.feedByte 0xC6)
    t.framer = { Framer.cold with threshold := 2, taken := 3, syncBad := 2, syncLosses := 1, sawC6 := true } ∧
      t.alert .feedLost = .latched ∧ t.reports.length = 1 ∧ t.codes = [1] ∧ t.attentionLine = true := by decide

/-- Section 1.8 with lane 0 LOCKED and lane 2 CLEAR on service 204: the deciphered cell and the fill cell. -/
theorem test_media_cell_on_the_path :
    let c := cell (.scrambled .odd) (decipher keyA 6 0 (0x5A :: List.replicate 89 0x11))
    let s := { suite with
      framer := { Framer.cold with state := .locked, integrator := 4, bytes := c.toBytes.take 95, handOn := true }
      keys := suite.keys.set 9 { KeyFamily.cold with odd := ⟨some keyA, none⟩ }
      lanes := suite.lanes.set 0 (lane .locked (some 204) none) }
    let t := after s (.feedByte 0xAA)
    t.lanes[(2 : Fin 4)].queue.map (fun x => (x.mark, x.seq, x.tag, x.carry, x.payload.take 3)) =
        [(.clear, 6, 1410, 3, [0x5A, 0x11, 0x11])] ∧ t.lanes[(2 : Fin 4)].mark = true ∧
      t.lanes[(0 : Fin 4)].queue = [(cell .clear []).fillFor] ∧ t.lanes[(0 : Fin 4)].mark = false ∧
      t.keys[(9 : Fin 32)].parity = some .odd := by decide

/-- Table 1-4 step 5, by the row of the event: the second silent tick. -/
theorem test_feed_silence :
    (after { suite with framer := { Framer.cold with
      state := .locked, integrator := 2, threshold := 2, silence := 1, bytes := [0xC6], taken := 501, syncLosses := 1 } }
      .feedSilence).framer = { Framer.cold with threshold := 2, taken := 501, syncLosses := 2 } := by decide

/-- Table 2-4: the expectation and the count of tag 512 after the cells 11, 12, 13, 15, 15, 0. -/
theorem test_continuity :
    ([11, 12, 13, 15, 15, 0].foldl (fun (k : List Component) n => k ++ [(k.getLastD (part 512 .picture)).arrive n]) []).map
      (fun k => (k.expect, k.discs)) = [(some 12, 0), (some 13, 0), (some 14, 0), (some 0, 1), (some 0, 2), (some 1, 2)] := by
  decide

/-! ## Keys (Table 3-4) -/

def family (parity : Option Parity) (live staged : Option Key) : State :=
  { suite with keys := suite.keys.set 9 { KeyFamily.cold with parity := parity, even := ⟨live, staged⟩ } }

/-- Steps 1 and 5: a load of an idle slot goes live, and one of the slot in use replaces the staged key. -/
theorem test_key_put :
    (after (family none none none) (.keyPut (keyBody 9 0 0x5A))).keys[(9 : Fin 32)].even = ⟨some keyA, none⟩ ∧
    (after (family (some .even) (some keyA) (some keyA)) (.keyPut (keyBody 9 0 0x3C))).keys[(9 : Fin 32)].even =
      ⟨some keyA, some { keyA with check := 0x3C }⟩ := by decide

/-- Step 7: the turn to ODD promotes the staged key of the EVEN slot. -/
theorem test_parity_turn : ({ KeyFamily.cold with parity := some .even, even := ⟨none, some keyA⟩ } : KeyFamily).parityStep .odd =
    { KeyFamily.cold with parity := some .odd, even := ⟨some keyA, none⟩ } := by decide

/-- Step 0, and R40: the key-miss count stays. -/
theorem test_key_wipe :
    (after { suite with keys := .replicate 32 { KeyFamily.cold with parity := some .odd, keyMisses := 3 } }
      (.keyWipe 31)).keys[(31 : Fin 32)] = { KeyFamily.cold with keyMisses := 3 } := by decide

/-! ## Services (sections 2.8 and 2.9) -/

def fullBank : State := { suite with directory := banks.set 0 (List.replicate 16 ⟨2000, 1, .data⟩) }

/-- A tag held by another service refuses the load (section 2.8 step 3), and so does a 17th entry of a bank (step 1). -/
theorem test_svc_put_refused :
    after suite (.svcPut { svcBody with service := 120, title := none }) = { suite with counts.refused := 1 } ∧
    after fullBank (.svcPut { svcBody with components := [⟨528, 0⟩, ⟨0, 1⟩] }) =
      { fullBank with counts.refused := 1 } := by decide

/-- Section 2.9 step 6 in little: a taken load with a title on air brings the lanes that select it out of CLEAR. -/
theorem test_svc_put_taken :
    let t := after suite (.svcPut { svcBody with components := [⟨512, 0⟩, ⟨528, 1⟩] })
    t.directory = #v[[⟨1411, 204, .sound⟩], [], [⟨512, 311, .picture⟩], [⟨528, 311, .sound⟩, ⟨1410, 204, .picture⟩]] ∧
      t.counts.taken = 1 ∧ t.lanes[(1 : Fin 4)].state = .preview ∧ t.rentals = [record .preview] := by decide

/-- Section 2.9 step 4: the lanes keep their selection and enter ABSENT, and the records stay. -/
theorem test_svc_drop :
    let t := after (onAir .offer [record .spent]) (.svcDrop 311)
    t.services = [free204] ∧ t.directory = #v[[⟨1411, 204, .sound⟩], [], [], [⟨1410, 204, .picture⟩]] ∧
      t.lanes[(1 : Fin 4)] = lane .absent (some 311) none ∧ t.rentals = [record .spent] := by decide

/-- Section 5.8 step 1, and section 2.9 step 3: ON-AIR of a FREE service is refused. -/
theorem test_on_air :
    after suite (.onAir 311 (some 7140)) = { onAir .preview [record .preview] with counts.taken := 1 } ∧
    after suite (.onAir 204 (some 7140)) = { suite with counts.refused := 1 } := by decide

/-! ## Lanes (sections 4.9 and 4.10) -/

def media (tag seq : Nat) : Cell := { kind := .media, mark := .clear, seq := seq, tag := tag, carry := 0, payload := [] }

/-- Table 4-5 step 1: three cells purged, OFFER entered with code 10, and the reply of PICK. -/
theorem test_pick :
    let s := { onAir .locked [record .spent] with
      lanes := suite.lanes.set 2 { lane .clear (some 204) none with queue := [media 1410 7, media 1411 7, media 1410 8], mark := true } }
    let t := after s (.pick 2 (some 311))
    t.lanes[(2 : Fin 4)] = { lane .offer (some 311) (some 7140) with mark := true, purged := 3 } ∧ t.codes = [10] ∧
      t.sending = some { kind := 1, earlierLost := false, restarted := false, result := .done,
                         fields := [5, 1, 0x01, 0x37, 1, 0x1B, 0xE4] } := by decide

/-- Table 4-5 step 3: the fill cell begins when ready is asserted, and is counted when it completes. -/
theorem test_screen_port :
    let f := (media 512 4).fillFor
    let s := { suite with lanes := suite.lanes.set 2 { lane .offer (some 311) (some 7140) with queue := [f, media 514 4] } }
    (after s (.screenPortBegin 2 true)).lanes[(2 : Fin 4)] =
        { lane .offer (some 311) (some 7140) with queue := [media 514 4], sending := some f } ∧
      (after (after s (.screenPortBegin 2 true)) (.cellSent 2)).lanes[(2 : Fin 4)] =
        { lane .offer (some 311) (some 7140) with queue := [media 514 4], fillSent := 1 } ∧
      (after s (.screenPortBegin 2 false)).lanes = s.lanes := by decide

/-- Section 4.10: ASK-LANE gives the latch set once, and overruns 2. -/
theorem test_ask_lane :
    let s := { suite with lanes := suite.lanes.set 1 { lane .clear (some 204) none with
      latch := true, overruns := 2, queue := List.replicate 8 (media 1410 0) } }
    (after s (.askLane 1)).lanes[(1 : Fin 4)].latch = false ∧
      (after s (.askLane 1)).sending.map Reply.fields =
        some [2, 1, 0x00, 0xCC, 0, 7, 1, 0, 200, 8, 0, 1, 0, 0, 0, 0, 0, 2, 0, 0, 0, 0] := by decide

/-- Table 4-6 tick 6: the fifth dark tick of lane 1 raises code 13, and tick 7 raises nothing more. -/
theorem test_no_picture :
    let s := { suite with lanes := suite.lanes.set 1 { lane .clear (some 204) none with run := 4 } }
    (after s (.noPicture 1)).codes = [13] ∧ (after s (.noPicture 1)).lanes[(1 : Fin 4)].run = 5 ∧
      after (after s (.noPicture 1)) (.noPicture 1) = after s (.noPicture 1) := by decide

/-! ## Rentals (section 5.8) and the tariff (sections 6.7 and 6.8) -/

/-- A catalog entry's quantities are clamped and not refused (R76); title 0 is refused. -/
theorem test_title_put :
    (after suite (.titlePut { titleBody with title := 1, basePrice := 65535, window := 0, preview := 900, grace := 901 })).catalog =
      [{ title := 1, rating := 5, basePrice := 60000, window := 600, preview := 600, grace := 900, billAlias := 9001 }, film] ∧
    after suite (.titlePut { titleBody with title := 0 }) = { suite with counts.refused := 1 } := by decide

/-- R77: the entry goes, and the record keeps its copies. -/
theorem test_title_drop :
    let t := after (onAir .preview [record .preview]) (.titleDrop 7140)
    t.catalog = [] ∧ t.rentals = [record .preview] ∧ t.counts.taken = 1 := by decide

/-- Step 4: BUY(0, 7140) with 95 preview seconds, as the section lists it. -/
theorem test_buy :
    let t := after (onAir .preview [{ record .preview with previewSec := 95 }]) (.buy 0 7140 none)
    t.rentals = [bought 0 7200] ∧ t.nextSerial = 58 ∧ t.room.spend = 1443 ∧
      t.charges = [{ serial := 57, kind := .charge, stay := 41, title := 7140, billAlias := 9001, discreet := false,
                     amount := 1443, stamp := none, reversed := none }] ∧
      t.lanes[(0 : Fin 4)].state = .rented ∧ t.lanes[(1 : Fin 4)].state = .rented ∧ t.codes = [] ∧
      t.sending.map Reply.fields = some [0x05, 0xA3, 0, 0, 57, 0, 0x1C, 0x20] := by decide

/-- Case 4 of section 6.7: CEILING with the amount and the spend, and the alert. -/
theorem test_buy_ceiling :
    let t := after { onAir .preview [record .preview] with room.spend := 3600 } (.buy 0 7140 none)
    t.sending.map (fun r => (r.result, r.fields)) = some (.ceiling, [0x05, 0xA3, 0x00, 0x0E, 0x10]) ∧
      t.alert .spendCeiling = .latched ∧ t.rentals = [record .preview] ∧ t.room.spend = 3600 ∧ t.charges = [] := by decide

/-- Step 8, and step 10: a second refund is answered REFUNDED_BEFORE. -/
theorem test_refund :
    let t := after { onAir .rented [bought 125 7075] with room.spend := 1443, nextSerial := 58 } (.refund 7140)
    t.rentals = [{ bought 125 0 with state := .void, refunded := true }] ∧ t.nextSerial = 59 ∧ t.room.spend = 0 ∧
      t.charges.map (fun c => (c.serial, c.kind, c.amount, c.reversed)) = [(58, .credit, 1443, some 57)] ∧
      t.lanes[(0 : Fin 4)].state = .offer ∧ t.codes = [8, 9] ∧
      (after { onAir .rented [{ bought 0 7200 with refunded := true }] with nextSerial := 60 } (.refund 7140)).sending.map
        Reply.result = some .refundedBefore := by decide

/-- Step 2: the 90th preview second warns both lanes with codes 16 and 17, and the lease falls by 1. -/
theorem test_second_tick_preview_ending :
    let t := after (onAir .preview [{ record .preview with previewSec := 89, seen := true }]) .secondTick
    t.rentals = [{ record .preview with previewSec := 90 }] ∧ t.codes = [16, 17] ∧
      t.lock.leases[(1 : Fin 4)] = some 199 := by decide

/-- R86: the tick that brings the preview seconds to the allowance spends the preview, and the lanes leave PREVIEW. -/
theorem test_preview_spent :
    let t := after (onAir .preview [{ record .preview with previewSec := 119, seen := true }]) (.previewSpent 7140)
    t.rentals = [{ record .spent with previewSec := 120 }] ∧ t.lanes[(0 : Fin 4)].state = .offer ∧ t.codes = [8, 9] := by
  decide

/-- R87: the tick that brings the window to 0 expires the record, and the lanes leave RENTED. -/
theorem test_rental_expiry :
    let t := after (onAir .rented [bought 0 1]) (.rentalExpiry 7140)
    t.rentals = [{ bought 0 0 with state := .expired }] ∧ t.lanes[(1 : Fin 4)].state = .offer := by decide

/-- R97 and step 0 of Table 6-9: the price now of title 7140 is 1,443, and it has no record. -/
theorem test_ask_title :
    (after suite (.askTitle 7140)).sending.map Reply.fields =
      some [1, 5, 0x05, 0xD7, 0, 0x1C, 0x20, 0, 120, 0x01, 0x2C, 0x23, 0x29, 0x05, 0xA3, 0] := by decide

/-- R129 at the start of section 5.8: OCCUPIED, stay 41, class 1, spend 0, ceiling 5,000, no lockout, HUNT. -/
theorem test_ask_room :
    (after suite .askRoom).sending.map Reply.fields =
      some [1, 0, 41, 1, 0, 0, 0, 0, 0x13, 0x88, 0, 6, 1, 0, 0, 0, 0] := by decide

/-- Table 6-9 step 1: the scale is clamped to 1,023, and the live set stays. -/
theorem test_tariff_put :
    let t := after suite (.tariffPut (tariffBody (-95) 2000))
    t.staged[(1 : Fin 4)] = { table64 with preOffset := -95, scale := 1023, postOffset := 0 } ∧
      t.live = suite.live ∧ t.staged[(0 : Fin 4)] = table64 := by decide

/-! ## Stays and charges (sections 6.8 and 7.9) -/

def charge (serial : Nat) : ChargeRec :=
  { serial := serial, kind := .charge, stay := 41, title := 7140, billAlias := 9001, discreet := false, amount := 1443,
    stamp := none, reversed := none }

/-- Table 7-5 step 5: the stay in the room is closed and stay 42 opened in one, ROOM_CHANGED raised once. -/
theorem test_stay_open :
    let t := after { onAir .rented [bought 0 7200] with
      charges := [charge 59], room.spend := 1443, staged := .replicate 4 .identity } (.stayOpen (stayBody 42))
    t.room = { suite.room with stay := 42 } ∧ t.rentals = [record .preview] ∧ t.live[(1 : Fin 4)] = .identity ∧
      t.charges = [charge 59] ∧ t.lock.leases[(1 : Fin 4)] = none ∧ 2 ∈ t.codes ∧
      t.lanes[(1 : Fin 4)].state = .locked := by decide

/-- Table 7-5 step 6: a late STAY-CLOSE is ignored and counted stale; and Table 6-9 step 4, the stay's own. -/
theorem test_stay_close :
    after suite (.stayClose 40) = { suite with counts.taken := 1, room.staleStays := 1 } ∧
    (after (onAir .rented [bought 0 7200]) (.stayClose 41)).room.state = .vacant ∧
    (after (onAir .rented [bought 0 7200]) (.stayClose 41)).lock.pin = none ∧
    (after (onAir .rented [bought 0 7200]) (.stayClose 41)).lanes[(0 : Fin 4)].state = .locked := by decide

/-- Section 7.9 step 1 in little: list length, next serial, and a discreet record under its alias. -/
theorem test_charge_poll :
    (after { suite with
      charges := [{ charge 56 with stay := 40, title := 7707, billAlias := 9100, discreet := true, amount := 2000 }] }
      .chargePoll).reports.map Report.body =
    [some [1, 0, 0, 0, 57, 1, 0, 0, 56, 0, 0, 40, 0, 0, 1, 0x23, 0x8C, 0x07, 0xD0, 0, 0]] := by decide

/-- Table 7-5 steps 3 and 4: CHARGE-ACK(58) leaves serial 59 alone, and its repeat removes nothing. -/
theorem test_charge_ack :
    let s := { suite with charges := [charge 55, charge 56, charge 57, charge 58, charge 59] }
    (after s (.chargeAck 58)).charges = [charge 59] ∧
      (after (after s (.chargeAck 58)) (.chargeAck 58)).charges = [charge 59] := by decide

/-! ## The lock unit (sections 8.10 and 8.11) -/

/-- Lane 1 LOCKED on the rented title 7140, lane 3 barred (section 8.10). -/
def lockedOut (attempts : Nat) (lockout : Option Nat) : State :=
  { onAir .locked [bought 0 15400] with
    lock := { suite.lock with
      policy.barred := #v[false, false, false, true], leases := .replicate 4 none, attempts := attempts, lockout := lockout } }

/-- Table 8-2 steps 1, 4 and 5: BARRED, the third failure, LOCKED_OUT. -/
theorem test_unlock_turned_away :
    (after (lockedOut 0 none) (.unlock 3 (some ⟨2, 4, 6, 8⟩))).sending.map Reply.result = some .barred ∧
    (let t := after (lockedOut 2 none) (.unlock 1 (some ⟨2, 4, 8, 6⟩));
      t.sending.map Reply.result = some .badPin ∧ t.lock.attempts = 0 ∧ t.lock.lockout = some 900 ∧ t.codes = [3] ∧
        t.alert .pinLockout = .latched) ∧
    (after (lockedOut 0 (some 900)) (.unlock 1 (some ⟨2, 4, 6, 8⟩))).sending.map Reply.result = some .lockedOut := by decide

/-- Step 8: DONE with RENTED and 14,400. -/
theorem test_unlock :
    let t := after (lockedOut 0 none) (.unlock 1 (some ⟨2, 4, 6, 8⟩))
    t.lock.leases[(1 : Fin 4)] = some 14400 ∧ t.lanes[(1 : Fin 4)].state = .rented ∧
      t.sending.map (fun r => (r.result, r.fields)) = some (.done, [4, 0x38, 0x40]) := by decide

/-- Step 10: the lease ends without a code, and lane 1 enters LOCKED with code 5. -/
theorem test_relock :
    let t := after { onAir .rented [bought 0 900] with nextSerial := 58 } (.relock 1)
    t.lock.leases[(1 : Fin 4)] = none ∧ t.lanes[(1 : Fin 4)].state = .locked ∧ t.codes = [5] ∧
      t.lanes[(0 : Fin 4)].state = .rented ∧ t.sending.map Reply.fields = some [6] := by decide

/-- Steps 6 and 7: the last second of the lockout; and the lease end of section 5.8 step 6. -/
theorem test_lockout_and_lease_end :
    (after (lockedOut 0 (some 1)) .lockoutEnd).lock.lockout = none ∧
    (let t := after { onAir .rented [bought 0 900] with lock.leases := #v[none, some 1, none, none] } (.leaseEnd 1);
      t.lock.leases[(1 : Fin 4)] = none ∧ t.lanes[(1 : Fin 4)].state = .locked ∧ t.codes = [5]) := by decide

/-- Table 8-3 steps 1 and 3: a house limit of 4 locks both lanes and leaves the lease; barring lane 1 ends it. -/
theorem test_lock_set :
    (let t := after (onAir .rented [bought 0 900]) (.lockSet (lockBody 4));
      t.lanes[(0 : Fin 4)].state = .locked ∧ t.lanes[(1 : Fin 4)].state = .locked ∧
        t.lock.leases[(1 : Fin 4)] = some 200 ∧ t.codes = [4, 5]) ∧
    (let t := after (onAir .rented [bought 0 900]) (.lockSet { lockBody 7 with barred := #v[0, 1, 0, 0] });
      t.lanes[(0 : Fin 4)].state = .rented ∧ t.lanes[(1 : Fin 4)].state = .locked ∧
        t.lock.leases[(1 : Fin 4)] = none) := by decide +kernel

/-! ## Time and counters (sections 9.4 and 9.5) -/

/-- Table 9-3 steps 2 and 5: a step of 812,003,963 latches TIME_STEP, a step of 1 does not. -/
theorem test_time_mark :
    (let t := after { suite with clock := ⟨17203200, 37, false⟩ } (.timeMark 812004000);
      t.clock = ⟨0, 812004000, true⟩ ∧ t.alert .timeStep = .latched ∧ t.reports.length = 1) ∧
    (after { suite with clock := ⟨5, 812007600, true⟩ } (.timeMark 812007601)).alert .timeStep = .clear := by decide

/-- The four counters of section 9.5. -/
def counters (c0 c1 c2 c3 : Nat) (last : Option Nat) : Vector Counter 4 :=
  #v[{ setup := some ⟨.occupancy, .none, some ⟨#v[false, false, true, true, true, false, false], .rise, 2⟩⟩
       last := last, value := c0 },
     { setup := some ⟨.viewSeconds, .lanes #v[true, true, false, false], none⟩, last := none, value := c1 },
     { setup := some ⟨.purchases, .ratingAtLeast 5, none⟩, last := none, value := c2 },
     { setup := some ⟨.lockSeconds, .service 311, none⟩, last := none, value := c3 }]

def counted (state1 : LaneState) (mark1 : Bool) (cs : Vector Counter 4) : State :=
  { onAir state1 [bought 0 900] with
    counters := cs
    lanes := #v[{ lane .clear (some 204) none with mark := true },
                { lane state1 (some 311) (some 7140) with mark := mark1 }, lane .idle none none,
                lane .locked (some 311) (some 7140)] }

/-- The COUNT-SET of counter 0. -/
theorem test_count_set : (after suite (.countSet countBody)).counters = suite.counters.set 0 (counters 0 0 0 0 none)[0] := by
  decide

/-- Table 9-4 steps 1 and 3: nothing is gained at the first sample; then a rise, two view seconds, one lock second. -/
theorem test_second_tick_counters :
    (after (counted .offer false (counters 0 0 0 0 none)) .secondTick).counters = counters 0 1 0 1 (some 1) ∧
    (after (counted .rented true (counters 0 1 1 1 (some 1))) .secondTick).counters = counters 1 3 1 2 (some 2) := by decide

/-- The COUNT-RPT after step 6 carries the values 2, 9, 1 and 5, without a time that is not set. -/
theorem test_count_poll :
    (after (counted .rented true (counters 2 9 1 5 (some 2))) .countPoll).reports.map Report.body =
      [some ([0] ++ [1, 1, 9, 0, 1, 0, 0, 1, 1, 1, 0, 0, 2, 2, 0, 0, 0, 2] ++ [1, 1, 0, 2, 1, 1, 0, 0, 0, 0, 0, 0, 9] ++
        [1, 1, 3, 3, 5, 0, 0, 0, 0, 1] ++ [1, 1, 5, 1, 0x01, 0x37, 0, 0, 0, 0, 5])] := by decide

/-! ## The return line, the panel and the resets (sections 10.8 and 11.8) -/

/-- Table 10-4 step 2: a poll finds six reports and is missed. -/
theorem test_status_poll_missed :
    let s := { suite with reports := List.replicate 6 ⟨.count, some []⟩ }
    after s .statusPoll = { s with counts.taken := 1, counts.pollsMissed := 1 } := by decide

/-- Step 4: the last byte of the head sends it, and the owed ALERT-RPT takes the freed place; REPORT_SENT is the same. -/
theorem test_report_sent :
    let s := { suite with
      reports := List.replicate 6 ⟨.count, some []⟩, reportSent := 10, owed := true
      alerts := #v[.clear, .clear, .clear, .latched, .clear, .clear] }
    let t := after s (.returnByte true)
    t.reports = List.replicate 5 ⟨.count, some []⟩ ++ [.alertWaiting] ∧ t.owed = false ∧ t.reportSent = 0 ∧
      after s .reportSent = t := by decide +kernel

/-- Step 6: the ALERT-RPT that begins carries LIST_FULL and PIN_LOCKOUT, and both become LATCHED-REPORTED. -/
theorem test_return_byte_begins :
    let t := after { suite with reports := [.alertWaiting], alerts := #v[.clear, .clear, .latched, .latched, .clear, .clear] }
      (.returnByte true)
    t.returnData = some 0xA3 ∧ t.alerts = #v[.clear, .clear, .reported, .reported, .clear, .clear] ∧
      t.reports = [⟨.alert, some [2, 2, 3]⟩] ∧ t.reportSent = 1 := by decide +kernel

/-- Steps 7 and 8: ALERT-CLEAR, then UNIT-RESET with the ALERT-RPT cut short. -/
theorem test_alert_clear_and_unit_reset :
    let s := { suite with
      reports := [⟨.alert, some [2, 2, 3]⟩], reportSent := 4, counts.pollsMissed := 1, lock.lockout := some 700
      alerts := #v[.clear, .clear, .reported, .reported, .clear, .clear] }
    let t := after s (.alertClear #v[0, 0, 0, 1, 0, 0])
    t.alerts = #v[.clear, .clear, .reported, .clear, .clear, .clear] ∧
      (after t .unitReset).alerts = #v[.clear, .clear, .latched, .clear, .clear, .clear] ∧
      (after t .unitReset).reports = [.alertWaiting] ∧ (after t .unitReset).counts = .zero ∧
      (after t .unitReset).lock.lockout = some 700 := by decide +kernel

/-- R166 and R11. -/
theorem test_settings :
    (after suite (.groupSet #v[1, 0, 65535, 2])).groups = #v[1, 0, 65535, 2] ∧
    (after suite (.feedSet 1)).framer.threshold = 2 ∧ (after suite (.feedSet 16)).framer.threshold = 15 := by decide

/-- R174: COLD_START latched and one ALERT-RPT admitted; and R182 with R132, R123 over the reset line. -/
theorem test_resets :
    (after suite .coldStart).alert .coldStart = .latched ∧ (after suite .coldStart).reports = [.alertWaiting] ∧
    (let t := after { onAir .rented [bought 3 900] with charges := [charge 57] } .resetLineAssert;
      t.held = true ∧ t.lanes = .replicate 4 .cold ∧ t.rentals = [bought 3 900] ∧ t.charges = [charge 57] ∧
        t.lock.pin = some ⟨2, 4, 6, 8⟩ ∧ (after t .resetLineRelease).held = false) := by decide +kernel

/-- Section 11.8: the reply that waits is replaced, and the one in its place carries EARLIER_REPLY_LOST. -/
theorem test_replies :
    let t := after (after (after suite (.askLane 1)) .askRoom) .attnRead
    t.sending.map Reply.kind = some 6 ∧ t.waiting.map (fun r => (r.kind, r.earlierLost, r.fields)) = some (9, true, [0, 0]) ∧
      (after t .replySent).sending = t.waiting ∧ (after t .replySent).waiting = none := by decide

/-- R176 and R185: ATTN-ACK(10) as a frame, E1h 0Ah 01h 0Ah and the check byte that brings the sum to 0. -/
theorem test_panel_byte :
    let s := [0xE1, 0x0A, 0x01, 0x0A].foldl (fun s b => after s (.panelByte b false)) { suite with codes := [5, 10] }
    (after s (.panelByte 0xEB false)).codes = [5] ∧ (after s (.panelByte 0xEB false)).frame = none ∧
      (after s (.panelByte 0xEC false)).sending.map Reply.result = some .badFrame := by decide

/-- R176: the second tick that finds a frame marked abandons it. -/
theorem test_frame_abandon :
    (after { suite with frame := some ⟨[0x0A], false, true⟩ } .frameAbandon).sending.map Reply.result = some .badFrame ∧
    after suite .frameAbandon = suite := by decide

/-- R181: ATTN-ACK answers the smallest code left below the floor, ATTN-FLOOR the floor as clamped. -/
theorem test_attention :
    (after { suite with codes := [5, 10, 21] } (.attnAck 5)).sending.map Reply.fields = some [10] ∧
    (after suite (.attnFloor 0)).floor = 1 ∧ (after suite (.attnFloor 33)).sending.map Reply.fields = some [32] ∧
    (after suite (.attnAck 22)).sending.map Reply.result = some .badArg := by decide

/-! ## Witnesses: states and operands that meet the hypotheses of each statement, clause by clause -/

theorem witness_idle_step :
    (State.reset.pending = [] ∧ { State.reset with held := true }.held = true) ∧
    ({ State.reset with clock.prescaler := 24575998 }.held = false ∧ 24575998 + 1 < 24576000) ∧
    ({ State.reset with clock.prescaler := 24575999 }.held = false ∧ 24576000 ≤ 24575999 + 1) := by decide

theorem witness_held_part : { suite with held := true }.held = true ∧ Instr.secondTick ≠ .coldStart ∧
    Instr.secondTick ≠ .resetLineAssert ∧ Instr.secondTick ≠ .resetLineRelease := by decide

theorem witness_unit_reset : suite.held = false := rfl

theorem witness_feed_byte_in_hunt :
    let s := { suite with framer.sawC6 := true }
    s.held = false ∧ s.framer.state = .hunt ∧ (s.framer.sawC6 = true ∧ (0x39 : Byte) = 0x39) ∧
      ¬ (s.framer.sawC6 = true ∧ (0xC6 : Byte) = 0x39) ∧ suite.framer.state = .hunt ∧
      ¬ (suite.framer.sawC6 = true ∧ (0x39 : Byte) = 0x39) := by decide

def boundary (state : FramerState) (integrator : Nat) (first : Byte) : State :=
  { suite with framer := { Framer.cold with state := state, integrator := integrator, bytes := [first] } }

theorem witness_boundary_test :
    (boundary .confirm 2 0xC6).held = false ∧ (boundary .confirm 2 0xC6).framer.bytes = [0xC6] ∧
      (boundary .confirm 2 0xC6).framer.state = .confirm ∧ (boundary .locked 2 0xC6).framer.state = .locked ∧
      ((0xC6 : Byte) = 0xC6 ∧ (0x39 : Byte) = 0x39) ∧ ¬ ((0xC6 : Byte) = 0xC6 ∧ (0x38 : Byte) = 0x39) ∧
      min (boundary .confirm 2 0xC6).framer.integrator 4 + 1 < (boundary .confirm 2 0xC6).framer.threshold ∧
      (boundary .confirm 3 0xC6).framer.threshold ≤ min (boundary .confirm 3 0xC6).framer.integrator 4 + 1 ∧
      1 < min (boundary .locked 2 0xC6).framer.integrator (boundary .locked 2 0xC6).framer.threshold ∧
      min (boundary .locked 1 0xC6).framer.integrator (boundary .locked 1 0xC6).framer.threshold ≤ 1 := by decide

/-- The framer LOCKED with the first 95 bytes of a taken cell in. -/
def arriving (s : State) (bytes : List Byte) : State :=
  { s with framer := { Framer.cold with state := .locked, integrator := 4, bytes := bytes.take 95, handOn := true } }

theorem witness_cell_bytes :
    (∀ k ∈ [0, 2, 94], let s := { suite with framer := { confirming 1 with bytes := List.replicate k 0 } };
      s.held = false ∧ s.framer.state ≠ .hunt ∧ s.framer.bytes.length ≠ 1 ∧ s.framer.bytes.length < 95) ∧
    (let s := { suite with framer := { confirming 1 with bytes := List.replicate 95 0 } };
      s.framer.bytes.length = 95 ∧ s.framer.handOn = false) ∧
    (let s := arriving suite (List.replicate 96 0xFF);
      s.held = false ∧ s.framer.state ≠ .hunt ∧ s.framer.bytes.length = 95 ∧ s.framer.handOn = true ∧
        Cell.ofBytes (s.framer.bytes ++ [0xFF]) = none) ∧
    (let c := { cell .clear (List.replicate 90 0) with kind := .fill };
      let s := arriving suite c.toBytes
      s.framer.bytes.length = 95 ∧ s.framer.handOn = true ∧ Cell.ofBytes (s.framer.bytes ++ [0]) = some c) := by
  decide +kernel

theorem witness_cell_round_trip :
    let c : Cell := { kind := .management, mark := .clear, seq := 15, tag := 4095, carry := 15, payload := List.replicate 90 0xFF }
    c.seq < 16 ∧ c.tag < 4096 ∧ c.carry < 16 ∧ c.payload.length = 90 ∧ (c.kind = .management → c.mark = .clear) := by
  decide +kernel

/-- The payload of a management cell: destination, kind, length byte and body, padded, with its CRC. -/
def message (form : Byte) (value : Nat) (kind len : Byte) (body : List Byte) : List Byte :=
  let covered := ((form :: bytesOf 4 value) ++ [kind, len] ++ body ++ List.replicate 88 0).take 88
  covered ++ bytesOf 2 (crc16 covered).toNat

def messageCell (payload : List Byte) : Cell :=
  { kind := .management, mark := .clear, seq := 0, tag := 0, carry := 0, payload := payload }

/-- What the statements ask of a management cell before they look at its message. -/
def cellArrives (s : State) (b : Byte) (c : Cell) : Prop :=
  s.held = false ∧ s.framer.state ≠ .hunt ∧ s.framer.bytes.length = 95 ∧ s.framer.handOn = true ∧
    Cell.ofBytes (s.framer.bytes ++ [b]) = some c

def crcGood (c : Cell) : Prop := (crc16 (c.payload.take 88)).toNat = natOf ((c.payload.drop 88).take 2)

def groupSuite : State := { suite with groups := #v[0, 65535, 0, 0] }

set_option maxRecDepth 20000 in
/-- STAY-CLOSE(41) to this unit, to a group and to all. -/
theorem witness_management_cell_is_its_command :
    (let c := messageCell (message 0 0 0x09 2 [0, 41]);
      cellArrives (arriving groupSuite c.toBytes) (c.payload.getLastD 0) c ∧ c.kind = .management ∧ crcGood c ∧
        c.payload.getD 0 0 = 0 ∧ natOf ((c.payload.drop 1).take 4) = groupSuite.unitId ∧
        (c.payload.getD 6 0).toNat ≤ 81 ∧
        readMgmt (c.payload.getD 5 0).toNat ((c.payload.drop 7).take (c.payload.getD 6 0).toNat) = some (.stayClose 41)) ∧
    (let c := messageCell (message 1 65535 0x09 2 [0, 41]);
      cellArrives (arriving groupSuite c.toBytes) (c.payload.getLastD 0) c ∧ crcGood c ∧ c.payload.getD 0 0 = 1 ∧
        natOf ((c.payload.drop 1).take 4) ≠ 0 ∧
        (∃ i : Fin 4, groupSuite.groups[i] = natOf ((c.payload.drop 1).take 4)) ∧
        readMgmt (c.payload.getD 5 0).toNat ((c.payload.drop 7).take (c.payload.getD 6 0).toNat) = some (.stayClose 41)) ∧
    (let c := messageCell (message 2 7 0x09 2 [0, 41]);
      cellArrives (arriving groupSuite c.toBytes) (c.payload.getLastD 0) c ∧ crcGood c ∧ c.payload.getD 0 0 = 2 ∧
        readMgmt (c.payload.getD 5 0).toNat ((c.payload.drop 7).take (c.payload.getD 6 0).toNat) = some (.stayClose 41)) := by
  simp only [cellArrives, crcGood]; decide +kernel

set_option maxRecDepth 20000 in
theorem witness_management_cell_turned_away :
    (let c := messageCell (List.replicate 90 0);
      cellArrives (arriving groupSuite c.toBytes) 0 c ∧ c.kind = .management ∧ ¬ crcGood c) ∧
    (let c := messageCell (message 3 0 0x0C 0 []);
      cellArrives (arriving groupSuite c.toBytes) (c.payload.getLastD 0) c ∧ crcGood c ∧ 2 < (c.payload.getD 0 0).toNat) ∧
    (let c := messageCell (message 0 1 0x0C 0 []);
      cellArrives (arriving groupSuite c.toBytes) (c.payload.getLastD 0) c ∧ crcGood c ∧
        (c.payload.getD 0 0 = 0 ∧ natOf ((c.payload.drop 1).take 4) ≠ groupSuite.unitId)) ∧
    (let c := messageCell (message 1 0 0x0C 0 []);
      cellArrives (arriving groupSuite c.toBytes) (c.payload.getLastD 0) c ∧ crcGood c ∧
        (c.payload.getD 0 0 = 1 ∧ natOf ((c.payload.drop 1).take 4) = 0)) ∧
    (let c := messageCell (message 1 7 0x0C 0 []);
      cellArrives (arriving groupSuite c.toBytes) (c.payload.getLastD 0) c ∧ crcGood c ∧ c.payload.getD 0 0 = 1 ∧
        ∀ i : Fin 4, groupSuite.groups[i] ≠ natOf ((c.payload.drop 1).take 4)) ∧
    (let c := messageCell (message 2 0 0x0C 82 []);
      cellArrives (arriving groupSuite c.toBytes) (c.payload.getLastD 0) c ∧ crcGood c ∧ c.payload.getD 0 0 = 2 ∧
        81 < (c.payload.getD 6 0).toNat) ∧
    (let c := messageCell (message 2 0 0x16 81 []);
      cellArrives (arriving groupSuite c.toBytes) (c.payload.getLastD 0) c ∧ crcGood c ∧ c.payload.getD 0 0 = 2 ∧
        readMgmt (c.payload.getD 5 0).toNat ((c.payload.drop 7).take (c.payload.getD 6 0).toNat) = none) := by
  simp only [cellArrives, crcGood]; decide +kernel

set_option maxRecDepth 20000 in
/-- Bodies that do not fit, in messages to this unit and to one of its groups. -/
theorem witness_unfit_message :
    (let c := messageCell (message 0 0 0x0C 82 []);
      cellArrives (arriving groupSuite c.toBytes) (c.payload.getLastD 0) c ∧ crcGood c ∧ c.payload.getD 0 0 = 0 ∧
        natOf ((c.payload.drop 1).take 4) = groupSuite.unitId ∧ 81 < (c.payload.getD 6 0).toNat) ∧
    (let c := messageCell (message 1 65535 0x0C 1 []);
      cellArrives (arriving groupSuite c.toBytes) (c.payload.getLastD 0) c ∧ crcGood c ∧ c.payload.getD 0 0 = 1 ∧
        natOf ((c.payload.drop 1).take 4) ≠ 0 ∧
        (∃ i : Fin 4, groupSuite.groups[i] = natOf ((c.payload.drop 1).take 4)) ∧
        readMgmt (c.payload.getD 5 0).toNat ((c.payload.drop 7).take (c.payload.getD 6 0).toNat) = none) := by
  simp only [cellArrives, crcGood]; decide +kernel

theorem witness_clear_media_cell :
    (let c := { cell .clear (List.replicate 90 7) with tag := 4095 };
      cellArrives (arriving suite c.toBytes) 7 c ∧ c.kind = .media ∧ ∀ e ∈ suite.directory[foldBank c.tag], e.tag ≠ c.tag) ∧
    (let c := cell .clear (List.replicate 90 7);
      cellArrives (arriving suite c.toBytes) 7 c ∧ c.kind = .media ∧ c.mark = .clear ∧
        suite.directory[foldBank c.tag].find? (·.tag == c.tag) = some ⟨1410, 204, .picture⟩) := by
  simp only [cellArrives]; decide +kernel

/-- The suite with a live key in the ODD slot of family 9. -/
def keyed : State := { suite with keys := suite.keys.set 9 { KeyFamily.cold with odd := ⟨some keyA, none⟩ } }

theorem witness_scrambled_cell_good :
    let c := cell (.scrambled .odd) (decipher keyA 6 0 (0x5A :: List.replicate 89 0x11))
    cellArrives (arriving keyed c.toBytes) (c.payload.getLastD 0) c ∧ c.kind = .media ∧ c.mark = .scrambled .odd ∧
      keyed.directory[foldBank c.tag].find? (·.tag == c.tag) = some ⟨1410, 204, .picture⟩ ∧
      keyed.service? 204 = some free204 ∧ free204.family = some 9 ∧
      ((keyed.keys[(9 : Fin 32)].parityStep .odd).slot .odd).live = some keyA ∧
      (decipher keyA c.seq 0 c.payload).head? = some keyA.check := by
  simp only [cellArrives]; decide +kernel

/-- No family, no live key in the slot of the mark, and a wrong check byte. -/
theorem witness_scrambled_cell_key_miss :
    (let c := { cell (.scrambled .odd) (List.replicate 90 7) with tag := 512 };
      cellArrives (arriving keyed c.toBytes) 7 c ∧
        keyed.directory[foldBank c.tag].find? (·.tag == c.tag) = some ⟨512, 311, .picture⟩ ∧
        (keyed.service? 311).all (fun r => decide (r.family = none)) = true) ∧
    (let c := cell (.scrambled .even) (List.replicate 90 7);
      cellArrives (arriving keyed c.toBytes) 7 c ∧ keyed.service? 204 = some free204 ∧ free204.family = some 9 ∧
        ((keyed.keys[(9 : Fin 32)].parityStep .even).slot .even).live = none) ∧
    (let c := cell (.scrambled .odd) (List.replicate 90 7);
      cellArrives (arriving keyed c.toBytes) 7 c ∧
        ((keyed.keys[(9 : Fin 32)].parityStep .odd).slot .odd).live.all
          (fun k => decide ((decipher k c.seq 0 c.payload).head? ≠ some k.check)) = true) := by
  simp only [cellArrives]; decide +kernel

theorem witness_parity_step :
    KeyFamily.cold.parity = none ∧ { KeyFamily.cold with parity := some .even }.parity = some .even ∧ Parity.even ≠ .odd ∧
      (({ KeyFamily.cold with parity := some .even, even := ⟨none, some keyA⟩ } : KeyFamily).slot .even).staged = some keyA ∧
      (KeyFamily.cold.slot .even).staged = none := by decide

theorem witness_deciphering : 89 < (List.replicate 90 (0 : Byte)).length := by decide

theorem witness_key_put_and_key_wipe : suite.held = false ∧
    ((keyBody 31 1 0).family = (31 : Fin 32).val ∧ (keyBody 31 1 0).parity = if Parity.odd = .even then 0 else 1) ∧
    ((keyBody 0 0 0).family = (0 : Fin 32).val ∧ (keyBody 0 0 0).parity = if Parity.even = .even then 0 else 1) ∧
    ({ suite with keys := .replicate 32 { KeyFamily.cold with parity := some .odd } }).keys[(31 : Fin 32)].parity = some .odd ∧
    suite.keys[(31 : Fin 32)].parity ≠ some .odd ∧ 31 < (keyBody 32 0 0).family ∧ 1 < (keyBody 0 2 0).parity ∧ 31 < 32 := by
  decide

theorem witness_svc_put_field_tests : (serviceOf svcBody).isSome = true ∧ serviceOf { svcBody with kind := 0 } = none := by
  decide

/-! A directory laid out from the services, whose entries come in ascending order of tag. -/

def entries (rs : List ServiceRec) : List DirEntry :=
  rs.flatMap fun r => r.components.map fun c => ⟨c.tag, r.number, c.role⟩

def loaded (rs : List ServiceRec) : State :=
  { suite with services := rs, directory := .ofFn fun i => (entries rs).filter fun e => foldBank e.tag == i }

theorem loaded_directoryInv (rs : List ServiceRec) (h : rs.length ≤ 48) (hn : (rs.map ServiceRec.number).Pairwise (· < ·))
    (hd : ∀ r ∈ rs, (r.components.map Component.tag).Nodup)
    (hb : ∀ i : Fin 4, ((entries rs).filter fun e => foldBank e.tag == i).length ≤ 16 ∧
      (((entries rs).filter fun e => foldBank e.tag == i).map DirEntry.tag).Pairwise (· < ·)) :
    directoryInv (loaded rs) := by
  refine ⟨h, hn, hd, fun i => by simpa [loaded] using hb i, fun i e => ?_⟩
  simp only [loaded, entries, Fin.getElem_fin, Vector.getElem_ofFn, List.mem_filter, List.mem_flatMap, List.mem_map,
    beq_iff_eq]
  constructor
  · rintro ⟨⟨r, hr, c, hc, rfl⟩, hi⟩
    exact ⟨hi.symm, r, hr, rfl, c, hc, rfl, rfl⟩
  · rintro ⟨hi, r, hr, hn, c, hc, ht, hro⟩
    refine ⟨⟨r, hr, c, hc, ?_⟩, hi.symm⟩
    rw [ht, hn, hro]

def service (number : Nat) (tags : List Nat) : ServiceRec :=
  { number := number, kind := .pay, family := none, rating := 0, title := none, components := tags.map fun t => part t .data }

/-- Bank 0 full with 16 entries of three services. -/
def fullBank0 : List ServiceRec :=
  [service 1 [0, 4, 8, 12, 19, 23], service 2 [27, 31, 34, 38, 42, 46], service 3 [49, 53, 57, 61]]

/-- A table of `k` services with one component each. -/
def many (k : Nat) : List ServiceRec := (List.range k).map fun i => service (i + 1) [i]

theorem witness_directory : directoryInv (loaded fullBank0) ∧ directoryInv (loaded (many 47)) ∧ directoryInv (loaded (many 48)) := by
  refine ⟨loaded_directoryInv _ ?_ ?_ ?_ ?_, loaded_directoryInv _ ?_ ?_ ?_ ?_, loaded_directoryInv _ ?_ ?_ ?_ ?_⟩ <;>
    decide +kernel

def body (number : Nat) (tags : List Nat) : SvcPutBody :=
  { service := number, kind := 1, family := none, rating := 0, title := none, components := tags.map fun t => ⟨t, 0⟩ }

def rec1 (number : Nat) (tags : List Nat) : ServiceRec :=
  { service number tags with components := tags.map fun t => part t .picture }

/-- Refused for a field, for a tag of another service, for a 17th entry and for a 49th service. -/
theorem witness_svc_put_refused :
    ((loaded fullBank0).held = false ∧ (loaded fullBank0).rentals.length ≤ 16) ∧ serviceOf (body 1000 [0]) = none ∧
    (serviceOf (body 4 [0]) = some (rec1 4 [0]) ∧ ∃ k ∈ (rec1 4 [0]).components, ∃ i : Fin 4,
      ∃ e ∈ (loaded fullBank0).directory[i], e.tag = k.tag ∧ e.service ≠ 4) ∧
    (serviceOf (body 4 [64]) = some (rec1 4 [64]) ∧
      ∃ i : Fin 4, 16 < ((loaded fullBank0).directory[i].filter (·.service != 4)).length +
        ((rec1 4 [64]).components.filter fun k => foldBank k.tag == i).length) ∧
    (serviceOf (body 49 [100]) = some (rec1 49 [100]) ∧ (loaded (many 48)).service? 49 = none ∧
      48 ≤ (loaded (many 48)).services.length) := by decide +kernel

/-- Taken: a loaded service that brings its bank to 16 again, and a 48th service. -/
theorem witness_svc_put_taken :
    (serviceOf (body 3 [49, 53, 57, 64]) = some (rec1 3 [49, 53, 57, 64]) ∧
      (∀ k ∈ (rec1 3 [49, 53, 57, 64]).components, ∀ i : Fin 4, ∀ e ∈ (loaded fullBank0).directory[i],
        e.tag = k.tag → e.service = 3) ∧
      (∀ i : Fin 4, ((loaded fullBank0).directory[i].filter (·.service != 3)).length +
        ((rec1 3 [49, 53, 57, 64]).components.filter fun k => foldBank k.tag == i).length ≤ 16) ∧
      ((loaded fullBank0).service? 3).isSome = true) ∧
    (serviceOf (body 48 [100]) = some (rec1 48 [100]) ∧ (loaded (many 47)).services.length < 48 ∧
      ∀ i : Fin 4, ∀ e ∈ (loaded (many 47)).directory[i], e.tag ≠ 100) := by decide +kernel

theorem witness_svc_drop_and_on_air :
    suite.held = false ∧ suite.rentals.length ≤ 16 ∧ (suite.service? 1 = none ∧ suite.service? 999 = none) ∧
    (suite.service? 311).isSome = true ∧ (suite.service? 204).all (fun r => decide (r.kind = .free)) = true ∧
    (suite.service? 311 = some (pay311 none) ∧ (pay311 none).kind = .pay ∧ some 65535 ≠ some 0) := by decide

theorem witness_pick : suite.held = false ∧ suite.rentals.length ≤ 16 ∧ 3 < 4 ∧ 999 < 1000 ∧
    (∀ x, (none : Option Nat) = some x → 1 ≤ x ∧ x ≤ 999) ∧ (∀ x, some 1 = some x → 1 ≤ x ∧ x ≤ 999) ∧
    (∀ x, some 999 = some x → 1 ≤ x ∧ x ≤ 999) := by
  refine ⟨rfl, by decide, by decide, by decide, ?_, ?_, ?_⟩
  · intro x h; cases h
  · exact forall_of_all (by decide)
  · exact forall_of_all (by decide)

theorem witness_screen_port :
    let s := { suite with lanes := suite.lanes.set 3 { lane .clear (some 204) none with queue := [media 1410 0] } }
    let u := { suite with lanes := suite.lanes.set 3 { lane .clear (some 204) none with sending := some (media 1410 0) } }
    s.held = false ∧ s.lanes[(3 : Fin 4)].sending = none ∧ s.lanes[(3 : Fin 4)].queue = [media 1410 0] ∧
      suite.lanes[(3 : Fin 4)].queue = [] ∧ u.lanes[(3 : Fin 4)].sending = some (media 1410 0) ∧
      u.lanes[(3 : Fin 4)].sending ≠ none := by decide

theorem witness_ask_lane : suite.held = false ∧ 3 < 4 := by decide

def titles (k : Nat) : List CatalogEntry := (List.range k).map fun i => { film with title := i + 1 }

/-- A refused and a taken TITLE-PUT at 32 and at 31 entries, and a TITLE-DROP of a title and of none. -/
theorem witness_title_put_and_drop :
    (let s := { suite with catalog := titles 32 };
      s.held = false ∧ s.rentals.length ≤ 16 ∧ (s.catalog.map CatalogEntry.title).Pairwise (· < ·) ∧
        (s.catalog? 33 = none ∧ 32 ≤ s.catalog.length) ∧ (s.catalog? 32).isSome = true ∧ s.catalog? 65535 = none) ∧
    (let s := { suite with catalog := titles 31 };
      (s.catalog.map CatalogEntry.title).Pairwise (· < ·) ∧ s.catalog.length < 32 ∧ titleBody.title ≠ 0 ∧
        titleBody.billAlias ≠ 0) := by decide +kernel

/-- What the statement of a taken BUY asks. -/
def buyable (s : State) (n : Fin 4) (x : Nat) (pin : Option PinField) (e : CatalogEntry) : Prop :=
  s.held = false ∧ s.rentals.length ≤ 16 ∧ 1 ≤ x ∧ x ≤ 65535 ∧ s.room.state = .occupied ∧
    (∀ r, s.rental? x = some r → r.state ≠ .active) ∧ s.catalog? x = some e ∧ e.rating ≤ s.effectiveCeiling n ∧
    (s.room.purchasePin = true → s.lock.lockout = none ∧ pin.isSome = true ∧ s.lock.pin = pin) ∧
    ((s.rental? x).isSome = true ∨ s.rentals.length < 16 ∨ ∃ r ∈ s.rentals, r.state = .expired ∧ r.refunded = false) ∧
    s.charges.length < 12 ∧ s.nextSerial ≤ 16777215 ∧
    s.room.spend + s.live[s.room.cls].charge e.basePrice ≤ s.room.ceiling

/-- The last charge and the last serial, spend that reaches its ceiling, rating at the effective ceiling, the PIN asked. -/
def lastBuy (records : List RentalRec) : State :=
  { onAir .offer records with
    charges := List.replicate 11 (charge 1), nextSerial := 16777215, room.spend := 3557, room.purchasePin := true
    lock.roomCeiling := 5 }

def records (k : Nat) (state : RentalState) : List RentalRec :=
  (List.range k).map fun i => { record state with title := i + 1 }

theorem witness_buy_taken :
    buyable (lastBuy [record .spent]) 0 7140 (some ⟨2, 4, 6, 8⟩) film ∧
    buyable (lastBuy (records 15 .void)) 0 7140 (some ⟨2, 4, 6, 8⟩) film ∧
    buyable (lastBuy (records 16 .expired)) 0 7140 (some ⟨2, 4, 6, 8⟩) film ∧
    buyable { suite with catalog := [{ film with title := 1 }, { film with title := 65535 }] } 0 65535 none
      { film with title := 65535 } := by
  refine ⟨⟨?_, ?_, ?_, ?_, ?_, forall_of_all ?_, ?_, ?_, ?_, ?_, ?_, ?_, ?_⟩,
    ⟨?_, ?_, ?_, ?_, ?_, forall_of_all ?_, ?_, ?_, ?_, ?_, ?_, ?_, ?_⟩,
    ⟨?_, ?_, ?_, ?_, ?_, forall_of_all ?_, ?_, ?_, ?_, ?_, ?_, ?_, ?_⟩,
    ⟨?_, ?_, ?_, ?_, ?_, forall_of_all ?_, ?_, ?_, ?_, ?_, ?_, ?_, ?_⟩⟩ <;> decide +kernel

/-- Each test of BUY that can turn a request away, once those before it have passed. -/
theorem witness_buy_turned_away :
    (suite.held = false ∧ 3 < 4 ∧ 65535 < 65536 ∧ State.reset.room.state = .vacant ∧ suite.room.state = .occupied) ∧
    ((onAir .rented [bought 0 7200]).rental? 7140 = some (bought 0 7200) ∧ (bought 0 7200).state = .active ∧
      (bought 0 7200).amount = some 1443 ∧ (bought 0 7200).serial = some 57) ∧
    (suite.rental? 1 = none ∧ suite.catalog? 1 = none) ∧
    (suite.rental? 7140 = none ∧ suite.catalog? 7140 = some film ∧
      { suite with lock.roomCeiling := 4 }.effectiveCeiling 0 < film.rating) ∧
    ((lastBuy []).room.purchasePin = true ∧ film.rating ≤ (lastBuy []).effectiveCeiling 0 ∧
      ((lastBuy []).pinTest 0 none).1 = some .badPin) ∧
    (suite.room.purchasePin = false ∧
      ({ suite with rentals := records 16 .spent }.rental? 7140 = none ∧ 16 ≤ (records 16 .spent).length ∧
        ∀ r ∈ records 16 .spent, r.state ≠ .expired ∨ r.refunded = true)) ∧
    ((lastBuy []).room.purchasePin = true ∧ ((lastBuy []).pinTest 0 (some ⟨2, 4, 6, 8⟩)).1 = none ∧
      (lastBuy []).rentals.length < 16 ∧ 12 ≤ { lastBuy [] with charges := List.replicate 12 (charge 1) }.charges.length ∧
      16777215 < { lastBuy [] with nextSerial := 16777216 }.nextSerial) ∧
    ((lastBuy []).charges.length < 12 ∧ (lastBuy []).nextSerial ≤ 16777215 ∧
      { lastBuy [] with room.spend := 3558 }.room.ceiling <
        { lastBuy [] with room.spend := 3558 }.room.spend + (lastBuy []).live[(lastBuy []).room.cls].charge film.basePrice) := by
  decide +kernel

theorem witness_refund :
    let s := { onAir .rented [bought 299 7075] with charges := List.replicate 11 (charge 1), nextSerial := 16777215 }
    (s.held = false ∧ s.rentals.length ≤ 16 ∧ 65535 < 65536 ∧ s.rental? 65535 = none) ∧
    (s.rental? 7140 = some (bought 299 7075) ∧ (bought 299 7075).state = .active ∧ (bought 299 7075).refunded = false ∧
      (bought 299 7075).viewedSec < (bought 299 7075).grace ∧ s.charges.length < 12 ∧ s.nextSerial ≤ 16777215 ∧
      (bought 299 7075).amount = some 1443) ∧
    ({ bought 0 1 with refunded := true }.refunded = true ∧ (bought 300 1).grace ≤ (bought 300 1).viewedSec) ∧
    12 ≤ { s with charges := List.replicate 12 (charge 1) }.charges.length := by decide

theorem witness_ask_title : suite.held = false ∧ 1 ≤ 65535 ∧ 65535 ≤ 65535 ∧ suite.catalog? 65535 = none ∧
    suite.rental? 65535 = none ∧ suite.catalog? 7140 = some film ∧
    (onAir .rented [bought 0 1]).rental? 7140 = some (bought 0 1) := by decide

theorem witness_stay_open :
    (suite.held = false ∧ suite.rentals.length ≤ 16 ∧ 3 < { stayBody 42 with cls := 4 }.cls ∧
      1 < { stayBody 42 with purchasePin := 2 }.purchasePin ∧ (stayBody 0).stay = 0 ∧
      ∃ p, { stayBody 42 with pin := some ⟨0, 0, 0, 10⟩ }.pin = some p ∧ (9 < p.d0 ∨ 9 < p.d1 ∨ 9 < p.d2 ∨ 9 < p.d3)) ∧
    ((stayBody 42).stay ≠ 0 ∧ (stayBody 42).cls = (1 : Fin 4).val ∧ (stayBody 42).purchasePin = (if false then 1 else 0) ∧
      ∀ p, (stayBody 42).pin = some p → p.d0 ≤ 9 ∧ p.d1 ≤ 9 ∧ p.d2 ≤ 9 ∧ p.d3 ≤ 9) ∧
    State.reset.room.state = .vacant ∧ suite.room.state = .occupied ∧ (stayBody 41).stay = suite.room.stay ∧
    (stayBody 42).stay ≠ suite.room.stay := by
  refine ⟨⟨by decide, by decide, by decide, by decide, by decide, ⟨0, 0, 0, 10⟩, rfl, by decide⟩,
    ⟨by decide, by decide, by decide, forall_of_all (by decide)⟩, by decide⟩

theorem witness_stay_close : suite.held = false ∧ suite.rentals.length ≤ 16 ∧ State.reset.room.state = .vacant ∧
    40 ≠ 0 ∧ 40 ≠ suite.room.stay ∧ suite.room.state = .occupied ∧ 41 = suite.room.stay := by decide

theorem witness_polls : suite.held = false ∧ 6 ≤ { suite with reports := List.replicate 6 .alertWaiting }.reports.length ∧
    { suite with reports := List.replicate 5 .alertWaiting }.reports.length < 6 := by decide

theorem witness_lock_set : suite.held = false ∧ suite.rentals.length ≤ 16 ∧
    (∃ i : Fin 4, 1 < { lockBody 7 with barred := #v[0, 0, 0, 2] }.barred[i]) ∧
    (∀ i : Fin 4, { lockBody 7 with barred := #v[1, 0, 0, 1] }.barred[i] ≤ 1) := by decide

theorem witness_pin_test :
    (lockedOut 0 (some 1)).lock.lockout ≠ none ∧ ((lockedOut 0 none).lock.lockout = none ∧
      (lockedOut 0 none).lock.pin = some ⟨2, 4, 6, 8⟩ ∧ some (PinField.mk 1 3 5 7) ≠ some ⟨2, 4, 6, 8⟩) ∧
    (lockedOut 1 none).lock.attempts < 2 ∧ 2 ≤ (lockedOut 2 none).lock.attempts ∧
    (State.reset.lock.lockout = none ∧ State.reset.lock.pin = none) := by decide

theorem witness_unlock_and_relock :
    (suite.held = false ∧ suite.rentals.length ≤ 16 ∧ 3 < 4 ∧ State.reset.room.state = .vacant) ∧
    ((lockedOut 0 none).room.state = .occupied ∧ (lockedOut 0 none).lock.policy.barred[(3 : Fin 4)] = true ∧
      (lockedOut 0 none).lock.policy.barred[(1 : Fin 4)] = false ∧
      ((lockedOut 0 none).pinTest 1 none).1 = some .badPin ∧ (lockedOut 0 none).lock.lockout = none ∧
      (lockedOut 0 none).lock.pin = some ⟨2, 4, 6, 8⟩) ∧
    suite.lock.leases[(0 : Fin 4)] = none ∧ suite.lock.leases[(1 : Fin 4)] ≠ none := by decide

theorem witness_second_tick :
    (suite.held = false ∧ suite.rentals.length ≤ 16) ∧
    ({ suite with framer := { Framer.cold with state := .locked, integrator := 2, silence := 1 } }.framer.state = .locked) ∧
    ¬ (suite.framer.state = .locked ∧ 1 ≤ suite.framer.silence) ∧
    (suite.lanes[(0 : Fin 4)].mark = false ∧ (counted .rented true suite.counters).lanes[(0 : Fin 4)].mark = true) ∧
    suite.frame = none ∧ { suite with frame := some ⟨[], false, true⟩ }.frame = some ⟨[], false, true⟩ ∧
    { suite with frame := some ⟨[], false, false⟩ }.frame = some ⟨[], false, false⟩ := by decide

/-- The hypothesis of the tick's clause on lanes that are right. -/
theorem witness_lanes_right : ∀ n : Fin 4, (onAir .rented [bought 0 1]).laneRight n := by
  simp only [State.laneRight]; decide

theorem witness_metering :
    ({ record .preview with seen := true }.state = .preview ∧ { record .preview with seen := true }.seen = true) ∧
    ((bought 0 1).state = .active ∧ 1 ≤ (bought 0 1).windowLeft) ∧
    ((record .preview).state = .preview ∧ (record .preview).seen = false) ∧ (record .void).state = .void := by decide

/-- Preview seconds one short of the last, a window of 2 and a lease of 2. -/
theorem witness_quiet_second_tick :
    let s := { onAir .rented [{ record .preview with title := 1, previewSec := 118, seen := true }, bought 0 2] with
      lock.leases := #v[some 2, none, none, none] }
    s.held = false ∧ (∀ r ∈ s.rentals, r.state = .preview → ¬ (r.seen = true ∧ r.previewSec + 1 = r.allowance)) ∧
      (∀ r ∈ s.rentals, r.state = .active → 1 < r.windowLeft) ∧
      ∀ (n : Fin 4) (k : Nat), s.lock.leases[n] = some k → 1 < k := by
  refine ⟨by decide, by decide, by decide, fun n => forall_of_all ?_⟩
  revert n; decide

theorem witness_tick_events :
    (suite.held = false ∧ suite.rentals.length ≤ 16 ∧
      { suite with framer := { Framer.cold with state := .locked, silence := 1 } }.framer.silence = 1) ∧
    (let s := { suite with lanes := suite.lanes.set 3 { lane .rented (some 311) none with run := 4 } };
      s.lanes[(3 : Fin 4)].mark = false ∧ s.lanes[(3 : Fin 4)].run = 4 ∧ s.lanes[(3 : Fin 4)].state = .rented) ∧
    (let r := { record .preview with previewSec := 119, seen := true };
      r ∈ (onAir .preview [r]).rentals ∧ r.state = .preview ∧ r.seen = true ∧ r.previewSec + 1 = r.allowance) ∧
    (bought 0 1 ∈ (onAir .rented [bought 0 1]).rentals ∧ (bought 0 1).state = .active ∧ (bought 0 1).windowLeft = 1) ∧
    (lockedOut 0 (some 1)).lock.lockout = some 1 ∧
    { suite with lock.leases := #v[none, some 1, none, none] }.lock.leases[(1 : Fin 4)] = some 1 ∧
    { suite with frame := some ⟨[], false, true⟩ }.frame = some ⟨[], false, true⟩ := by decide

/-- Steps of 2, −2, 3 and −3. -/
theorem witness_time_mark :
    let s := { suite with clock := ⟨0, 10, true⟩ }
    s.held = false ∧ (((12 : Nat) : Int) - s.clock.houseTime ≤ 2 ∧ -2 ≤ ((8 : Nat) : Int) - s.clock.houseTime) ∧
      2 < ((13 : Nat) : Int) - s.clock.houseTime ∧ ((7 : Nat) : Int) - s.clock.houseTime < -2 := by decide

/-- A fitting setup of counter 3 and of counter 0 for OCCUPANCY, and one that OCCUPANCY on counter 1 makes unfit. -/
theorem witness_count_set : suite.held = false ∧
    (let b : CountSetBody := { counter := 3, kind := 8, filter := .service 999, occupancy := none };
      ¬ (3 < b.counter ∨ 9 < b.kind ∨ (b.kind ∉ [0, 5, 7, 8] ∨ (999 : Nat) = 0 ∨ 999 < 999) ∨
        (b.kind = 9 ∧ (b.counter ≠ 0 ∨ b.occupancy = none)))) ∧
    (countBody.counter = (0 : Fin 4).val ∧ countBody.kind = 9 ∧ countBody.occupancy.isSome = true ∧
      countBody.occupancy.all (fun o => decide (o.mode ≤ 2 ∧ ∀ i : Fin 7, o.states[i] ≤ 1)) = true) ∧
    (let b := { countBody with counter := 1 }; b.kind = 9 ∧ b.counter ≠ 0) := by decide

theorem witness_audit :
    (suite.counters[(0 : Fin 4)].setup = none) ∧
    (let s := { suite with counters := counters 0 4294967295 0 0 none };
      s.counters[(1 : Fin 4)].setup = some ⟨.viewSeconds, .lanes #v[true, true, false, false], none⟩ ∧
        (∃ l : Fin 4, (s.laneEvent 1 .viewSeconds).lane = some l ∧ #v[true, true, false, false][l] = true) ∧
        (∃ u, s.counters[(0 : Fin 4)].setup = some u ∧ u.kind = .occupancy ∧ u.occupancy.isSome = true)) ∧
    (suite.lanes[(0 : Fin 4)].service = some 311 ∧ suite.service? 311 = some (pay311 none) ∧
      suite.lanes[(3 : Fin 4)].service = none) := by
  refine ⟨by decide, ⟨by decide, by decide, _, rfl, by decide, by decide⟩, by decide⟩

/-- Step 7 asks for a record of title 7140, with places free and with 16 held of which one can be evicted. -/
theorem witness_asksRecord : (onAir .offer []).asksRecord 0 film ∧
    (onAir .offer ((List.range 16).map fun i => { record .expired with title := i + 1 })).asksRecord 0 film :=
  ⟨⟨311, pay311 (some 7140), 7140, by decide, by decide, by decide, by decide, by decide, by decide, by decide, by decide,
      .inl (by decide)⟩,
    ⟨311, pay311 (some 7140), 7140, by decide, by decide, by decide, by decide, by decide, by decide, by decide, by decide,
      .inr ⟨{ record .expired with title := 1 }, by decide, rfl, rfl⟩⟩⟩

theorem witness_settings : suite.held = false ∧ 3 < { tariffBody 0 0 with cls := 4 }.cls ∧
    { tariffBody 0 0 with cls := 3 }.cls = (3 : Fin 4).val ∧ (∃ i : Fin 6, 1 < (#v[0, 0, 0, 0, 0, 2] : Vector Nat 6)[i]) ∧
    (∀ i : Fin 6, (#v[1, 0, 0, 0, 0, 1] : Vector Nat 6)[i] ≤ 1) := by decide

theorem witness_latch :
    { suite with alerts := .replicate 6 .reported }.alerts[AlertKind.feedLost.index] ≠ .clear ∧
    suite.alerts[AlertKind.feedLost.index] = .clear ∧
    (∃ r ∈ { suite with reports := [.alertWaiting] }.reports, r.kind = .alert ∧ r.body = none) ∧
    (let s := { suite with reports := List.replicate 5 ⟨.alert, some []⟩ };
      (∀ r ∈ s.reports, ¬ (r.kind = .alert ∧ r.body = none)) ∧ s.reports.length < 6) ∧
    (let s := { suite with reports := List.replicate 6 ⟨.count, some []⟩ };
      (∀ r ∈ s.reports, ¬ (r.kind = .alert ∧ r.body = none)) ∧ 6 ≤ s.reports.length) := by decide

/-- A head that has not begun, an ALERT-RPT that begins, and a head with one byte left. -/
theorem witness_return_line :
    (suite.held = false ∧ suite.reports = []) ∧
    (let s := { suite with reports := [⟨.count, some []⟩], reportSent := 9 };
      s.reports = [⟨.count, some []⟩] ∧ ¬ (s.reportSent = 0 ∧ (ReportKind.count) = .alert ∧ (some ([] : List Byte)) = none) ∧
        s.reportSent + 1 < (reportBytes s.unitId ⟨.count, some []⟩).length) ∧
    (let s := { suite with reports := [⟨.count, some []⟩], reportSent := 10 };
      (reportBytes s.unitId ⟨.count, some []⟩).length = s.reportSent + 1) ∧
    (let s := { suite with reports := [.alertWaiting], alerts := #v[.latched, .clear, .reported, .clear, .clear, .latched] };
      s.reports = [.alertWaiting] ∧ (s.reportSent = 0 ∧ Report.alertWaiting.kind = .alert ∧ Report.alertWaiting.body = none) ∧
        ([0, 5] : List Nat).Pairwise (· < ·) ∧
        (∀ i : Fin 6, (#v[.reported, .clear, .reported, .clear, .clear, .reported] : Vector AlertState 6)[i] =
          if s.alerts[i] = .latched then .reported else s.alerts[i]) ∧
        s.reportSent + 1 < (reportBytes s.unitId { Report.alertWaiting with body := some [2, 0, 5] }).length) ∧
    (∀ k : Nat, k ∈ [0, 5] ↔ ∃ i : Fin 6, i.val = k ∧
      (#v[.latched, .clear, .reported, .clear, .clear, .latched] : Vector AlertState 6)[i] = .latched) := by
  refine ⟨by decide, by decide, by decide, by decide, fun k => ?_⟩
  constructor
  · intro h
    rcases List.mem_cons.1 h with rfl | h
    · exact ⟨0, rfl, rfl⟩
    · obtain rfl := List.mem_singleton.1 h
      exact ⟨5, rfl, rfl⟩
  · rintro ⟨i, rfl, h⟩
    revert i; decide

/-- Bodies written by hand from R183 and Tables 11-1 and 11-6: ON-AIR(311, 7140), COUNT-SET of counter 2 with a rating
filter, BUY(1, 7140) with PIN 2468, UNLOCK(3) without one. -/
theorem test_bodies_that_fit :
    readMgmt 0x03 [0x01, 0x37, 0x01, 0x1B, 0xE4] = some (.onAir 311 (some 7140)) ∧
    readMgmt 0x10 [0x02, 0x03, 0x03, 0x05, 0x00] = some (.countSet ⟨2, 3, .ratingAtLeast 5, none⟩) ∧
    readMgmt 0x0D [0x00, 0x00, 0x38] = some (.chargeAck 56) ∧
    readPanel 0x02 [0x01, 0x1B, 0xE4, 0x01, 0x02, 0x04, 0x06, 0x08] = some (.buy 1 7140 (some ⟨2, 4, 6, 8⟩)) ∧
    readPanel 0x04 [0x03, 0x00] = some (.unlock 3 none) := by decide

/-- A presence byte of 2, a filter form of 4, a body too long, a body too short, and the kind bytes beside the tables. -/
theorem test_bodies_that_do_not_fit :
    readMgmt 0x03 [0x01, 0x37, 0x02] = none ∧ readMgmt 0x10 [0x02, 0x03, 0x04, 0x00] = none ∧
    readMgmt 0x03 [0x01, 0x37, 0x00, 0x00] = none ∧ readMgmt 0x0D [0x00, 0x38] = none ∧ readMgmt 0x00 [] = none ∧
    readMgmt 0x16 [] = none ∧ readPanel 0x04 [0x03, 0x02] = none ∧ readPanel 0x08 [0x00] = none ∧
    readPanel 0x00 [] = none ∧ readPanel 0x0C [] = none := by decide

/-- Before, inside and at the end of a frame: ATTN-READ, E1h 09h 00h F7h, and the same with a wrong check byte. -/
theorem witness_panel_frames :
    suite.held = false ∧ suite.frame = none ∧ (0xE0 : Byte) ≠ 0xE1 ∧
    (let bytes : List Byte := [0x09] ++ [0x00]; bytes.length < 3) ∧
    (let bytes : List Byte := [0x09, 0x02, 0x00] ++ [0x00]; bytes.length ≠ 3 + (bytes.getD 1 0).toNat) ∧
    (let bytes : List Byte := [0x09, 0x00] ++ [0xF7];
      3 ≤ bytes.length ∧ bytes.length = 3 + (bytes.getD 1 0).toNat ∧ (bytes.map BitVec.toNat).sum % 256 = 0 ∧
        readPanel (bytes.getD 0 0).toNat ((bytes.drop 2).take (bytes.getD 1 0).toNat) = some .attnRead) ∧
    (let bytes : List Byte := [0x09, 0x00] ++ [0xF8];
      bytes.length = 3 + (bytes.getD 1 0).toNat ∧ (bytes.map BitVec.toNat).sum % 256 ≠ 0) ∧
    (let bytes : List Byte := [0x0C, 0x00] ++ [0xF4];
      (bytes.map BitVec.toNat).sum % 256 = 0 ∧
        readPanel (bytes.getD 0 0).toNat ((bytes.drop 2).take (bytes.getD 1 0).toNat) = none) := by decide

theorem witness_reply_buffer : suite.sending = none ∧ suite.held = false ∧
    (after suite .askRoom).sending ≠ none ∧ (after suite .askRoom).held = false := by decide

/-- The smallest code below the floor, none below it, and the smallest left after an acknowledgement. -/
theorem witness_attention :
    let s := { suite with codes := [1, 2, 21], floor := 3 }
    s.held = false ∧ s.codes.Pairwise (· < ·) ∧ (1 ∈ s.codes ∧ 1 < s.floor ∧ ∀ c ∈ s.codes, 1 ≤ c) ∧
      (∀ c ∈ ({ s with floor := 1 }).codes, 1 ≤ c) ∧ (∃ c ∈ s.codes, c < s.floor) ∧
      (∃ c ∈ s.codes, c ≠ 1 ∧ c < s.floor) ∧ (2 ∈ s.codes ∧ 2 ≠ 1 ∧ 2 < s.floor ∧ ∀ c ∈ s.codes, c ≠ 1 → 2 ≤ c) ∧
      21 < 22 ∧ 21 ≤ 21 := by decide

/-! The invariants at the suite with title 7140 rented and a command waiting, and the step it takes. -/

def running : State :=
  { onAir .rented [bought 3 900] with
    charges := [charge 56], nextSerial := 58, room.spend := 1443, pending := [.secondTick]
    lanes := #v[{ lane .rented (some 311) (some 7140) with queue := [media 512 1] }, lane .rented (some 311) (some 7140),
                lane .clear (some 204) none, lane .idle none none]
    reports := [⟨.count, some []⟩, .alertWaiting], reportSent := 10, codes := [16, 17]
    keys := suite.keys.set 9 { KeyFamily.cold with parity := some .even, even := ⟨some keyA, some keyA⟩ } }

theorem witness_step : ∃ t, step running = .next t := ⟨_, rfl⟩

theorem witness_lanesInv : lanesInv running := by
  simp only [lanesInv, State.laneRight]; decide

theorem witness_queuesInv : queuesInv running := by
  simp only [queuesInv, Lane.queueInv]; decide

theorem witness_chargesInv_spendInv : chargesInv running ∧ spendInv running := by
  simp only [chargesInv, spendInv]; decide

theorem witness_rentalsInv : rentalsInv running := by
  simp only [rentalsInv, CatalogEntry.inRange, RentalRec.inRange]; decide

theorem witness_directoryInv : directoryInv { loaded fullBank0 with pending := [.svcDrop 1] } ∧
    ∃ t, step { loaded fullBank0 with pending := [.svcDrop 1] } = .next t := ⟨witness_directory.1, _, rfl⟩

theorem witness_lockInv : lockInv running := by
  refine ⟨by decide, by decide, by decide, by decide, by decide, forall_of_all (by decide), by decide,
    fun k h => (by cases h), by decide, by decide, fun n => forall_of_all ?_⟩
  revert n; decide

theorem witness_reportsInv : reportsInv running := by
  refine ⟨by decide, by decide, by decide, by decide, fun _ => ⟨_, _, rfl, by decide, by decide⟩⟩

theorem witness_framerInv_keysInv_attentionInv : framerInv running ∧ keysInv running ∧ attentionInv running := by
  refine ⟨by simp only [framerInv]; decide, ?_, by simp only [attentionInv]; decide⟩
  intro n p
  cases p <;> revert n <;> decide

end Sys2Proof.Tests
end

