-- ==== Sys2Proof/Proofs/CellHeader.lean ====
section
/-! PROOF. The cell header of R2: what the kind and mark fields decode to, when the cell reader accepts, and O11. -/

namespace Sys2Proof.Machine

/-! ## The kind and mark fields (Tables 1-1 and 11-4) -/

@[simp] theorem CellKind.ofField_eq_some_iff {n : Nat} {k : CellKind} :
    CellKind.ofField n = some k ↔ k.toField = n := by
  constructor
  · intro h
    unfold CellKind.ofField at h
    split at h <;> cases h <;> rfl
  · rintro rfl
    cases k <;> rfl

@[simp] theorem Mark.ofField_eq_some_iff {n : Nat} {m : Mark} :
    Mark.ofField n = some m ↔ m.toField = n := by
  constructor
  · intro h
    unfold Mark.ofField at h
    split at h <;> cases h <;> rfl
  · rintro rfl
    rcases m with _ | _ | _ <;> rfl

/-- Field value 3 is the invalid kind. -/
theorem CellKind.exists_toField_eq_iff {n : Nat} : (∃ k : CellKind, k.toField = n) ↔ n ≤ 2 := by
  constructor
  · rintro ⟨k, rfl⟩
    cases k <;> decide
  · intro h
    interval_cases n
    exacts [⟨.media, rfl⟩, ⟨.management, rfl⟩, ⟨.fill, rfl⟩]

/-- Field value 3 is the invalid mark. -/
theorem Mark.exists_toField_eq_iff {n : Nat} : (∃ m : Mark, m.toField = n) ↔ n ≤ 2 := by
  constructor
  · rintro ⟨m, rfl⟩
    rcases m with _ | _ | _ <;> decide
  · intro h
    interval_cases n
    exacts [⟨.clear, rfl⟩, ⟨.scrambled .even, rfl⟩, ⟨.scrambled .odd, rfl⟩]

theorem CellKind.toField_eq_one_iff {k : CellKind} : k.toField = 1 ↔ k = .management := by
  cases k <;> decide

theorem Mark.toField_eq_zero_iff {m : Mark} : m.toField = 0 ↔ m = .clear := by
  rcases m with _ | _ | _ <;> decide

/-! ## The cell reader (R2, R184) -/

/-- The reader accepts exactly under a matching header check, valid kind and mark fields, and no scrambled mark on a
management cell; and what it gives is read off the bytes field by field. -/
theorem Cell.ofBytes_eq_some_iff {bs : List Byte} {c : Cell} :
    Cell.ofBytes bs = some c ↔
      bs.getD 5 0 = headerCheck (bs.getD 2 0) (bs.getD 3 0) (bs.getD 4 0) ∧
      c.kind.toField = (bs.getD 2 0).toNat / 64 ∧ c.mark.toField = (bs.getD 2 0).toNat / 16 % 4 ∧
      (c.kind = .management → c.mark = .clear) ∧
      c.seq = (bs.getD 2 0).toNat % 16 ∧ c.tag = (bs.getD 3 0).toNat * 16 + (bs.getD 4 0).toNat / 16 ∧
      c.carry = (bs.getD 4 0).toNat % 16 ∧ c.payload = bs.drop 6 := by
  constructor
  · intro h
    simp only [Cell.ofBytes] at h
    split at h
    next hcheck =>
      split at h
      next kind mark hkind hmark =>
        split at h
        next => cases h
        next hclear =>
          cases h
          exact ⟨hcheck, CellKind.ofField_eq_some_iff.1 hkind, Mark.ofField_eq_some_iff.1 hmark,
            by simpa using hclear, rfl, rfl, rfl, rfl⟩
      next => cases h
    next => cases h
  · rintro ⟨hcheck, hkind, hmark, hclear, hseq, htag, hcarry, hpayload⟩
    obtain ⟨kind, mark, seq, tag, carry, payload⟩ := c
    subst hseq htag hcarry hpayload
    have hallowed : ¬(kind = .management ∧ mark ≠ .clear) := by simpa using hclear
    simp only [Cell.ofBytes, if_pos hcheck, CellKind.ofField_eq_some_iff.2 hkind,
      Mark.ofField_eq_some_iff.2 hmark, if_neg hallowed]

/-- A header is good when a kind and a mark that fit together stand in it and its check matches. -/
theorem Cell.isSome_ofBytes_iff_exists {bs : List Byte} :
    (Cell.ofBytes bs).isSome = true ↔
      bs.getD 5 0 = headerCheck (bs.getD 2 0) (bs.getD 3 0) (bs.getD 4 0) ∧
      ∃ (k : CellKind) (m : Mark), k.toField = (bs.getD 2 0).toNat / 64 ∧
        m.toField = (bs.getD 2 0).toNat / 16 % 4 ∧ (k = .management → m = .clear) := by
  rw [Option.isSome_iff_exists]
  constructor
  · rintro ⟨c, hc⟩
    obtain ⟨hcheck, hkind, hmark, hclear, -⟩ := Cell.ofBytes_eq_some_iff.1 hc
    exact ⟨hcheck, c.kind, c.mark, hkind, hmark, hclear⟩
  · rintro ⟨hcheck, k, m, hkind, hmark, hclear⟩
    exact ⟨⟨k, m, _, _, _, _⟩,
      Cell.ofBytes_eq_some_iff.2 ⟨hcheck, hkind, hmark, hclear, rfl, rfl, rfl, rfl⟩⟩

/-- Settles O11: a kind and a mark stand in the header exactly when their fields are at most 2, and the limit on
management cells is the same said of the fields 1 and 0. -/
theorem goodHeaderConditions : Obligations.good_header_conditions := by
  unfold Obligations.good_header_conditions
  intro bs
  rw [Cell.isSome_ofBytes_iff_exists]
  refine and_congr Iff.rfl ?_
  constructor
  · rintro ⟨k, m, hkind, hmark, hclear⟩
    refine ⟨CellKind.exists_toField_eq_iff.1 ⟨k, hkind⟩, Mark.exists_toField_eq_iff.1 ⟨m, hmark⟩, ?_⟩
    rw [← hkind, ← hmark, CellKind.toField_eq_one_iff, Mark.toField_eq_zero_iff]
    exact hclear
  · rintro ⟨hkindLe, hmarkLe, hclear⟩
    obtain ⟨k, hkind⟩ := CellKind.exists_toField_eq_iff.2 hkindLe
    obtain ⟨m, hmark⟩ := Mark.exists_toField_eq_iff.2 hmarkLe
    rw [← hkind, ← hmark, CellKind.toField_eq_one_iff, Mark.toField_eq_zero_iff] at hclear
    exact ⟨k, m, hkind, hmark, hclear⟩

end Sys2Proof.Machine
end

