-- ==== Sys2Proof/Proofs/KeyLoading.lean ====
section
/-! PROOF. Loading and wiping keys (R37 to R40): what a load leaves in each slot of a family, what the owners of KEY-PUT
and KEY-WIPE answer, and O20. -/

namespace Sys2Proof.Machine

/-! ## The family and parity fields (R37) -/

@[simp] theorem family?_val (f : Fin 32) : family? f.val = some f := by simp [family?]

theorem family?_eq_none_iff {n : Nat} : family? n = none ↔ 31 < n := by
  simp only [family?, dite_eq_right_iff, reduceCtorEq, imp_false]
  omega

@[simp] theorem Parity.ofField_zero_of_even_one_of_odd (p : Parity) :
    Parity.ofField (if p = .even then 0 else 1) = some p := by
  cases p <;> rfl

theorem Parity.ofField_eq_none_iff {n : Nat} : Parity.ofField n = none ↔ 1 < n := by
  match n with
  | 0 | 1 | n + 2 => simp [Parity.ofField]

/-! ## One slot of a family -/

@[simp] theorem KeyFamily.setSlot_parity (f : KeyFamily) (p : Parity) (k : KeySlot) :
    (f.setSlot p k).parity = f.parity := by
  cases p <;> rfl

@[simp] theorem KeyFamily.setSlot_keyMisses (f : KeyFamily) (p : Parity) (k : KeySlot) :
    (f.setSlot p k).keyMisses = f.keyMisses := by
  cases p <;> rfl

theorem KeyFamily.slot_setSlot (f : KeyFamily) (p q : Parity) (k : KeySlot) :
    (f.setSlot p k).slot q = if q = p then k else f.slot q := by
  cases p <;> cases q <;> rfl

@[simp] theorem KeyFamily.inUse_iff {f : KeyFamily} {p : Parity} : f.inUse p = true ↔ f.parity = some p :=
  beq_iff_eq

/-! ## Loading a key (R38, R39) -/

/-- A load writes the slot of its parity and nothing else; the slot in use gets the key staged, an idle one live. -/
theorem KeyFamily.load_eq_setSlot (f : KeyFamily) (p : Parity) (k : Key) :
    f.load p k =
      f.setSlot p (if f.parity = some p then { f.slot p with staged := some k } else ⟨some k, none⟩) := by
  simp only [KeyFamily.load, KeyFamily.inUse_iff]
  split <;> rfl

/-! ## The owners of KEY-PUT and KEY-WIPE -/

theorem keyPut_of_fields {b : KeyPutBody} {f : Fin 32} {p : Parity} (hfamily : family? b.family = some f)
    (hparity : Parity.ofField b.parity = some p) (s : State) :
    keyPut b s = some (s.modFamily f fun g => g.load p ⟨b.key, b.check⟩) := by
  simp only [keyPut, hfamily, hparity]

theorem keyPut_eq_none_iff {b : KeyPutBody} {s : State} :
    keyPut b s = none ↔ 31 < b.family ∨ 1 < b.parity := by
  rw [← family?_eq_none_iff, ← Parity.ofField_eq_none_iff]
  cases hfamily : family? b.family with
  | none => simp [keyPut, hfamily]
  | some f => cases hparity : Parity.ofField b.parity <;> simp [keyPut, hfamily, hparity]

theorem keyWipe_val (f : Fin 32) (s : State) : keyWipe f.val s = some (s.modFamily f KeyFamily.wipe) := by
  simp only [keyWipe, family?_val]

theorem keyWipe_of_out_of_range {n : Nat} (h : 31 < n) (s : State) : keyWipe n s = none := by
  simp only [keyWipe, family?_eq_none_iff.2 h]

/-! ## The two messages -/

theorem exec_keyPut_of_fields {s : State} (hs : s.held = false) {b : KeyPutBody} {f : Fin 32} {p : Parity}
    (hfamily : family? b.family = some f) (hparity : Parity.ofField b.parity = some p) :
    exec (.keyPut b) s = .next (s.countTaken.modFamily f fun g => g.load p ⟨b.key, b.check⟩) := by
  rw [exec_keyPut hs, State.takeMsg_taken (keyPut_of_fields hfamily hparity _)]

theorem exec_keyPut_refused {s : State} (hs : s.held = false) {b : KeyPutBody}
    (h : 31 < b.family ∨ 1 < b.parity) : exec (.keyPut b) s = .next s.countRefused := by
  rw [exec_keyPut hs, State.takeMsg_refused (keyPut_eq_none_iff.2 h)]

theorem exec_keyWipe_val {s : State} (hs : s.held = false) (f : Fin 32) :
    exec (.keyWipe f.val) s = .next (s.countTaken.modFamily f KeyFamily.wipe) := by
  rw [exec_keyWipe hs, State.takeMsg_taken (keyWipe_val f _)]

theorem exec_keyWipe_refused {s : State} (hs : s.held = false) {n : Nat} (h : 31 < n) :
    exec (.keyWipe n) s = .next s.countRefused := by
  rw [exec_keyWipe hs, State.takeMsg_refused (keyWipe_of_out_of_range h _)]

/-- Settles O20: a KEY-PUT taken is one load, which writes one slot, and a KEY-WIPE taken is one wipe; both are refused
exactly where a field names no family or no parity. -/
theorem keyPutAndKeyWipe : Obligations.key_put_and_key_wipe := by
  unfold Obligations.key_put_and_key_wipe
  intro s hs
  refine ⟨fun b f p hfamily hparity => ?_, fun b h => exec_keyPut_refused hs h,
    fun f => exec_keyWipe_val hs f, fun n h => exec_keyWipe_refused hs h⟩
  have hexec := exec_keyPut_of_fields hs (f := f) (p := p) (by rw [hfamily, family?_val])
    (by rw [hparity, Parity.ofField_zero_of_even_one_of_odd])
  refine ⟨s.keys[f].load p ⟨b.key, b.check⟩, hexec, ?_⟩
  rw [KeyFamily.load_eq_setSlot]
  refine ⟨KeyFamily.setSlot_parity .., KeyFamily.setSlot_keyMisses ..,
    fun q hq => ?other, fun hinUse => ?inUse, fun hidle => ?idle⟩
  case other => rw [KeyFamily.slot_setSlot, if_neg hq]
  case inUse => rw [KeyFamily.slot_setSlot, if_pos rfl, if_pos hinUse]
  case idle => rw [KeyFamily.slot_setSlot, if_pos rfl, if_neg hidle]

end Sys2Proof.Machine
end

