-- ==== Sys2Proof/Proofs/LaneSelection.lean ====
section
/-! PROOF. Selecting a service (R61, R66): which fields PICK accepts, the state the selection leaves, what the owner of
PICK answers, and O24. -/

namespace Sys2Proof.Machine

/-! ## The lane and service fields -/

@[simp] theorem four?_val (n : Fin 4) : four? n.val = some n := by simp [four?]

theorem four?_eq_none_iff {n : Nat} : four? n = none ↔ 3 < n := by
  simp only [four?, dite_eq_right_iff, reduceCtorEq, imp_false]
  omega

theorem serviceOptOk_iff {k : Option Nat} : serviceOptOk k = true ↔ ∀ x, k = some x → 1 ≤ x ∧ x ≤ 999 := by
  cases k with
  | none => simp [serviceOptOk]
  | some x => simp [serviceOptOk, serviceOk]

theorem serviceOptOk_eq_false_iff {k : Option Nat} :
    serviceOptOk k = false ↔ k = some 0 ∨ ∃ x, k = some x ∧ 999 < x := by
  rw [← Bool.not_eq_true, serviceOptOk_iff]
  cases k with
  | none => simp
  | some x =>
    have hrange : ¬ (1 ≤ x ∧ x ≤ 999) ↔ x = 0 ∨ 999 < x := by omega
    simpa only [Option.some.injEq, forall_eq', exists_eq_left'] using hrange

/-! ## The selection (R61, R66) -/

/-- What PICK does before it sends its cause: one lane's selection is set. -/
def State.select (s : State) (n : Fin 4) (k : Option Nat) : State := s.modLane n fun l => l.select k

@[simp] theorem State.select_rentals (s : State) (n : Fin 4) (k : Option Nat) :
    (s.select n k).rentals = s.rentals := rfl

theorem State.select_eq (s : State) (n : Fin 4) (k : Option Nat) :
    s.select n k =
      { s with
        lanes := s.lanes.set n
          (if s.lanes[n].service = k then s.lanes[n]
           else
            { s.lanes[n] with
              service := k, queue := []
              purged := min 65535 (s.lanes[n].purged + s.lanes[n].queue.length) }) } := by
  simp only [State.select, State.modLane, Lane.select, Lane.purge, satAdd]

/-! ## The owner of PICK -/

theorem pick_badArg {lane : Nat} {k : Option Nat} (h : 3 < lane ∨ k = some 0 ∨ ∃ x, k = some x ∧ 999 < x)
    (s : State) : pick lane k s = .plain s .badArg := by
  rw [← four?_eq_none_iff, ← serviceOptOk_eq_false_iff] at h
  rcases h with hlane | hservice
  · simp only [pick, hlane]
  · cases hlane : four? lane <;> simp [pick, hlane, hservice]

theorem pick_val (n : Fin 4) {k : Option Nat} (hk : ∀ x, k = some x → 1 ≤ x ∧ x ≤ 999) (s : State) :
    pick n.val k s =
      { state := (s.select n k).deliver [n], result := .done,
        fields := ((s.select n k).deliver [n]).lanes[n].pickFields } := by
  simp only [pick, four?_val, serviceOptOk_iff.2 hk, if_true, State.select]

/-- Settles O24: a PICK taken is one selection followed by one cause to its lane, and the reply shows the lane after it;
a field out of range changes nothing. -/
theorem pickSelectsAndEvaluates : Obligations.pick_selects_and_evaluates := by
  unfold Obligations.pick_selects_and_evaluates
  intro s k hs hrentals
  refine ⟨fun lane hbad => ?refused, fun n hk => ⟨(s.select n k).deliver [n], ?reply, ?cause⟩⟩
  case refused => rw [exec_pick hs, State.reply, pick_badArg hbad, Answer.plain]
  case reply => rw [exec_pick hs, State.reply, pick_val n hk, Lane.pickFields]
  case cause =>
    rw [← State.select_eq]
    exact causesSent_deliver _ [n] _ (List.nodup_singleton n) (by rwa [State.select_rentals])
      fun _ => List.mem_singleton.symm

end Sys2Proof.Machine
end

