-- ==== Sys2Proof/Proofs/TariffArithmetic.lean ====
section
/-! PROOF. The tariff arithmetic (chapter 6): what each stage of the charge computation gives, one law per branch of its
rule, and O32 assembled from them. -/

namespace Sys2Proof.Machine

/-! ## Stage 1: the pre-offset, floored at 0 (R105) -/

theorem TariffSet.stage1_of_neg {t : TariffSet} {p : Nat} (h : (p : Int) + t.preOffset < 0) : t.stage1 p = 0 :=
  Int.toNat_of_nonpos h.le

theorem TariffSet.stage1_of_nonneg {t : TariffSet} {p : Nat} (h : 0 ≤ (p : Int) + t.preOffset) :
    (t.stage1 p : Int) = p + t.preOffset :=
  Int.toNat_of_nonneg h

/-! ## Stage 2: the scale in 256ths, half up (R106)

The two bounds fix the quotient: 256 times it is at most the rounded product, and 256 times its successor is above. -/

theorem TariffSet.mul_stage2_le (t : TariffSet) (x1 : Nat) : 256 * t.stage2 x1 ≤ x1 * t.scale + 128 :=
  Nat.mul_div_le _ 256

theorem TariffSet.lt_mul_stage2_succ (t : TariffSet) (x1 : Nat) : x1 * t.scale + 128 < 256 * (t.stage2 x1 + 1) :=
  Nat.lt_mul_div_succ _ (by decide)

/-! ## Stage 3: the post-offset, saturated to 0..65,535 (R107) -/

theorem TariffSet.stage3_of_neg {t : TariffSet} {x2 : Nat} (h : (x2 : Int) + t.postOffset < 0) : t.stage3 x2 = 0 := by
  rw [stage3, Int.toNat_of_nonpos h.le, Nat.min_zero]

theorem TariffSet.stage3_of_gt {t : TariffSet} {x2 : Nat} (h : 65535 < (x2 : Int) + t.postOffset) :
    t.stage3 x2 = 65535 := by
  have hsum : 65535 ≤ ((x2 : Int) + t.postOffset).toNat := by omega
  rw [stage3, Nat.min_eq_left hsum]

theorem TariffSet.stage3_of_inRange {t : TariffSet} {x2 : Nat} (hlow : 0 ≤ (x2 : Int) + t.postOffset)
    (hhigh : (x2 : Int) + t.postOffset ≤ 65535) : (t.stage3 x2 : Int) = x2 + t.postOffset := by
  have hsum : ((x2 : Int) + t.postOffset).toNat ≤ 65535 := Int.toNat_le.2 hhigh
  rw [stage3, Nat.min_eq_right hsum, Int.toNat_of_nonneg hlow]

/-! ## Stage 4: the limits, low test first (R108) -/

theorem TariffSet.stage4_of_low {t : TariffSet} {x3 : Nat} (h : x3 < t.lowCompare) : t.stage4 x3 = t.lowSet :=
  if_pos h

theorem TariffSet.stage4_of_high {t : TariffSet} {x3 : Nat} (hlow : t.lowCompare ≤ x3) (hhigh : t.highCompare < x3) :
    t.stage4 x3 = t.highSet := by
  rw [stage4, if_neg hlow.not_gt, if_pos hhigh]

theorem TariffSet.stage4_of_between {t : TariffSet} {x3 : Nat} (hlow : t.lowCompare ≤ x3)
    (hhigh : x3 ≤ t.highCompare) : t.stage4 x3 = x3 := by
  rw [stage4, if_neg hlow.not_gt, if_neg hhigh.not_gt]

/-! ## Stage 5: the result handed over (R109) -/

/-- Settles O32: the three intermediate results are the stages' own values, and the charge is stage 4 of the third. -/
theorem tariffStages : Obligations.tariff_stages := by
  unfold Obligations.tariff_stages
  intro t p
  refine ⟨t.stage1 p, t.stage2 (t.stage1 p), t.stage3 (t.stage2 (t.stage1 p)), ?_⟩
  rw [TariffSet.charge]
  exact ⟨TariffSet.stage1_of_neg, TariffSet.stage1_of_nonneg,
    t.mul_stage2_le _, t.lt_mul_stage2_succ _,
    TariffSet.stage3_of_neg, TariffSet.stage3_of_gt, TariffSet.stage3_of_inRange,
    TariffSet.stage4_of_low, TariffSet.stage4_of_high, TariffSet.stage4_of_between⟩

end Sys2Proof.Machine
end

