-- ==== Sys2Proof/Proofs/StayClosing.lean ====
section
/-! PROOF. Closing a stay (R120, R121, R138): the state a close leaves, what a change of the room sends to the lanes,
what the owner of STAY-CLOSE answers, and O34. -/

namespace Sys2Proof.Machine

/-! ## The close (R120, R138) -/

/-- The five stay-end effects of R138 join what R120 clears; stay number, class, spend ceiling and lock policy stay. -/
theorem State.closeStay_eq (s : State) :
    s.closeStay =
      { s with
        rentals := []
        room.state := .vacant, room.spend := 0, room.purchasePin := false
        lock.pin := none, lock.attempts := 0, lock.lockout := none, lock.leases := .replicate 4 none
        lock.roomCeiling := s.lock.policy.defaultCeiling } := rfl

/-! ## A change of the room (R130) -/

/-- ROOM_CHANGED is raised first, and then every lane has one cause. -/
theorem causesSent_roomChanged {u : State} (h : u.rentals.length ≤ 16) :
    causesSent { u with codes := (u.raiseCode 2).codes } (fun _ => True) u.roomChanged :=
  causesSent_deliver (u.raiseCode 2) allLanes _ (by decide) (by rwa [State.raiseCode_rentals])
    fun n => iff_of_true trivial (mem_allLanes n)

/-! ## The owner of STAY-CLOSE -/

theorem stayClose_zero (s : State) : stayClose 0 s = none := if_pos rfl

theorem stayClose_own {s : State} {k : Nat} (hk : k ≠ 0) (hopen : s.room.state = .occupied) (hown : k = s.room.stay) :
    stayClose k s = some s.closeStay.roomChanged := by
  rw [stayClose, if_neg hk, if_pos ⟨hopen, hown⟩]

theorem stayClose_stale {s : State} {k : Nat} (hk : k ≠ 0) (hstale : s.room.state = .vacant ∨ k ≠ s.room.stay) :
    stayClose k s = some { s with room.staleStays := satAdd s.room.staleStays 1 } := by
  have hnot : ¬ (s.room.state = .occupied ∧ k = s.room.stay) := by
    rintro ⟨hopen, hown⟩
    rcases hstale with hvacant | hother
    · rw [hvacant] at hopen
      cases hopen
    · exact hother hown
  rw [stayClose, if_neg hk, if_neg hnot]

/-- Settles O34: stay 0 is refused, a stay that is not the one open only moves the stale count, and the open one's close
is one change of the room. -/
theorem stayCloseClosesItsOwnStay : Obligations.stay_close_closes_its_own_stay := by
  unfold Obligations.stay_close_closes_its_own_stay
  intro s k hs _
  rw [exec_stayClose hs]
  refine ⟨fun hzero => ?refused, fun hk hstale => ?stale, fun hk hopen hown => ?closed⟩
  case refused =>
    subst hzero
    rw [State.takeMsg_refused (stayClose_zero _), State.countRefused, satAdd]
  case stale =>
    rw [State.takeMsg_taken (stayClose_stale hk hstale)]
    rfl
  case closed =>
    refine ⟨s.countTaken.closeStay.roomChanged, by rw [State.takeMsg_taken (stayClose_own hk hopen hown)], ?_⟩
    have hcauses := causesSent_roomChanged (u := s.countTaken.closeStay) (Nat.zero_le 16)
    rwa [State.closeStay_eq] at hcauses ⊢

end Sys2Proof.Machine
end

