-- ==== Sys2Proof/Proofs/LockSetting.lean ====
section
/-! PROOF. Loading the lock policy (R135, R136): what clamping makes of a quantity, when the flags of a message are in
range, the policy a LOCK-SET carries, what it does to the lock unit, and O36. -/

namespace Sys2Proof.Machine

/-! ## Quantities and flags (R165, R183) -/

theorem clamp_eq_max_min {lo hi : Nat} (h : lo ≤ hi) (n : Nat) : clamp lo hi n = max lo (min hi n) := by
  unfold clamp
  split
  · omega
  · split <;> omega

theorem clamp_zero (hi n : Nat) : clamp 0 hi n = min hi n := by
  rw [clamp_eq_max_min (Nat.zero_le hi), Nat.zero_max]

theorem flagsOk_iff {k : Nat} {fs : Vector Nat k} : flagsOk fs = true ↔ ∀ i : Fin k, fs[i] ≤ 1 := by
  simp only [flagsOk, List.all_eq_true, Vector.mem_toList_iff, decide_eq_true_eq, Vector.forall_mem_iff_forall_getElem]
  exact ⟨fun h i => h i.val i.isLt, fun h i hi => h ⟨i, hi⟩⟩

theorem flagsOf_getElem {k : Nat} (fs : Vector Nat k) (i : Fin k) : (flagsOf fs)[i] = decide (fs[i] = 1) := by
  rw [flagsOf, mapEach_getElem]
  rfl

/-! ## The policy of a LOCK-SET (R135) -/

theorem policyOf_eq (b : LockSetBody) :
    policyOf b =
      { houseLimit := min 7 b.houseLimit, defaultCeiling := min 7 b.defaultCeiling
        laneCeilings := (policyOf b).laneCeilings, barred := (policyOf b).barred
        leaseLength := max 300 (min 43200 b.leaseLength), discreet := min 8 b.discreet } := by
  simp only [policyOf, clamp_zero, clamp_eq_max_min (show 300 ≤ 43200 by decide)]

theorem policyOf_defaultCeiling (b : LockSetBody) : (policyOf b).defaultCeiling = min 7 b.defaultCeiling :=
  clamp_zero 7 b.defaultCeiling

theorem policyOf_laneCeilings (b : LockSetBody) (i : Fin 4) :
    (policyOf b).laneCeilings[i] = min 7 b.laneCeilings[i] := by
  rw [policyOf, mapEach_getElem, clamp_zero]

theorem policyOf_barred (b : LockSetBody) (i : Fin 4) : (policyOf b).barred[i] = decide (b.barred[i] = 1) :=
  flagsOf_getElem b.barred i

/-! ## Setting the policy (R136) -/

/-- The PIN, the attempt count and the lockout stay, and so does everything outside the lock unit. -/
theorem State.setPolicy_eq (s : State) (p : Policy) :
    s.setPolicy p =
      { s with
        lock.policy := p
        lock.roomCeiling := if s.room.state = .vacant then p.defaultCeiling else s.lock.roomCeiling
        lock.leases := (s.setPolicy p).lock.leases } := rfl

theorem State.setPolicy_policy (s : State) (p : Policy) : (s.setPolicy p).lock.policy = p := rfl

theorem State.setPolicy_leases (s : State) (p : Policy) (i : Fin 4) :
    (s.setPolicy p).lock.leases[i] = if p.barred[i] then none else s.lock.leases[i] :=
  zipEach_getElem _ p.barred s.lock.leases i

/-! ## The owner of LOCK-SET -/

theorem lockSet_of_flags {b : LockSetBody} (h : ∀ i : Fin 4, b.barred[i] ≤ 1) (s : State) :
    lockSet b s = some ((s.setPolicy (policyOf b)).deliver allLanes) :=
  if_pos (flagsOk_iff.2 h)

theorem lockSet_of_bad_flag {b : LockSetBody} (h : ∃ i : Fin 4, 1 < b.barred[i]) (s : State) :
    lockSet b s = none := by
  obtain ⟨i, hi⟩ := h
  exact if_neg fun hflags => (flagsOk_iff.1 hflags i).not_gt hi

/-- Settles O36: a flag above 1 is refused, and a LOCK-SET taken sets the policy it carries and then sends every lane
one cause. -/
theorem lockSetReplacesThePolicy : Obligations.lock_set_replaces_the_policy := by
  unfold Obligations.lock_set_replaces_the_policy
  intro s b hs hrentals
  rw [exec_lockSet hs]
  refine ⟨fun hbad => ?refused, fun hflags =>
    ⟨s.countTaken.setPolicy (policyOf b), (s.countTaken.setPolicy (policyOf b)).deliver allLanes,
      by rw [State.takeMsg_taken (lockSet_of_flags hflags _)], ?state, fun i => ⟨?ceiling, ?barred, ?lease⟩, ?causes⟩⟩
  case refused => rw [State.takeMsg_refused (lockSet_of_bad_flag hbad _), State.countRefused, satAdd]
  case state =>
    rw [State.setPolicy_policy, ← policyOf_eq, ← policyOf_defaultCeiling]
    exact State.setPolicy_eq s.countTaken (policyOf b)
  case ceiling => rw [State.setPolicy_policy, policyOf_laneCeilings]
  case barred => rw [State.setPolicy_policy, policyOf_barred]
  case lease => simp only [State.setPolicy_leases, policyOf_barred, decide_eq_true_eq]; rfl
  case causes =>
    exact causesSent_deliver _ allLanes _ (by decide) hrentals fun n => iff_of_true trivial (mem_allLanes n)

end Sys2Proof.Machine
end

