-- ==== Sys2Proof/Proofs/PinTest.lean ====
section
/-! PROOF. The PIN test (R140, R141): what a lockout's start and a failure leave, one law per outcome of the test, and
O37. -/

namespace Sys2Proof.Machine

/-! ## A lockout starts (R141) -/

/-- The latch and the code do not see the lock unit, so they are those of the state before. -/
theorem State.startLockout_eq (s : State) :
    s.startLockout =
      { s with
        lock.attempts := 0, lock.lockout := some 900
        alerts := (s.latch .pinLockout).alerts, reports := (s.latch .pinLockout).reports
        owed := (s.latch .pinLockout).owed, codes := (s.raiseCode 3).codes } := by
  obtain ⟨halerts, hreports, howed⟩ :=
    State.latch_congr (s := s) (t := { s with lock.attempts := 0, lock.lockout := some 900 }) .pinLockout rfl rfl rfl
  rw [State.startLockout, State.latch_shape, halerts, hreports, howed]
  rfl

/-! ## A failure (R140) -/

/-- What the audit counters are told of a failure (R155). -/
def AuditEvent.pinFailure (n : Fin 4) : AuditEvent :=
  { kind := .pinFailures, lane := some n, service := none, rating := none }

theorem State.pinFailure_below {s : State} (n : Fin 4) (h : s.lock.attempts < 2) :
    s.pinFailure n = { s.audit (.pinFailure n) with lock.attempts := s.lock.attempts + 1 } :=
  if_neg (by omega)

theorem State.pinFailure_third {s : State} (n : Fin 4) (h : 2 ≤ s.lock.attempts) :
    s.pinFailure n = (s.audit (.pinFailure n)).startLockout :=
  if_pos (by omega)

/-- The failure is reported, whether or not it starts a lockout. -/
theorem State.pinFailure_counters (s : State) (n : Fin 4) :
    (s.pinFailure n).counters = (s.audit (.pinFailure n)).counters := by
  rcases Nat.lt_or_ge s.lock.attempts 2 with hbelow | hthird
  · rw [State.pinFailure_below n hbelow]
  · rw [State.pinFailure_third n hthird, State.startLockout_eq]

/-! ## The four outcomes in their order (R140) -/

theorem State.pinTest_lockedOut {s : State} (n : Fin 4) (pin : Option PinField) (h : s.lock.lockout ≠ none) :
    s.pinTest n pin = (some .lockedOut, s) :=
  if_pos (Option.isSome_iff_ne_none.2 h)

section
variable {s : State} (n : Fin 4) (hlockout : s.lock.lockout = none)
include hlockout

theorem State.pinTest_noPin (pin : Option PinField) (hpin : s.lock.pin = none) :
    s.pinTest n pin = (some .noPin, s) := by
  simp [State.pinTest, hlockout, hpin]

theorem State.pinTest_passed {p : PinField} (hpin : s.lock.pin = some p) :
    s.pinTest n (some p) = (none, { s with lock.attempts := 0 }) := by
  simp [State.pinTest, hlockout, hpin]

theorem State.pinTest_failed {p : PinField} {pin : Option PinField} (hpin : s.lock.pin = some p)
    (hwrong : pin ≠ some p) : s.pinTest n pin = (some .badPin, s.pinFailure n) := by
  simp [State.pinTest, hlockout, hpin, hwrong]

end

/-- Settles O37: each outcome is one law of the test, and a failure is split at the third. -/
theorem pinTestOutcomes : Obligations.pin_test_outcomes := by
  unfold Obligations.pin_test_outcomes
  intro s n pin
  refine ⟨State.pinTest_lockedOut n pin, fun hlockout => State.pinTest_noPin n hlockout pin, ?passed, ?failed⟩
  case passed =>
    rintro p hlockout hpin rfl
    exact State.pinTest_passed n hlockout hpin
  case failed =>
    intro p hlockout hpin hwrong
    refine ⟨s.pinFailure n, State.pinTest_failed n hlockout hpin hwrong, s.pinFailure_counters n,
      fun hbelow => ?below, fun hthird => ?third⟩
    case below =>
      rw [State.pinFailure_below n hbelow]
      rfl
    case third =>
      obtain ⟨halerts, hreports, howed⟩ :=
        State.latch_congr (s := s) (t := s.audit (.pinFailure n)) .pinLockout rfl rfl rfl
      rw [State.pinFailure_third n hthird, State.startLockout_eq, halerts, hreports, howed]
      rfl

end Sys2Proof.Machine
end

