-- ==== Sys2Proof/Proofs/HouseTime.lean ====
section
/-! PROOF. Setting house time (R151): what the owner of TIME-MARK leaves for a small and for a large step, and O43. -/

namespace Sys2Proof.Machine

/-! ## The owner of TIME-MARK (R151) -/

/-- A step within −2..2 sets the clock and nothing else. -/
theorem timeMark_small {s : State} {x : Nat} (hhigh : (x : Int) - s.clock.houseTime ≤ 2)
    (hlow : -2 ≤ (x : Int) - s.clock.houseTime) :
    timeMark x s = some { s with clock := { prescaler := 0, houseTime := x, timeSet := true } } := by
  have hsmall : ¬ (2 < s.markStep x ∨ s.markStep x < -2) := not_or.2 ⟨hhigh.not_gt, hlow.not_gt⟩
  simp only [timeMark, if_neg hsmall]

/-- A step outside −2..2 latches TIME_STEP besides; the latch does not see the clock, so it is that of the state
before. -/
theorem timeMark_large {s : State} {x : Nat}
    (hstep : 2 < (x : Int) - s.clock.houseTime ∨ (x : Int) - s.clock.houseTime < -2) :
    timeMark x s =
      some
        { s with
          clock := { prescaler := 0, houseTime := x, timeSet := true }
          alerts := (s.latch .timeStep).alerts, reports := (s.latch .timeStep).reports
          owed := (s.latch .timeStep).owed } := by
  have hlarge : 2 < s.markStep x ∨ s.markStep x < -2 := hstep
  obtain ⟨halerts, hreports, howed⟩ :=
    State.latch_congr (s := s) (t := { s with clock := { prescaler := 0, houseTime := x, timeSet := true } }) .timeStep
      rfl rfl rfl
  simp only [timeMark, if_pos hlarge]
  rw [State.latch_shape, halerts, hreports, howed]

/-- Settles O43: TIME-MARK is always taken, and its owner's two laws are split at the step's bounds. -/
theorem timeMarkSetsHouseTime : Obligations.time_mark_sets_house_time := by
  unfold Obligations.time_mark_sets_house_time
  intro s x hs
  rw [exec_timeMark hs]
  refine ⟨fun hhigh hlow => ?small, fun hstep => ?large⟩
  case small =>
    rw [State.takeMsg_taken (timeMark_small (s := s.countTaken) hhigh hlow)]
    rfl
  case large =>
    obtain ⟨halerts, hreports, howed⟩ := State.latch_congr (s := s) (t := s.countTaken) .timeStep rfl rfl rfl
    rw [State.takeMsg_taken (timeMark_large (s := s.countTaken) hstep), halerts, hreports, howed]
    rfl

end Sys2Proof.Machine
end

