-- ==== Sys2Proof/Proofs/CounterSetup.lean ====
section
/-! PROOF. Arming an audit counter (R156): what the kind and mode fields decode to, which filters Table 9-2 refuses, the
occupancy part and the setup a COUNT-SET carries, what its owner answers, and O44. -/

namespace Sys2Proof.Machine

/-! ## The kind and mode fields (Table 9-2, section 9.3.2) -/

theorem EventKind.toField_of_ofField {n : Nat} {k : EventKind} (h : EventKind.ofField n = some k) :
    k.toField = n := by
  unfold EventKind.ofField at h
  split at h <;> cases h <;> rfl

theorem EventKind.ofField_eq_none_iff {n : Nat} : EventKind.ofField n = none ↔ 9 < n := by
  match n with
  | 0 | 1 | 2 | 3 | 4 | 5 | 6 | 7 | 8 | 9 | n + 10 => simp [EventKind.ofField]

theorem EventKind.toField_eq_nine_iff {k : EventKind} : k.toField = 9 ↔ k = .occupancy := by
  cases k <;> decide

theorem OccupancyMode.toField_of_ofField {n : Nat} {m : OccupancyMode} (h : OccupancyMode.ofField n = some m) :
    m.toField = n := by
  unfold OccupancyMode.ofField at h
  split at h <;> cases h <;> rfl

theorem OccupancyMode.ofField_eq_none_iff {n : Nat} : OccupancyMode.ofField n = none ↔ 2 < n := by
  match n with
  | 0 | 1 | 2 | n + 3 => simp [OccupancyMode.ofField]

/-! ## The filter (Table 9-2) -/

/-- The filter is none that Table 9-2 gives the kind, or has a service number or a flag out of range. -/
def filterRefused (kind : Nat) : FilterField → Prop
  | .none => False
  | .service n => kind ∉ [0, 5, 7, 8] ∨ n = 0 ∨ 999 < n
  | .lanes fs => kind ∉ [0, 3, 5, 6, 7, 8, 9] ∨ ∃ i : Fin 4, 1 < fs[i]
  | .ratingAtLeast _ => kind ∉ [0, 1, 2, 3, 4, 5, 7]

theorem filterAllowed_none (k : EventKind) : filterAllowed k .none = true := by
  cases k <;> rfl

theorem filterAllowed_service {k : EventKind} {n : Nat} :
    filterAllowed k (.service n) = true ↔ k.toField ∈ [0, 5, 7, 8] := by
  cases k <;> simp [filterAllowed, EventKind.toField]

theorem filterAllowed_lanes {k : EventKind} {fs : Vector Nat 4} :
    filterAllowed k (.lanes fs) = true ↔ k.toField ∈ [0, 3, 5, 6, 7, 8, 9] := by
  cases k <;> simp [filterAllowed, EventKind.toField]

theorem filterAllowed_ratingAtLeast {k : EventKind} {r : Nat} :
    filterAllowed k (.ratingAtLeast r) = true ↔ k.toField ∈ [0, 1, 2, 3, 4, 5, 7] := by
  cases k <;> simp [filterAllowed, EventKind.toField]

theorem serviceOk_iff {n : Nat} : serviceOk n = true ↔ ¬ (n = 0 ∨ 999 < n) := by
  simp only [serviceOk, Bool.and_eq_true, decide_eq_true_eq]
  omega

theorem flagsOk_iff_not_exists {k : Nat} {fs : Vector Nat k} : flagsOk fs = true ↔ ¬ ∃ i : Fin k, 1 < fs[i] := by
  simp only [flagsOk_iff, not_exists, not_lt]

/-- The model's two tests of a filter pass exactly when R156 does not refuse it. -/
theorem filter_accepted_iff {k : EventKind} {f : FilterField} :
    (filterAllowed k f && filterFieldsOk f) = true ↔ ¬ filterRefused k.toField f := by
  rw [Bool.and_eq_true]
  cases f with
  | none => simp [filterAllowed_none, filterFieldsOk, filterRefused]
  | service n =>
    simp only [filterAllowed_service, filterFieldsOk, serviceOk_iff, filterRefused, not_or, not_not]
  | lanes fs =>
    rw [filterAllowed_lanes, filterFieldsOk, flagsOk_iff_not_exists, filterRefused, not_or, not_not]
  | ratingAtLeast r =>
    rw [filterAllowed_ratingAtLeast, filterRefused, not_not]
    exact and_iff_left rfl

theorem filterOf_ratingAtLeast (r : Nat) : filterOf (.ratingAtLeast r) = .ratingAtLeast (min 7 r) := by
  rw [filterOf, clamp_zero]

/-! ## The occupancy part (section 9.3.2) -/

theorem occupancyOf_eq_none_iff {p : Option OccupancyField} :
    occupancyOf p = none ↔ p = none ∨ ∃ o, p = some o ∧ (2 < o.mode ∨ ∃ i : Fin 7, 1 < o.states[i]) := by
  cases p with
  | none => simp [occupancyOf]
  | some o =>
    simp only [reduceCtorEq, false_or, Option.some.injEq, exists_eq_left']
    rw [← OccupancyMode.ofField_eq_none_iff]
    cases hmode : OccupancyMode.ofField o.mode with
    | none => simp [occupancyOf, hmode]
    | some m =>
      rw [← not_not (a := ∃ i : Fin 7, 1 < o.states[i]), ← flagsOk_iff_not_exists]
      simp [occupancyOf, hmode]

theorem occupancyOf_eq_some {o : OccupancyField} {p : Occupancy} (h : occupancyOf (some o) = some p) :
    p.mode.toField = o.mode ∧ p.threshold = max 1 (min 4 o.threshold) ∧
      ∀ i : Fin 7, p.states[i] = decide (o.states[i] = 1) := by
  simp only [occupancyOf] at h
  split at h
  · cases h
  · next m hmode =>
    split at h
    · cases h
      exact ⟨OccupancyMode.toField_of_ofField hmode, clamp_eq_max_min (by decide) _, flagsOf_getElem o.states⟩
    · cases h

/-! ## The setup a COUNT-SET carries -/

theorem setupOf_of_kind_out_of_range {b : CountSetBody} (h : 9 < b.kind) : setupOf b = none := by
  simp only [setupOf, EventKind.ofField_eq_none_iff.2 h]

section
variable {b : CountSetBody} {k : EventKind} (hkind : EventKind.ofField b.kind = some k)
include hkind

theorem setupOf_of_filter_refused (hfilter : filterRefused b.kind b.filter) : setupOf b = none := by
  rw [← EventKind.toField_of_ofField hkind] at hfilter
  simp only [setupOf, hkind, if_neg fun haccepted => filter_accepted_iff.1 haccepted hfilter]

theorem setupOf_of_filter_fit (hfilter : ¬ filterRefused b.kind b.filter) :
    setupOf b =
      if b.kind = 9 then
        if b.counter = 0 then
          (occupancyOf b.occupancy).map fun o => { kind := k, filter := filterOf b.filter, occupancy := some o }
        else none
      else some { kind := k, filter := filterOf b.filter, occupancy := none } := by
  rw [← EventKind.toField_of_ofField hkind] at hfilter ⊢
  simp only [setupOf, hkind, if_pos (filter_accepted_iff.2 hfilter), EventKind.toField_eq_nine_iff]
  cases occupancyOf b.occupancy <;> rfl

end

/-- The refusals of R156 besides the counter's number: the kind, the filter, and with OCCUPANCY the counter it is for
and its part. -/
theorem setupOf_eq_none_iff {b : CountSetBody} :
    setupOf b = none ↔
      9 < b.kind ∨ filterRefused b.kind b.filter ∨
        (b.kind = 9 ∧ (b.counter ≠ 0 ∨ occupancyOf b.occupancy = none)) := by
  cases hkind : EventKind.ofField b.kind with
  | none =>
    have hout : 9 < b.kind := EventKind.ofField_eq_none_iff.1 hkind
    exact iff_of_true (setupOf_of_kind_out_of_range hout) (.inl hout)
  | some k =>
    have hin : ¬ 9 < b.kind := by simp [← EventKind.ofField_eq_none_iff, hkind]
    by_cases hfilter : filterRefused b.kind b.filter
    · exact iff_of_true (setupOf_of_filter_refused hkind hfilter) (.inr (.inl hfilter))
    · rw [setupOf_of_filter_fit hkind hfilter, or_iff_right hin, or_iff_right hfilter]
      by_cases hnine : b.kind = 9
      · by_cases hcounter : b.counter = 0 <;> simp [hnine, hcounter]
      · simp [hnine]

theorem setupOf_eq_some {b : CountSetBody} {u : Setup} (h : setupOf b = some u) :
    u.kind.toField = b.kind ∧ u.filter = filterOf b.filter ∧ (b.kind ≠ 9 → u.occupancy = none) ∧
      (b.kind = 9 → ∃ p, u.occupancy = some p ∧ occupancyOf b.occupancy = some p) := by
  have hfit : ¬ setupOf b = none := by simp [h]
  rw [setupOf_eq_none_iff, not_or, not_or] at hfit
  obtain ⟨hin, hfilter, hpart⟩ := hfit
  obtain ⟨k, hkind⟩ := Option.ne_none_iff_exists'.1 fun hnone => hin (EventKind.ofField_eq_none_iff.1 hnone)
  rw [setupOf_of_filter_fit hkind hfilter] at h
  by_cases hnine : b.kind = 9
  · simp only [if_pos hnine, Option.ite_none_right_eq_some, Option.map_eq_some_iff] at h
    obtain ⟨_, p, hp, rfl⟩ := h
    exact ⟨EventKind.toField_of_ofField hkind, rfl, fun hother => absurd hnine hother, fun _ => ⟨p, rfl, hp⟩⟩
  · rw [if_neg hnine, Option.some.injEq] at h
    subst h
    exact ⟨EventKind.toField_of_ofField hkind, rfl, fun _ => rfl, fun hnine' => absurd hnine' hnine⟩

/-! ## The owner of COUNT-SET -/

theorem countSet_of_setup {b : CountSetBody} {n : Fin 4} {u : Setup} (hcounter : b.counter = n.val)
    (hsetup : setupOf b = some u) (s : State) :
    countSet b s =
      some { s with counters := s.counters.set n { setup := some u, last := none, value := 0 } } := by
  simp only [countSet, hcounter, four?_val, hsetup]

theorem countSet_eq_none_iff {b : CountSetBody} {s : State} :
    countSet b s = none ↔ 3 < b.counter ∨ setupOf b = none := by
  rw [← four?_eq_none_iff]
  cases hcounter : four? b.counter with
  | none => simp [countSet, hcounter]
  | some n => cases hsetup : setupOf b <;> simp [countSet, hcounter, hsetup]

/-- Settles O44: the cases named are those in which the owner answers nothing, and otherwise the setup placed is the one
the message carries. -/
theorem countSetArmsACounter : Obligations.count_set_arms_a_counter := by
  unfold Obligations.count_set_arms_a_counter
  intro s b hs bad hbad
  have hrefused : bad ↔ 3 < b.counter ∨ setupOf b = none := by
    rw [setupOf_eq_none_iff, occupancyOf_eq_none_iff]
    exact hbad
  rw [exec_countSet hs]
  refine ⟨fun h => ?refused, fun h n hn => ?armed⟩
  case refused =>
    rw [State.takeMsg_refused (countSet_eq_none_iff.2 (hrefused.1 h)), State.countRefused, satAdd]
  case armed =>
    rw [hrefused, not_or] at h
    obtain ⟨u, hsetup⟩ := Option.ne_none_iff_exists'.1 h.2
    obtain ⟨hkind, hfilter, hplain, hpart⟩ := setupOf_eq_some hsetup
    refine ⟨u, by rw [State.takeMsg_taken (countSet_of_setup hn hsetup _)]; rfl, hkind, ?filter, hplain, ?occupancy⟩
    case filter =>
      rw [hfilter]
      cases b.filter with
      | none | service k | lanes fs => rfl
      | ratingAtLeast r => exact filterOf_ratingAtLeast r
    case occupancy =>
      intro o hnine ho
      obtain ⟨p, hp, hread⟩ := hpart hnine
      rw [ho] at hread
      exact ⟨p, hp, occupancyOf_eq_some hread⟩

end Sys2Proof.Machine
end

