-- ==== Sys2Proof/Proofs/Attention.lean ====
section
/-! PROOF. Attention (R180, R181): which codes are below the floor, when the line is asserted, which code is the
smallest, what the owners of the three attention requests answer, and O51. -/

namespace Sys2Proof.Machine

/-! ## The codes below the floor (R180, R181) -/

theorem State.mem_codesBelow {s : State} {c : Nat} : c ∈ s.codesBelow ↔ c ∈ s.codes ∧ c < s.floor := by
  rw [State.codesBelow, List.mem_filter, decide_eq_true_eq]

theorem State.attentionLine_iff {s : State} : s.attentionLine = true ↔ ∃ c ∈ s.codes, c < s.floor := by
  simp only [State.attentionLine, Bool.not_eq_true', List.isEmpty_eq_false_iff_exists_mem, State.mem_codesBelow]

/-- The set is kept ascending, so the first of its codes below the floor is the smallest one. -/
theorem State.lowestCode_eq {s : State} {low : Nat} (hsorted : s.codes.Pairwise (· < ·))
    (hnone : (∀ c ∈ s.codes, s.floor ≤ c) → low = 0)
    (hsome : (∃ c ∈ s.codes, c < s.floor) → low ∈ s.codes ∧ low < s.floor ∧ ∀ c ∈ s.codes, low ≤ c) :
    s.lowestCode = low := by
  rw [State.lowestCode]
  cases hbelow : s.codesBelow with
  | nil =>
    have hclear : ∀ c ∈ s.codes, s.floor ≤ c := fun c hc => Nat.le_of_not_lt fun hlt =>
      List.not_mem_nil (hbelow ▸ State.mem_codesBelow.2 ⟨hc, hlt⟩)
    exact (hnone hclear).symm
  | cons d ds =>
    obtain ⟨hd, hdfloor⟩ := State.mem_codesBelow.1 (hbelow ▸ List.mem_cons_self : d ∈ s.codesBelow)
    obtain ⟨hlow, hlowfloor, hleast⟩ := hsome ⟨d, hd, hdfloor⟩
    have hfirst : low = d ∨ low ∈ ds := List.mem_cons.1 (hbelow ▸ State.mem_codesBelow.2 ⟨hlow, hlowfloor⟩)
    have hascending : (d :: ds).Pairwise (· < ·) := hbelow ▸ hsorted.filter _
    rcases hfirst with heq | hrest
    · exact heq.symm
    · exact absurd (List.rel_of_pairwise_cons hascending hrest) (hleast d hd).not_gt

/-! ## ATTN-ACK takes its code from the set (R181) -/

/-- What ATTN-ACK does to the pending set. -/
def State.ackCode (s : State) (code : Nat) : State := { s with codes := s.codes.filter (· != code) }

theorem State.mem_ackCode {s : State} {code c : Nat} :
    c ∈ (s.ackCode code).codes ↔ c ∈ s.codes ∧ c ≠ code := by
  rw [State.ackCode, List.mem_filter, bne_iff_ne]

@[simp] theorem State.ackCode_floor (s : State) (code : Nat) : (s.ackCode code).floor = s.floor := rfl

theorem State.ackCode_lowestCode {s : State} {code low : Nat} (hsorted : s.codes.Pairwise (· < ·))
    (hnone : (∀ c ∈ s.codes, c ≠ code → s.floor ≤ c) → low = 0)
    (hsome : (∃ c ∈ s.codes, c ≠ code ∧ c < s.floor) →
      low ∈ s.codes ∧ low ≠ code ∧ low < s.floor ∧ ∀ c ∈ s.codes, c ≠ code → low ≤ c) :
    (s.ackCode code).lowestCode = low := by
  apply State.lowestCode_eq (hsorted.filter _)
  · simpa only [State.mem_ackCode, State.ackCode_floor, and_imp] using hnone
  · simpa only [State.mem_ackCode, State.ackCode_floor, and_imp, and_assoc] using hsome

/-! ## The owners of the attention requests (R181) -/

theorem attnAck_badArg {code : Nat} (h : code = 0 ∨ 21 < code) (s : State) : attnAck code s = .plain s .badArg :=
  if_pos h

theorem attnAck_taken {code : Nat} (hlo : 1 ≤ code) (hhi : code ≤ 21) (s : State) :
    attnAck code s =
      { state := s.ackCode code, result := .done, fields := bytesOf 1 (s.ackCode code).lowestCode } :=
  if_neg (by omega)

theorem attnFloor_eq (n : Nat) (s : State) :
    attnFloor n s =
      { state := { s with floor := max 1 (min 32 n) }, result := .done, fields := bytesOf 1 (max 1 (min 32 n)) } := by
  rw [attnFloor, clamp_eq_max_min (by decide)]

/-- Settles O51: in an ascending set the first code below the floor is the one ATTN-READ and ATTN-ACK must answer. -/
theorem attentionRequests : Obligations.attention_requests := by
  unfold Obligations.attention_requests
  intro s hs
  refine ⟨State.attentionLine_iff, fun c x => mem_insertCode c x s.codes, fun low hsorted hnone hsome => ?read,
    fun code hbad => ?refused, fun code low hsorted hlo hhi hnone hsome => ?acknowledged, fun n => ?floor⟩
  case read => rw [exec_attnRead hs, State.reply, attnRead, State.lowestCode_eq hsorted hnone hsome, State.codesBelow]
  case refused => rw [exec_attnAck hs, State.reply, attnAck_badArg hbad, Answer.plain]
  case acknowledged =>
    rw [exec_attnAck hs, State.reply, attnAck_taken hlo hhi, State.ackCode_lowestCode hsorted hnone hsome,
      State.ackCode]
  case floor => rw [exec_attnFloor hs, State.reply, attnFloor_eq]

end Sys2Proof.Machine
end

