-- ==== Sys2Proof/Proofs/FeedBytes.lean ====
section
/-! PROOF. A byte at the feed port (R4 to R11): scanning in HUNT, a byte kept inside a cell, the boundary test outcome by
outcome, and the end of a cell, with O8, O9 and O10. -/

namespace Sys2Proof.Machine

/-! ## A cell in assembly -/

/-- One byte more of the cell in assembly. -/
def State.withByte (s : State) (b : Byte) : State := { s with framer.bytes := s.framer.bytes ++ [b] }

/-- The cell in assembly has left the framer. -/
def State.cellDone (s : State) : State := { s with framer.bytes := [], framer.handOn := false }

theorem State.feedByte_of_hunt {s : State} (h : s.framer.state = .hunt) (b : Byte) :
    s.feedByte b = { s with framer := s.framer.scan b } := by
  simp only [State.feedByte, h]

theorem State.feedByte_of_not_hunt {s : State} (h : s.framer.state ≠ .hunt) (b : Byte) :
    s.feedByte b = s.assembleByte b := by
  unfold State.feedByte
  split
  next hunt => exact absurd hunt h
  next => rfl
  next => rfl

section
variable {s : State} (b : Byte)

theorem State.assembleByte_eq :
    s.assembleByte b =
      if s.framer.bytes.length = 1 then (s.withByte b).boundaryTest
      else if 95 ≤ s.framer.bytes.length then
        if s.framer.handOn then s.cellDone.wholeCell (s.framer.bytes ++ [b]) else s.cellDone
      else s.withByte b := by
  have hlen : (s.withByte b).framer.bytes.length = s.framer.bytes.length + 1 := by simp [State.withByte]
  have hunfold : s.assembleByte b =
      if (s.withByte b).framer.bytes.length = 2 then (s.withByte b).boundaryTest
      else if 96 ≤ (s.withByte b).framer.bytes.length then (s.withByte b).cellEnd
      else s.withByte b := rfl
  rw [hunfold, hlen]
  simp only [Nat.reduceEqDiff, Nat.reduceLeDiff]
  rfl

theorem State.assembleByte_second (h : s.framer.bytes.length = 1) :
    s.assembleByte b = (s.withByte b).boundaryTest := by
  rw [State.assembleByte_eq, if_pos h]

theorem State.assembleByte_kept (h : s.framer.bytes.length ≠ 1) (hlt : s.framer.bytes.length < 95) :
    s.assembleByte b = s.withByte b := by
  rw [State.assembleByte_eq, if_neg h, if_neg (by omega)]

theorem State.assembleByte_last (h : 95 ≤ s.framer.bytes.length) :
    s.assembleByte b = if s.framer.handOn then s.cellDone.wholeCell (s.framer.bytes ++ [b]) else s.cellDone := by
  rw [State.assembleByte_eq, if_neg (by omega), if_pos h]

/-! ## The whole cell (R9, R10) -/

theorem State.assembleByte_notTaken (h : 95 ≤ s.framer.bytes.length) (hnot : s.framer.handOn = false) :
    s.assembleByte b = s.cellDone := by
  rw [State.assembleByte_last b h, hnot]
  rfl

theorem State.assembleByte_taken (h : 95 ≤ s.framer.bytes.length) (htaken : s.framer.handOn = true) :
    s.assembleByte b = s.cellDone.wholeCell (s.framer.bytes ++ [b]) := by
  rw [State.assembleByte_last b h, if_pos htaken]

end

theorem State.wholeCell_badHeader {s : State} {bs : List Byte} (h : Cell.ofBytes bs = none) :
    s.wholeCell bs = { s with framer.headerBad := satAdd s.framer.headerBad 1 } := by
  simp only [State.wholeCell, h]

theorem State.wholeCell_fill {s : State} {bs : List Byte} {c : Cell} (h : Cell.ofBytes bs = some c)
    (hkind : c.kind = .fill) : s.wholeCell bs = s := by
  simp only [State.wholeCell, h, hkind]

theorem State.wholeCell_management {s : State} {bs : List Byte} {c : Cell} (h : Cell.ofBytes bs = some c)
    (hkind : c.kind = .management) : s.wholeCell bs = s.managementCell c.payload := by
  simp only [State.wholeCell, h, hkind]

theorem State.wholeCell_media {s : State} {bs : List Byte} {c : Cell} (h : Cell.ofBytes bs = some c)
    (hkind : c.kind = .media) : s.wholeCell bs = s.mediaCell c := by
  simp only [State.wholeCell, h, hkind]

/-! ## The boundary test (R5 to R8) -/

theorem Framer.confirmGood_below {f : Framer} (h : f.cut + 1 < f.threshold) :
    f.confirmGood = { f with integrator := f.cut + 1, handOn := false } :=
  if_neg (Nat.not_le.2 h)

theorem Framer.confirmGood_reached {f : Framer} (h : f.threshold ≤ f.cut + 1) : f.confirmGood = f.take f.threshold :=
  if_pos h

theorem Framer.take_of_locked {f : Framer} (h : f.state = .locked) (i : Nat) :
    f.take i = { f with integrator := i, silence := 0, handOn := true, taken := satAdd f.taken 1 } := by
  simp only [Framer.take, h]

theorem isSync_pair {first second : Byte} : isSync [first, second] = true ↔ first = 0xC6 ∧ second = 0x39 := by
  simp [isSync]

/-- A latch does not see the framer. -/
theorem State.latch_withFramer (s : State) (f : Framer) (k : AlertKind) :
    { s with framer := f }.latch k = { s.latch k with framer := f } := by
  obtain ⟨halerts, hreports, howed⟩ := State.latch_congr (s := s) (t := { s with framer := f }) k rfl rfl rfl
  rw [State.latch_shape, halerts, hreports, howed, State.latch_shape s]

/-- The framer as leaving LOCKED at a bad boundary leaves it (R7, R8). -/
def Framer.lost (f : Framer) (second : Byte) : Framer :=
  { f with
    state := .hunt, integrator := 0, silence := 0, sawC6 := second == 0xC6, bytes := [], handOn := false,
    syncBad := satAdd f.syncBad 1, syncLosses := satAdd f.syncLosses 1 }

section
variable {s : State} (second : Byte)

theorem State.lockedBad_slipped (h : s.framer.cut - 1 ≠ 0) :
    s.lockedBad second =
      { s with
        framer := { s.framer with
          integrator := s.framer.cut - 1, handOn := false, syncBad := satAdd s.framer.syncBad 1 } } :=
  if_neg h

theorem State.lockedBad_lost (h : s.framer.cut - 1 = 0) :
    s.lockedBad second = ({ s with framer := s.framer.lost second }.latch .feedLost).raiseCode 1 := by
  refine (if_pos h).trans ?_
  rw [State.leaveLocked, State.latch_withFramer, State.latch_withFramer]
  simp only [State.raiseCode, State.latch_withFramer]
  rfl

end

/-- The framer has its first boundary test behind it and its second byte is in: the outcomes of Table 1-2. -/
theorem State.boundaryTest_confirm {s : State} (h : s.framer.state = .confirm) :
    s.boundaryTest =
      { s with
        framer := if isSync s.framer.bytes then s.framer.confirmGood
          else s.framer.confirmBad (s.framer.bytes.getD 1 0) } := by
  simp only [State.boundaryTest, h]

theorem State.boundaryTest_locked {s : State} (h : s.framer.state = .locked) :
    s.boundaryTest =
      if isSync s.framer.bytes then
        { s with framer := s.framer.take (min (s.framer.cut + 1) s.framer.threshold) }
      else s.lockedBad (s.framer.bytes.getD 1 0) := by
  simp only [State.boundaryTest, h]

/-! ## The three statements -/

/-- Settles O8: HUNT is one scan, split at whether the byte completes a sync word. -/
theorem feedByteInHunt : Obligations.feed_byte_in_hunt := by
  unfold Obligations.feed_byte_in_hunt
  intro s b hs hhunt
  rw [exec_feedByte hs, State.feedByte_of_hunt hhunt, Framer.scan]
  refine ⟨fun hsaw hb => ?begins, fun hnot => ?discarded⟩
  case begins => rw [if_pos ⟨hsaw, hb⟩]
  case discarded => rw [if_neg hnot]; rfl

section
variable {s : State} {first second : Byte} (hbytes : s.framer.bytes = [first, second])
include hbytes

theorem State.boundaryTest_confirm_good (h : s.framer.state = .confirm) (hsync : first = 0xC6 ∧ second = 0x39) :
    s.boundaryTest = { s with framer := s.framer.confirmGood } := by
  rw [State.boundaryTest_confirm h, hbytes, if_pos (isSync_pair.2 hsync)]

theorem State.boundaryTest_confirm_bad (h : s.framer.state = .confirm)
    (hsync : ¬ (first = 0xC6 ∧ second = 0x39)) :
    s.boundaryTest = { s with framer := s.framer.confirmBad second } := by
  rw [State.boundaryTest_confirm h, hbytes, if_neg (mt isSync_pair.1 hsync)]
  rfl

theorem State.boundaryTest_locked_good (h : s.framer.state = .locked) (hsync : first = 0xC6 ∧ second = 0x39) :
    s.boundaryTest = { s with framer := s.framer.take (min (s.framer.cut + 1) s.framer.threshold) } := by
  rw [State.boundaryTest_locked h, hbytes, if_pos (isSync_pair.2 hsync)]

theorem State.boundaryTest_locked_bad (h : s.framer.state = .locked)
    (hsync : ¬ (first = 0xC6 ∧ second = 0x39)) : s.boundaryTest = s.lockedBad second := by
  rw [State.boundaryTest_locked h, hbytes, if_neg (mt isSync_pair.1 hsync)]
  rfl

end

theorem exec_feedByte_second {s : State} (hs : s.held = false) {first : Byte} (hbytes : s.framer.bytes = [first])
    (hstate : s.framer.state ≠ .hunt) (second : Byte) :
    exec (.feedByte second) s = .next (s.withByte second).boundaryTest := by
  rw [exec_feedByte hs, State.feedByte_of_not_hunt hstate, State.assembleByte_second second (by rw [hbytes]; rfl)]

/-- Settles O9: the byte is kept, and each outcome is one law of the boundary test on the two bytes held. -/
theorem boundaryTestOutcomes : Obligations.boundary_test_outcomes := by
  unfold Obligations.boundary_test_outcomes
  intro s first second hs hbytes
  have hpair : (s.withByte second).framer.bytes = [first, second] := by simp [State.withByte, hbytes]
  have hexec := exec_feedByte_second hs hbytes (second := second)
  refine ⟨fun hstate hsync hbelow => ?counts, fun hstate hsync hreached => ?locks, fun hstate hsync => ?gives_up,
    fun hstate hsync => ?stays, fun hstate hsync habove => ?slips, fun hstate hsync hlow => ?leaves⟩
  case counts =>
    rw [hexec (by simp [hstate]), State.boundaryTest_confirm_good hpair hstate hsync,
      Framer.confirmGood_below (f := (s.withByte second).framer) hbelow, ← hpair]
    rfl
  case locks =>
    rw [hexec (by simp [hstate]), State.boundaryTest_confirm_good hpair hstate hsync,
      Framer.confirmGood_reached (f := (s.withByte second).framer) hreached, ← hpair]
    rfl
  case gives_up =>
    rw [hexec (by simp [hstate]), State.boundaryTest_confirm_bad hpair hstate hsync]
    rfl
  case stays =>
    rw [hexec (by simp [hstate]), State.boundaryTest_locked_good hpair hstate hsync,
      Framer.take_of_locked (f := (s.withByte second).framer) hstate, ← hpair]
    rfl
  case slips =>
    have hcut : (s.withByte second).framer.cut - 1 ≠ 0 := by
      have : (s.withByte second).framer.cut = min s.framer.integrator s.framer.threshold := rfl
      omega
    rw [hexec (by simp [hstate]), State.boundaryTest_locked_bad hpair hstate hsync,
      State.lockedBad_slipped second hcut, ← hpair]
    rfl
  case leaves =>
    have hcut : (s.withByte second).framer.cut - 1 = 0 := by
      have : (s.withByte second).framer.cut = min s.framer.integrator s.framer.threshold := rfl
      omega
    rw [hexec (by simp [hstate]), State.boundaryTest_locked_bad hpair hstate hsync, State.lockedBad_lost second hcut]
    obtain ⟨halerts, hreports, howed⟩ := State.latch_congr (s := s)
      (t := { s with framer := (s.withByte second).framer.lost second }) .feedLost rfl rfl rfl
    refine ⟨_, rfl, ?_, ?_, fun c => ?_, halerts, hreports, howed⟩
    · rw [State.latch_shape]
      rfl
    · simp only [State.raiseCode_framer, State.latch_framer]
      rfl
    · simp only [State.raiseCode, State.latch_codes, mem_insertCode]
      rfl

/-- Settles O10: away from the second byte a byte is kept, and the last one hands the cell on if it was taken. -/
theorem cellBytesAreAssembled : Obligations.cell_bytes_are_assembled := by
  unfold Obligations.cell_bytes_are_assembled
  intro s b hs hstate
  rw [exec_feedByte hs, State.feedByte_of_not_hunt hstate]
  refine ⟨fun hne hlt => ?kept, fun hlen hnot => ?dropped, fun hlen htaken hbad => ?bad,
    fun hlen htaken c hc hfill => ?fill⟩
  case kept => rw [State.assembleByte_kept b hne hlt]; rfl
  case dropped => rw [State.assembleByte_notTaken b hlen.ge hnot]; simp [State.cellDone, hnot]
  case bad => rw [State.assembleByte_taken b hlen.ge htaken, State.wholeCell_badHeader hbad]; rfl
  case fill => rw [State.assembleByte_taken b hlen.ge htaken, State.wholeCell_fill hc hfill]; rfl

end Sys2Proof.Machine
end

