-- ==== Sys2Proof/Proofs/Moves.lean ====
section
/-! PROOF. What a command can do, said once. Every command is a chain of acts: a move, which no lane's state rests on; a
change that lanes rest on, with the causes its owner sends; or work of a second tick. The invariants are proved from
these, and not from the commands one by one. -/

namespace Sys2Proof.Machine

/-! ## Single records -/

/-- What one event can make of the cell framer (R3 to R12). -/
inductive FramerStep (f : Framer) : Framer → Prop where
  | scanned (b : Byte) : f.state = .hunt → FramerStep f (f.scan b)
  | kept (b : Byte) : f.state ≠ .hunt → f.bytes.length + 1 < 96 → FramerStep f { f with bytes := f.bytes ++ [b] }
  | confirmed : f.state = .confirm → FramerStep f f.confirmGood
  | unconfirmed (second : Byte) : f.state = .confirm → FramerStep f (f.confirmBad second)
  | taken : f.state = .locked → FramerStep f (f.take (min (f.cut + 1) f.threshold))
  | slipped (bad : Nat) : f.state = .locked → f.cut - 1 ≠ 0 →
      FramerStep f { f with integrator := f.cut - 1, handOn := false, syncBad := bad }
  | lost (sawC6 : Bool) (bad losses : Nat) : f.state = .locked →
      FramerStep f
        { f with
          state := .hunt, integrator := 0, silence := 0, sawC6 := sawC6, bytes := [], handOn := false, syncBad := bad,
          syncLosses := losses }
  | silent : f.state = .locked → f.silence = 0 → FramerStep f { f with silence := f.silence + 1 }
  | ended : FramerStep f { f with bytes := [], handOn := false }
  | counted (header tag : Nat) : FramerStep f { f with headerBad := header, tagMiss := tag }
  | limited (n : Nat) : FramerStep f { f with threshold := clamp 2 15 n }

/-- What one message or cell can make of a key family (R38 to R45). -/
inductive FamilyStep (f : KeyFamily) : KeyFamily → Prop where
  | loaded (p : Parity) (k : Key) : FamilyStep f (f.load p k)
  | wiped : FamilyStep f f.wipe
  | turned (p : Parity) : FamilyStep f (f.parityStep p)
  | missed (n : Nat) : FamilyStep f { f with keyMisses := n }

/-- What can become of a lane's record between evaluations: the selection, the state and the title in view stay. -/
inductive LaneStep (l : Lane) : Lane → Prop where
  | begun : LaneStep l l.begin
  | completed : LaneStep l l.complete
  | unlatched : LaneStep l { l with latch := false }
  | missed (n : Nat) : LaneStep l { l with keyMisses := n }
  | overrun (n : Nat) : LaneStep l { l with overruns := n, latch := true }
  | queued (c : Cell) : l.queue.length < 8 →
      (l.state.viewing = true ∨ (l.state = .offer ∨ l.state = .locked) ∧ c.kind = .fill) →
      LaneStep l { l with queue := l.queue ++ [c] }
  | marked : LaneStep l { l with mark := true }

/-- Two states that differ at most in fields no invariant speaks of: the lines, the tariff sets, the clock, the counters
and counts, the alert states, the panel's frame and replies, and the count of free choices. -/
structure SameBlocks (s t : State) : Prop where
  unitId     : t.unitId = s.unitId
  framer     : t.framer = s.framer
  services   : t.services = s.services
  directory  : t.directory = s.directory
  keys       : t.keys = s.keys
  lanes      : t.lanes = s.lanes
  catalog    : t.catalog = s.catalog
  rentals    : t.rentals = s.rentals
  room       : t.room = s.room
  charges    : t.charges = s.charges
  nextSerial : t.nextSerial = s.nextSerial
  lock       : t.lock = s.lock
  owed       : t.owed = s.owed
  reports    : t.reports = s.reports
  reportSent : t.reportSent = s.reportSent
  codes      : t.codes = s.codes
  floor      : t.floor = s.floor
  pending    : t.pending = s.pending

/-! ## Moves -/

/-- One update of the part that no lane's state rests on. -/
inductive Move : State → State → Prop where
  | book {s t : State} : SameBlocks s t → Move s t
  | framer (s : State) (f : Framer) : FramerStep s.framer f → Move s { s with framer := f }
  | family (s : State) (n : Fin 32) (g : KeyFamily) : FamilyStep s.keys[n] g →
      Move s { s with keys := s.keys.set n g }
  | lane (s : State) (n : Fin 4) (l : Lane) : LaneStep s.lanes[n] l → Move s { s with lanes := s.lanes.set n l }
  | arrival (s : State) (n tag seq : Nat) : Move s (s.noteArrival n tag seq)
  | picture (s : State) (x : Nat) : Move s (s.pictureSeen x)
  | chargesAcked (s : State) (n : Nat) : Move s { s with charges := s.charges.filter fun c => n < c.serial }
  | stale (s : State) (n : Nat) : Move s { s with room.staleStays := n }
  | tried (s : State) (a : Nat) : a ≤ 2 → Move s { s with lock.attempts := a }
  | lockedOut (s : State) : Move s { s with lock.attempts := 0, lock.lockout := some 900 }
  | latched (s : State) (k : AlertKind) : Move s (s.latch k)
  | raised (s : State) (c : Nat) : 1 ≤ c → c ≤ 21 → Move s (s.raiseCode c)
  | codeAcked (s : State) (c : Nat) : Move s (s.ackCode c)
  | floorSet (s : State) (n : Nat) : Move s { s with floor := clamp 1 32 n }
  | offered (s : State) (k : ReportKind) (body : List Byte) : Move s (s.offerReport k body)
  | byteTaken (s : State) : Move s s.takeReportByte
  | warm (s : State) : Move s s.warmReset
  | cold (s : State) : Move s s.coldStart

/-! ## Changes that lanes rest on -/

/-- What a purchase does before its causes: the record, the CHARGE and the audit event (R92). -/
def State.purchased (s : State) (n : Fin 4) (e : CatalogEntry) (amount : Nat) : State :=
  let s1 := (s.withRecord e).modRental e.title fun r => r.bought e amount s.nextSerial
  (s1.appendCharge (s1.chargeRecord .charge e.title e.billAlias e.rating amount none)).audit
    { kind := .purchases, lane := some n, service := none, rating := some e.rating }

/-- What a refund does before its causes: the CREDIT, the record VOID and the audit event (R95). -/
def State.credited (s : State) (r : RentalRec) : State :=
  let s1 := s.appendCharge (s.chargeRecord .credit r.title r.billAlias r.rating (r.amount.getD 0) r.serial)
  (s1.modRental r.title fun y => { y with state := .void, refunded := true, windowLeft := 0 }).audit
    (rentalEvent .refunds r.rating)

/-- The lanes a purchase sends causes to: those on its title and those on the title evicted for it (R92). -/
def State.purchaseReaches (s : State) (e : CatalogEntry) (m : Fin 4) : Bool :=
  s.onTitle e.title m || (s.purchaseEvicts? e).any fun t => s.onTitle t m

/-- An owner's update that lanes rest on, from the state before it to the state after it, with the lanes its causes go
to and what the owner has tested (R25 to R29, R61, R76 to R78, R92, R95, R115 to R120, R136, R142, R144). -/
inductive Change : State → List (Fin 4) → State → Prop where
  | loaded (s : State) (b : SvcPutBody) (r : ServiceRec) : serviceOf b = some r → s.placementOk r = true →
      Change s (lanesWhere fun l => loadCauses (s.service? r.number) r && s.selects r.number l) (s.loadService r)
  | unloaded (s : State) (n : Nat) : Change s (lanesWhere (s.selects n)) (s.unloadService n)
  | aired (s : State) (n : Nat) (title : Option Nat) (r : ServiceRec) : s.service? n = some r →
      Change s (lanesWhere fun l => r.title != title && s.selects n l) (s.setOnAir n title)
  | selected (s : State) (n : Fin 4) (k : Option Nat) : Change s [n] (s.select n k)
  | catalogued (s : State) (b : TitlePutBody) :
      ((s.catalog? b.title).isSome = true ∨ s.catalog.length < 32) →
      Change s (lanesWhere (s.runs b.title))
        { s with catalog := insertBy CatalogEntry.title (entryOf b) s.catalog }
  | dropped (s : State) (x : Nat) :
      Change s (lanesWhere (s.runs x)) { s with catalog := s.catalog.filter (·.title != x) }
  | purchased (s : State) (n : Fin 4) (e : CatalogEntry) (amount : Nat) : s.room.state = .occupied →
      s.catalog? e.title = some e → (s.rental? e.title = none → s.placeAvailable = true) → s.canCharge = true →
      s.room.spend + amount ≤ s.room.ceiling →
      Change s (lanesWhere (s.purchaseReaches e)) (s.purchased n e amount)
  | credited (s : State) (r : RentalRec) : s.rental? r.title = some r → s.canCharge = true →
      Change s (lanesWhere (s.onTitle r.title)) (s.credited r)
  | opened (s : State) (b : StayOpenBody) (c : StaySettings) : staySettings b = some c → s.room.state = .vacant →
      Change s allLanes ((s.openStay c).raiseCode 2)
  | updated (s : State) (b : StayOpenBody) (c : StaySettings) : staySettings b = some c →
      Change s allLanes ((s.updateStay c).raiseCode 2)
  | replaced (s : State) (b : StayOpenBody) (c : StaySettings) : staySettings b = some c →
      Change s allLanes ((s.closeStay.openStay c).raiseCode 2)
  | closed (s : State) : Change s allLanes (s.closeStay.raiseCode 2)
  | policed (s : State) (b : LockSetBody) : Change s allLanes (s.setPolicy (policyOf b))
  | leased (s : State) (n : Fin 4) : s.room.state = .occupied → s.lock.policy.barred[n] = false →
      Change s [n] { s with lock.leases := s.lock.leases.set n (some s.lock.policy.leaseLength) }
  | relocked (s : State) (n : Fin 4) : Change s [n] { s with lock.leases := s.lock.leases.set n none }

theorem Change.length_le {s u : State} {ls : List (Fin 4)} (h : Change s ls u) : ls.length ≤ 4 := by
  cases h with
  | selected | leased | relocked => exact (by decide : 1 ≤ 4)
  | opened | updated | replaced | closed | policed => exact Nat.le_refl 4
  | _ => exact lanesWhere_length_le _

/-! ## Acts -/

/-- One act of a command: a move, a change with its causes done, all owners' tick work, or one owner's. -/
inductive Act : State → State → Prop where
  | move {s t : State} : Move s t → Act s t
  | change {s u : State} {ls : List (Fin 4)} : Change s ls u → Act s (u.deliver ls)
  | tick (s : State) : Act s (s.settle settleBound tickOwners)
  | owner (s : State) (o : Task) : o.isCause = false → Act s (s.settle settleBound [o])

/-- A chain of acts. -/
abbrev Acts : State → State → Prop := Relation.ReflTransGen Act

theorem Acts.refl (s : State) : Acts s s := Relation.ReflTransGen.refl

theorem Acts.move {s t : State} (h : Move s t) : Acts s t := .single (.move h)

theorem Acts.book {s t : State} (h : SameBlocks s t) : Acts s t := .move (.book h)

theorem Acts.change {s u : State} {ls : List (Fin 4)} (h : Change s ls u) : Acts s (u.deliver ls) :=
  .single (.change h)

theorem Acts.then {s t u : State} (h : Acts s t) (g : Acts t u) : Acts s u := Relation.ReflTransGen.trans h g

/-! ## What is kept -/

/-- What every act keeps, a chain of acts keeps. -/
theorem Acts.keep {P : State → Prop} (hact : ∀ {s t}, Act s t → P s → P t) {s t : State} (h : Acts s t) (hs : P s) :
    P t := by
  induction h with
  | refl => exact hs
  | tail _ hlast ih => exact hact hlast ih

theorem SameBlocks.noteChoice (s : State) (ts : List Task) : SameBlocks s (s.noteChoice ts) := by
  constructor <;> simp

/-- A property of the part's blocks, each by itself: what moves, changes and single pieces of work keep, every act
keeps. -/
theorem Act.keep {P : State → Prop} (hmove : ∀ {s t}, Move s t → P s → P t)
    (hchange : ∀ {s u ls}, Change s ls u → P s → P u) (hwork : ∀ s o, P s → P (s.perform o).1) {s t : State}
    (h : Act s t) (hs : P s) : P t := by
  have hsettle : ∀ k ts s, P s → P (s.settle k ts) :=
    State.settle_keeps P (fun s ts hs => hmove (.book (.noteChoice s ts)) hs) hwork
  cases h with
  | move h => exact hmove h hs
  | change h => exact hsettle _ _ _ (hchange h hs)
  | tick => exact hsettle _ _ _ hs
  | owner => exact hsettle _ _ _ hs

end Sys2Proof.Machine
end

