-- ==== Sys2Proof/Proofs/CommandActs.lean ====
section
/-! PROOF. Every command is a chain of acts: the owners of messages and requests, the bytes of the feed and of the panel,
the ports and the tick, with O3; and the principle by which the invariants follow. -/

namespace Sys2Proof.Machine

/-! ## Bookkeeping -/

theorem SameBlocks.placeReply (s : State) (k : Nat) (r : Result) (fs : List Byte) :
    SameBlocks s (s.placeReply k r fs) := by
  constructor <;> simp

theorem SameBlocks.audit (s : State) (e : AuditEvent) : SameBlocks s (s.audit e) := by
  constructor <;> rfl

/-- An update of some of the fields that no invariant speaks of is seen field by field. -/
theorem Acts.countTaken (s : State) : Acts s s.countTaken := .book (by constructor <;> rfl)

theorem Acts.countRefused (s : State) : Acts s s.countRefused := .book (by constructor <;> rfl)

theorem Acts.reply {s : State} {owner : State → Answer} (h : Acts s (owner s).state) (k : Nat) :
    Acts s (s.reply k owner) :=
  h.then (.book (.placeReply _ _ _ _))

theorem Acts.takeMsg {s : State} {owner : State → Option State}
    (h : ∀ {u t}, owner u = some t → Acts u t) : Acts s (s.takeMsg owner) := by
  unfold State.takeMsg
  split
  next t ht => exact (Acts.countTaken s).then (h ht)
  next => exact .countRefused s

theorem Acts.running {s : State} {f : State → State} (h : Acts s (f s)) : Acts s (s.running f) := by
  unfold State.running
  split
  · exact .refl s
  · exact h

theorem Acts.foldl {α : Type} {f : State → α → State} (h : ∀ s a, Acts s (f s a)) (l : List α) (s : State) :
    Acts s (l.foldl f s) := by
  induction l generalizing s with
  | nil => exact .refl s
  | cons a l ih => exact (h s a).then (ih _)

/-! ## The owners of messages -/

section
variable {s t : State}

theorem svcPut_acts {b : SvcPutBody} (h : svcPut b s = some t) : Acts s t := by
  unfold svcPut at h
  split at h
  next => cases h
  next r hr =>
    split at h
    next hplaced =>
      cases h
      exact .change (.loaded s b r hr hplaced)
    next => cases h

theorem svcDrop_acts {n : Nat} (h : svcDrop n s = some t) : Acts s t := by
  unfold svcDrop at h
  split at h
  next =>
    split at h
    next =>
      cases h
      exact .change (.unloaded s n)
    next =>
      cases h
      exact .refl s
  next => cases h

theorem onAir_acts {n : Nat} {title : Option Nat} (h : onAir n title s = some t) : Acts s t := by
  unfold onAir at h
  split at h
  next =>
    split at h
    next => cases h
    next r hr =>
      split at h
      next =>
        cases h
        exact .change (.aired s n title r hr)
      next => cases h
  next => cases h

theorem keyPut_acts {b : KeyPutBody} (h : keyPut b s = some t) : Acts s t := by
  unfold keyPut at h
  split at h
  next n p _ _ =>
    cases h
    exact .move (.family s n _ (.loaded p _))
  next => cases h

theorem keyWipe_acts {n : Nat} (h : keyWipe n s = some t) : Acts s t := by
  unfold keyWipe at h
  split at h
  next f _ =>
    cases h
    exact .move (.family s f _ .wiped)
  next => cases h

theorem titlePut_acts {b : TitlePutBody} (h : titlePut b s = some t) : Acts s t := by
  unfold titlePut at h
  split at h
  next => cases h
  next =>
    split at h
    next => cases h
    next hroom =>
      cases h
      refine .change (.catalogued s b ?_)
      cases hc : s.catalog? b.title with
      | some e => exact .inl rfl
      | none => exact .inr (not_le.1 fun hfull => hroom ⟨by simp [hc], hfull⟩)

theorem titleDrop_acts {x : Nat} (h : titleDrop x s = some t) : Acts s t := by
  unfold titleDrop at h
  split at h
  next => cases h
  next =>
    split at h
    next =>
      cases h
      exact .change (.dropped s x)
    next =>
      cases h
      exact .refl s

theorem tariffPut_acts {b : TariffPutBody} (h : tariffPut b s = some t) : Acts s t := by
  unfold tariffPut at h
  split at h
  next => cases h
  next =>
    cases h
    exact .book (by constructor <;> rfl)

theorem stayOpen_acts {b : StayOpenBody} (h : stayOpen b s = some t) : Acts s t := by
  unfold stayOpen at h
  split at h
  next => cases h
  next c hc =>
    split at h
    next hvacant =>
      cases h
      exact .change (.opened s b c hc hvacant)
    next =>
      split at h
      next =>
        cases h
        exact .change (.updated s b c hc)
      next =>
        cases h
        exact .change (.replaced s b c hc)

theorem stayClose_acts {n : Nat} (h : stayClose n s = some t) : Acts s t := by
  unfold stayClose at h
  split at h
  next => cases h
  next =>
    split at h
    next =>
      cases h
      exact .change (.closed s)
    next =>
      cases h
      exact .move (.stale s _)

theorem lockSet_acts {b : LockSetBody} (h : lockSet b s = some t) : Acts s t := by
  unfold lockSet at h
  split at h
  next =>
    cases h
    exact .change (.policed s b)
  next => cases h

theorem chargePoll_acts (h : chargePoll s = some t) : Acts s t := by
  cases h
  exact .move (.offered s .charge _)

theorem chargeAck_acts {n : Nat} (h : chargeAck n s = some t) : Acts s t := by
  cases h
  exact .move (.chargesAcked s n)

theorem statusPoll_acts (h : statusPoll s = some t) : Acts s t := by
  cases h
  exact .move (.offered s .status _)

theorem timeMark_acts {n : Nat} (h : timeMark n s = some t) : Acts s t := by
  have hclock : Acts s { s with clock := { prescaler := 0, houseTime := n, timeSet := true } } :=
    .book (by constructor <;> rfl)
  cases h
  split
  · exact hclock.then (.move (.latched _ _))
  · exact hclock

theorem countSet_acts {b : CountSetBody} (h : countSet b s = some t) : Acts s t := by
  unfold countSet at h
  split at h
  next =>
    cases h
    exact .book (by constructor <;> rfl)
  next => cases h

theorem countPoll_acts (h : countPoll s = some t) : Acts s t := by
  cases h
  exact .move (.offered s .count _)

theorem alertClear_acts {flags : Vector Nat 6} (h : alertClear flags s = some t) : Acts s t := by
  unfold alertClear at h
  split at h
  next =>
    cases h
    exact .book (by constructor <;> rfl)
  next => cases h

theorem groupSet_acts {groups : Vector Nat 4} (h : groupSet groups s = some t) : Acts s t := by
  cases h
  exact .book (by constructor <;> rfl)

theorem feedSet_acts {n : Nat} (h : feedSet n s = some t) : Acts s t := by
  cases h
  exact .move (.framer s _ (.limited n))

theorem unitReset_acts (h : unitReset s = some t) : Acts s t := by
  cases h
  exact .move (.warm s)

end

theorem dispatchMsg_acts (s : State) (m : MgmtMsg) : Acts s (s.dispatchMsg m) := by
  cases m with
  | svcPut => exact .takeMsg svcPut_acts
  | svcDrop => exact .takeMsg svcDrop_acts
  | onAir => exact .takeMsg onAir_acts
  | keyPut => exact .takeMsg keyPut_acts
  | keyWipe => exact .takeMsg keyWipe_acts
  | titlePut => exact .takeMsg titlePut_acts
  | titleDrop => exact .takeMsg titleDrop_acts
  | stayOpen => exact .takeMsg stayOpen_acts
  | stayClose => exact .takeMsg stayClose_acts
  | lockSet => exact .takeMsg lockSet_acts
  | tariffPut => exact .takeMsg tariffPut_acts
  | chargePoll => exact .takeMsg chargePoll_acts
  | chargeAck => exact .takeMsg chargeAck_acts
  | statusPoll => exact .takeMsg statusPoll_acts
  | timeMark => exact .takeMsg timeMark_acts
  | countSet => exact .takeMsg countSet_acts
  | countPoll => exact .takeMsg countPoll_acts
  | alertClear => exact .takeMsg alertClear_acts
  | groupSet => exact .takeMsg groupSet_acts
  | feedSet => exact .takeMsg feedSet_acts
  | unitReset => exact .takeMsg unitReset_acts

/-! ## The owners of requests -/

theorem pick_acts (lane : Nat) (k : Option Nat) (s : State) : Acts s (pick lane k s).state := by
  unfold pick
  split
  next => exact .refl s
  next n _ =>
    split
    next => exact .change (.selected s n k)
    next => exact .refl s

theorem askLane_acts (lane : Nat) (s : State) : Acts s (askLane lane s).state := by
  unfold askLane
  split
  next => exact .refl s
  next n _ => exact .move (.lane s n _ .unlatched)

theorem pinFailure_acts (s : State) (n : Fin 4) : Acts s (s.pinFailure n) := by
  refine (Acts.book (.audit s (.pinFailure n))).then ?_
  rcases Nat.lt_or_ge s.lock.attempts 2 with hbelow | hthird
  · rw [State.pinFailure_below n hbelow]
    exact .move (.tried _ _ (by omega))
  · rw [State.pinFailure_third n hthird]
    exact (Acts.move (.lockedOut _)).then ((Acts.move (.latched _ _)).then (.move (.raised _ 3 (by decide) (by decide))))

theorem pinTest_acts (s : State) (n : Fin 4) (pin : Option PinField) : Acts s (s.pinTest n pin).2 := by
  unfold State.pinTest
  split
  next => exact .refl s
  next =>
    split
    next => exact .refl s
    next =>
      split
      next => exact .move (.tried s 0 (by decide))
      next => exact pinFailure_acts s n

/-- A PIN test that passes sets the attempt count back and does nothing else. -/
theorem State.pinTest_none {s t : State} {n : Fin 4} {pin : Option PinField} (h : s.pinTest n pin = (none, t)) :
    t = { s with lock.attempts := 0 } := by
  unfold State.pinTest at h
  split at h
  next => cases h
  next =>
    split at h
    next => cases h
    next =>
      split at h
      next =>
        cases h
        rfl
      next => cases h

theorem unlock_acts (lane : Nat) (pin : Option PinField) (s : State) : Acts s (unlock lane pin s).state := by
  unfold unlock
  split
  next => exact .refl s
  next n _ =>
    split
    next => exact .refl s
    next hroom =>
      split
      next => exact .refl s
      next hbarred =>
        have htest := pinTest_acts s n pin
        have hoccupied : s.room.state = .occupied := by cases h : s.room.state <;> simp_all
        split
        next r t heq =>
          rw [heq] at htest
          exact htest
        next t heq =>
          rw [heq] at htest
          obtain rfl := State.pinTest_none heq
          exact htest.then (.change (.leased _ n hoccupied (by simpa using hbarred)))

theorem relock_acts (lane : Nat) (s : State) : Acts s (relock lane s).state := by
  unfold relock
  split
  next => exact .refl s
  next n _ =>
    dsimp only
    split
    next => exact .refl s
    next => exact .change (.relocked s n)

theorem buyTested_acts {s : State} {e : CatalogEntry} (n : Fin 4) (hroom : s.room.state = .occupied)
    (hcatalog : s.catalog? e.title = some e) : Acts s (s.buyTested n e).state := by
  unfold State.buyTested
  split
  next => exact .refl s
  next hplace =>
    split
    next => exact .move (.latched s _)
    next hcharge =>
      dsimp only
      split
      next => exact .move (.latched s _)
      next hceiling =>
        refine .change (.purchased s n e _ hroom hcatalog (fun hnone => ?_) (by simpa using hcharge) (by omega))
        by_contra hfull
        exact hplace ⟨by simp [hnone], by simpa using hfull⟩

theorem buy_acts (lane title : Nat) (pin : Option PinField) (s : State) : Acts s (buy lane title pin s).state := by
  unfold buy
  split
  next => exact .refl s
  next n _ =>
    split
    next => exact .refl s
    next =>
      split
      next => exact .refl s
      next hroom =>
        have hoccupied : s.room.state = .occupied := by cases h : s.room.state <;> simp_all
        split
        next => exact .refl s
        next =>
          split
          next => exact .refl s
          next e he =>
            have hcatalog : s.catalog? e.title = some e := by rw [State.catalog?_title he, he]
            split
            next => exact .refl s
            next =>
              split
              next =>
                have htest := pinTest_acts s n pin
                split
                next r t heq =>
                  rw [heq] at htest
                  exact htest
                next t heq =>
                  rw [heq] at htest
                  obtain rfl := State.pinTest_none heq
                  exact htest.then (buyTested_acts n hoccupied hcatalog)
              next => exact buyTested_acts n hoccupied hcatalog

theorem State.rental?_title {s : State} {x : Nat} {r : RentalRec} (h : s.rental? x = some r) : r.title = x := by
  simpa using List.find?_some h

theorem refund_acts (title : Nat) (s : State) : Acts s (refund title s).state := by
  unfold refund
  split
  next => exact .refl s
  next =>
    split
    next => exact .refl s
    next r hr =>
      split
      next => exact .refl s
      next =>
        split
        next => exact .refl s
        next =>
          split
          next => exact .refl s
          next =>
            split
            next => exact .move (.latched s _)
            next hcharge =>
              exact .change (.credited s r (by rw [State.rental?_title hr, hr]) (by simpa using hcharge))

theorem askTitle_acts (title : Nat) (s : State) : Acts s (askTitle title s).state := by
  unfold askTitle
  split <;> exact .refl s

theorem attnAck_acts (code : Nat) (s : State) : Acts s (attnAck code s).state := by
  unfold attnAck
  split
  next => exact .refl s
  next => exact .move (.codeAcked s code)

theorem request_acts (s : State) (q : PanelReq) : Acts s (s.request q) := by
  cases q with
  | pick lane service => exact (pick_acts lane service s).reply _
  | buy lane title pin => exact (buy_acts lane title pin s).reply _
  | refund title => exact (refund_acts title s).reply _
  | unlock lane pin => exact (unlock_acts lane pin s).reply _
  | relock lane => exact (relock_acts lane s).reply _
  | askLane lane => exact (askLane_acts lane s).reply _
  | askTitle title => exact (askTitle_acts title s).reply _
  | askRoom => exact Acts.reply (owner := askRoom) (.refl s) _
  | attnRead => exact Acts.reply (owner := attnRead) (.refl s) _
  | attnAck code => exact (attnAck_acts code s).reply _
  | attnFloor n => exact Acts.reply (owner := attnFloor n) (.move (.floorSet s n)) _

/-! ## The path of a media cell -/

theorem tellKeyMiss_acts (s : State) (n : Fin 4) : Acts s (s.tellKeyMiss n) :=
  (Acts.move (.lane s n _ (.missed _))).then (.book (.audit _ _))

theorem keyMiss_acts (s : State) (f : Option (Fin 32)) (k : Nat) : Acts s (s.keyMiss f k) := by
  unfold State.keyMiss
  cases f with
  | none => exact Acts.foldl tellKeyMiss_acts _ s
  | some f => exact (Acts.move (.family s f _ (.missed _))).then (Acts.foldl tellKeyMiss_acts _ _)

theorem queueCell_acts {s : State} {n : Fin 4} {c : Cell} (k : Nat)
    (h : s.lanes[n].state.viewing = true ∨
      (s.lanes[n].state = .offer ∨ s.lanes[n].state = .locked) ∧ c.kind = .fill) : Acts s (s.queueCell n k c) := by
  unfold State.queueCell
  split
  next hroom => exact .move (.lane s n _ (.queued c hroom h))
  next => exact (Acts.move (.lane s n _ (.overrun _))).then (.book (.audit _ _))

theorem notePicture_acts (s : State) (n : Fin 4) : Acts s (s.notePicture n) := by
  have hmark : Acts s (s.modLane n fun l => { l with mark := true }) := .move (.lane s n _ .marked)
  unfold State.notePicture
  dsimp only
  split
  · exact hmark.then (.move (.picture _ _))
  · exact hmark.then (.move (.picture _ _))
  · exact hmark

theorem offerLane_acts (k : Nat) (role : Role) (c : Cell) (s : State) (n : Fin 4) :
    Acts s (s.offerLane k role c n) := by
  have hviewing : s.lanes[n].state.viewing = true →
      Acts s (if s.lanes[n].queue.length < 8 ∧ role = .picture then (s.queueCell n k c).notePicture n
        else s.queueCell n k c) := by
    intro h
    split
    · exact (queueCell_acts k (.inl h)).then (notePicture_acts _ n)
    · exact queueCell_acts k (.inl h)
  unfold State.offerLane
  split
  next h => exact hviewing (by rw [h]; rfl)
  next h => exact hviewing (by rw [h]; rfl)
  next h => exact hviewing (by rw [h]; rfl)
  next h => exact queueCell_acts k (.inr ⟨.inl h, rfl⟩)
  next h => exact queueCell_acts k (.inr ⟨.inr h, rfl⟩)
  next => exact .refl s
  next => exact .refl s

theorem offerCell_acts (s : State) (k : Nat) (role : Role) (c : Cell) : Acts s (s.offerCell k role c) :=
  Acts.foldl (offerLane_acts k role c) _ s

theorem scrambledCell_acts (s : State) (e : DirEntry) (c : Cell) (p : Parity) : Acts s (s.scrambledCell e c p) := by
  unfold State.scrambledCell
  split
  next => exact keyMiss_acts s none _
  next f _ =>
    have hturn : Acts s (s.modFamily f fun k => k.parityStep p) := .move (.family s f _ (.turned p))
    dsimp only
    split
    · exact hturn.then (keyMiss_acts _ (some f) _)
    · exact hturn.then (offerCell_acts _ _ _ _)

theorem mediaCell_acts (s : State) (c : Cell) : Acts s (s.mediaCell c) := by
  unfold State.mediaCell
  split
  next => exact .move (.framer s _ (.counted s.framer.headerBad _))
  next e _ =>
    have harrival : Acts s (s.noteArrival e.service c.tag c.seq) := .move (.arrival s _ _ _)
    dsimp only
    split
    · exact harrival.then (offerCell_acts _ _ _ _)
    · exact harrival.then (scrambledCell_acts _ e c _)

/-! ## A byte of the feed -/

theorem managementCell_acts (s : State) (payload : List Byte) : Acts s (s.managementCell payload) := by
  have hmalformed : Acts s s.countMalformed := .book (by constructor <;> rfl)
  unfold State.managementCell
  split
  next => exact .book (by constructor <;> rfl)
  next =>
    split
    next => exact hmalformed
    next =>
      split
      next =>
        dsimp only
        split
        next => exact hmalformed
        next =>
          split
          next => exact hmalformed
          next m _ => exact dispatchMsg_acts s m
      next => exact .refl s

theorem wholeCell_acts (s : State) (bs : List Byte) : Acts s (s.wholeCell bs) := by
  unfold State.wholeCell
  split
  next => exact .move (.framer s _ (.counted _ s.framer.tagMiss))
  next c _ =>
    split
    · exact managementCell_acts s _
    · exact .refl s
    · exact mediaCell_acts s c

theorem lockedBad_acts {s : State} (h : s.framer.state = .locked) (second : Byte) : Acts s (s.lockedBad second) := by
  by_cases hcut : s.framer.cut - 1 = 0
  · rw [State.lockedBad_lost second hcut]
    exact (Acts.move (.framer s _ (.lost _ _ _ h))).then
      ((Acts.move (.latched _ _)).then (.move (.raised _ 1 (by decide) (by decide))))
  · rw [State.lockedBad_slipped second hcut]
    exact .move (.framer s _ (.slipped _ h hcut))

theorem boundaryTest_acts (s : State) : Acts s s.boundaryTest := by
  cases hstate : s.framer.state with
  | hunt =>
    simp only [State.boundaryTest, hstate]
    exact .refl s
  | confirm =>
    rw [State.boundaryTest_confirm hstate]
    split
    · exact .move (.framer s _ (.confirmed hstate))
    · exact .move (.framer s _ (.unconfirmed _ hstate))
  | locked =>
    rw [State.boundaryTest_locked hstate]
    split
    · exact .move (.framer s _ (.taken hstate))
    · exact lockedBad_acts hstate _

theorem assembleByte_acts {s : State} (h : s.framer.state ≠ .hunt) (b : Byte) : Acts s (s.assembleByte b) := by
  have hkept : s.framer.bytes.length + 1 < 96 → Acts s (s.withByte b) := fun hlt => .move (.framer s _ (.kept b h hlt))
  have hended : Acts s s.cellDone := .move (.framer s _ .ended)
  rw [State.assembleByte_eq]
  split
  next hone => exact (hkept (by omega)).then (boundaryTest_acts _)
  next =>
    split
    next =>
      split
      · exact hended.then (wholeCell_acts _ _)
      · exact hended
    next hlt => exact hkept (by omega)

theorem feedByte_acts (s : State) (b : Byte) : Acts s (s.feedByte b) := by
  by_cases hhunt : s.framer.state = .hunt
  · rw [State.feedByte_of_hunt hhunt]
    exact .move (.framer s _ (.scanned b hhunt))
  · rw [State.feedByte_of_not_hunt hhunt]
    exact assembleByte_acts hhunt b

/-! ## A byte of the panel, the ports and the tick -/

theorem panelByte_acts (s : State) (b : Byte) (err : Bool) : Acts s (s.panelByte b err) := by
  have hframe : ∀ f, Acts s { s with frame := f } := fun f => .book (by constructor <;> rfl)
  unfold State.panelByte
  split
  next =>
    split
    · exact hframe _
    · exact .refl s
  next =>
    dsimp only
    split
    · refine (hframe none).then ?_
      unfold State.finishFrame
      dsimp only
      split
      next q _ => exact request_acts _ q
      next => exact .book (.placeReply _ _ _ _)
    · exact hframe _

theorem takeReportByte_acts (s : State) (ready : Bool) :
    Acts s { s with returnReady := ready }.takeReportByte :=
  (Acts.book (s := s) (t := { s with returnReady := ready }) (by constructor <;> rfl)).then (.move (.byteTaken _))

theorem replySent_acts (s : State) : Acts s s.replySent := by
  unfold State.replySent
  split
  · exact .refl s
  · exact .book (by constructor <;> rfl)

theorem secondTick_acts (s : State) : Acts s s.secondTick :=
  (Acts.book (s := s) (t := { s with clock.prescaler := 0 }) (by constructor <;> rfl)).then (.single (.tick _))

/-- An event row of the tick: one owner's work or nothing. -/
theorem Acts.ownerIf (s : State) (o : Task) (p : Prop) [Decidable p] (ho : o.isCause = false := by rfl) :
    Acts s (if p then s.settle settleBound [o] else s) := by
  split
  · exact .single (.owner s o ho)
  · exact .refl s

theorem clockCycle_acts (s : State) : Acts s s.clockCycle := by
  refine Acts.running ?_
  split
  · exact secondTick_acts s
  · exact .book (by constructor <;> rfl)

/-! ## Every command -/

/-- Every command is a chain of acts. -/
theorem exec_acts (c : Instr) (s : State) : ∃ t, exec c s = .next t ∧ Acts s t := by
  cases c with
  | coldStart => exact ⟨_, rfl, .move (.cold s)⟩
  | resetLineAssert =>
    exact ⟨_, rfl, (Acts.move (.warm s)).then (.book (t := { s.warmReset with held := true }) (by constructor <;> rfl))⟩
  | resetLineRelease => exact ⟨_, rfl, .book (by constructor <;> rfl)⟩
  | feedByte b => exact ⟨_, rfl, .running (feedByte_acts s b)⟩
  | screenPortBegin n ready =>
    have hready : Acts s { s with screenReady := s.screenReady.set n ready } := .book (by constructor <;> rfl)
    refine ⟨_, rfl, .running ?_⟩
    dsimp only
    split
    · exact hready.then (.move (.lane _ n _ .begun))
    · exact hready
  | cellSent n => exact ⟨_, rfl, .running (.move (.lane s n _ .completed))⟩
  | secondTick => exact ⟨_, rfl, .running (secondTick_acts s)⟩
  | feedSilence => exact ⟨_, rfl, .running (.ownerIf s .framer _)⟩
  | noPicture n => exact ⟨_, rfl, .running (.ownerIf s (.laneTick n) _)⟩
  | previewSpent x => exact ⟨_, rfl, .running (.ownerIf s .rental _)⟩
  | rentalExpiry x => exact ⟨_, rfl, .running (.ownerIf s .rental _)⟩
  | lockoutEnd => exact ⟨_, rfl, .running (.ownerIf s .lock _)⟩
  | leaseEnd n => exact ⟨_, rfl, .running (.ownerIf s .lock _)⟩
  | frameAbandon => exact ⟨_, rfl, .running (.ownerIf s .panel _)⟩
  | svcPut => exact ⟨_, rfl, .running (.takeMsg svcPut_acts)⟩
  | svcDrop => exact ⟨_, rfl, .running (.takeMsg svcDrop_acts)⟩
  | onAir => exact ⟨_, rfl, .running (.takeMsg onAir_acts)⟩
  | keyPut => exact ⟨_, rfl, .running (.takeMsg keyPut_acts)⟩
  | keyWipe => exact ⟨_, rfl, .running (.takeMsg keyWipe_acts)⟩
  | titlePut => exact ⟨_, rfl, .running (.takeMsg titlePut_acts)⟩
  | titleDrop => exact ⟨_, rfl, .running (.takeMsg titleDrop_acts)⟩
  | tariffPut => exact ⟨_, rfl, .running (.takeMsg tariffPut_acts)⟩
  | stayOpen => exact ⟨_, rfl, .running (.takeMsg stayOpen_acts)⟩
  | stayClose => exact ⟨_, rfl, .running (.takeMsg stayClose_acts)⟩
  | chargePoll => exact ⟨_, rfl, .running (.takeMsg chargePoll_acts)⟩
  | chargeAck => exact ⟨_, rfl, .running (.takeMsg chargeAck_acts)⟩
  | lockSet => exact ⟨_, rfl, .running (.takeMsg lockSet_acts)⟩
  | timeMark => exact ⟨_, rfl, .running (.takeMsg timeMark_acts)⟩
  | countSet => exact ⟨_, rfl, .running (.takeMsg countSet_acts)⟩
  | countPoll => exact ⟨_, rfl, .running (.takeMsg countPoll_acts)⟩
  | statusPoll => exact ⟨_, rfl, .running (.takeMsg statusPoll_acts)⟩
  | alertClear => exact ⟨_, rfl, .running (.takeMsg alertClear_acts)⟩
  | groupSet => exact ⟨_, rfl, .running (.takeMsg groupSet_acts)⟩
  | unitReset => exact ⟨_, rfl, .running (.takeMsg unitReset_acts)⟩
  | feedSet => exact ⟨_, rfl, .running (.takeMsg feedSet_acts)⟩
  | returnByte ready =>
    refine ⟨_, rfl, .running ?_⟩
    dsimp only
    split
    · exact takeReportByte_acts s ready
    · exact .book (by constructor <;> rfl)
  | reportSent =>
    refine ⟨_, rfl, .running ?_⟩
    split
    · exact takeReportByte_acts s true
    · exact .refl s
  | panelByte b err => exact ⟨_, rfl, .running (panelByte_acts s b err)⟩
  | pick lane service => exact ⟨_, rfl, .running (request_acts s (.pick lane service))⟩
  | buy lane title pin => exact ⟨_, rfl, .running (request_acts s (.buy lane title pin))⟩
  | refund title => exact ⟨_, rfl, .running (request_acts s (.refund title))⟩
  | unlock lane pin => exact ⟨_, rfl, .running (request_acts s (.unlock lane pin))⟩
  | relock lane => exact ⟨_, rfl, .running (request_acts s (.relock lane))⟩
  | askLane lane => exact ⟨_, rfl, .running (request_acts s (.askLane lane))⟩
  | askTitle title => exact ⟨_, rfl, .running (request_acts s (.askTitle title))⟩
  | askRoom => exact ⟨_, rfl, .running (request_acts s .askRoom)⟩
  | attnRead => exact ⟨_, rfl, .running (request_acts s .attnRead)⟩
  | attnAck code => exact ⟨_, rfl, .running (request_acts s (.attnAck code))⟩
  | attnFloor n => exact ⟨_, rfl, .running (request_acts s (.attnFloor n))⟩
  | replySent => exact ⟨_, rfl, .running (replySent_acts s)⟩

/-! ## What every step keeps -/

/-- What every act keeps, and what does not rest on the queue of commands, every step keeps. -/
theorem step_keeps {P : State → Prop} (hact : ∀ {s t}, Act s t → P s → P t)
    (hpending : ∀ s q, P s → P { s with pending := q }) {s t : State} (hs : P s) (h : step s = .next t) : P t := by
  unfold step at h
  split at h
  next =>
    cases h
    exact (clockCycle_acts s).keep hact hs
  next c rest _ =>
    obtain ⟨u, hu, hacts⟩ := exec_acts c { s with pending := rest }
    rw [hu] at h
    cases h
    exact hacts.keep hact (hpending s rest hs)

/-- What moves, changes and single pieces of work keep, every step keeps. -/
theorem step_keeps_block {P : State → Prop} (hmove : ∀ {s t}, Move s t → P s → P t)
    (hchange : ∀ {s u ls}, Change s ls u → P s → P u) (hwork : ∀ s o, P s → P (s.perform o).1)
    (hpending : ∀ s q, P s → P { s with pending := q }) {s t : State} (hs : P s) (h : step s = .next t) : P t :=
  step_keeps (Act.keep hmove hchange hwork) hpending hs h

end Sys2Proof.Machine
end

