-- ==== Sys2Proof/Proofs/Completion.lean ====
section
/-! PROOF. What a byte of a report and a piece of outstanding work leave alone, what every act leaves alone, and with it
O3, O4 and the queue's O1 and O2. -/

namespace Sys2Proof.Machine

/-! ## Shapes -/

theorem State.beginHead_shape (s : State) :
    s.beginHead = { s with reports := s.beginHead.reports, alerts := s.beginHead.alerts } := by
  unfold State.beginHead
  split
  · rfl
  · split <;> rfl

theorem State.completeReport_shape (s : State) :
    s.completeReport =
      { s with reports := s.completeReport.reports, reportSent := s.completeReport.reportSent,
               owed := s.completeReport.owed } := by
  unfold State.completeReport
  dsimp only
  split <;> rfl

/-- The head report as the taking of its next byte finds it: begun. -/
def State.headBegun (s : State) : State := if s.reportSent = 0 then s.beginHead else s

theorem State.headBegun_shape (s : State) :
    s.headBegun = { s with reports := s.headBegun.reports, alerts := s.headBegun.alerts } := by
  unfold State.headBegun
  split
  · exact s.beginHead_shape
  · rfl

/-- The next byte of the head report is with the modem. -/
def State.byteHanded (s : State) : State :=
  { s with returnData := s.headBytes[s.reportSent]?, reportSent := s.reportSent + 1 }

theorem State.takeReportByte_nil {s : State} (h : s.reports = []) : s.takeReportByte = s := by
  simp only [State.takeReportByte, h]

theorem State.takeReportByte_cons {s : State} (h : s.reports ≠ []) :
    s.takeReportByte =
      if s.headBegun.headBytes.length ≤ s.headBegun.reportSent + 1 then s.headBegun.byteHanded.completeReport
      else s.headBegun.byteHanded := by
  unfold State.takeReportByte
  split
  next hnil => exact absurd hnil h
  next => rfl

theorem State.takeReportByte_shape (s : State) :
    s.takeReportByte =
      { s with reports := s.takeReportByte.reports, reportSent := s.takeReportByte.reportSent,
               alerts := s.takeReportByte.alerts, owed := s.takeReportByte.owed,
               returnData := s.takeReportByte.returnData } := by
  by_cases h : s.reports = []
  · rw [State.takeReportByte_nil h]
  · rw [State.takeReportByte_cons h]
    split
    · rw [State.completeReport_shape, State.byteHanded, State.headBegun_shape]
    · rw [State.byteHanded, State.headBegun_shape]

/-- A piece of outstanding work leaves alone whatever no owner of a tick and no evaluation writes. -/
theorem State.perform_shape (s : State) (o : Task) :
    (s.perform o).1 =
      { s with
        framer := (s.perform o).1.framer, lanes := (s.perform o).1.lanes, rentals := (s.perform o).1.rentals
        lock := (s.perform o).1.lock, clock := (s.perform o).1.clock, counters := (s.perform o).1.counters
        alerts := (s.perform o).1.alerts, owed := (s.perform o).1.owed, reports := (s.perform o).1.reports
        frame := (s.perform o).1.frame, waiting := (s.perform o).1.waiting, sending := (s.perform o).1.sending
        restartOwed := (s.perform o).1.restartOwed, codes := (s.perform o).1.codes } := by
  cases o with
  | cause n => simp only [State.perform]; rw [State.evaluate_shape]
  | houseTime => rfl
  | framer => simp only [State.perform]; rw [State.framerTick_shape]
  | laneTick n => simp only [State.perform]; rw [State.laneTick_shape]
  | rental => simp only [State.perform]; rw [State.rentalTick_shape]
  | lock => simp only [State.perform]; rw [State.lockTick_shape]
  | counters => rfl
  | panel => simp only [State.perform]; rw [State.panelTick_shape]

theorem State.withRecord_shape (s : State) (e : CatalogEntry) :
    s.withRecord e = { s with rentals := (s.withRecord e).rentals } := by
  unfold State.withRecord
  split <;> rfl

/-! ## The queue and the unit identity -/

/-- The queue of commands and the unit identity are those of `s`. -/
def State.sameIdentity (s t : State) : Prop := t.pending = s.pending ∧ t.unitId = s.unitId

theorem Move.sameIdentity {r s t : State} (h : Move s t) (hs : r.sameIdentity s) : r.sameIdentity t := by
  cases h with
  | book h => exact ⟨h.pending.trans hs.1, h.unitId.trans hs.2⟩
  | latched | offered => simpa only [State.sameIdentity, State.latch_pending, State.latch_unitId,
      State.offerReport_pending, State.offerReport_unitId] using hs
  | byteTaken =>
    rw [State.takeReportByte_shape]
    exact hs
  | _ => exact hs

theorem Change.sameIdentity {r s u : State} {ls : List (Fin 4)} (h : Change s ls u) (hs : r.sameIdentity s) :
    r.sameIdentity u := by
  cases h with
  | purchased n e amount =>
    rw [State.purchased, State.withRecord_shape]
    exact hs
  | _ => exact hs

theorem State.perform_sameIdentity {r s : State} (o : Task) (hs : r.sameIdentity s) :
    r.sameIdentity (s.perform o).1 := by
  rw [State.perform_shape]
  exact hs

/-- Settles O3: every command is a chain of acts, and no act touches the queue or the identity. -/
theorem everyCommandCompletes : Obligations.every_command_completes := by
  unfold Obligations.every_command_completes
  intro c s
  obtain ⟨t, ht, hacts⟩ := exec_acts c s
  exact ⟨t, ht, hacts.keep (P := s.sameIdentity)
    (Act.keep Move.sameIdentity Change.sameIdentity fun _ => State.perform_sameIdentity) ⟨rfl, rfl⟩⟩

/-! ## The reset line held, and the queue -/

/-- Settles O4: every command but three runs behind the test of the reset line. -/
theorem heldPartDoesNothing : Obligations.held_part_does_nothing := by
  unfold Obligations.held_part_does_nothing
  intro c s hheld hcold hassert hrelease
  have hstays : ∀ f, Host.Outcome.next (ρ := Refusal) (φ := Fault) (s.running f) = .next s :=
    fun f => congrArg _ (State.running_of_held hheld)
  cases c with
  | coldStart => exact absurd rfl hcold
  | resetLineAssert => exact absurd rfl hassert
  | resetLineRelease => exact absurd rfl hrelease
  | _ => exact hstays _

/-- Settles O1: the front command is run on the queue's rest. -/
theorem stepRunsFrontCommand : Obligations.step_runs_front_command := by
  unfold Obligations.step_runs_front_command
  exact fun _ _ _ => rfl

/-- Settles O2: with an empty queue a step is a cycle of the clock, behind the test of the reset line. -/
theorem idleStepCountsOneClockCycle : Obligations.idle_step_counts_one_clock_cycle := by
  unfold Obligations.idle_step_counts_one_clock_cycle
  intro s hidle
  have hstep : step s = .next s.clockCycle := by simp only [step, hidle]
  rw [hstep, State.clockCycle]
  refine ⟨fun hheld => ?held, fun hheld hbelow => ?counts, fun hheld hreached => ?ticks⟩
  case held => rw [State.running_of_held hheld]
  case counts => rw [State.running_of_not_held hheld, if_neg (by omega)]
  case ticks => rw [State.running_of_not_held hheld, if_pos hreached, exec_secondTick hheld]

end Sys2Proof.Machine
end

