-- ==== Sys2Proof/Proofs/ChargeInvariant.lean ====
section
/-! PROOF. The charge list and the spend (R119, R122 to R124, R127): appending a record, what the settings of a stay are
within, and O54. -/

namespace Sys2Proof.Machine

/-! ## The settings of a stay (R115) -/

theorem clamp_zero_le (hi n : Nat) : clamp 0 hi n ≤ hi := by rw [clamp_zero]; exact Nat.min_le_left ..

theorem pinDigits_iff {p : PinField} : pinDigits p = true ↔ p.d0 ≤ 9 ∧ p.d1 ≤ 9 ∧ p.d2 ≤ 9 ∧ p.d3 ≤ 9 := by
  simp [pinDigits, and_assoc]

theorem pinOptDigits_iff {pin : Option PinField} :
    pinOptDigits pin = true ↔ ∀ p, pin = some p → p.d0 ≤ 9 ∧ p.d1 ≤ 9 ∧ p.d2 ≤ 9 ∧ p.d3 ≤ 9 := by
  cases pin <;> simp [pinOptDigits, pinDigits_iff]

/-- What a STAY-OPEN that is not refused carries is in range. -/
theorem staySettings_inRange {b : StayOpenBody} {c : StaySettings} (h : staySettings b = some c) :
    c.ceiling ≤ 1000000 ∧ c.roomCeiling ≤ 7 ∧
      ∀ p, c.pin = some p → p.d0 ≤ 9 ∧ p.d1 ≤ 9 ∧ p.d2 ≤ 9 ∧ p.d3 ≤ 9 := by
  unfold staySettings at h
  split at h
  next =>
    split at h
    next hok =>
      cases h
      exact ⟨clamp_zero_le .., clamp_zero_le .., pinOptDigits_iff.1 (Bool.and_eq_true .. ▸ hok).2⟩
    next => cases h
  next => cases h

/-! ## Appending a record (R122 to R124) -/

theorem State.canCharge_iff {s : State} : s.canCharge = true ↔ s.charges.length < 12 ∧ s.nextSerial ≤ 16777215 := by
  simp [State.canCharge]

theorem chargesInv_appendCharge {s : State} {c : ChargeRec} (hs : chargesInv s) (hroom : s.canCharge = true)
    (hserial : c.serial = s.nextSerial) : chargesInv (s.appendCharge c) := by
  obtain ⟨-, hrising, hbelow, hfirst, -⟩ := hs
  obtain ⟨hlen, hnext⟩ := State.canCharge_iff.1 hroom
  refine ⟨?length, ?rising, ?below, Nat.le_add_left .., Nat.succ_le_succ hnext⟩
  case length => simpa [State.appendCharge] using hlen
  case rising =>
    simp only [State.appendCharge, List.map_append, List.pairwise_append]
    refine ⟨hrising, List.pairwise_singleton .., fun a ha b hb => ?_⟩
    obtain ⟨d, hd, rfl⟩ := List.mem_map.1 ha
    obtain rfl : b = s.nextSerial := by simpa [hserial] using hb
    exact (hbelow d hd).2
  case below =>
    intro d hd
    rcases List.mem_append.1 hd with hold | hnew
    · exact ⟨(hbelow d hold).1, Nat.lt_succ_of_lt (hbelow d hold).2⟩
    · obtain rfl := List.mem_singleton.1 hnew
      rw [hserial]
      exact ⟨hfirst, Nat.lt_succ_self _⟩

theorem chargesInv_sublist {s : State} {l : List ChargeRec} (hs : chargesInv s) (hl : l.Sublist s.charges) :
    chargesInv { s with charges := l } := by
  obtain ⟨hlen, hrising, hbelow, hserial⟩ := hs
  exact ⟨hl.length_le.trans hlen, hrising.sublist (hl.map _), fun c hc => hbelow c (hl.subset hc), hserial⟩

/-! ## At reset, through moves and through changes -/

theorem chargesInv_reset : chargesInv State.reset := by
  simp [chargesInv, State.reset]

theorem spendInv_reset : spendInv State.reset := by
  simp [spendInv, State.reset, Room.cold]

theorem chargesInv_move {s t : State} (h : Move s t) (hs : chargesInv s) : chargesInv t := by
  cases h with
  | book h => simpa only [chargesInv, h.charges, h.nextSerial] using hs
  | chargesAcked n => exact chargesInv_sublist hs List.filter_sublist
  | latched | offered => simpa only [chargesInv, State.latch_charges, State.latch_nextSerial,
      State.offerReport_charges, State.offerReport_nextSerial] using hs
  | byteTaken =>
    rw [State.takeReportByte_shape]
    exact hs
  | cold => exact chargesInv_reset
  | _ => exact hs

theorem spendInv_move {s t : State} (h : Move s t) (hs : spendInv s) : spendInv t := by
  cases h with
  | book h => simpa only [spendInv, h.room] using hs
  | latched | offered => simpa only [spendInv, State.latch_room, State.offerReport_room] using hs
  | byteTaken =>
    rw [State.takeReportByte_shape]
    exact hs
  | cold => exact spendInv_reset
  | _ => exact hs

theorem chargesInv_change {s u : State} {ls : List (Fin 4)} (h : Change s ls u) (hs : chargesInv s) :
    chargesInv u := by
  cases h with
  | purchased n e amount _ _ _ hcharge =>
    rw [State.purchased, State.withRecord_shape]
    exact chargesInv_appendCharge hs hcharge rfl
  | credited r _ hcharge => exact chargesInv_appendCharge hs hcharge rfl
  | _ => exact hs

theorem spendInv_change {s u : State} {ls : List (Fin 4)} (h : Change s ls u) (hs : spendInv s) : spendInv u := by
  obtain ⟨hspend, hceiling, hvacant⟩ := hs
  cases h with
  | purchased n e amount hroom _ _ _ hfits =>
    rw [State.purchased, State.withRecord_shape]
    refine ⟨hfits.trans hceiling, hceiling, fun hv => ?_⟩
    rw [show s.room.state = .vacant from hv] at hroom
    cases hroom
  | credited r =>
    refine ⟨(Nat.sub_le ..).trans hspend, hceiling, fun hv => ?_⟩
    have hzero : s.room.spend = 0 := hvacant hv
    show s.room.spend - _ = 0
    omega
  | opened b c hc => exact ⟨Nat.zero_le _, (staySettings_inRange hc).1, fun _ => rfl⟩
  | updated b c hc => exact ⟨hspend, (staySettings_inRange hc).1, hvacant⟩
  | replaced b c hc => exact ⟨Nat.zero_le _, (staySettings_inRange hc).1, fun _ => rfl⟩
  | closed => exact ⟨Nat.zero_le _, hceiling, fun _ => rfl⟩
  | _ => exact ⟨hspend, hceiling, hvacant⟩

theorem chargesInv_perform (s : State) (o : Task) (hs : chargesInv s) : chargesInv (s.perform o).1 := by
  rw [State.perform_shape]
  exact hs

theorem spendInv_perform (s : State) (o : Task) (hs : spendInv s) : spendInv (s.perform o).1 := by
  rw [State.perform_shape]
  exact hs

/-- Settles O54: only the owners of stays, purchases and refunds write the spend, and only they and CHARGE-ACK the
list. -/
theorem everyStepKeepsChargesAndSpend : Obligations.every_step_keeps_charges_and_spend := by
  unfold Obligations.every_step_keeps_charges_and_spend
  exact fun s t hcharges hspend hstep =>
    ⟨step_keeps_block chargesInv_move chargesInv_change chargesInv_perform (fun _ _ h => h) hcharges hstep,
      step_keeps_block spendInv_move spendInv_change spendInv_perform (fun _ _ h => h) hspend hstep⟩

end Sys2Proof.Machine
end

