-- ==== Sys2Proof/Proofs/LockInvariant.lean ====
section
/-! PROOF. The lock unit (Table 8-1, R135 to R143): what each update of the lock unit keeps in range, and O57. -/

namespace Sys2Proof.Machine

/-! ## The lock unit in range -/

/-- The lock unit's own ranges: all of `lockInv` but the leases. -/
def LockUnit.inRange (l : LockUnit) : Prop :=
  l.policy.houseLimit ≤ 7 ∧ l.policy.defaultCeiling ≤ 7 ∧ (∀ n : Fin 4, l.policy.laneCeilings[n] ≤ 7) ∧
    l.policy.discreet ≤ 8 ∧ l.roomCeiling ≤ 7 ∧
    (∀ p, l.pin = some p → p.d0 ≤ 9 ∧ p.d1 ≤ 9 ∧ p.d2 ≤ 9 ∧ p.d3 ≤ 9) ∧
    l.attempts ≤ 2 ∧ (∀ k, l.lockout = some k → 1 ≤ k ∧ k ≤ 900) ∧
    300 ≤ l.policy.leaseLength ∧ l.policy.leaseLength ≤ 43200

/-- A lease is held only in an OCCUPIED room by a lane that is not barred. -/
def State.leasesLawful (s : State) : Prop :=
  ∀ (n : Fin 4) (k : Nat), s.lock.leases[n] = some k →
    1 ≤ k ∧ k ≤ 43200 ∧ s.room.state = .occupied ∧ s.lock.policy.barred[n] = false

theorem lockInv_iff {s : State} : lockInv s ↔ s.lock.inRange ∧ s.leasesLawful := by
  simp only [lockInv, LockUnit.inRange, State.leasesLawful, and_assoc]

theorem State.leasesLawful_of_none {s : State} (h : s.lock.leases = .replicate 4 none) : s.leasesLawful := by
  intro n k hk
  rw [h] at hk
  simp at hk

/-! ## The updates -/

theorem policyOf_inRange (b : LockSetBody) :
    (policyOf b).houseLimit ≤ 7 ∧ (policyOf b).defaultCeiling ≤ 7 ∧
      (∀ n : Fin 4, (policyOf b).laneCeilings[n] ≤ 7) ∧ (policyOf b).discreet ≤ 8 ∧
      300 ≤ (policyOf b).leaseLength ∧ (policyOf b).leaseLength ≤ 43200 := by
  refine ⟨clamp_zero_le .., clamp_zero_le .., fun n => ?_, clamp_zero_le .., ?_⟩
  · rw [policyOf_laneCeilings]
    exact Nat.min_le_left ..
  · have hlease : (policyOf b).leaseLength = max 300 (min 43200 b.leaseLength) := by rw [policyOf_eq]
    omega

theorem lockInv_setPolicy {s : State} (b : LockSetBody) (hs : lockInv s) : lockInv (s.setPolicy (policyOf b)) := by
  obtain ⟨hrange, hleases⟩ := lockInv_iff.1 hs
  obtain ⟨-, -, -, -, hroom, hpin, hattempts, hlockout, -⟩ := hrange
  obtain ⟨hhouse, hdefault, hlanes, hdiscreet, hlease⟩ := policyOf_inRange b
  refine lockInv_iff.2 ⟨⟨hhouse, hdefault, hlanes, hdiscreet, ?_, hpin, hattempts, hlockout, hlease⟩, ?_⟩
  · show (if s.room.state = .vacant then (policyOf b).defaultCeiling else s.lock.roomCeiling) ≤ 7
    split
    · exact hdefault
    · exact hroom
  · intro n k hk
    rw [State.setPolicy_leases] at hk
    split at hk
    next => cases hk
    next hbarred =>
      obtain ⟨hlow, hhigh, hopen, -⟩ := hleases n k hk
      exact ⟨hlow, hhigh, hopen, Bool.eq_false_iff.2 hbarred⟩

/-- Setting one lane's lease leaves the others lawful. -/
theorem State.leasesLawful_set {s : State} {n : Fin 4} {o : Option Nat} (hs : s.leasesLawful)
    (ho : ∀ k, o = some k → 1 ≤ k ∧ k ≤ 43200 ∧ s.room.state = .occupied ∧ s.lock.policy.barred[n] = false) :
    { s with lock.leases := s.lock.leases.set n o }.leasesLawful := by
  intro m k hk
  by_cases hm : m = n
  · subst hm
    exact ho k (by simpa using hk)
  · have hne : n.val ≠ m.val := fun e => hm (Fin.ext e.symm)
    exact hs m k (by simpa [hne] using hk)

theorem countDown_eq_some {o : Option Nat} {k : Nat} (h : countDown o = some k) : o = some (k + 1) ∧ 1 ≤ k := by
  cases o with
  | none => cases h
  | some n =>
    simp only [countDown] at h
    split at h
    · cases h
    · cases h
      exact ⟨congrArg some (by omega), by omega⟩

theorem lockInv_lockTick {s : State} (hs : lockInv s) : lockInv s.lockTick := by
  obtain ⟨⟨hhouse, hdefault, hlanes, hdiscreet, hroom, hpin, hattempts, hlockout, hlease⟩, hleases⟩ := lockInv_iff.1 hs
  rw [State.lockTick_shape]
  refine lockInv_iff.2
    ⟨⟨hhouse, hdefault, hlanes, hdiscreet, hroom, hpin, hattempts, fun k hk => ?_, hlease⟩, fun n k hk => ?_⟩
  · obtain ⟨hbefore, hpos⟩ := countDown_eq_some hk
    have := hlockout _ hbefore
    omega
  · rw [mapEach_getElem] at hk
    obtain ⟨hbefore, hpos⟩ := countDown_eq_some hk
    obtain ⟨-, hhigh, hlawful⟩ := hleases n _ hbefore
    exact ⟨hpos, by omega, hlawful⟩

/-! ## At reset, through moves, changes and work -/

theorem lockInv_reset : lockInv State.reset := by
  refine lockInv_iff.2 ⟨?_, State.leasesLawful_of_none rfl⟩
  simp [LockUnit.inRange, State.reset, LockUnit.cold]

theorem lockInv_move {s t : State} (h : Move s t) (hs : lockInv s) : lockInv t := by
  cases h with
  | book h => simpa only [lockInv, h.lock, h.room] using hs
  | latched | offered => simpa only [lockInv, State.latch_lock, State.latch_room, State.offerReport_lock,
      State.offerReport_room] using hs
  | byteTaken =>
    rw [State.takeReportByte_shape]
    exact hs
  | tried a ha =>
    obtain ⟨⟨hhouse, hdefault, hlanes, hdiscreet, hroom, hpin, -, hrest⟩, hleases⟩ := lockInv_iff.1 hs
    exact lockInv_iff.2 ⟨⟨hhouse, hdefault, hlanes, hdiscreet, hroom, hpin, ha, hrest⟩, hleases⟩
  | lockedOut =>
    obtain ⟨⟨hhouse, hdefault, hlanes, hdiscreet, hroom, hpin, -, -, hlease⟩, hleases⟩ := lockInv_iff.1 hs
    refine lockInv_iff.2
      ⟨⟨hhouse, hdefault, hlanes, hdiscreet, hroom, hpin, Nat.zero_le _, fun k hk => ?_, hlease⟩, hleases⟩
    cases hk
    decide
  | warm => exact lockInv_iff.2 ⟨(lockInv_iff.1 hs).1, State.leasesLawful_of_none rfl⟩
  | cold => exact lockInv_reset
  | _ => exact hs

/-- The open stay's settings in place of the PIN and the ceiling, with leases that are lawful after it. -/
theorem lockInv_openStay {s : State} {b : StayOpenBody} {c : StaySettings} (hc : staySettings b = some c)
    (hs : s.lock.inRange) (hleases : ((s.openStay c).raiseCode 2).leasesLawful) :
    lockInv ((s.openStay c).raiseCode 2) := by
  obtain ⟨hhouse, hdefault, hlanes, hdiscreet, -, -, hrest⟩ := hs
  obtain ⟨-, hroom, hpin⟩ := staySettings_inRange hc
  exact lockInv_iff.2 ⟨⟨hhouse, hdefault, hlanes, hdiscreet, hroom, hpin, hrest⟩, hleases⟩

theorem LockUnit.inRange_closeStay {s : State} (hs : s.lock.inRange) : s.closeStay.lock.inRange := by
  obtain ⟨hhouse, hdefault, hlanes, hdiscreet, -, -, -, -, hlease⟩ := hs
  exact ⟨hhouse, hdefault, hlanes, hdiscreet, hdefault, (fun p hp => nomatch hp), Nat.zero_le _,
    (fun k hk => nomatch hk), hlease⟩

theorem lockInv_change {s u : State} {ls : List (Fin 4)} (h : Change s ls u) (hs : lockInv s) : lockInv u := by
  obtain ⟨hrange, hleases⟩ := lockInv_iff.1 hs
  cases h with
  | purchased n e amount =>
    rw [State.purchased, State.withRecord_shape]
    exact hs
  | opened b c hc =>
    refine lockInv_openStay hc hrange fun n k hk => ?_
    obtain ⟨hlow, hhigh, -, hbarred⟩ := hleases n k hk
    exact ⟨hlow, hhigh, rfl, hbarred⟩
  | updated b c hc =>
    obtain ⟨hhouse, hdefault, hlanes, hdiscreet, -, -, hattempts, hrest⟩ := hrange
    obtain ⟨-, hroom, hpin⟩ := staySettings_inRange hc
    refine lockInv_iff.2 ⟨⟨hhouse, hdefault, hlanes, hdiscreet, hroom, hpin, ?_, hrest⟩, hleases⟩
    show (if c.pin = s.lock.pin then s.lock.attempts else 0) ≤ 2
    split
    · exact hattempts
    · exact Nat.zero_le _
  | replaced b c hc =>
    exact lockInv_openStay hc (LockUnit.inRange_closeStay hrange) (State.leasesLawful_of_none rfl)
  | closed => exact lockInv_iff.2 ⟨LockUnit.inRange_closeStay hrange, State.leasesLawful_of_none rfl⟩
  | policed b => exact lockInv_setPolicy b hs
  | leased n hopen hbarred =>
    refine lockInv_iff.2 ⟨hrange, State.leasesLawful_set hleases fun k hk => ?_⟩
    obtain ⟨-, -, -, -, -, -, -, -, hlow, hhigh⟩ := hrange
    cases hk
    exact ⟨by omega, hhigh, hopen, hbarred⟩
  | relocked n => exact lockInv_iff.2 ⟨hrange, State.leasesLawful_set hleases fun k hk => nomatch hk⟩
  | _ => exact hs

theorem State.perform_lock {s : State} {o : Task} (h : o ≠ .lock) : (s.perform o).1.lock = s.lock := by
  cases o with
  | cause n => simp only [State.perform]; rw [State.evaluate_shape]
  | houseTime => rfl
  | framer => simp only [State.perform]; rw [State.framerTick_shape]
  | laneTick n => simp only [State.perform]; rw [State.laneTick_shape]
  | rental => simp only [State.perform]; rw [State.rentalTick_shape]
  | lock => exact absurd rfl h
  | counters => rfl
  | panel => simp only [State.perform]; rw [State.panelTick_shape]

theorem State.perform_room (s : State) (o : Task) : (s.perform o).1.room = s.room := by
  rw [State.perform_shape]

theorem lockInv_perform (s : State) (o : Task) (hs : lockInv s) : lockInv (s.perform o).1 := by
  by_cases h : o = .lock
  · subst h
    exact lockInv_lockTick hs
  · simpa only [lockInv, State.perform_lock h, State.perform_room] using hs

/-- Settles O57: every value loaded into the lock unit is clamped or tested, and whatever closes the room or bars a lane
ends the leases with it. -/
theorem everyStepKeepsLeasesLawful : Obligations.every_step_keeps_leases_lawful := by
  unfold Obligations.every_step_keeps_leases_lawful
  exact fun s t => step_keeps_block lockInv_move lockInv_change lockInv_perform fun _ _ h => h

end Sys2Proof.Machine
end

