-- ==== Sys2Proof/Proofs/ReportInvariant.lean ====
section
/-! PROOF. The report queue (R169 to R172): what admitting, beginning and completing a report keep, and O58. -/

namespace Sys2Proof.Machine

/-! ## Waiting alerts -/

theorem Report.waitingAlert_iff {r : Report} : r.waitingAlert = true ↔ r.kind = .alert ∧ r.body = none := by
  simp [Report.waitingAlert]

theorem Report.waitingAlert_of_body (k : ReportKind) (body : List Byte) :
    ({ kind := k, body := some body } : Report).waitingAlert = false := by
  simp [Report.waitingAlert]

@[simp] theorem Report.alertWaiting_waiting : Report.alertWaiting.waitingAlert = true := rfl

/-- No report of the queue waits as an ALERT-RPT. -/
def State.noneWaiting (s : State) : Prop := s.reports.filter Report.waitingAlert = []

theorem State.noneWaiting_iff {s : State} : s.noneWaiting ↔ s.reports.any Report.waitingAlert = false := by
  simp [State.noneWaiting, List.filter_eq_nil_iff]

/-- The envelope has a start pair, identity, kind, length and CRC besides the body. -/
theorem reportBytes_length (unitId : Nat) (r : Report) : (reportBytes unitId r).length = 11 + (r.body.getD []).length := by
  simp [reportBytes]
  omega

/-! ## The queue without the byte count -/

/-- All of `reportsInv` but the bytes sent. -/
structure State.queueLawful (s : State) : Prop where
  length  : s.reports.length ≤ 6
  waiting : (s.reports.filter Report.waitingAlert).length ≤ 1
  built   : ∀ r ∈ s.reports, r.kind ≠ .alert → r.body.isSome
  owed    : s.owed = true → s.reports.length = 6 ∧ s.noneWaiting

/-- Bytes are sent only of a head that has begun and has bytes left. -/
def State.headLawful (s : State) : Prop :=
  0 < s.reportSent → ∃ r rs, s.reports = r :: rs ∧ r.waitingAlert = false ∧
    s.reportSent < (reportBytes s.unitId r).length

theorem reportsInv_iff {s : State} : reportsInv s ↔ s.queueLawful ∧ s.headLawful := by
  constructor
  · rintro ⟨hlen, hwaiting, hbuilt, howed, hhead⟩
    exact ⟨⟨hlen, hwaiting, hbuilt, howed⟩, hhead⟩
  · rintro ⟨⟨hlen, hwaiting, hbuilt, howed⟩, hhead⟩
    exact ⟨hlen, hwaiting, hbuilt, howed, hhead⟩

theorem reportsInv_congr {s t : State} (h1 : t.reports = s.reports) (h2 : t.owed = s.owed)
    (h3 : t.reportSent = s.reportSent) (h4 : t.unitId = s.unitId) (hs : reportsInv s) : reportsInv t := by
  simpa only [reportsInv, h1, h2, h3, h4] using hs

/-- A report at the end of the queue does not touch the head. -/
theorem State.headLawful_append {s t : State} {r : Report} (hs : s.headLawful) (h1 : t.reports = s.reports ++ [r])
    (h2 : t.reportSent = s.reportSent) (h3 : t.unitId = s.unitId) : t.headLawful := by
  intro hsent
  rw [h2] at hsent
  obtain ⟨x, xs, hx, hbegun, hleft⟩ := hs hsent
  exact ⟨x, xs ++ [r], by rw [h1, hx]; rfl, hbegun, by rw [h2, h3]; exact hleft⟩

/-! ## Admitting (R169, R171) -/

theorem reportsInv_offerReport {s : State} {k : ReportKind} (body : List Byte) (hs : reportsInv s) :
    reportsInv (s.offerReport k body) := by
  obtain ⟨⟨hlen, hwaiting, hbuilt, howed⟩, hhead⟩ := reportsInv_iff.1 hs
  rcases Nat.lt_or_ge s.reports.length 6 with hopen | hfull
  · rw [State.offerReport_open hopen]
    refine reportsInv_iff.2 ⟨⟨?_, ?_, ?_, fun ho => ?_⟩, State.headLawful_append hhead rfl rfl rfl⟩
    · simpa using hopen
    · simpa [List.filter_append, Report.waitingAlert_of_body] using hwaiting
    · intro r hr hkind
      rcases List.mem_append.1 hr with hold | hnew
      · exact hbuilt r hold hkind
      · obtain rfl := List.mem_singleton.1 hnew
        rfl
    · have := (howed ho).1
      omega
  · rw [State.offerReport_full hfull]
    exact hs

theorem reportsInv_latch {s : State} (k : AlertKind) (hs : reportsInv s) : reportsInv (s.latch k) := by
  obtain ⟨⟨hlen, hwaiting, hbuilt, howed⟩, hhead⟩ := reportsInv_iff.1 hs
  by_cases hadmits : s.alert k = .clear ∧ s.reports.any Report.waitingAlert = false
  · obtain ⟨hclear, hnone⟩ := hadmits
    rcases Nat.lt_or_ge s.reports.length 6 with hopen | hfull
    · have hreports : (s.latch k).reports = s.reports ++ [.alertWaiting] := by
        rw [State.latch_reports, if_pos ⟨hclear, hnone, hopen⟩]
      have howed' : (s.latch k).owed = s.owed := by rw [State.latch_owed, if_neg (by omega)]
      refine reportsInv_iff.2
        ⟨⟨?_, ?_, ?_, fun ho => ?_⟩, State.headLawful_append hhead hreports (by simp) (by simp)⟩
      · simpa [hreports] using hopen
      · rw [hreports, List.filter_append, State.noneWaiting_iff.2 hnone]
        decide
      · intro r hr hkind
        rw [hreports] at hr
        rcases List.mem_append.1 hr with hold | hnew
        · exact hbuilt r hold hkind
        · exact absurd (by rw [List.mem_singleton.1 hnew]; rfl) hkind
      · have := (howed (howed' ▸ ho)).1
        omega
    · have hreports : (s.latch k).reports = s.reports := by rw [State.latch_reports, if_neg (by omega)]
      refine reportsInv_iff.2 ⟨⟨by rwa [hreports], by rwa [hreports], by rwa [hreports], fun _ => ?_⟩, ?_⟩
      · rw [State.noneWaiting, hreports]
        exact ⟨by omega, State.noneWaiting_iff.2 hnone⟩
      · simpa only [State.headLawful, hreports, State.latch_reportSent, State.latch_unitId] using hhead
  · refine reportsInv_congr ?_ ?_ (by simp) (by simp) hs
    · rw [State.latch_reports, if_neg fun h => hadmits ⟨h.1, h.2.1⟩]
    · rw [State.latch_owed, if_neg fun h => hadmits ⟨h.1, h.2.1⟩]

/-! ## Sending (R170 to R172) -/

/-- Beginning the head builds the body of a waiting ALERT-RPT; the queue stays lawful and its head has begun. -/
theorem State.headBegun_lawful {s : State} {r : Report} {rs : List Report} (hs : reportsInv s)
    (h : s.reports = r :: rs) :
    s.headBegun.queueLawful ∧ ∃ x, s.headBegun.reports = x :: rs ∧ x.waitingAlert = false ∧
      s.reportSent < (reportBytes s.unitId x).length := by
  obtain ⟨⟨hlen, hwaiting, hbuilt, howed⟩, hhead⟩ := reportsInv_iff.1 hs
  by_cases hzero : s.reportSent = 0
  · by_cases hw : r.waitingAlert = true
    · have hrest : rs.filter Report.waitingAlert = [] := by
        rw [h, List.filter_cons_of_pos hw] at hwaiting
        exact List.length_eq_zero_iff.1 (by simpa using hwaiting)
      have hbegun : s.headBegun =
          { s with
            reports := { r with body := some s.alertReport } :: rs
            alerts := mapEach AlertState.carried s.alerts } := by
        simp only [State.headBegun, if_pos hzero, State.beginHead, h, if_pos hw]
      have hfilter : s.headBegun.reports.filter Report.waitingAlert = [] := by
        rw [hbegun]
        simpa [Report.waitingAlert_of_body] using hrest
      refine ⟨⟨?_, ?_, ?_, fun ho => ?_⟩, { r with body := some s.alertReport }, by rw [hbegun],
        Report.waitingAlert_of_body _ _, by rw [reportBytes_length]; omega⟩
      · rw [hbegun]
        simpa [h] using hlen
      · rw [hfilter]
        exact Nat.zero_le 1
      · rw [hbegun]
        intro y hy hkind
        rcases List.mem_cons.1 hy with rfl | hy
        · rfl
        · exact hbuilt y (by rw [h]; exact List.mem_cons_of_mem _ hy) hkind
      · have hnone := (howed (by rw [hbegun] at ho; exact ho)).2
        rw [State.noneWaiting, h, List.filter_cons_of_pos hw] at hnone
        cases hnone
    · have hbegun : s.headBegun = s := by
        simp only [State.headBegun, if_pos hzero, State.beginHead, h, if_neg hw]
      rw [hbegun]
      exact ⟨⟨hlen, hwaiting, hbuilt, howed⟩, r, h, by simpa using hw, by rw [reportBytes_length]; omega⟩
  · have hbegun : s.headBegun = s := if_neg hzero
    rw [hbegun]
    obtain ⟨x, xs, hx, hxw, hleft⟩ := hhead (Nat.pos_of_ne_zero hzero)
    rw [h] at hx
    cases hx
    exact ⟨⟨hlen, hwaiting, hbuilt, howed⟩, r, h, hxw, hleft⟩

/-- Completing the head makes room, which an owed ALERT-RPT takes. -/
theorem reportsInv_completeReport {s : State} {r : Report} {rs : List Report} (hs : s.queueLawful)
    (h : s.reports = r :: rs) : reportsInv s.completeReport := by
  obtain ⟨hlen, hwaiting, hbuilt, howed⟩ := hs
  have hsub : (rs.filter Report.waitingAlert).length ≤ (s.reports.filter Report.waitingAlert).length := by
    rw [h]
    exact ((List.sublist_cons_self r rs).filter _).length_le
  have hlen' : rs.length + 1 ≤ 6 := by simpa [h] using hlen
  have hbuilt' : ∀ x ∈ rs, x.kind ≠ .alert → x.body.isSome := fun x hx =>
    hbuilt x (by rw [h]; exact List.mem_cons_of_mem _ hx)
  cases ho : s.owed with
  | false =>
    have hdone : s.completeReport = { s with reports := rs, reportSent := 0 } := by
      simp [State.completeReport, ho, h]
    rw [hdone]
    exact reportsInv_iff.2 ⟨⟨by show rs.length ≤ 6; omega, hsub.trans hwaiting, hbuilt', fun h => by
      rw [show s.owed = true from h] at ho; cases ho⟩, fun h => absurd h (Nat.lt_irrefl 0)⟩
  | true =>
    have hdone : s.completeReport = { s with reports := rs ++ [.alertWaiting], reportSent := 0, owed := false } := by
      simp [State.completeReport, ho, h, State.enqueue]
    have hnone : rs.filter Report.waitingAlert = [] := by
      have hall := (howed ho).2
      rw [State.noneWaiting, h, List.filter_eq_nil_iff] at hall
      exact List.filter_eq_nil_iff.2 fun x hx => hall x (List.mem_cons_of_mem _ hx)
    rw [hdone]
    refine reportsInv_iff.2 ⟨⟨?_, ?_, ?_, fun h => nomatch h⟩, fun h => absurd h (Nat.lt_irrefl 0)⟩
    · simpa using hlen'
    · show ((rs ++ [Report.alertWaiting]).filter Report.waitingAlert).length ≤ 1
      rw [List.filter_append, hnone]
      decide
    · intro x hx hkind
      rcases List.mem_append.1 hx with hold | hnew
      · exact hbuilt' x hold hkind
      · exact absurd (by rw [List.mem_singleton.1 hnew]; rfl) hkind

theorem reportsInv_takeReportByte {s : State} (hs : reportsInv s) : reportsInv s.takeReportByte := by
  cases h : s.reports with
  | nil => rwa [State.takeReportByte_nil h]
  | cons r rs =>
    obtain ⟨hqueue, x, hx, hbegun, hleft⟩ := State.headBegun_lawful hs h
    have hsent : s.headBegun.reportSent = s.reportSent := by rw [State.headBegun_shape]
    have hunit : s.headBegun.unitId = s.unitId := by rw [State.headBegun_shape]
    have hbytes : s.headBegun.headBytes = reportBytes s.unitId x := by
      simp only [State.headBytes, hx, hunit]
    rw [State.takeReportByte_cons (by rw [h]; exact List.cons_ne_nil _ _), hbytes, hsent]
    have hlawful : s.headBegun.byteHanded.queueLawful := ⟨hqueue.1, hqueue.2, hqueue.3, hqueue.4⟩
    split
    next => exact reportsInv_completeReport hlawful hx
    next hmore =>
      refine reportsInv_iff.2 ⟨hlawful, fun _ => ⟨x, rs, hx, hbegun, ?_⟩⟩
      show s.headBegun.reportSent + 1 < (reportBytes s.headBegun.unitId x).length
      rw [hsent, hunit]
      omega

/-! ## At reset, through moves, changes and work -/

/-- A queue that is empty or holds one waiting ALERT-RPT, with nothing sent and nothing owed. -/
theorem reportsInv_of_restarted {s : State} (hreports : s.reports = [.alertWaiting] ∨ s.reports = [])
    (howed : s.owed = false) (hsent : s.reportSent = 0) : reportsInv s := by
  refine reportsInv_iff.2 ⟨⟨?_, ?_, ?_, fun h => ?_⟩, fun h => ?_⟩
  case refine_4 => rw [howed] at h; cases h
  case refine_5 => omega
  all_goals rcases hreports with h | h <;> rw [h] <;> decide

theorem reportsInv_reset : reportsInv State.reset := reportsInv_of_restarted (.inl rfl) rfl rfl

theorem reportsInv_coldStart (s : State) : reportsInv s.coldStart := reportsInv_of_restarted (.inl rfl) rfl rfl

theorem reportsInv_warmReset (s : State) : reportsInv s.warmReset := by
  refine reportsInv_of_restarted ?_ rfl rfl
  simp only [State.warmReset]
  split
  · exact .inl rfl
  · exact .inr rfl

theorem reportsInv_move {s t : State} (h : Move s t) (hs : reportsInv s) : reportsInv t := by
  cases h with
  | book h => exact reportsInv_congr h.reports h.owed h.reportSent h.unitId hs
  | latched k => exact reportsInv_latch k hs
  | offered k body => exact reportsInv_offerReport body hs
  | byteTaken => exact reportsInv_takeReportByte hs
  | warm => exact reportsInv_warmReset s
  | cold => exact reportsInv_coldStart s
  | _ => exact hs

theorem reportsInv_change {s u : State} {ls : List (Fin 4)} (h : Change s ls u) (hs : reportsInv s) :
    reportsInv u := by
  cases h with
  | purchased n e amount =>
    rw [State.purchased, State.withRecord_shape]
    exact hs
  | _ => exact hs

theorem reportsInv_framerTick {s : State} (hs : reportsInv s) : reportsInv s.framerTick := by
  unfold State.framerTick
  split
  · split
    · obtain ⟨-, hreports, howed⟩ := s.leaveLocked_alert
      exact reportsInv_congr hreports howed (by rw [State.leaveLocked_shape]; simp)
        (by rw [State.leaveLocked_shape]; simp) (reportsInv_latch .feedLost hs)
    · exact hs
  · exact hs
  · exact hs

theorem reportsInv_perform (s : State) (o : Task) (hs : reportsInv s) : reportsInv (s.perform o).1 := by
  cases o with
  | cause n => simp only [State.perform]; rw [State.evaluate_shape]; exact hs
  | houseTime => exact hs
  | framer => exact reportsInv_framerTick hs
  | laneTick n => simp only [State.perform]; rw [State.laneTick_shape]; exact hs
  | rental => simp only [State.perform]; rw [State.rentalTick_shape]; exact hs
  | lock => simp only [State.perform]; rw [State.lockTick_shape]; exact hs
  | counters => exact hs
  | panel => simp only [State.perform]; rw [State.panelTick_shape]; exact hs

/-- Settles O58: a report is admitted only to a queue with room, a waiting ALERT-RPT only where none waits, and the head
is begun before a byte of it is sent. -/
theorem everyStepKeepsTheReportQueue : Obligations.every_step_keeps_the_report_queue := by
  unfold Obligations.every_step_keeps_the_report_queue
  exact fun s t => step_keeps_block reportsInv_move reportsInv_change reportsInv_perform fun _ _ h => h

end Sys2Proof.Machine
end

