-- ==== Sys2Proof/Proofs/SmallBlocks.lean ====
section
/-! PROOF. The framer, the key store and the attention unit (R3 to R12, R35, R180): what each update keeps, and O59. -/

namespace Sys2Proof.Machine

/-! ## The framer -/

/-- `framerInv` reads the framer's record alone. -/
def Framer.inRange (f : Framer) : Prop :=
  2 ≤ f.threshold ∧ f.threshold ≤ 15 ∧ f.bytes.length < 96 ∧ f.silence ≤ 1 ∧
    (f.state = .hunt → f.integrator = 0 ∧ f.bytes = [] ∧ f.silence = 0) ∧
    (f.state ≠ .hunt → 1 ≤ f.integrator ∧ f.integrator ≤ 15) ∧
    (f.state = .confirm → f.silence = 0 ∧ f.handOn = false)

theorem framerInv_iff {s : State} : framerInv s ↔ s.framer.inRange := Iff.rfl

theorem Framer.inRange_cold : Framer.cold.inRange := by
  simp [Framer.inRange, Framer.cold]

theorem Framer.inRange_take {f : Framer} {i : Nat} (hf : f.inRange) (hpos : 1 ≤ i) (hle : i ≤ 15) :
    (f.take i).inRange := by
  obtain ⟨hlow, hhigh, hbytes, -⟩ := hf
  exact ⟨hlow, hhigh, hbytes, Nat.zero_le _, (nomatch ·), fun _ => ⟨hpos, hle⟩, (nomatch ·)⟩

/-- The framer back in HUNT with nothing in assembly. -/
theorem Framer.inRange_of_hunt {f : Framer} (hlow : 2 ≤ f.threshold) (hhigh : f.threshold ≤ 15) (hstate : f.state = .hunt)
    (hintegrator : f.integrator = 0) (hbytes : f.bytes = []) (hsilence : f.silence = 0) : f.inRange := by
  refine ⟨hlow, hhigh, by simp [hbytes], by omega, fun _ => ⟨hintegrator, hbytes, hsilence⟩, ?_, ?_⟩ <;>
    simp [hstate]

/-- One event keeps the framer in range. -/
theorem FramerStep.keeps {f g : Framer} (h : FramerStep f g) (hf : f.inRange) : g.inRange := by
  have ⟨hlow, hhigh, hbytes, hsilence, hhunt, hother, hconfirm⟩ := hf
  cases h with
  | scanned b hstate =>
    obtain ⟨hintegrator, hempty, hquiet⟩ := hhunt hstate
    unfold Framer.scan
    split
    · exact ⟨hlow, hhigh, (by decide : 2 < 96), hsilence, (nomatch ·), fun _ => ⟨Nat.le_refl 1, (by decide : 1 ≤ 15)⟩,
        fun _ => ⟨hquiet, rfl⟩⟩
    · exact hf
  | kept b hstate hroom =>
    exact ⟨hlow, hhigh, by simpa using hroom, hsilence, fun h => absurd h hstate, hother, hconfirm⟩
  | confirmed hstate =>
    obtain ⟨hpos, -⟩ := hother (by simp [hstate])
    have hcut : f.cut = min f.integrator f.threshold := rfl
    unfold Framer.confirmGood
    split
    next => exact Framer.inRange_take hf (by omega) hhigh
    next hbelow =>
      refine ⟨hlow, hhigh, hbytes, hsilence, fun h => ?_, fun _ => ?_, fun _ => ⟨(hconfirm hstate).1, rfl⟩⟩
      · rw [show f.state = .hunt from h] at hstate
        cases hstate
      · show 1 ≤ f.cut + 1 ∧ f.cut + 1 ≤ 15
        omega
  | unconfirmed second hstate => exact Framer.inRange_of_hunt hlow hhigh rfl rfl rfl (hconfirm hstate).1
  | taken hstate => exact Framer.inRange_take hf (by omega) (by omega)
  | slipped bad hstate hcut =>
    obtain ⟨-, hmost⟩ := hother (by simp [hstate])
    have hle : f.cut ≤ f.integrator := Nat.min_le_left ..
    refine ⟨hlow, hhigh, hbytes, hsilence, fun h => ?_, fun _ => ?_, fun h => ?_⟩
    · rw [show f.state = .hunt from h] at hstate
      cases hstate
    · show 1 ≤ f.cut - 1 ∧ f.cut - 1 ≤ 15
      omega
    · rw [show f.state = .confirm from h] at hstate
      cases hstate
  | lost => exact Framer.inRange_of_hunt hlow hhigh rfl rfl rfl rfl
  | silent hstate hquiet =>
    refine ⟨hlow, hhigh, hbytes, ?_, fun h => ?_, hother, fun h => ?_⟩
    · show f.silence + 1 ≤ 1
      omega
    · rw [show f.state = .hunt from h] at hstate
      cases hstate
    · rw [show f.state = .confirm from h] at hstate
      cases hstate
  | ended =>
    exact ⟨hlow, hhigh, (by decide : 0 < 96), hsilence, fun h => ⟨(hhunt h).1, rfl, (hhunt h).2.2⟩, hother,
      fun h => ⟨(hconfirm h).1, rfl⟩⟩
  | counted => exact hf
  | limited n =>
    have hclamp : clamp 2 15 n = max 2 (min 15 n) := clamp_eq_max_min (by decide) n
    refine ⟨?_, ?_, hbytes, hsilence, hhunt, hother, hconfirm⟩
    · show 2 ≤ clamp 2 15 n
      omega
    · show clamp 2 15 n ≤ 15
      omega

/-- A second tick leaves the framer alone or is an event to it (R12). -/
theorem State.framerTick_step (s : State) :
    s.framerTick.framer = s.framer ∨ FramerStep s.framer s.framerTick.framer := by
  unfold State.framerTick
  split
  next hstate =>
    split
    next =>
      rw [State.leaveLocked_framer]
      exact .inr (.lost false s.framer.syncBad _ hstate)
    next hquiet => exact .inr (.silent hstate (by omega))
  next => exact .inl rfl
  next => exact .inl rfl

theorem State.perform_framer {s : State} {o : Task} (h : o ≠ .framer) : (s.perform o).1.framer = s.framer := by
  cases o with
  | cause n => simp only [State.perform]; rw [State.evaluate_shape]
  | houseTime => rfl
  | framer => exact absurd rfl h
  | laneTick n => simp only [State.perform]; rw [State.laneTick_shape]
  | rental => simp only [State.perform]; rw [State.rentalTick_shape]
  | lock => simp only [State.perform]; rw [State.lockTick_shape]
  | counters => rfl
  | panel => simp only [State.perform]; rw [State.panelTick_shape]

theorem framerInv_reset : framerInv State.reset := Framer.inRange_cold

theorem framerInv_move {s t : State} (h : Move s t) (hs : framerInv s) : framerInv t := by
  rw [framerInv_iff] at hs ⊢
  cases h with
  | book h => rwa [h.framer]
  | framer f h => exact h.keeps hs
  | latched | offered => simpa using hs
  | byteTaken =>
    rw [State.takeReportByte_shape]
    exact hs
  | warm => exact Framer.inRange_of_hunt hs.1 hs.2.1 rfl rfl rfl rfl
  | cold => exact Framer.inRange_cold
  | _ => exact hs

theorem framerInv_change {s u : State} {ls : List (Fin 4)} (h : Change s ls u) (hs : framerInv s) : framerInv u := by
  rw [framerInv_iff] at hs ⊢
  cases h with
  | purchased n e amount =>
    rw [State.purchased, State.withRecord_shape]
    exact hs
  | _ => exact hs

theorem framerInv_perform (s : State) (o : Task) (hs : framerInv s) : framerInv (s.perform o).1 := by
  rw [framerInv_iff] at hs ⊢
  by_cases h : o = .framer
  · subst h
    rcases s.framerTick_step with hsame | hstep
    · exact hsame ▸ hs
    · exact hstep.keeps hs
  · rwa [State.perform_framer h]

/-! ## The key store -/

theorem KeyFamily.stagedInUse_cold : KeyFamily.cold.stagedInUse := by
  intro p
  cases p <;> simp [KeyFamily.cold, KeyFamily.slot]

@[simp] theorem KeySlot.promote_staged (k : KeySlot) : k.promote.staged = none := by
  unfold KeySlot.promote
  split
  next => rfl
  next h => exact h

/-- One message or cell keeps every staged key in the slot in use. -/
theorem FamilyStep.keeps {f g : KeyFamily} (h : FamilyStep f g) (hf : f.stagedInUse) : g.stagedInUse := by
  cases h with
  | loaded p k =>
    intro q hq
    unfold KeyFamily.load at hq ⊢
    split at hq
    next hp =>
      rw [if_pos hp, KeyFamily.inUse, KeyFamily.setSlot_parity]
      rw [KeyFamily.slot_setSlot] at hq
      split at hq
      next e => rwa [e]
      next => exact hf q hq
    next hp =>
      rw [if_neg hp, KeyFamily.inUse, KeyFamily.setSlot_parity]
      rw [KeyFamily.slot_setSlot] at hq
      split at hq
      next => cases hq
      next => exact hf q hq
  | wiped => exact KeyFamily.stagedInUse_cold
  | turned p =>
    unfold KeyFamily.parityStep
    split
    next hnone =>
      intro q hq
      have := KeyFamily.inUse_iff.1 (hf q hq)
      rw [hnone] at this
      cases this
    next old hold =>
      split
      next => exact hf
      next hturn =>
        intro q hq
        have hslot : ((f.setSlot old (f.slot old).promote).slot q).staged.isSome := hq
        rw [KeyFamily.slot_setSlot] at hslot
        split at hslot
        next => simp at hslot
        next hne =>
          have := KeyFamily.inUse_iff.1 (hf q hslot)
          rw [hold] at this
          cases this
          exact absurd rfl hne
  | missed n => exact hf

theorem keysInv_reset : keysInv State.reset := by
  intro n
  rw [show State.reset.keys[n] = KeyFamily.cold by simp [State.reset]]
  exact KeyFamily.stagedInUse_cold

theorem keysInv_cold {s : State} (h : s.keys = .replicate 32 .cold) : keysInv s := by
  intro n
  rw [show s.keys[n] = KeyFamily.cold by simp [h]]
  exact KeyFamily.stagedInUse_cold

theorem keysInv_congr {s t : State} (h : t.keys = s.keys) (hs : keysInv s) : keysInv t := by
  simpa only [keysInv, h] using hs

theorem keysInv_move {s t : State} (h : Move s t) (hs : keysInv s) : keysInv t := by
  cases h with
  | book h => exact keysInv_congr h.keys hs
  | family n g h =>
    intro m
    by_cases hm : m = n
    · subst hm
      simpa using h.keeps (hs m)
    · have hne : n.val ≠ m.val := fun e => hm (Fin.ext e.symm)
      simpa [hne] using hs m
  | latched | offered => exact keysInv_congr (by simp) hs
  | byteTaken =>
    rw [State.takeReportByte_shape]
    exact hs
  | warm | cold => exact keysInv_cold rfl
  | _ => exact hs

theorem keysInv_change {s u : State} {ls : List (Fin 4)} (h : Change s ls u) (hs : keysInv s) : keysInv u := by
  cases h with
  | purchased n e amount =>
    rw [State.purchased, State.withRecord_shape]
    exact hs
  | _ => exact hs

theorem keysInv_perform (s : State) (o : Task) (hs : keysInv s) : keysInv (s.perform o).1 := by
  rw [State.perform_shape]
  exact hs

/-! ## The attention unit -/

/-- The codes there are. -/
def isCode (c : Nat) : Prop := 1 ≤ c ∧ c ≤ 21

/-- A pending set: ascending, of codes alone. -/
def codesLawful (l : List Nat) : Prop := l.Pairwise (· < ·) ∧ ∀ c ∈ l, isCode c

theorem attentionInv_iff {s : State} : attentionInv s ↔ codesLawful s.codes ∧ 1 ≤ s.floor ∧ s.floor ≤ 32 := by
  simp only [attentionInv, codesLawful, isCode, and_assoc]

theorem insertCode_pairwise (c : Nat) {l : List Nat} (h : l.Pairwise (· < ·)) : (insertCode c l).Pairwise (· < ·) := by
  induction l with
  | nil => exact List.pairwise_singleton ..
  | cons d ds ih =>
    obtain ⟨hd, hds⟩ := List.pairwise_cons.1 h
    unfold insertCode
    split
    next hlt =>
      refine List.pairwise_cons.2 ⟨fun x hx => ?_, h⟩
      rcases List.mem_cons.1 hx with rfl | hx
      · exact hlt
      · exact hlt.trans (hd x hx)
    next hge =>
      split
      next => exact h
      next hne =>
        refine List.pairwise_cons.2 ⟨fun x hx => ?_, ih hds⟩
        rcases (mem_insertCode c x ds).1 hx with rfl | hx
        · omega
        · exact hd x hx

theorem codesLawful_insertCode {c : Nat} {l : List Nat} (hc : isCode c) (hl : codesLawful l) :
    codesLawful (insertCode c l) := by
  refine ⟨insertCode_pairwise c hl.1, fun x hx => ?_⟩
  rcases (mem_insertCode c x l).1 hx with rfl | hx
  · exact hc
  · exact hl.2 x hx

theorem codesLawful_foldl {cs l : List Nat} (hcs : ∀ c ∈ cs, isCode c) (hl : codesLawful l) :
    codesLawful (cs.foldl (fun a c => insertCode c a) l) := by
  induction cs generalizing l with
  | nil => exact hl
  | cons c cs ih =>
    exact ih (fun x hx => hcs x (List.mem_cons_of_mem _ hx))
      (codesLawful_insertCode (hcs c (List.mem_cons_self ..)) hl)

theorem entryCode_isCode {st : LaneState} {n : Fin 4} : ∀ c ∈ entryCode st n, isCode c := by
  have := n.isLt
  cases st <;> simp [entryCode, isCode] <;> omega

theorem State.meterCodes_isCode (s : State) (r : RentalRec) : ∀ c ∈ s.meterCodes r, isCode c := by
  intro c hc
  rcases List.mem_append.1 hc with hc | hc
  · split at hc
    · obtain ⟨n, -, rfl⟩ := List.mem_map.1 hc
      have := n.isLt
      exact ⟨by omega, by omega⟩
    · cases hc
  · split at hc
    · obtain rfl := List.mem_singleton.1 hc
      exact ⟨by decide, by decide⟩
    · cases hc

/-- The codes one piece of work raises. -/
theorem State.perform_codes (s : State) (o : Task) :
    ∃ cs : List Nat, (∀ c ∈ cs, isCode c) ∧
      (s.perform o).1.codes = cs.foldl (fun a c => insertCode c a) s.codes := by
  have none : (s.perform o).1.codes = s.codes → ∃ cs : List Nat, (∀ c ∈ cs, isCode c) ∧
      (s.perform o).1.codes = cs.foldl (fun a c => insertCode c a) s.codes := fun h => ⟨[], by simp, h⟩
  cases o with
  | cause n =>
    by_cases h : (s.laneChoice n).1 = s.lanes[n].state
    · exact none (by simp only [State.perform]; rw [State.evaluate_codes, if_pos h])
    · exact ⟨_, entryCode_isCode, by simp only [State.perform]; rw [State.evaluate_codes, if_neg h]⟩
  | houseTime | counters => exact none rfl
  | framer =>
    cases hstate : s.framer.state with
    | hunt | confirm => exact none (by simp [State.perform, State.framerTick, hstate])
    | locked =>
      by_cases hsilent : 2 ≤ s.framer.silence + 1
      · refine ⟨[1], by simp [isCode], ?_⟩
        simp [State.perform, State.framerTick, hstate, hsilent, State.leaveLocked_codes]
      · exact none (by simp [State.perform, State.framerTick, hstate, hsilent])
  | laneTick n =>
    refine ⟨if s.lanes[n].darkens then [12 + n.val] else [], ?_, ?_⟩
    · have := n.isLt
      split <;> simp [isCode]
      omega
    · simp [State.perform, State.laneTick, State.raiseCodes_shape]
  | rental =>
    refine ⟨s.rentals.flatMap s.meterCodes, fun c hc => ?_, ?_⟩
    · obtain ⟨r, -, hr⟩ := List.mem_flatMap.1 hc
      exact s.meterCodes_isCode r c hr
    · simp [State.perform, State.rentalTick, State.raiseCodes_shape]
  | lock =>
    refine ⟨if (mapEach countDown s.lock.leases).toList.any (· == some 60) then [21] else [], ?_, ?_⟩
    · split <;> simp [isCode]
    · simp only [State.perform, State.lockTick, State.raiseCodes_shape]
  | panel => exact none (by simp only [State.perform]; rw [State.panelTick_shape])

theorem State.perform_floor (s : State) (o : Task) : (s.perform o).1.floor = s.floor := by
  rw [State.perform_shape]

theorem attentionInv_reset : attentionInv State.reset := by
  simp [attentionInv, State.reset]

theorem attentionInv_move {s t : State} (h : Move s t) (hs : attentionInv s) : attentionInv t := by
  obtain ⟨hcodes, hfloor⟩ := attentionInv_iff.1 hs
  cases h with
  | book h => simpa only [attentionInv, h.codes, h.floor] using hs
  | latched | offered => simpa only [attentionInv, State.latch_codes, State.latch_floor, State.offerReport_codes,
      State.offerReport_floor] using hs
  | byteTaken =>
    rw [State.takeReportByte_shape]
    exact hs
  | raised c hlow hhigh => exact attentionInv_iff.2 ⟨codesLawful_insertCode ⟨hlow, hhigh⟩ hcodes, hfloor⟩
  | codeAcked c =>
    refine attentionInv_iff.2 ⟨⟨hcodes.1.filter _, fun x hx => hcodes.2 x ?_⟩, hfloor⟩
    exact (State.mem_ackCode.1 hx).1
  | floorSet n =>
    have hclamp : clamp 1 32 n = max 1 (min 32 n) := clamp_eq_max_min (by decide) n
    refine attentionInv_iff.2 ⟨hcodes, ?_⟩
    show 1 ≤ clamp 1 32 n ∧ clamp 1 32 n ≤ 32
    omega
  | warm | cold => exact attentionInv_reset
  | _ => exact hs

theorem attentionInv_change {s u : State} {ls : List (Fin 4)} (h : Change s ls u) (hs : attentionInv s) :
    attentionInv u := by
  obtain ⟨hcodes, hfloor⟩ := attentionInv_iff.1 hs
  have hraised : codesLawful (insertCode 2 s.codes) := codesLawful_insertCode ⟨by decide, by decide⟩ hcodes
  cases h with
  | purchased n e amount =>
    rw [State.purchased, State.withRecord_shape]
    exact hs
  | opened | updated | replaced | closed => exact attentionInv_iff.2 ⟨hraised, hfloor⟩
  | _ => exact hs

theorem attentionInv_perform (s : State) (o : Task) (hs : attentionInv s) : attentionInv (s.perform o).1 := by
  obtain ⟨hcodes, hfloor⟩ := attentionInv_iff.1 hs
  obtain ⟨cs, hcs, hraised⟩ := s.perform_codes o
  refine attentionInv_iff.2 ⟨?_, ?_⟩
  · rw [hraised]
    exact codesLawful_foldl hcs hcodes
  · rwa [State.perform_floor]

/-- Settles O59: each of the three blocks is written by its own events alone, and each event keeps its range. -/
theorem everyStepKeepsFramerKeysAndAttention : Obligations.every_step_keeps_framer_keys_and_attention := by
  unfold Obligations.every_step_keeps_framer_keys_and_attention
  exact fun s t hframer hkeys hattention hstep =>
    ⟨step_keeps_block framerInv_move framerInv_change framerInv_perform (fun _ _ h => h) hframer hstep,
      step_keeps_block keysInv_move keysInv_change keysInv_perform (fun _ _ h => h) hkeys hstep,
      step_keeps_block attentionInv_move attentionInv_change attentionInv_perform (fun _ _ h => h) hattention hstep⟩

end Sys2Proof.Machine
end

