-- ==== Sys2Proof/Proofs/ServiceFields.lean ====
section
/-! PROOF. The field tests of SVC-PUT (R23): what each field's reader accepts, the record given, and O21. -/

namespace Sys2Proof.Machine

/-! ## The fields -/

theorem Role.ofField_eq_none_iff {n : Nat} : Role.ofField n = none ↔ 3 < n := by
  rcases n with _ | _ | _ | _ | n <;> simp [Role.ofField]

theorem Role.toField_of_ofField {n : Nat} {r : Role} (h : Role.ofField n = some r) : r.toField = n := by
  rcases n with _ | _ | _ | _ | n <;> simp only [Role.ofField, Option.some.injEq, reduceCtorEq] at h <;> subst h <;> rfl

theorem ServiceKind.ofField_eq_none_iff {n : Nat} : ServiceKind.ofField n = none ↔ 1 < n := by
  rcases n with _ | _ | n <;> simp [ServiceKind.ofField]

theorem ServiceKind.ofField_eq_some_iff {n : Nat} {k : ServiceKind} : ServiceKind.ofField n = some k ↔ k.toField = n := by
  rcases n with _ | _ | n <;> cases k <;> simp [ServiceKind.ofField, ServiceKind.toField]

theorem familyOpt?_eq_none_iff {o : Option Nat} : familyOpt? o = none ↔ ∃ f, o = some f ∧ 31 < f := by
  cases o with
  | none => simp [familyOpt?]
  | some n => simp [familyOpt?, family?_eq_none_iff]

theorem family?_eq_some_iff {n : Nat} {f : Fin 32} : family? n = some f ↔ f.val = n := by
  simp only [family?]
  split
  next h => simp [Fin.ext_iff, eq_comm]
  next h =>
    have := f.isLt
    simp
    omega

theorem familyOpt?_val {o : Option Nat} {f : Option (Fin 32)} (h : familyOpt? o = some f) : f.map Fin.val = o := by
  cases o with
  | none =>
    cases h
    rfl
  | some n =>
    obtain ⟨g, hg, rfl⟩ := Option.map_eq_some_iff.1 h
    exact congrArg some (family?_eq_some_iff.1 hg)

theorem titleOk_iff {kind : ServiceKind} {title : Option Nat} :
    titleOk kind title = true ↔ ¬ (title = some 0 ∨ title.isSome = true ∧ kind = .free) := by
  cases title <;> cases kind <;> simp [titleOk]

/-! ## The components -/

/-- A component field no test of R23 turns away by itself. -/
def componentInRange (k : ComponentField) : Prop := k.tag ≤ 4095 ∧ k.role ≤ 3

theorem components?_cons_eq_some_iff {f : ComponentField} {fs : List ComponentField} {cs : List Component} :
    components? (f :: fs) = some cs ↔
      ∃ role tail, Role.ofField f.role = some role ∧ components? fs = some tail ∧ f.tag ≤ 4095 ∧
        cs = { tag := f.tag, role := role, expect := none, discs := 0 } :: tail := by
  simp only [components?]
  cases Role.ofField f.role <;> cases components? fs <;> simp [eq_comm]

theorem components?_eq_none_iff {fs : List ComponentField} : components? fs = none ↔ ∃ k ∈ fs, ¬ componentInRange k := by
  induction fs with
  | nil => simp [components?]
  | cons f fs ih =>
    rw [← not_iff_not, ← ne_eq, Option.ne_none_iff_exists']
    simp only [components?_cons_eq_some_iff, List.mem_cons, exists_eq_or_imp, not_or, not_not, ← ih]
    constructor
    · rintro ⟨-, role, tail, hrole, htail, htag, -⟩
      refine ⟨⟨htag, ?_⟩, by simp [htail]⟩
      exact not_lt.1 fun hbad => by simp [Role.ofField_eq_none_iff.2 hbad] at hrole
    · rintro ⟨⟨htag, hrole⟩, htail⟩
      obtain ⟨role, hrole⟩ :=
        Option.ne_none_iff_exists'.1 fun hbad => absurd (Role.ofField_eq_none_iff.1 hbad) (not_lt.2 hrole)
      obtain ⟨tail, htail⟩ := Option.ne_none_iff_exists'.1 htail
      exact ⟨_, role, tail, hrole, htail, htag, rfl⟩

/-- Components carry their fields, and no continuity state. -/
theorem components?_eq_some {fs : List ComponentField} {cs : List Component} (h : components? fs = some cs) :
    cs.map (fun k => (k.tag, k.role.toField)) = fs.map (fun k => (k.tag, k.role)) ∧
      ∀ k ∈ cs, k.expect = none ∧ k.discs = 0 := by
  induction fs generalizing cs with
  | nil =>
    cases h
    simp
  | cons f fs ih =>
    obtain ⟨role, tail, hrole, htail, -, rfl⟩ := components?_cons_eq_some_iff.1 h
    obtain ⟨hfields, hfresh⟩ := ih htail
    refine ⟨by simp only [List.map_cons, hfields, Role.toField_of_ofField hrole], fun k hk => ?_⟩
    rcases List.mem_cons.1 hk with rfl | hk
    · exact ⟨rfl, rfl⟩
    · exact hfresh k hk

theorem components?_tags {fs : List ComponentField} {cs : List Component} (h : components? fs = some cs) :
    cs.map Component.tag = fs.map ComponentField.tag := by
  have := congrArg (List.map Prod.fst) (components?_eq_some h).1
  simpa only [List.map_map, Function.comp_def] using this

theorem components?_length {fs : List ComponentField} {cs : List Component} (h : components? fs = some cs) :
    cs.length = fs.length := by
  simpa using congrArg List.length (components?_tags h)

/-! ## The record -/

theorem serviceOf_eq_some_iff {b : SvcPutBody} {r : ServiceRec} :
    serviceOf b = some r ↔
      ∃ kind family components, ServiceKind.ofField b.kind = some kind ∧ familyOpt? b.family = some family ∧
        components? b.components = some components ∧
        (serviceOk b.service = true ∧ titleOk kind b.title = true ∧ 1 ≤ components.length ∧ components.length ≤ 6 ∧
          (components.map Component.tag).Nodup) ∧
        r = { number := b.service, kind, family, rating := clamp 0 7 b.rating, title := b.title, components } := by
  constructor
  · intro h
    unfold serviceOf at h
    split at h
    next kind family components hkind hfamily hcomponents =>
      split at h
      next hok =>
        cases h
        exact ⟨kind, family, components, hkind, hfamily, hcomponents, by simpa [and_assoc] using hok, rfl⟩
      next => cases h
    next => cases h
  · rintro ⟨kind, family, components, hkind, hfamily, hcomponents, hok, rfl⟩
    simp only [serviceOf, hkind, hfamily, hcomponents]
    rw [if_pos (by simpa [and_assoc] using hok)]

theorem serviceOf_tags_nodup {b : SvcPutBody} {r : ServiceRec} (h : serviceOf b = some r) :
    (r.components.map Component.tag).Nodup := by
  obtain ⟨kind, family, components, -, -, -, ⟨-, -, -, -, hnodup⟩, rfl⟩ := serviceOf_eq_some_iff.1 h
  exact hnodup

/-- The tests of R23 in the terms of the fields. -/
theorem serviceOf_eq_none_iff {b : SvcPutBody} :
    serviceOf b = none ↔
      b.service = 0 ∨ 999 < b.service ∨ 1 < b.kind ∨ (∃ f, b.family = some f ∧ 31 < f) ∨ b.title = some 0 ∨
        (b.title.isSome = true ∧ b.kind = 0) ∨ b.components = [] ∨ 6 < b.components.length ∨
        (∃ k ∈ b.components, 4095 < k.tag) ∨ (∃ k ∈ b.components, 3 < k.role) ∨
        ¬ (b.components.map ComponentField.tag).Nodup := by
  have hrange : (∃ k ∈ b.components, ¬ componentInRange k) ↔
      (∃ k ∈ b.components, 4095 < k.tag) ∨ ∃ k ∈ b.components, 3 < k.role := by
    simp only [componentInRange, not_and_or, not_le, and_or_left, exists_or]
  cases hkind : ServiceKind.ofField b.kind with
  | none => simp [serviceOf, hkind, ServiceKind.ofField_eq_none_iff.1 hkind]
  | some kind =>
    cases hfamily : familyOpt? b.family with
    | none => simp [serviceOf, hkind, hfamily, familyOpt?_eq_none_iff.1 hfamily]
    | some family =>
      cases hcomponents : components? b.components with
      | none =>
        have hbad := hrange.1 (components?_eq_none_iff.1 hcomponents)
        simp only [serviceOf, hkind, hfamily, hcomponents, true_iff]
        rcases hbad with hbad | hbad <;> simp only [hbad, true_or, or_true]
      | some components =>
        have hkind' : ¬ 1 < b.kind := fun h => by simp [ServiceKind.ofField_eq_none_iff.2 h] at hkind
        have hfamily' : ¬ ∃ f, b.family = some f ∧ 31 < f := fun h => by
          simp [familyOpt?_eq_none_iff.2 h] at hfamily
        obtain ⟨htags', hroles'⟩ := not_or.1
          (hrange.not.1 fun h => by simp [components?_eq_none_iff.2 h] at hcomponents)
        have hfree : kind = .free ↔ b.kind = 0 := by
          rw [← ServiceKind.ofField_eq_some_iff.1 hkind]
          cases kind <;> simp [ServiceKind.toField]
        have hlength := components?_length hcomponents
        have hempty : b.components = [] ↔ ¬ 1 ≤ components.length := by
          rw [hlength, not_le, Nat.lt_one_iff, List.length_eq_zero_iff]
        simp only [serviceOf, hkind, hfamily, hcomponents, ite_eq_right_iff, reduceCtorEq, imp_false, Bool.and_eq_true,
          decide_eq_true_eq, serviceOk_iff, titleOk_iff, components?_tags hcomponents, hfree, hempty, ← hlength,
          hkind', hfamily', htags', hroles', false_or, not_and_or, not_not, not_le, or_assoc]

/-- Settles O21: the model's tests are those of R23, and the record carries the body's fields. -/
theorem svcPutFieldTests : Obligations.svc_put_field_tests := by
  unfold Obligations.svc_put_field_tests
  refine fun b => ⟨serviceOf_eq_none_iff, fun r hr => ?_⟩
  obtain ⟨kind, family, components, hkind, hfamily, hcomponents, -, rfl⟩ := serviceOf_eq_some_iff.1 hr
  obtain ⟨hfields, hfresh⟩ := components?_eq_some hcomponents
  refine ⟨rfl, ?_, familyOpt?_val hfamily, clamp_zero .., rfl, hfields, hfresh⟩
  rw [← ServiceKind.ofField_eq_some_iff.1 hkind]
  cases kind <;> simp [ServiceKind.toField]

end Sys2Proof.Machine
end

