-- ==== Sys2Proof/Proofs/Directory.lean ====
section
/-! PROOF. Lists kept in order, the placement and loading of a service (R18, R20, R24, R25), and O56. -/

namespace Sys2Proof.Machine

/-! ## Lists in ascending order of a number -/

section
variable {α : Type} {key : α → Nat} {l : List α}

theorem mem_insertBy (hl : (l.map key).Pairwise (· < ·)) (x y : α) :
    y ∈ insertBy key x l ↔ y = x ∨ y ∈ l ∧ key y ≠ key x := by
  induction l with
  | nil => simp [insertBy]
  | cons a l ih =>
    obtain ⟨hfirst, hrest⟩ := List.pairwise_cons.1 hl
    have hbelow : ∀ z ∈ l, key a < key z := fun z hz => hfirst _ (List.mem_map_of_mem hz)
    unfold insertBy
    split
    next hlt =>
      simp only [List.mem_cons]
      refine or_congr_right (iff_self_and.2 ?_)
      rintro (rfl | hy)
      · omega
      · have := hbelow y hy
        omega
    next hge =>
      split
      next heq =>
        simp only [List.mem_cons]
        refine or_congr_right ⟨fun hy => ⟨.inr hy, ?_⟩, ?_⟩
        · have := hbelow y hy
          omega
        · rintro ⟨rfl | hy, hne⟩
          · exact absurd heq.symm hne
          · exact hy
      next hne =>
        simp only [List.mem_cons, ih hrest]
        constructor
        · rintro (rfl | rfl | ⟨hy, hkey⟩)
          · exact .inr ⟨.inl rfl, Ne.symm hne⟩
          · exact .inl rfl
          · exact .inr ⟨.inr hy, hkey⟩
        · rintro (rfl | ⟨rfl | hy, hkey⟩)
          · exact .inr (.inl rfl)
          · exact .inl rfl
          · exact .inr (.inr ⟨hy, hkey⟩)

theorem insertBy_pairwise (hl : (l.map key).Pairwise (· < ·)) (x : α) :
    ((insertBy key x l).map key).Pairwise (· < ·) := by
  induction l with
  | nil => exact List.pairwise_singleton ..
  | cons a l ih =>
    obtain ⟨hfirst, hrest⟩ := List.pairwise_cons.1 hl
    have hbelow : ∀ z ∈ l, key a < key z := fun z hz => hfirst _ (List.mem_map_of_mem hz)
    unfold insertBy
    split
    next hlt =>
      refine List.pairwise_cons.2 ⟨fun k hk => ?_, hl⟩
      obtain ⟨z, hz, rfl⟩ := List.mem_map.1 hk
      rcases List.mem_cons.1 hz with rfl | hz
      · exact hlt
      · exact hlt.trans (hbelow z hz)
    next hge =>
      split
      next heq => exact List.pairwise_cons.2 ⟨fun k hk => heq ▸ hfirst k hk, hrest⟩
      next hne =>
        refine List.pairwise_cons.2 ⟨fun k hk => ?_, ih hrest⟩
        obtain ⟨z, hz, rfl⟩ := List.mem_map.1 hk
        rcases (mem_insertBy hrest x z).1 hz with rfl | ⟨hz, -⟩
        · omega
        · exact hbelow z hz

theorem insertBy_length_le (x : α) : (insertBy key x l).length ≤ l.length + 1 := by
  induction l with
  | nil => exact Nat.le_refl _
  | cons a l ih =>
    unfold insertBy
    split
    · exact Nat.le_refl _
    · split
      · exact Nat.le_succ _
      · simpa using ih

/-- Replacing an entry keeps the length. -/
theorem insertBy_length_of_mem (hl : (l.map key).Pairwise (· < ·)) {x y : α} (hy : y ∈ l) (hkey : key y = key x) :
    (insertBy key x l).length = l.length := by
  induction l with
  | nil => cases hy
  | cons a l ih =>
    obtain ⟨hfirst, hrest⟩ := List.pairwise_cons.1 hl
    unfold insertBy
    split
    next hlt =>
      rcases List.mem_cons.1 hy with rfl | hy
      · omega
      · have := hfirst _ (List.mem_map_of_mem (f := key) hy)
        omega
    next =>
      split
      next => rfl
      next hne =>
        rcases List.mem_cons.1 hy with rfl | hy
        · exact absurd hkey.symm hne
        · simpa using ih hrest hy

end

/-! ## The directory of the other services -/

theorem State.othersEntries_getElem (s : State) (n : Nat) (i : Fin 4) :
    (s.othersEntries n)[i] = s.directory[i].filter (·.service != n) :=
  mapEach_getElem ..

theorem State.mem_othersEntries {s : State} {n : Nat} {i : Fin 4} {e : DirEntry} :
    e ∈ (s.othersEntries n)[i] ↔ e ∈ s.directory[i] ∧ e.service ≠ n := by
  rw [State.othersEntries_getElem, List.mem_filter, bne_iff_ne]

theorem Vector.mem_toList_iff_exists_fin {α : Type} {k : Nat} {v : Vector α k} {a : α} :
    a ∈ v.toList ↔ ∃ i : Fin k, v[i] = a := by
  rw [Vector.mem_toList_iff, Vector.mem_iff_getElem]
  exact ⟨fun ⟨i, hi, h⟩ => ⟨⟨i, hi⟩, h⟩, fun ⟨i, h⟩ => ⟨i, i.isLt, h⟩⟩

/-! ## The placement test (R24) -/

theorem State.tagOwned_iff {s : State} {r : ServiceRec} :
    s.tagOwned r = true ↔
      ∃ k ∈ r.components, ∃ (i : Fin 4) (e : DirEntry), e ∈ s.directory[i] ∧ e.tag = k.tag ∧ e.service ≠ r.number := by
  simp only [State.tagOwned, List.any_eq_true, Vector.mem_toList_iff_exists_fin, exists_exists_eq_and,
    State.mem_othersEntries, beq_iff_eq]
  tauto

theorem State.bankOverflow_iff {s : State} {r : ServiceRec} :
    s.bankOverflow r = true ↔
      ∃ i : Fin 4, 16 < (s.directory[i].filter (·.service != r.number)).length +
        (r.components.filter fun k => foldBank k.tag == i).length := by
  simp only [State.bankOverflow, State.othersEntries_getElem, List.any_eq_true, mem_allLanes, true_and,
    decide_eq_true_eq]

theorem State.tableFull_iff {s : State} {r : ServiceRec} :
    s.tableFull r = true ↔ s.service? r.number = none ∧ 48 ≤ s.services.length := by
  simp [State.tableFull]

theorem State.placementOk_iff {s : State} {r : ServiceRec} :
    s.placementOk r = true ↔ ¬ s.tagOwned r = true ∧ ¬ s.bankOverflow r = true ∧ ¬ s.tableFull r = true := by
  simp [State.placementOk, and_assoc]

/-! ## Placing entries (R25) -/

/-- Every bank stands in ascending order of tag. -/
def banksInOrder (d : Vector (List DirEntry) 4) : Prop := ∀ i : Fin 4, (d[i].map DirEntry.tag).Pairwise (· < ·)

theorem placeEntry_getElem (n : Nat) (d : Vector (List DirEntry) 4) (c : Component) (i : Fin 4) :
    (placeEntry n d c)[i] = if i = foldBank c.tag then insertBy DirEntry.tag ⟨c.tag, n, c.role⟩ d[i] else d[i] := by
  unfold placeEntry
  by_cases h : i = foldBank c.tag
  · subst h
    simp
  · have hne : (foldBank c.tag).val ≠ i.val := fun e => h (Fin.ext e.symm)
    simp [h, hne]

theorem banksInOrder_placeEntry (n : Nat) {d : Vector (List DirEntry) 4} (c : Component) (hd : banksInOrder d) :
    banksInOrder (placeEntry n d c) := by
  intro i
  rw [placeEntry_getElem]
  split
  · exact insertBy_pairwise (hd i) _
  · exact hd i

theorem banksInOrder_foldl (n : Nat) {d : Vector (List DirEntry) 4} (cs : List Component) (hd : banksInOrder d) :
    banksInOrder (cs.foldl (placeEntry n) d) := by
  induction cs generalizing d with
  | nil => exact hd
  | cons c cs ih => exact ih (banksInOrder_placeEntry n c hd)

/-- One entry placed where its tag has none. -/
theorem mem_placeEntry {n : Nat} {d : Vector (List DirEntry) 4} {c : Component} (hd : banksInOrder d)
    (hfree : ∀ (i : Fin 4) (e : DirEntry), e ∈ d[i] → e.tag ≠ c.tag) (i : Fin 4) (e : DirEntry) :
    e ∈ (placeEntry n d c)[i] ↔ e ∈ d[i] ∨ i = foldBank e.tag ∧ e.service = n ∧ c.tag = e.tag ∧ c.role = e.role := by
  rw [placeEntry_getElem]
  have hnew : (e = ⟨c.tag, n, c.role⟩) ↔ c.tag = e.tag ∧ e.service = n ∧ c.role = e.role := by
    cases e
    simp only [DirEntry.mk.injEq]
    tauto
  split
  next hi =>
    have hold : e ∈ d[i] ∧ e.tag ≠ c.tag ↔ e ∈ d[i] := and_iff_left_of_imp (hfree i e)
    rw [mem_insertBy (hd i), hold, hnew]
    constructor
    · rintro (⟨htag, hservice, hrole⟩ | he)
      · exact .inr ⟨htag ▸ hi, hservice, htag, hrole⟩
      · exact .inl he
    · rintro (he | ⟨-, hservice, htag, hrole⟩)
      · exact .inr he
      · exact .inl ⟨htag, hservice, hrole⟩
  next hi =>
    refine (or_iff_left ?_).symm
    rintro ⟨hbank, -, htag, -⟩
    exact hi (htag ▸ hbank)

/-- The entries of a list of components placed where none of their tags has one. -/
theorem mem_foldl_placeEntry {n : Nat} {d : Vector (List DirEntry) 4} {cs : List Component} (hd : banksInOrder d)
    (hfree : ∀ c ∈ cs, ∀ (i : Fin 4) (e : DirEntry), e ∈ d[i] → e.tag ≠ c.tag)
    (hnodup : (cs.map Component.tag).Nodup) (i : Fin 4) (e : DirEntry) :
    e ∈ (cs.foldl (placeEntry n) d)[i] ↔
      e ∈ d[i] ∨ i = foldBank e.tag ∧ e.service = n ∧ ∃ c ∈ cs, c.tag = e.tag ∧ c.role = e.role := by
  induction cs generalizing d with
  | nil => simp
  | cons c cs ih =>
    obtain ⟨hnew, hnodup⟩ := List.nodup_cons.1 hnodup
    have hone := mem_placeEntry (n := n) hd (hfree c (List.mem_cons_self ..))
    rw [List.foldl_cons, ih (banksInOrder_placeEntry n c hd) ?_ hnodup, hone i e]
    · simp only [List.mem_cons, exists_eq_or_imp]
      tauto
    · intro k hk j f hf htag
      rcases (hone j f).1 hf with hf | ⟨-, -, hc, -⟩
      · exact hfree k (List.mem_cons_of_mem _ hk) j f hf htag
      · exact hnew (List.mem_map.2 ⟨k, hk, by rw [← htag, hc]⟩)

theorem placeEntry_length_le (n : Nat) (d : Vector (List DirEntry) 4) (c : Component) (i : Fin 4) :
    (placeEntry n d c)[i].length ≤ d[i].length + ([c].filter fun k => foldBank k.tag == i).length := by
  rw [placeEntry_getElem]
  split
  next hi =>
    subst hi
    simpa using insertBy_length_le _
  next hi => simp [Ne.symm hi]

theorem foldl_placeEntry_length_le (n : Nat) (d : Vector (List DirEntry) 4) (cs : List Component) (i : Fin 4) :
    (cs.foldl (placeEntry n) d)[i].length ≤ d[i].length + (cs.filter fun k => foldBank k.tag == i).length := by
  induction cs generalizing d with
  | nil => exact Nat.le_refl _
  | cons c cs ih =>
    have hone := placeEntry_length_le n d c i
    have hrest := ih (placeEntry n d c)
    have hcount : ((c :: cs).filter fun k => foldBank k.tag == i).length =
        ([c].filter fun k => foldBank k.tag == i).length + (cs.filter fun k => foldBank k.tag == i).length := by
      rw [← List.length_append, ← List.filter_append, List.singleton_append]
    rw [List.foldl_cons]
    omega

/-! ## The record as loaded -/

@[simp] theorem carryOver_tag (old : List Component) (c : Component) : (carryOver old c).tag = c.tag := by
  unfold carryOver
  split <;> rfl

@[simp] theorem carryOver_role (old : List Component) (c : Component) : (carryOver old c).role = c.role := by
  unfold carryOver
  split <;> rfl

theorem State.service?_mem {s : State} {n : Nat} {r : ServiceRec} (h : s.service? n = some r) :
    r ∈ s.services ∧ r.number = n :=
  ⟨List.mem_of_find?_eq_some h, by simpa using List.find?_some h⟩

theorem State.loadService_length {s : State} {r : ServiceRec} (hs : s.services.length ≤ 48)
    (horder : (s.services.map ServiceRec.number).Pairwise (· < ·)) (hroom : ¬ s.tableFull r = true) :
    (s.loadService r).services.length ≤ 48 := by
  rw [State.tableFull_iff] at hroom
  cases hold : s.service? r.number with
  | none =>
    have := insertBy_length_le (key := ServiceRec.number) (l := s.services) (r.loaded (s.service? r.number))
    have hlt : ¬ 48 ≤ s.services.length := fun h => hroom ⟨hold, h⟩
    show (insertBy _ _ _).length ≤ 48
    omega
  | some o =>
    obtain ⟨ho, hnumber⟩ := State.service?_mem hold
    show (insertBy _ _ _).length ≤ 48
    rwa [insertBy_length_of_mem (x := r.loaded _) horder ho hnumber]

/-- The directory after a load, when no tag of the list is another service's. -/
theorem State.mem_loadService_directory {s : State} {r : ServiceRec} (hs : directoryInv s)
    (howned : ¬ s.tagOwned r = true) (hnodup : (r.components.map Component.tag).Nodup) (i : Fin 4) (e : DirEntry) :
    e ∈ (s.loadService r).directory[i] ↔
      (e ∈ s.directory[i] ∧ e.service ≠ r.number) ∨
        (i = foldBank e.tag ∧ e.service = r.number ∧ ∃ k ∈ r.components, k.tag = e.tag ∧ k.role = e.role) := by
  obtain ⟨-, -, -, hbanks, -⟩ := hs
  rw [← State.mem_othersEntries]
  refine mem_foldl_placeEntry (fun j => ?_) (fun c hc j f hf htag => howned (State.tagOwned_iff.2 ?_)) hnodup i e
  · rw [State.othersEntries_getElem]
    exact (hbanks j).2.sublist (List.filter_sublist.map _)
  · obtain ⟨hmem, hother⟩ := State.mem_othersEntries.1 hf
    exact ⟨c, hc, j, f, hmem, htag, hother⟩

/-! ## The invariant -/

theorem directoryInv_reset : directoryInv State.reset := by
  simp [directoryInv, State.reset]

/-- The invariant reads of the services their numbers, tags and roles. -/
theorem directoryInv_map {s : State} (f : ServiceRec → ServiceRec) (hnumber : ∀ r, (f r).number = r.number)
    (hparts : ∀ r, (f r).components.map (fun c => (c.tag, c.role)) = r.components.map fun c => (c.tag, c.role))
    (hs : directoryInv s) : directoryInv { s with services := s.services.map f } := by
  obtain ⟨hlen, horder, hnodup, hbanks, hdirectory⟩ := hs
  have htags : ∀ r, (f r).components.map Component.tag = r.components.map Component.tag := fun r => by
    simpa [List.map_map, Function.comp_def] using congrArg (List.map Prod.fst) (hparts r)
  have hpart : ∀ r (e : DirEntry), (∃ c ∈ (f r).components, c.tag = e.tag ∧ c.role = e.role) ↔
      ∃ c ∈ r.components, c.tag = e.tag ∧ c.role = e.role := fun r e => by
    have hmem := congrArg (fun l => (e.tag, e.role) ∈ l) (hparts r)
    simpa [List.mem_map] using hmem
  refine ⟨by simpa using hlen, ?_, ?_, hbanks, fun i e => ?_⟩
  · simpa [List.map_map, Function.comp_def, hnumber] using horder
  · intro x hx
    obtain ⟨r, hr, rfl⟩ := List.mem_map.1 hx
    rw [htags]
    exact hnodup r hr
  · rw [hdirectory]
    simp [hnumber, hpart]

theorem directoryInv_loadService {s : State} {b : SvcPutBody} {r : ServiceRec} (hb : serviceOf b = some r)
    (hplaced : s.placementOk r = true) (hs : directoryInv s) : directoryInv (s.loadService r) := by
  obtain ⟨howned, hfits, hroom⟩ := State.placementOk_iff.1 hplaced
  have hmem := State.mem_loadService_directory hs howned (serviceOf_tags_nodup hb)
  obtain ⟨hlen, horder, hnodup, hbanks, hdirectory⟩ := hs
  have hservices : ∀ x, x ∈ (s.loadService r).services ↔
      x = r.loaded (s.service? r.number) ∨ x ∈ s.services ∧ x.number ≠ r.number :=
    mem_insertBy horder (r.loaded (s.service? r.number))
  refine ⟨State.loadService_length hlen horder hroom, insertBy_pairwise horder _, ?nodup, fun i => ⟨?length, ?order⟩,
    fun i e => ?entries⟩
  case nodup =>
    intro x hx
    rcases (hservices x).1 hx with rfl | ⟨hx, -⟩
    · simpa [ServiceRec.loaded, List.map_map, Function.comp_def] using serviceOf_tags_nodup hb
    · exact hnodup x hx
  case length =>
    refine (foldl_placeEntry_length_le r.number (s.othersEntries r.number) r.components i).trans ?_
    rw [State.othersEntries_getElem]
    exact not_lt.1 fun hover => hfits (State.bankOverflow_iff.2 ⟨i, hover⟩)
  case order =>
    refine banksInOrder_foldl r.number r.components (fun j => ?_) i
    rw [State.othersEntries_getElem]
    exact (hbanks j).2.sublist (List.filter_sublist.map _)
  case entries =>
    rw [hmem, hdirectory]
    simp only [hservices, or_and_right, exists_or, exists_eq_left, ServiceRec.loaded, List.mem_map,
      exists_exists_and_eq_and, carryOver_tag, carryOver_role]
    constructor
    · rintro (⟨⟨hbank, x, hx, hnumber, hpart⟩, hother⟩ | ⟨hbank, hservice, hpart⟩)
      · exact ⟨hbank, .inr ⟨x, ⟨hx, hnumber ▸ hother⟩, hnumber, hpart⟩⟩
      · exact ⟨hbank, .inl ⟨hservice.symm, hpart⟩⟩
    · rintro ⟨hbank, ⟨hservice, hpart⟩ | ⟨x, ⟨hx, hother⟩, hnumber, hpart⟩⟩
      · exact .inr ⟨hbank, hservice.symm, hpart⟩
      · exact .inl ⟨⟨hbank, x, hx, hnumber, hpart⟩, hnumber ▸ hother⟩

theorem directoryInv_unloadService {s : State} (n : Nat) (hs : directoryInv s) : directoryInv (s.unloadService n) := by
  obtain ⟨hlen, horder, hnodup, hbanks, hdirectory⟩ := hs
  have hsub : (s.services.filter (·.number != n)).Sublist s.services := List.filter_sublist
  refine ⟨hsub.length_le.trans hlen, horder.sublist (hsub.map _), fun r hr => hnodup r (hsub.subset hr), fun i => ?_,
    fun i e => ?_⟩
  · show (s.othersEntries n)[i].length ≤ 16 ∧ ((s.othersEntries n)[i].map DirEntry.tag).Pairwise (· < ·)
    rw [State.othersEntries_getElem]
    exact ⟨(List.length_filter_le ..).trans (hbanks i).1, (hbanks i).2.sublist (List.filter_sublist.map _)⟩
  · show e ∈ (s.othersEntries n)[i] ↔ _
    rw [State.mem_othersEntries, hdirectory]
    simp only [State.unloadService, List.mem_filter, bne_iff_ne]
    constructor
    · rintro ⟨⟨hbank, r, hr, hnumber, hpart⟩, hother⟩
      exact ⟨hbank, r, ⟨hr, hnumber ▸ hother⟩, hnumber, hpart⟩
    · rintro ⟨hbank, r, ⟨hr, hother⟩, hnumber, hpart⟩
      exact ⟨⟨hbank, r, hr, hnumber, hpart⟩, hnumber ▸ hother⟩

theorem directoryInv_setOnAir {s : State} (n : Nat) (title : Option Nat) (hs : directoryInv s) :
    directoryInv (s.setOnAir n title) := by
  refine directoryInv_map _ (fun r => ?_) (fun r => ?_) hs <;> split <;> rfl

theorem directoryInv_noteArrival {s : State} (n tag seq : Nat) (hs : directoryInv s) :
    directoryInv (s.noteArrival n tag seq) := by
  refine directoryInv_map _ (fun r => ?_) (fun r => ?_) hs <;> split
  · rfl
  · rfl
  · simp only [List.map_map]
    refine List.map_congr_left fun c _ => ?_
    simp only [Function.comp_apply]
    split <;> rfl
  · rfl

theorem directoryInv_congr {s t : State} (h1 : t.services = s.services) (h2 : t.directory = s.directory)
    (hs : directoryInv s) : directoryInv t := by
  simpa only [directoryInv, h1, h2] using hs

theorem directoryInv_move {s t : State} (h : Move s t) (hs : directoryInv s) : directoryInv t := by
  cases h with
  | book h => exact directoryInv_congr h.services h.directory hs
  | arrival n tag seq => exact directoryInv_noteArrival n tag seq hs
  | latched | offered => exact directoryInv_congr (by simp) (by simp) hs
  | byteTaken =>
    rw [State.takeReportByte_shape]
    exact hs
  | warm | cold => exact directoryInv_congr (s := State.reset) rfl rfl directoryInv_reset
  | _ => exact hs

theorem directoryInv_change {s u : State} {ls : List (Fin 4)} (h : Change s ls u) (hs : directoryInv s) :
    directoryInv u := by
  cases h with
  | loaded b r hb hplaced => exact directoryInv_loadService hb hplaced hs
  | unloaded n => exact directoryInv_unloadService n hs
  | aired n title => exact directoryInv_setOnAir n title hs
  | purchased n e amount =>
    rw [State.purchased, State.withRecord_shape]
    exact hs
  | _ => exact hs

theorem directoryInv_perform (s : State) (o : Task) (hs : directoryInv s) : directoryInv (s.perform o).1 := by
  rw [State.perform_shape]
  exact hs

/-- Settles O56: a load puts in the entries of its own components and nothing else, and continuity and titles on air
change no tag and no role. -/
theorem everyStepKeepsTheDirectory : Obligations.every_step_keeps_the_directory := by
  unfold Obligations.every_step_keeps_the_directory
  exact fun s t => step_keeps_block directoryInv_move directoryInv_change directoryInv_perform fun _ _ h => h

end Sys2Proof.Machine
end

