-- ==== Sys2Proof/Proofs/QueueInvariant.lean ====
section
/-! PROOF. The output queues (R60, R62, R64, R66): what each event of a lane keeps, and O53. -/

namespace Sys2Proof.Machine

/-! ## One lane -/

theorem Lane.queueInv_of_empty {l : Lane} (h : l.queue = []) : l.queueInv := by
  simp [Lane.queueInv, h]

/-- In a viewing state only the length of the queue is bounded. -/
theorem Lane.queueInv_of_viewing {l : Lane} (hlen : l.queue.length ≤ 8) (h : l.state.viewing = true) : l.queueInv := by
  refine ⟨hlen, fun hv => absurd h (by simp [hv]), fun hs => ?_⟩
  rcases hs with hs | hs <;> rw [hs] at h <;> cases h

theorem Lane.queueInv_congr {l m : Lane} (hqueue : m.queue = l.queue) (hstate : m.state = l.state)
    (hl : l.queueInv) : m.queueInv := by
  simpa only [Lane.queueInv, hqueue, hstate] using hl

/-- A shorter queue of the same lane. -/
theorem Lane.queueInv_sublist {l m : Lane} (hqueue : m.queue.Sublist l.queue) (hstate : m.state = l.state)
    (hl : l.queueInv) : m.queueInv := by
  obtain ⟨hlen, hfill, hnone⟩ := hl
  refine ⟨hqueue.length_le.trans hlen, fun hv c hc => hfill (hstate ▸ hv) c (hqueue.subset hc), fun hs => ?_⟩
  exact List.sublist_nil.1 (hnone (hstate ▸ hs) ▸ hqueue)

theorem Lane.begin_queue (l : Lane) : l.begin.queue.Sublist l.queue ∧ l.begin.state = l.state := by
  unfold Lane.begin
  split
  next h => exact ⟨by simp [h], rfl⟩
  next => exact ⟨List.Sublist.refl _, rfl⟩

theorem Lane.complete_queue (l : Lane) : l.complete.queue = l.queue ∧ l.complete.state = l.state := by
  unfold Lane.complete
  split
  · exact ⟨rfl, rfl⟩
  · split <;> exact ⟨rfl, rfl⟩

theorem Lane.watch_queue (l : Lane) : l.watch.queue = l.queue := by
  unfold Lane.watch
  split
  · rfl
  · split <;> rfl

/-- What happens to a lane between evaluations keeps its queue lawful. -/
theorem LaneStep.keeps_queueInv {l m : Lane} (h : LaneStep l m) (hl : l.queueInv) : m.queueInv := by
  cases h with
  | begun => exact Lane.queueInv_sublist l.begin_queue.1 l.begin_queue.2 hl
  | completed => exact Lane.queueInv_congr l.complete_queue.1 l.complete_queue.2 hl
  | queued c hroom hfit =>
    obtain ⟨-, hfill, -⟩ := hl
    rcases hfit with hviewing | ⟨hstate, hkind⟩
    · exact Lane.queueInv_of_viewing (by simpa using hroom) hviewing
    · refine ⟨by simpa using hroom, fun hv d hd => ?_, fun hs => ?_⟩
      · rcases List.mem_append.1 hd with hd | hd
        · exact hfill hv d hd
        · rw [List.mem_singleton.1 hd, hkind]
      · rcases hstate with hstate | hstate <;> rcases hs with hs | hs <;>
          exact absurd (hstate.symm.trans hs) (by decide)
  | unlatched | missed | overrun | marked => exact hl

theorem Lane.queueInv_select {l : Lane} (k : Option Nat) (hl : l.queueInv) : (l.select k).queueInv := by
  unfold Lane.select
  split
  · exact hl
  · exact Lane.queueInv_of_empty rfl

/-- An evaluation that enters a state without viewing purges (R60). -/
theorem State.evaluate_queueInv {s : State} {n : Fin 4} (h : s.lanes[n].queueInv) :
    (s.evaluate n).1.lanes[n].queueInv := by
  rw [State.evaluate_lane]
  split
  next hkept =>
    rcases hkept with hsame | hviewing
    · exact Lane.queueInv_congr (l := s.lanes[n]) rfl hsame h
    · exact Lane.queueInv_of_viewing h.1 hviewing
  next => exact Lane.queueInv_of_empty rfl

/-! ## All lanes -/

theorem queuesInv_set {s : State} {n : Fin 4} {l : Lane} (hl : l.queueInv) (hs : queuesInv s) :
    queuesInv { s with lanes := s.lanes.set n l } := by
  intro m
  by_cases hm : m = n
  · subst hm
    simpa using hl
  · have hne : n.val ≠ m.val := fun e => hm (Fin.ext e.symm)
    simpa [hne] using hs m

theorem queuesInv_congr {s t : State} (h : t.lanes = s.lanes) (hs : queuesInv s) : queuesInv t := by
  simpa only [queuesInv, h] using hs

theorem queuesInv_of_cold {s : State} (h : s.lanes = .replicate 4 .cold) : queuesInv s := by
  intro n
  rw [show s.lanes[n] = Lane.cold by simp [h]]
  exact Lane.queueInv_of_empty rfl

theorem queuesInv_reset : queuesInv State.reset := queuesInv_of_cold rfl

theorem queuesInv_move {s t : State} (h : Move s t) (hs : queuesInv s) : queuesInv t := by
  cases h with
  | book h => exact queuesInv_congr h.lanes hs
  | lane n l h => exact queuesInv_set (h.keeps_queueInv (hs n)) hs
  | latched | offered => exact queuesInv_congr (by simp) hs
  | byteTaken =>
    rw [State.takeReportByte_shape]
    exact hs
  | warm | cold => exact queuesInv_of_cold rfl
  | _ => exact hs

theorem queuesInv_change {s u : State} {ls : List (Fin 4)} (h : Change s ls u) (hs : queuesInv s) : queuesInv u := by
  cases h with
  | selected n k => exact queuesInv_set (Lane.queueInv_select k (hs n)) hs
  | purchased n e amount =>
    rw [State.purchased, State.withRecord_shape]
    exact hs
  | _ => exact hs

theorem queuesInv_perform (s : State) (o : Task) (hs : queuesInv s) : queuesInv (s.perform o).1 := by
  cases o with
  | cause n =>
    intro m
    by_cases hm : m = n
    · subst hm
      exact State.evaluate_queueInv (hs m)
    · simpa only [State.perform, State.evaluate_other s hm] using hs m
  | laneTick n =>
    intro m
    simp only [State.perform]
    rw [State.laneTick_lane]
    split
    next hm =>
      subst hm
      exact Lane.queueInv_congr (Lane.watch_queue _) (Lane.watch_keeps _).2.1 (hs _)
    next => exact hs m
  | framer => simp only [State.perform]; rw [State.framerTick_shape]; exact hs
  | rental => simp only [State.perform]; rw [State.rentalTick_shape]; exact hs
  | lock => simp only [State.perform]; rw [State.lockTick_shape]; exact hs
  | panel => simp only [State.perform]; rw [State.panelTick_shape]; exact hs
  | houseTime | counters => exact hs

/-- Settles O53: a cell is queued only where it may wait, and whatever takes a lane out of viewing purges it. -/
theorem everyStepKeepsQueuesRight : Obligations.every_step_keeps_queues_right := by
  unfold Obligations.every_step_keeps_queues_right
  exact fun s t => step_keeps_block queuesInv_move queuesInv_change queuesInv_perform fun _ _ h => h

end Sys2Proof.Machine
end

