-- ==== Sys2Proof/Proofs/RentalInvariant.lean ====
section
/-! PROOF. The catalog and the rental table (R75 to R92): what each update keeps in order and in range, and O55. -/

namespace Sys2Proof.Machine

/-! ## The two tables by themselves -/

def catalogLawful (c : List CatalogEntry) : Prop :=
  c.length ≤ 32 ∧ (c.map CatalogEntry.title).Pairwise (· < ·) ∧ ∀ e ∈ c, e.inRange

def recordsLawful (l : List RentalRec) : Prop :=
  l.length ≤ 16 ∧ (l.map RentalRec.title).Nodup ∧ ∀ r ∈ l, r.inRange

theorem rentalsInv_iff {s : State} :
    rentalsInv s ↔ catalogLawful s.catalog ∧ recordsLawful s.rentals ∧ (s.room.state = .vacant → s.rentals = []) := by
  simp only [rentalsInv, catalogLawful, recordsLawful, and_assoc]

theorem recordsLawful_nil : recordsLawful [] := by simp [recordsLawful]

/-- An update of single records that keeps their titles. -/
theorem recordsLawful_map {l : List RentalRec} (f : RentalRec → RentalRec) (htitle : ∀ r, (f r).title = r.title)
    (hrange : ∀ r ∈ l, (f r).inRange) (hl : l.length ≤ 16 ∧ (l.map RentalRec.title).Nodup) : recordsLawful (l.map f) := by
  refine ⟨by simpa using hl.1, by simpa [List.map_map, Function.comp_def, htitle] using hl.2, fun x hx => ?_⟩
  obtain ⟨r, hr, rfl⟩ := List.mem_map.1 hx
  exact hrange r hr

/-! ## One record -/

theorem RentalRec.inRange_fresh {e : CatalogEntry} (h : 0 < e.preview) : (RentalRec.fresh e).inRange := by
  simp [RentalRec.inRange, RentalRec.fresh, h]

/-- A purchase leaves any record in range. -/
theorem RentalRec.inRange_bought (r : RentalRec) {e : CatalogEntry} (amount serial : Nat) (he : e.inRange) :
    (r.bought e amount serial).inRange := by
  obtain ⟨-, -, hlow, hhigh, -, -⟩ := he
  refine ⟨fun _ => ⟨?_, rfl, rfl⟩, fun h => absurd rfl h, hhigh, Nat.zero_le _, Nat.min_le_right .., (nomatch ·)⟩
  show 1 ≤ e.window
  omega

theorem RentalRec.inRange_seen {r : RentalRec} (b : Bool) (h : r.inRange) : { r with seen := b }.inRange := h

theorem RentalRec.inRange_void {r : RentalRec} (h : r.inRange) :
    { r with state := .void, refunded := true, windowLeft := 0 }.inRange := by
  obtain ⟨-, -, -, hviewed, hpreview, -⟩ := h
  exact ⟨(nomatch ·), fun _ => rfl, Nat.zero_le _, hviewed, hpreview, (nomatch ·)⟩

theorem RentalRec.inRange_meterPreview {r : RentalRec} (h : r.inRange) (hstate : r.state = .preview) :
    r.meterPreview.1.inRange := by
  have hidle : r.state ≠ .active := by simp [hstate]
  have hsame := h
  obtain ⟨-, hwindow, hmost, hviewed, -, hpreview⟩ := h
  have hbelow := hpreview hstate
  unfold RentalRec.meterPreview
  split
  · refine ⟨fun hactive => ?_, fun _ => hwindow hidle, hmost, hviewed, hbelow, fun hleft => ?_⟩
    all_goals dsimp only at *
    · split at hactive <;> cases hactive
    · split at hleft
      next => cases hleft
      next hne =>
        rw [beq_iff_eq] at hne
        omega
  · exact RentalRec.inRange_seen false hsame

theorem RentalRec.inRange_meterActive {r : RentalRec} (h : r.inRange) (hstate : r.state = .active) :
    r.meterActive.1.inRange := by
  obtain ⟨hactive, -, hwindow, hviewed, hpreview, -⟩ := h
  obtain ⟨-, hamount, hserial⟩ := hactive hstate
  have hseconds : r.viewedSec + (r.seen && decide (r.viewedSec < 172800)).toNat ≤ 172800 := by
    by_cases hlt : r.viewedSec < 172800
    · have := Bool.toNat_le (r.seen && decide (r.viewedSec < 172800))
      omega
    · simpa [hlt] using hviewed
  refine ⟨fun hrunning => ⟨?_, hamount, hserial⟩, fun hended => ?_, (Nat.sub_le ..).trans hwindow, hseconds, hpreview,
    fun h => ?_⟩
  all_goals simp only [RentalRec.meterActive, beq_iff_eq] at *
  · split at hrunning
    · cases hrunning
    · omega
  · split at hended
    · assumption
    · exact absurd rfl hended
  · split at h <;> cases h

/-- A tick keeps a record in range (R85 to R87). -/
theorem RentalRec.inRange_meter {r : RentalRec} (h : r.inRange) : r.meter.1.inRange := by
  unfold RentalRec.meter
  split
  next hstate => exact RentalRec.inRange_meterPreview h hstate
  next hstate => exact RentalRec.inRange_meterActive h hstate
  all_goals exact h

/-! ## New records (R81, R82, R92) -/

theorem State.rental?_eq_none_iff {s : State} {x : Nat} : s.rental? x = none ↔ ∀ r ∈ s.rentals, r.title ≠ x := by
  simp [State.rental?]

theorem State.createRecord_titles_nodup {s : State} {r : RentalRec} (hs : (s.rentals.map RentalRec.title).Nodup)
    (hnone : s.rental? r.title = none) : ((s.createRecord r).rentals.map RentalRec.title).Nodup := by
  have hsub := s.roomForRecord_sublist
  simp only [State.createRecord, List.map_append, List.map_singleton]
  refine List.nodup_append.2 ⟨hs.sublist (hsub.map _), List.nodup_singleton _, fun x hx y hy hxy => ?_⟩
  obtain ⟨z, hz, rfl⟩ := List.mem_map.1 hx
  exact State.rental?_eq_none_iff.1 hnone z (hsub.subset hz) (hxy.trans (List.mem_singleton.1 hy))

theorem State.mem_createRecord {s : State} {r x : RentalRec} (h : x ∈ (s.createRecord r).rentals) :
    x ∈ s.rentals ∨ x = r := by
  rcases List.mem_append.1 h with h | h
  · exact .inl (s.roomForRecord_sublist.subset h)
  · exact .inr (List.mem_singleton.1 h)

theorem State.withRecord_length {s : State} {e : CatalogEntry} (hlen : s.rentals.length ≤ 16)
    (hplace : s.rental? e.title = none → s.placeAvailable = true) : (s.withRecord e).rentals.length ≤ 16 := by
  unfold State.withRecord
  split
  next => exact hlen
  next hnone => exact s.createRecord_length _ hlen (hplace hnone)

/-- The table with a record for the title: no title twice, and a new record at most. -/
theorem State.withRecord_titles {s : State} {e : CatalogEntry} (hnodup : (s.rentals.map RentalRec.title).Nodup) :
    ((s.withRecord e).rentals.map RentalRec.title).Nodup ∧
      ∀ r ∈ (s.withRecord e).rentals, r ∈ s.rentals ∨ r = .fresh e := by
  unfold State.withRecord
  split
  next => exact ⟨hnodup, fun r hr => .inl hr⟩
  next hnone => exact ⟨State.createRecord_titles_nodup hnodup hnone, fun r hr => State.mem_createRecord hr⟩

theorem recordsLawful_purchased {s : State} (n : Fin 4) {e : CatalogEntry} (amount : Nat) (he : e.inRange)
    (hplace : s.rental? e.title = none → s.placeAvailable = true) (hs : recordsLawful s.rentals) :
    recordsLawful (s.purchased n e amount).rentals := by
  obtain ⟨hlen, hnodup, hrange⟩ := hs
  obtain ⟨hnodup', hold⟩ := State.withRecord_titles (e := e) hnodup
  refine recordsLawful_map (fun r => if r.title = e.title then r.bought e amount s.nextSerial else r) (fun r => ?_)
    (fun r hr => ?_) ⟨State.withRecord_length hlen hplace, hnodup'⟩
  · split <;> rfl
  · split
    next => exact r.inRange_bought amount _ he
    next hother =>
      rcases hold r hr with hr | rfl
      · exact hrange r hr
      · exact absurd rfl hother

theorem recordsLawful_evaluate {s : State} (n : Fin 4) (hs : recordsLawful s.rentals) :
    recordsLawful (s.evaluate n).1.rentals := by
  obtain ⟨hlen, hnodup, hrange⟩ := hs
  rw [State.evaluate_rentals]
  split
  next => exact ⟨hlen, hnodup, hrange⟩
  next e he =>
    obtain ⟨-, hnone, -, hpreview, hplace, -⟩ := State.wantedRecord?_spec he
    refine ⟨s.createRecord_length (.fresh e) hlen hplace, State.createRecord_titles_nodup hnodup hnone, fun r hr => ?_⟩
    rcases State.mem_createRecord hr with hr | rfl
    · exact hrange r hr
    · exact RentalRec.inRange_fresh hpreview

/-! ## The catalog (R76, R77) -/

theorem entryOf_inRange (b : TitlePutBody) : (entryOf b).inRange := by
  have hwindow : (entryOf b).window = max 600 (min 172800 b.window) := clamp_eq_max_min (by decide) _
  exact ⟨clamp_zero_le .., clamp_zero_le .., by omega, by omega, clamp_zero_le .., clamp_zero_le ..⟩

theorem catalogLawful_insertBy {s : State} {b : TitlePutBody} (hs : catalogLawful s.catalog)
    (hroom : (s.catalog? b.title).isSome = true ∨ s.catalog.length < 32) :
    catalogLawful (insertBy CatalogEntry.title (entryOf b) s.catalog) := by
  obtain ⟨hlen, horder, hrange⟩ := hs
  refine ⟨?_, insertBy_pairwise horder _, fun e he => ?_⟩
  · rcases hroom with hold | hroom
    · obtain ⟨e, he⟩ := Option.isSome_iff_exists.1 hold
      rwa [insertBy_length_of_mem (x := entryOf b) horder (State.catalog?_mem he) (State.catalog?_title he)]
    · exact (insertBy_length_le _).trans hroom
  · rcases (mem_insertBy horder _ e).1 he with rfl | ⟨he, -⟩
    · exact entryOf_inRange b
    · exact hrange e he

theorem catalogLawful_filter {c : List CatalogEntry} (p : CatalogEntry → Bool) (hc : catalogLawful c) :
    catalogLawful (c.filter p) := by
  obtain ⟨hlen, horder, hrange⟩ := hc
  exact ⟨(List.length_filter_le ..).trans hlen, horder.sublist (List.filter_sublist.map _), fun e he =>
    hrange e (List.mem_of_mem_filter he)⟩

/-! ## At reset, through moves, changes and work -/

theorem catalogLawful_nil : catalogLawful [] := by simp [catalogLawful]

theorem rentalsInv_reset : rentalsInv State.reset :=
  rentalsInv_iff.2 ⟨catalogLawful_nil, recordsLawful_nil, fun _ => rfl⟩

theorem rentalsInv_congr {s t : State} (h1 : t.catalog = s.catalog) (h2 : t.rentals = s.rentals)
    (h3 : t.room.state = s.room.state) (hs : rentalsInv s) : rentalsInv t := by
  simpa only [rentalsInv, h1, h2, h3] using hs

/-- Updating single records, their titles kept. -/
theorem rentalsInv_map {s t : State} (f : RentalRec → RentalRec) (hcatalog : catalogLawful t.catalog)
    (hrentals : t.rentals = s.rentals.map f) (hroom : t.room.state = s.room.state) (htitle : ∀ r, (f r).title = r.title)
    (hrange : ∀ r, r.inRange → (f r).inRange) (hs : rentalsInv s) : rentalsInv t := by
  obtain ⟨-, ⟨hlen, hnodup, hold⟩, hvacant⟩ := rentalsInv_iff.1 hs
  refine rentalsInv_iff.2 ⟨hcatalog, ?_, fun hv => ?_⟩
  · rw [hrentals]
    exact recordsLawful_map f htitle (fun r hr => hrange r (hold r hr)) ⟨hlen, hnodup⟩
  · rw [hrentals, hvacant (hroom ▸ hv)]
    rfl

theorem rentalsInv_move {s t : State} (h : Move s t) (hs : rentalsInv s) : rentalsInv t := by
  have hcatalog := (rentalsInv_iff.1 hs).1
  cases h with
  | book h => exact rentalsInv_congr h.catalog h.rentals (by rw [h.room]) hs
  | picture x =>
    refine rentalsInv_map (fun r => if r.title = x then { r with seen := true } else r) hcatalog rfl rfl ?_ ?_ hs
    · intro r
      split <;> rfl
    · intro r hr
      split
      · exact RentalRec.inRange_seen true hr
      · exact hr
  | latched | offered => exact rentalsInv_congr (by simp) (by simp) (by simp) hs
  | byteTaken =>
    rw [State.takeReportByte_shape]
    exact hs
  | warm =>
    exact rentalsInv_map (fun r => { r with seen := false }) catalogLawful_nil rfl rfl (fun _ => rfl)
      (fun _ h => RentalRec.inRange_seen false h) hs
  | cold => exact rentalsInv_congr (s := State.reset) rfl rfl rfl rentalsInv_reset
  | _ => exact hs

theorem rentalsInv_change {s u : State} {ls : List (Fin 4)} (h : Change s ls u) (hs : rentalsInv s) :
    rentalsInv u := by
  obtain ⟨hcatalog, hrecords, hvacant⟩ := rentalsInv_iff.1 hs
  cases h with
  | catalogued b hroom => exact rentalsInv_iff.2 ⟨catalogLawful_insertBy hcatalog hroom, hrecords, hvacant⟩
  | dropped x => exact rentalsInv_iff.2 ⟨catalogLawful_filter _ hcatalog, hrecords, hvacant⟩
  | purchased n e amount hopen he hplace =>
    have hrange := hcatalog.2.2 e (State.catalog?_mem he)
    have hrecords' := recordsLawful_purchased n amount hrange hplace hrecords
    have hkept : (s.purchased n e amount).catalog = s.catalog ∧
        (s.purchased n e amount).room.state = s.room.state := by
      rw [State.purchased, State.withRecord_shape]
      exact ⟨rfl, rfl⟩
    refine rentalsInv_iff.2 ⟨hkept.1 ▸ hcatalog, hrecords', fun hv => ?_⟩
    rw [hkept.2, hopen] at hv
    cases hv
  | credited r =>
    refine rentalsInv_map
      (fun y => if y.title = r.title then { y with state := .void, refunded := true, windowLeft := 0 } else y)
      hcatalog rfl rfl ?_ ?_ hs
    · intro y
      split <;> rfl
    · intro y hy
      split
      · exact RentalRec.inRange_void hy
      · exact hy
  | opened b c => exact rentalsInv_iff.2 ⟨hcatalog, hrecords, (nomatch ·)⟩
  | replaced b c => exact rentalsInv_iff.2 ⟨hcatalog, recordsLawful_nil, (nomatch ·)⟩
  | closed => exact rentalsInv_iff.2 ⟨hcatalog, recordsLawful_nil, fun _ => rfl⟩
  | _ => exact hs

theorem rentalsInv_evaluate {s : State} (n : Fin 4) (hs : rentalsInv s) : rentalsInv (s.evaluate n).1 := by
  obtain ⟨hcatalog, hrecords, hvacant⟩ := rentalsInv_iff.1 hs
  have hcatalog' : (s.evaluate n).1.catalog = s.catalog := by rw [State.evaluate_shape]
  have hroom : (s.evaluate n).1.room = s.room := by rw [State.evaluate_shape]
  refine rentalsInv_iff.2 ⟨hcatalog' ▸ hcatalog, recordsLawful_evaluate n hrecords, fun hv => ?_⟩
  rw [hroom] at hv
  rw [State.evaluate_rentals]
  split
  next => exact hvacant hv
  next e he =>
    obtain ⟨-, -, -, -, -, -, hopen, -⟩ := State.wantedRecord?_spec he
    rw [hv] at hopen
    cases hopen

theorem rentalsInv_perform (s : State) (o : Task) (hs : rentalsInv s) : rentalsInv (s.perform o).1 := by
  cases o with
  | cause n => exact rentalsInv_evaluate n hs
  | rental =>
    simp only [State.perform]
    rw [State.rentalTick_shape]
    exact rentalsInv_map (fun r => r.meter.1) (rentalsInv_iff.1 hs).1 rfl rfl RentalRec.meter_title
      (fun _ => RentalRec.inRange_meter) hs
  | framer => simp only [State.perform]; rw [State.framerTick_shape]; exact hs
  | laneTick n => simp only [State.perform]; rw [State.laneTick_shape]; exact hs
  | lock => simp only [State.perform]; rw [State.lockTick_shape]; exact hs
  | panel => simp only [State.perform]; rw [State.panelTick_shape]; exact hs
  | houseTime | counters => exact hs

/-- Settles O55: records are made only for titles without one in an OCCUPIED room, and every update of a record or of the
catalog keeps titles apart and quantities in range. -/
theorem everyStepKeepsRentalsRight : Obligations.every_step_keeps_rentals_right := by
  unfold Obligations.every_step_keeps_rentals_right
  exact fun s t => step_keeps_block rentalsInv_move rentalsInv_change rentalsInv_perform fun _ _ h => h

end Sys2Proof.Machine
end

