-- ==== Sys2Proof/Proofs/LaneInvariant.lean ====
section
/-! PROOF. Lanes stay right (R54, R56, R59): no move changes an answer evaluation rests on, a change changes answers of
the lanes its causes go to alone, and every lane a cause reaches ends right. With O52 and O60. -/

namespace Sys2Proof.Machine

/-! ## Entries found by a number -/

section
variable {α : Type} {key : α → Nat}

theorem find?_map_of_key {f : α → α} (hf : ∀ a, key (f a) = key a) (l : List α) (k : Nat) :
    (l.map f).find? (fun a => key a == k) = (l.find? fun a => key a == k).map f := by
  simp only [List.find?_map, Function.comp_def, hf]

theorem find?_filter_of_ne {k n : Nat} (h : k ≠ n) (l : List α) :
    (l.filter (key · != n)).find? (fun a => key a == k) = l.find? fun a => key a == k := by
  rw [List.find?_filter]
  congr 1
  funext a
  by_cases ha : key a = k <;> simp [ha, h]

theorem find?_insertBy_self (x : α) (l : List α) : (insertBy key x l).find? (fun a => key a == key x) = some x := by
  induction l with
  | nil => simp [insertBy]
  | cons a l ih =>
    unfold insertBy
    split
    next => simp
    next =>
      split
      next => simp
      next hne => simpa [Ne.symm hne] using ih

theorem find?_insertBy_of_ne {x : α} {k : Nat} (h : k ≠ key x) (l : List α) :
    (insertBy key x l).find? (fun a => key a == k) = l.find? fun a => key a == k := by
  induction l with
  | nil => simp [insertBy, Ne.symm h]
  | cons a l ih =>
    unfold insertBy
    split
    next => simp [Ne.symm h]
    next =>
      split
      next heq => simp [Ne.symm h, ← heq]
      next => simp only [List.find?_cons, ih]

end

theorem State.service?_map {s t : State} {f : ServiceRec → ServiceRec} (h : t.services = s.services.map f)
    (hf : ∀ r, (f r).number = r.number) (k : Nat) : t.service? k = (s.service? k).map f := by
  rw [State.service?, h]
  exact find?_map_of_key hf s.services k

theorem State.rental?_map {s t : State} {f : RentalRec → RentalRec} (h : t.rentals = s.rentals.map f)
    (hf : ∀ r, (f r).title = r.title) (x : Nat) : t.rental? x = (s.rental? x).map f := by
  rw [State.rental?, h]
  exact find?_map_of_key hf s.rentals x

theorem State.rental?_congr {s t : State} (h : t.rentals = s.rentals) (x : Nat) : t.rental? x = s.rental? x := by
  rw [State.rental?, h, State.rental?]

/-! ## The answers evaluation rests on -/

/-- Lane `n`'s own record, and the answers its evaluation has from the owners, are the same in both states. -/
structure SameAnswers (s t : State) (n : Fin 4) : Prop where
  service : t.lanes[n].service = s.lanes[n].service
  state   : t.lanes[n].state = s.lanes[n].state
  title   : t.lanes[n].title = s.lanes[n].title
  record  : (t.selected? n).map (fun r => (r.rating, r.onAir?)) = (s.selected? n).map fun r => (r.rating, r.onAir?)
  ceiling : t.effectiveCeiling n = s.effectiveCeiling n
  room    : t.room.state = s.room.state
  rating  : ∀ x, s.titleRunning? n = some x → t.titleRating x = s.titleRating x
  rental  : ∀ x, s.titleRunning? n = some x → (t.rental? x).map RentalRec.state = (s.rental? x).map RentalRec.state

theorem SameAnswers.titleRunning {s t : State} {n : Fin 4} (h : SameAnswers s t n) :
    t.titleRunning? n = s.titleRunning? n := by
  have hmap : ∀ u : State, u.titleRunning? n = ((u.selected? n).map fun r => (r.rating, r.onAir?)).bind Prod.snd := by
    intro u
    simp [State.titleRunning?, Option.bind_map]
  rw [hmap, hmap, h.record]

theorem SameAnswers.due {s t : State} {n : Fin 4} (h : SameAnswers s t n) : t.due n = s.due n := by
  have hrecord := h.record
  unfold State.selected? at hrecord
  unfold State.due
  rw [h.service] at hrecord ⊢
  cases hk : s.lanes[n].service with
  | none => rfl
  | some k =>
    rw [hk, Option.bind_some, Option.bind_some] at hrecord
    dsimp only
    cases hr : s.service? k with
    | none =>
      rw [hr, Option.map_none, Option.map_eq_none_iff] at hrecord
      rw [hrecord]
    | some r =>
      rw [hr, Option.map_some, Option.map_eq_some_iff] at hrecord
      obtain ⟨q, hq, hsame⟩ := hrecord
      obtain ⟨hrating, honAir⟩ := Prod.mk.inj hsame
      have hrunning := State.titleRunning?_of_service hk hr
      have heffective : t.effectiveRating q = s.effectiveRating r := by
        unfold State.effectiveRating
        rw [honAir, hrating]
        cases hx : r.onAir? with
        | none => rfl
        | some x =>
          dsimp only
          rw [h.rating x (hrunning.trans hx)]
      rw [hq]
      dsimp only
      rw [h.ceiling, heffective, honAir, h.room]
      cases hx : r.onAir? with
      | none => rfl
      | some x =>
        dsimp only
        rw [h.rental x (hrunning.trans hx)]

/-- A lane stays right when its record and its answers stay. -/
theorem SameAnswers.right {s t : State} {n : Fin 4} (h : SameAnswers s t n) (hs : s.laneRight n) : t.laneRight n :=
  ⟨by rw [h.state, h.due, hs.1], by rw [h.title, h.titleRunning, hs.2]⟩

theorem State.selected?_congr {s t : State} {n : Fin 4} (h1 : t.lanes[n].service = s.lanes[n].service)
    (h2 : t.services = s.services) : t.selected? n = s.selected? n := by
  unfold State.selected? State.service?
  rw [h1, h2]

theorem State.titleRating_congr {s t : State} {x : Nat} (h1 : t.rental? x = s.rental? x)
    (h2 : t.catalog? x = s.catalog? x) (h3 : t.lock.policy.houseLimit = s.lock.policy.houseLimit) :
    t.titleRating x = s.titleRating x := by
  simp only [State.titleRating, h1, h2, h3]

theorem State.effectiveCeiling_congr {s t : State} {n : Fin 4} (h1 : t.lock.leases[n] = s.lock.leases[n])
    (h2 : t.lock.policy = s.lock.policy) (h3 : t.lock.roomCeiling = s.lock.roomCeiling) :
    t.effectiveCeiling n = s.effectiveCeiling n := by
  simp only [State.effectiveCeiling, h1, h2, h3]

/-- What is left to compare when the lane's record and the services stay. -/
theorem SameAnswers.of_services {s t : State} {n : Fin 4} (hlane : t.lanes[n] = s.lanes[n])
    (hservices : t.services = s.services) (hceiling : t.effectiveCeiling n = s.effectiveCeiling n)
    (hlimit : t.lock.policy.houseLimit = s.lock.policy.houseLimit) (hroom : t.room.state = s.room.state)
    (hrental : ∀ x, s.titleRunning? n = some x → t.rental? x = s.rental? x)
    (hcatalog : ∀ x, s.titleRunning? n = some x → t.catalog? x = s.catalog? x) : SameAnswers s t n where
  service := by rw [hlane]
  state := by rw [hlane]
  title := by rw [hlane]
  record := by rw [State.selected?_congr (by rw [hlane]) hservices]
  ceiling := hceiling
  room := hroom
  rating x hx := State.titleRating_congr (hrental x hx) (hcatalog x hx) hlimit
  rental x hx := by rw [hrental x hx]

/-- What is left to compare when only services differ. -/
theorem SameAnswers.of_record {s t : State} {n : Fin 4} (hlanes : t.lanes = s.lanes) (hlock : t.lock = s.lock)
    (hroom : t.room = s.room) (hcatalog : t.catalog = s.catalog) (hrentals : t.rentals = s.rentals)
    (hrecord : ∀ k, s.lanes[n].service = some k →
      (t.service? k).map (fun r => (r.rating, r.onAir?)) = (s.service? k).map fun r => (r.rating, r.onAir?)) :
    SameAnswers s t n where
  service := by rw [hlanes]
  state := by rw [hlanes]
  title := by rw [hlanes]
  record := by
    unfold State.selected?
    rw [hlanes]
    cases hk : s.lanes[n].service with
    | none => rfl
    | some k => exact hrecord k hk
  ceiling := State.effectiveCeiling_congr (by rw [hlock]) (by rw [hlock]) (by rw [hlock])
  room := by rw [hroom]
  rating x _ := State.titleRating_congr (State.rental?_congr hrentals x) (State.catalog?_congr hcatalog x) (by rw [hlock])
  rental x _ := by rw [State.rental?_congr hrentals x]

/-! ## Moves -/

theorem LaneStep.keeps_answers {l m : Lane} (h : LaneStep l m) :
    m.service = l.service ∧ m.state = l.state ∧ m.title = l.title := by
  cases h with
  | begun =>
    unfold Lane.begin
    split <;> exact ⟨rfl, rfl, rfl⟩
  | completed =>
    unfold Lane.complete
    split
    · exact ⟨rfl, rfl, rfl⟩
    · split <;> exact ⟨rfl, rfl, rfl⟩
  | unlatched | missed | overrun | queued | marked => exact ⟨rfl, rfl, rfl⟩

theorem State.laneRight_lane {s : State} {n m : Fin 4} {l : Lane} (h : LaneStep s.lanes[n] l) (hm : s.laneRight m) :
    { s with lanes := s.lanes.set n l }.laneRight m := by
  refine State.laneRight_of_same (s := s) ?_ rfl rfl rfl rfl rfl hm
  by_cases hmn : m = n
  · subst hmn
    simpa using h.keeps_answers
  · have hne : n.val ≠ m.val := fun e => hmn (Fin.ext e.symm)
    simp [hne]

theorem State.laneRight_noteArrival {s : State} {m : Fin 4} (n tag seq : Nat) (hm : s.laneRight m) :
    (s.noteArrival n tag seq).laneRight m := by
  refine SameAnswers.right (s := s) (.of_record rfl rfl rfl rfl rfl fun k _ => ?_) hm
  rw [State.service?_map (s := s) rfl fun r => by split <;> rfl, Option.map_map]
  congr 1
  funext r
  simp only [Function.comp_apply]
  split <;> rfl

theorem State.laneRight_pictureSeen {s : State} {m : Fin 4} (x : Nat) (hm : s.laneRight m) :
    (s.pictureSeen x).laneRight m := by
  refine State.laneRight_congr (s := s) ⟨rfl, rfl, rfl, rfl, rfl⟩ rfl rfl (fun y _ => ?_) hm
  rw [State.rental?_map (s := s) rfl fun r => by split <;> rfl, Option.map_map]
  congr 1
  funext r
  simp only [Function.comp_apply]
  split <;> rfl

/-- A lane with no selection is right in IDLE with no title in view. -/
theorem State.laneRight_of_cold {s : State} (h : s.lanes = .replicate 4 .cold) (n : Fin 4) : s.laneRight n := by
  have hlane : s.lanes[n] = Lane.cold := by simp [h]
  have hservice : s.lanes[n].service = none := by rw [hlane]; rfl
  constructor
  · rw [State.due, hservice, hlane]
    rfl
  · rw [State.titleRunning?, State.selected?, hservice, hlane]
    rfl

/-- No move changes an answer evaluation rests on, but a reset, which leaves every lane IDLE. -/
theorem lanesInv_move {s t : State} (h : Move s t) (hs : lanesInv s) : lanesInv t := by
  obtain ⟨hlen, hright⟩ := hs
  have same : ∀ {t : State}, t.lanes = s.lanes → t.services = s.services → t.lock = s.lock → t.room = s.room →
      t.catalog = s.catalog → t.rentals = s.rentals → lanesInv t := by
    intro t h1 h2 h3 h4 h5 h6
    refine ⟨h6 ▸ hlen, fun m => State.laneRight_of_same ⟨?_, ?_, ?_⟩ h2 h3 h4 h5 h6 (hright m)⟩ <;> rw [h1]
  have answers : ∀ {t : State}, t.rentals = s.rentals → (∀ m, SameAnswers s t m) → lanesInv t :=
    fun h1 h2 => ⟨h1 ▸ hlen, fun m => (h2 m).right (hright m)⟩
  cases h with
  | book h => exact same h.lanes h.services h.lock h.room h.catalog h.rentals
  | lane n l h => exact ⟨hlen, fun m => State.laneRight_lane h (hright m)⟩
  | arrival n tag seq => exact ⟨hlen, fun m => State.laneRight_noteArrival n tag seq (hright m)⟩
  | picture x =>
    refine ⟨?_, fun m => State.laneRight_pictureSeen x (hright m)⟩
    simpa [State.pictureSeen] using hlen
  | stale n =>
    exact answers rfl fun m =>
      .of_services rfl rfl rfl rfl rfl (fun _ _ => rfl) fun _ _ => rfl
  | tried a =>
    exact answers rfl fun m =>
      .of_services rfl rfl rfl rfl rfl (fun _ _ => rfl) fun _ _ => rfl
  | lockedOut =>
    exact answers rfl fun m =>
      .of_services rfl rfl rfl rfl rfl (fun _ _ => rfl) fun _ _ => rfl
  | latched | offered => exact same (by simp) (by simp) (by simp) (by simp) (by simp) (by simp)
  | byteTaken =>
    rw [State.takeReportByte_shape]
    exact same rfl rfl rfl rfl rfl rfl
  | warm =>
    refine ⟨?_, State.laneRight_of_cold rfl⟩
    simpa [State.warmReset] using hlen
  | cold => exact ⟨Nat.zero_le _, State.laneRight_of_cold rfl⟩
  | framer | family | chargesAcked | raised | codeAcked | floorSet => exact same rfl rfl rfl rfl rfl rfl

/-! ## Changes -/

theorem State.selects_iff {s : State} {n : Nat} {m : Fin 4} : s.selects n m = true ↔ s.lanes[m].service = some n := by
  rw [State.selects, beq_iff_eq]

theorem State.runs_iff {s : State} {x : Nat} {m : Fin 4} : s.runs x m = true ↔ s.titleRunning? m = some x := by
  rw [State.runs, beq_iff_eq]

theorem State.onTitle_iff {s : State} {x : Nat} {m : Fin 4} : s.onTitle x m = true ↔ s.lanes[m].title = some x := by
  rw [State.onTitle, beq_iff_eq]

theorem State.sameAnswers_loadService {s : State} {r : ServiceRec} {m : Fin 4}
    (h : ¬ (loadCauses (s.service? r.number) r && s.selects r.number m) = true) :
    SameAnswers s (s.loadService r) m := by
  refine .of_record rfl rfl rfl rfl rfl fun k hk => ?_
  by_cases hnumber : k = r.number
  · subst hnumber
    have hquiet : loadCauses (s.service? r.number) r = false := by
      rw [Bool.and_eq_true, not_and'] at h
      exact Bool.eq_false_iff.2 (h (State.selects_iff.2 hk))
    have hnew : (s.loadService r).service? r.number = some (r.loaded (s.service? r.number)) :=
      find?_insertBy_self (key := ServiceRec.number) (r.loaded (s.service? r.number)) s.services
    rw [hnew]
    cases hold : s.service? r.number with
    | none => simp [hold, loadCauses] at hquiet
    | some o =>
      rw [hold] at hquiet
      simp only [loadCauses, Bool.or_eq_false_iff, bne_eq_false_iff_eq] at hquiet
      obtain ⟨⟨⟨hkind, hrating⟩, -⟩, htitle⟩ := hquiet
      simp only [Option.map_some, ServiceRec.loaded, ServiceRec.onAir?, hkind, hrating, htitle]
  · have hsame : (s.loadService r).service? k = s.service? k :=
      find?_insertBy_of_ne (key := ServiceRec.number) (x := r.loaded (s.service? r.number)) hnumber s.services
    rw [hsame]

theorem State.sameAnswers_unloadService {s : State} {n : Nat} {m : Fin 4} (h : ¬ s.selects n m = true) :
    SameAnswers s (s.unloadService n) m := by
  refine .of_record rfl rfl rfl rfl rfl fun k hk => ?_
  have hne : k ≠ n := fun heq => h (State.selects_iff.2 (heq ▸ hk))
  have hsame : (s.unloadService n).service? k = s.service? k :=
    find?_filter_of_ne (key := ServiceRec.number) hne s.services
  rw [hsame]

theorem State.sameAnswers_setOnAir {s : State} {n : Nat} {title : Option Nat} {r : ServiceRec} {m : Fin 4}
    (hr : s.service? n = some r) (h : ¬ (r.title != title && s.selects n m) = true) :
    SameAnswers s (s.setOnAir n title) m := by
  refine .of_record rfl rfl rfl rfl rfl fun k hk => ?_
  rw [State.service?_map (s := s) rfl (fun x => by split <;> rfl)]
  by_cases hkn : k = n
  · subst hkn
    rw [Bool.and_eq_true, not_and', bne_iff_ne, not_not] at h
    rw [hr, Option.map_some, if_pos (State.service?_mem hr).2, ← h (State.selects_iff.2 hk)]
  · cases hx : s.service? k with
    | none => rfl
    | some x =>
      have hother : x.number ≠ n := by rwa [(State.service?_mem hx).2]
      simp [hother]

theorem State.modRental_rental?_of_ne {s : State} {f : RentalRec → RentalRec} {x y : Nat}
    (hf : ∀ r, (f r).title = r.title) (h : y ≠ x) : (s.modRental x f).rental? y = s.rental? y := by
  rw [State.rental?_map (s := s) rfl (fun r => by split <;> simp [hf])]
  cases hr : s.rental? y with
  | none => rfl
  | some r =>
    have hother : r.title ≠ x := by rwa [State.rental?_title hr]
    simp [hother]

theorem State.withRecord_rental?_of_ne {s : State} {e : CatalogEntry} {y : Nat} (h : y ≠ e.title)
    (hevicts : s.purchaseEvicts? e ≠ some y) : (s.withRecord e).rental? y = s.rental? y := by
  unfold State.withRecord
  unfold State.purchaseEvicts? at hevicts
  split
  next => rfl
  next hnone =>
    rw [hnone] at hevicts
    exact s.createRecord_rental?_other (.fresh e) y h hevicts

theorem State.sameAnswers_purchased {s : State} {n m : Fin 4} {e : CatalogEntry} (amount : Nat) (hm : s.laneRight m)
    (h : ¬ s.purchaseReaches e m = true) : SameAnswers s (s.purchased n e amount) m := by
  have hshape : s.purchased n e amount =
      { s with
        rentals := (s.purchased n e amount).rentals, counters := (s.purchased n e amount).counters
        charges := (s.purchased n e amount).charges, nextSerial := (s.purchased n e amount).nextSerial
        room.spend := (s.purchased n e amount).room.spend } := by
    rw [State.purchased, State.withRecord_shape]
    rfl
  have hrental : ∀ x, s.titleRunning? m = some x → (s.purchased n e amount).rental? x = s.rental? x := by
    intro x hx
    have hview : s.lanes[m].title = some x := hm.2.trans hx
    rw [State.purchaseReaches, Bool.or_eq_true, not_or, State.onTitle_iff, hview] at h
    obtain ⟨htitle, hevicts⟩ := h
    have hne : x ≠ e.title := fun heq => htitle (congrArg some heq)
    have hstays : s.purchaseEvicts? e ≠ some x := fun heq => hevicts <| by
      rw [heq, Option.any_some]
      exact State.onTitle_iff.2 hview
    have hothers := State.modRental_rental?_of_ne (s := s.withRecord e) (f := fun r => r.bought e amount s.nextSerial)
      (fun _ => rfl) hne
    exact hothers.trans (State.withRecord_rental?_of_ne hne hstays)
  refine .of_services ?_ ?_ ?_ ?_ ?_ hrental fun x _ => ?_ <;> rw [hshape] <;> rfl

theorem State.sameAnswers_credited {s : State} {r : RentalRec} {m : Fin 4} (hm : s.laneRight m)
    (h : ¬ s.onTitle r.title m = true) : SameAnswers s (s.credited r) m := by
  refine .of_services rfl rfl rfl rfl rfl (fun x hx => ?_) fun _ _ => rfl
  have hne : x ≠ r.title := fun heq => h (State.onTitle_iff.2 (heq ▸ hm.2.trans hx))
  exact State.modRental_rental?_of_ne (s := s)
    (f := fun y => { y with state := .void, refunded := true, windowLeft := 0 }) (fun _ => rfl) hne

theorem State.sameAnswers_lease {s : State} {n m : Fin 4} (o : Option Nat) (h : m ≠ n) :
    SameAnswers s { s with lock.leases := s.lock.leases.set n o } m := by
  have hne : n.val ≠ m.val := fun e => h (Fin.ext e.symm)
  refine .of_services rfl rfl (State.effectiveCeiling_congr ?_ rfl rfl) rfl rfl (fun _ _ => rfl) fun _ _ => rfl
  simp [hne]

theorem not_of_notMem_lanesWhere {p : Fin 4 → Bool} {m : Fin 4} (h : m ∉ lanesWhere p) : ¬ p m = true :=
  mt (mem_lanesWhere p m).2 h

/-- A change leaves right the lanes that its causes do not go to. -/
theorem Change.keeps_right {s u : State} {ls : List (Fin 4)} (h : Change s ls u) {m : Fin 4} (hm : s.laneRight m)
    (hls : m ∉ ls) : u.laneRight m := by
  cases h with
  | loaded b r => exact (State.sameAnswers_loadService (not_of_notMem_lanesWhere hls)).right hm
  | unloaded n => exact (State.sameAnswers_unloadService (not_of_notMem_lanesWhere hls)).right hm
  | aired n title r hr => exact (State.sameAnswers_setOnAir hr (not_of_notMem_lanesWhere hls)).right hm
  | selected n k =>
    have hlane : (s.select n k).lanes[m] = s.lanes[m] := State.modLane_other s _ (by simpa using hls)
    exact State.laneRight_of_same (s := s) ⟨by rw [hlane], by rw [hlane], by rw [hlane]⟩ rfl rfl rfl rfl rfl hm
  | catalogued b =>
    refine SameAnswers.right (s := s) (.of_services rfl rfl rfl rfl rfl (fun _ _ => rfl) fun x hx => ?_) hm
    have hne : x ≠ (entryOf b).title := fun heq => hls ((mem_lanesWhere _ m).2 (State.runs_iff.2 (hx.trans (congrArg some heq))))
    exact find?_insertBy_of_ne (key := CatalogEntry.title) hne s.catalog
  | dropped y =>
    refine SameAnswers.right (s := s) (.of_services rfl rfl rfl rfl rfl (fun _ _ => rfl) fun x hx => ?_) hm
    have hne : x ≠ y := fun heq => hls ((mem_lanesWhere _ m).2 (State.runs_iff.2 (hx.trans (congrArg some heq))))
    exact find?_filter_of_ne (key := CatalogEntry.title) hne s.catalog
  | purchased n e amount => exact (State.sameAnswers_purchased amount hm (not_of_notMem_lanesWhere hls)).right hm
  | credited r => exact (State.sameAnswers_credited hm (not_of_notMem_lanesWhere hls)).right hm
  | opened | updated | replaced | closed | policed => exact absurd (mem_allLanes m) hls
  | leased n | relocked n => exact (State.sameAnswers_lease _ (by simpa using hls)).right hm

theorem Change.rentals_length {s u : State} {ls : List (Fin 4)} (h : Change s ls u) (hs : s.rentals.length ≤ 16) :
    u.rentals.length ≤ 16 := by
  cases h with
  | purchased n e amount _ _ hplace =>
    have hlen := State.withRecord_length hs hplace
    simpa [State.purchased, State.modRental, State.appendCharge, State.audit] using hlen
  | credited r => simpa [State.credited, State.modRental, State.appendCharge, State.audit] using hs
  | replaced | closed => exact Nat.zero_le _
  | _ => exact hs

/-! ## Every step -/

theorem lanesInv_settle {s : State} {ts : List Task} (hwork : s.workLeft ts ≤ settleBound) (hs : lanesInv s) :
    lanesInv (s.settle settleBound ts) := by
  obtain ⟨hlen, hright⟩ := hs
  refine ⟨?_, fun m => State.settle_right _ _ _ m hlen hwork (.inl (hright m))⟩
  exact (State.settle_induction (fun _ _ => True) (fun _ _ _ => trivial) (fun _ _ _ _ _ _ => trivial) _ _ _ hlen hwork
    trivial).1

theorem lanesInv_act {s t : State} (h : Act s t) (hs : lanesInv s) : lanesInv t := by
  obtain ⟨hlen, hright⟩ := hs
  cases h with
  | move h => exact lanesInv_move h ⟨hlen, hright⟩
  | @change u ls h =>
    obtain ⟨-, hlen', hreached⟩ := State.deliver_spec u ls h.length_le (h.rentals_length hlen)
    refine ⟨hlen', fun m => hreached m ?_⟩
    by_cases hm : m ∈ ls
    · exact .inr hm
    · exact .inl (h.keeps_right (hright m) hm)
  | tick => exact lanesInv_settle (s.workLeft_tick hlen) ⟨hlen, hright⟩
  | owner o => exact lanesInv_settle (s.workLeft_one o hlen) ⟨hlen, hright⟩

theorem lanesInv_reset : lanesInv State.reset := ⟨Nat.zero_le _, State.laneRight_of_cold rfl⟩

/-- Settles O52: what changes an answer sends the causes, and every lane a cause reaches ends right. -/
theorem everyStepKeepsLanesRight : Obligations.every_step_keeps_lanes_right := by
  unfold Obligations.every_step_keeps_lanes_right
  exact fun s t => step_keeps lanesInv_act fun _ _ h => h

/-- Settles O60: each invariant at reset, from its own file. -/
theorem resetMeetsEveryInvariant : Obligations.reset_meets_every_invariant := by
  unfold Obligations.reset_meets_every_invariant
  exact ⟨lanesInv_reset, queuesInv_reset, chargesInv_reset, spendInv_reset, rentalsInv_reset, directoryInv_reset,
    lockInv_reset, reportsInv_reset, framerInv_reset, keysInv_reset, attentionInv_reset⟩

end Sys2Proof.Machine
end

