-- ==== Sys2Proof/Proofs/Resets.lean ====
section
/-! PROOF. Cold start, the reset line and UNIT-RESET (R3, R167, R174, R182): O5, O6 and O7. -/

namespace Sys2Proof.Machine

/-! ## The alerts at a warm reset (R174) -/

theorem AlertState.warm_eq (a : AlertState) : a.warm = if a = .clear then .clear else .latched := by
  cases a <;> rfl

/-- An alert is LATCHED after a warm reset exactly when one was not CLEAR before it. -/
theorem any_latched_warm_iff {alerts : Vector AlertState 6} :
    (mapEach AlertState.warm alerts).toList.any (· == .latched) = true ↔ ∃ i : Fin 6, alerts[i] ≠ .clear := by
  have hwarm : ∀ a : AlertState, a.warm = .latched ↔ a ≠ .clear := by
    intro a
    cases a <;> simp [AlertState.warm]
  simp only [List.any_eq_true, Vector.mem_toList_iff_exists_fin, exists_exists_eq_and, beq_iff_eq, mapEach_getElem,
    hwarm]

theorem State.warmReset_reports (s : State) :
    s.warmReset.reports = if ∃ i : Fin 6, s.alerts[i] ≠ .clear then [{ kind := .alert, body := none }] else [] := by
  simp only [State.warmReset]
  rw [if_congr any_latched_warm_iff rfl rfl]
  rfl

theorem State.warmReset_alerts (s : State) :
    s.warmReset.alerts = mapEach (fun a => if a = .clear then .clear else .latched) s.alerts := by
  rw [← funext AlertState.warm_eq]
  rfl

/-! ## The obligations -/

/-- Settles O5: the reset line's own rule is the warm reset, whose alerts and report are the only parts not written out
as they stand. -/
theorem resetLineMakesAWarmReset : Obligations.reset_line_makes_a_warm_reset := by
  unfold Obligations.reset_line_makes_a_warm_reset
  intro s
  refine ⟨congrArg Host.Outcome.next ?_, rfl⟩
  rw [← State.warmReset_reports, ← State.warmReset_alerts]
  rfl

/-- Settles O6: every field at cold start is a constant or stays. -/
theorem coldStartSetsEveryBlock : Obligations.cold_start_sets_every_block := by
  unfold Obligations.cold_start_sets_every_block
  exact fun s => ⟨rfl, rfl⟩

theorem State.withHeld_eq {s : State} (h : s.held = false) : { s with held := false } = s := by
  rw [← h]

/-- Counting a message taken is lost in the warm reset that the message makes. -/
theorem State.warmReset_countTaken (s : State) : s.countTaken.warmReset = s.warmReset := rfl

/-- Settles O7: UNIT-RESET is counted before the warm reset that clears the counts. -/
theorem unitResetEqualsResetLine : Obligations.unit_reset_equals_reset_line := by
  unfold Obligations.unit_reset_equals_reset_line
  intro s hs
  refine ⟨{ s.warmReset with held := true }, rfl, ?_, rfl⟩
  rw [exec_unitReset hs, State.takeMsg_taken (owner := unitReset) (congrArg some s.warmReset_countTaken)]
  exact congrArg Host.Outcome.next (State.withHeld_eq (s := s.warmReset) hs).symm

end Sys2Proof.Machine
end

