-- ==== Sys2Proof/Proofs/ReturnLine.lean ====
section
/-! PROOF. Latching an alert and the bytes of the return line (R162, R170 to R172): O47 and O48. -/

namespace Sys2Proof.Machine

/-! ## Latching (R171) -/

theorem State.any_waitingAlert_iff {s : State} :
    s.reports.any Report.waitingAlert = true ↔ ∃ r ∈ s.reports, r.kind = .alert ∧ r.body = none := by
  simp only [List.any_eq_true, Report.waitingAlert_iff]

theorem State.any_waitingAlert_eq_false {s : State} (h : ∀ r ∈ s.reports, ¬ (r.kind = .alert ∧ r.body = none)) :
    s.reports.any Report.waitingAlert = false :=
  Bool.eq_false_iff.2 fun hany => by
    obtain ⟨r, hr, hwaits⟩ := State.any_waitingAlert_iff.1 hany
    exact h r hr hwaits

theorem State.latch_of_not_clear {s : State} {k : AlertKind} (h : s.alert k ≠ .clear) : s.latch k = s := if_neg h

/-- What a latch writes, when the kind was CLEAR. -/
theorem State.latch_eq {s : State} {k : AlertKind} {reports : List Report} {owed : Bool}
    (hclear : s.alert k = .clear) (hreports : (s.latch k).reports = reports) (howed : (s.latch k).owed = owed) :
    s.latch k = { s with alerts := s.alerts.set k.index .latched, reports := reports, owed := owed } := by
  rw [State.latch_shape, State.latch_alerts, if_pos hclear, hreports, howed]

/-- Settles O47: the four outcomes of a latch from the state of the kind, the report waiting and the room in the queue. -/
theorem latchingAnAlert : Obligations.latching_an_alert := by
  unfold Obligations.latching_an_alert
  refine ⟨rfl, fun s k => ⟨State.latch_of_not_clear, fun hclear => ⟨fun hwaiting => ?_, fun hnone hopen => ?_,
    fun hnone hfull => ?_⟩⟩⟩
  · have hany := State.any_waitingAlert_iff.2 hwaiting
    refine State.latch_eq hclear ?_ ?_
    · rw [State.latch_reports, if_neg (by simp [hany])]
    · rw [State.latch_owed, if_neg (by simp [hany])]
  · have hany := State.any_waitingAlert_eq_false hnone
    refine State.latch_eq hclear ?_ ?_
    · rw [State.latch_reports, if_pos ⟨hclear, hany, hopen⟩]
      rfl
    · rw [State.latch_owed, if_neg (by omega)]
  · have hany := State.any_waitingAlert_eq_false hnone
    refine State.latch_eq hclear ?_ ?_
    · rw [State.latch_reports, if_neg (by omega)]
    · rw [State.latch_owed, if_pos ⟨hclear, hany, hfull⟩]

/-! ## The body of an ALERT-RPT (R172) -/

theorem mem_alertList {alerts : Vector AlertState 6} {k : Nat} :
    k ∈ alertList alerts ↔ ∃ i : Fin 6, i.val = k ∧ alerts[i] = .latched := by
  have hplaces : k ∈ [0, 1, 2, 3, 4, 5] ↔ k < 6 := by
    simp
    omega
  rw [alertList, List.mem_filter, hplaces, beq_iff_eq]
  constructor
  · rintro ⟨hk, hlatched⟩
    refine ⟨⟨k, hk⟩, rfl, ?_⟩
    simpa [List.getD_eq_getElem?_getD, hk] using hlatched
  · rintro ⟨i, rfl, hlatched⟩
    refine ⟨i.isLt, ?_⟩
    simpa [List.getD_eq_getElem?_getD] using hlatched

theorem alertList_pairwise (alerts : Vector AlertState 6) : (alertList alerts).Pairwise (· < ·) :=
  List.Pairwise.filter _ (by decide : [0, 1, 2, 3, 4, 5].Pairwise (· < ·))

theorem AlertState.carried_eq (a : AlertState) : a.carried = if a = .latched then .reported else a := by
  cases a <;> rfl

/-- An ascending list is known by its members. -/
theorem eq_of_pairwise_lt_of_mem_iff {l m : List Nat} (hl : l.Pairwise (· < ·)) (hm : m.Pairwise (· < ·))
    (h : ∀ k, k ∈ l ↔ k ∈ m) : l = m := by
  refine List.Perm.eq_of_pairwise (le := (· < ·)) (fun a b _ _ hab hba => absurd hab (by omega)) hl hm ?_
  exact (List.perm_ext_iff_of_nodup (hl.imp fun h => Nat.ne_of_lt h) (hm.imp fun h => Nat.ne_of_lt h)).2 h

/-! ## The head report, begun -/

/-- The head and the alert states once the next byte is being taken. -/
def State.beganAs (s : State) (r head : Report) (alerts : Vector AlertState 6) : Prop :=
  (s.reportSent = 0 ∧ r.kind = .alert ∧ r.body = none →
    (∃ kinds : List Nat, head = { r with body := some (bytesOf 1 kinds.length ++ kinds.flatMap (bytesOf 1)) } ∧
      kinds.Pairwise (· < ·) ∧ ∀ k : Nat, k ∈ kinds ↔ ∃ i : Fin 6, i.val = k ∧ s.alerts[i] = .latched) ∧
    ∀ i : Fin 6, alerts[i] = if s.alerts[i] = .latched then .reported else s.alerts[i]) ∧
  (¬ (s.reportSent = 0 ∧ r.kind = .alert ∧ r.body = none) → head = r ∧ alerts = s.alerts)

theorem State.headBegun_eq {s : State} {r head : Report} {rs : List Report} {alerts : Vector AlertState 6}
    (hr : s.reports = r :: rs) (h : s.beganAs r head alerts) :
    s.headBegun = { s with reports := head :: rs, alerts := alerts } := by
  obtain ⟨hbegins, hbegun⟩ := h
  by_cases hwaits : s.reportSent = 0 ∧ r.kind = .alert ∧ r.body = none
  · obtain ⟨⟨kinds, rfl, hsorted, hmem⟩, halerts⟩ := hbegins hwaits
    obtain ⟨hzero, hwaits⟩ := hwaits
    have hkinds : alertList s.alerts = kinds :=
      eq_of_pairwise_lt_of_mem_iff (alertList_pairwise _) hsorted fun k => by rw [mem_alertList, hmem]
    have hcarried : mapEach AlertState.carried s.alerts = alerts := by
      apply Vector.ext
      intro i hi
      have := halerts ⟨i, hi⟩
      rw [← AlertState.carried_eq] at this
      exact (mapEach_getElem _ _ (⟨i, hi⟩ : Fin 6)).trans this.symm
    simp only [State.headBegun, if_pos hzero, State.beginHead, hr, if_pos (Report.waitingAlert_iff.2 hwaits), hcarried,
      State.alertReport, hkinds, listBytes]
  · obtain ⟨rfl, rfl⟩ := hbegun hwaits
    rw [← hr]
    by_cases hzero : s.reportSent = 0
    · have hnot : ¬ head.waitingAlert = true := fun h => hwaits ⟨hzero, Report.waitingAlert_iff.1 h⟩
      simp only [State.headBegun, if_pos hzero, State.beginHead, hr, if_neg hnot]
      rw [← hr]
    · exact if_neg hzero

/-! ## Taking a byte (R170) -/

section
variable {s : State} {r head : Report} {rs : List Report} {alerts : Vector AlertState 6}

theorem State.takeReportByte_more (hr : s.reports = r :: rs) (h : s.beganAs r head alerts)
    (hmore : s.reportSent + 1 < (reportBytes s.unitId head).length) :
    s.takeReportByte =
      { s with
        reports := head :: rs, alerts := alerts, reportSent := s.reportSent + 1
        returnData := (reportBytes s.unitId head)[s.reportSent]? } := by
  rw [State.takeReportByte_cons (by simp [hr]), State.headBegun_eq hr h]
  exact if_neg (not_le.2 hmore)

theorem State.takeReportByte_last (hr : s.reports = r :: rs) (h : s.beganAs r head alerts)
    (hlast : (reportBytes s.unitId head).length = s.reportSent + 1) :
    s.takeReportByte =
      { s with
        alerts := alerts, reportSent := 0, owed := false
        reports := rs ++ (if s.owed then [{ kind := .alert, body := none }] else [])
        returnData := (reportBytes s.unitId head)[s.reportSent]? } := by
  rw [State.takeReportByte_cons (by simp [hr]), State.headBegun_eq hr h]
  refine (if_pos hlast.le).trans ?_
  cases howed : s.owed <;>
    simp [State.completeReport, State.byteHanded, State.headBytes, State.enqueue, Report.alertWaiting]

/-- One byte is due exactly when the head has begun and has one byte left. -/
theorem State.lastByteDue_iff (hr : s.reports = r :: rs) (h : s.beganAs r head alerts) :
    s.lastByteDue = true ↔ (reportBytes s.unitId head).length = s.reportSent + 1 := by
  have hbytes : s.headBytes = reportBytes s.unitId r := by simp only [State.headBytes, hr]
  rw [State.lastByteDue, Bool.and_eq_true, decide_eq_true_eq, beq_iff_eq, hbytes]
  rcases Nat.eq_zero_or_pos s.reportSent with hzero | hpos
  · have := reportBytes_length s.unitId head
    omega
  · obtain ⟨rfl, -⟩ := h.2 (by omega)
    simp [hpos]

end

/-! ## The CRC (R162) -/

theorem crcByte_eq_foldl (r : BitVec 16) (b : Byte) :
    crcByte r b =
      (List.range 8).foldl
        (fun (r : BitVec 16) _ => if r.getLsbD 15 = true then (r <<< 1) ^^^ 0x1021 else r <<< 1)
        (r ^^^ (b.setWidth 16 <<< 8)) := by
  have hbit : ∀ x : BitVec 16, (if x.getLsbD 15 = true then (x <<< 1) ^^^ 0x1021 else x <<< 1) = crcBit x := by
    intro x
    rw [crcBit, BitVec.msb_eq_getLsbD_last]
  simp only [hbit]
  rfl

theorem crc16_concat (bs : List Byte) (b : Byte) : crc16 (bs ++ [b]) = crcByte (crc16 bs) b := by
  rw [crc16, crc16, List.foldl_append, List.foldl_cons, List.foldl_nil]

theorem crc16_check_value : crc16 [0x31, 0x32, 0x33, 0x34, 0x35, 0x36, 0x37, 0x38, 0x39] = 0x29B1 := by decide +kernel

/-- Settles O48: the byte taken from the head as it is begun, the envelope and the CRC register as the model writes
them. -/
theorem returnLineSendsTheHeadReport : Obligations.return_line_sends_the_head_report := by
  unfold Obligations.return_line_sends_the_head_report
  refine ⟨fun s hs => ⟨?withdrawn, fun hempty => ?empty, fun r rs head alerts hr hbegins hbegun =>
    ⟨fun hmore => ?more, fun hlast c hc => ?last⟩⟩, ?envelope, fun w n => ⟨bytesOf_length w n, natOf_bytesOf w n⟩, rfl,
    natOf_concat, rfl, fun bs b => ?crc, crc16_check_value⟩
  case withdrawn => rw [exec_returnByte hs, if_neg (by decide)]
  case empty =>
    have hnotDue : ¬ s.lastByteDue = true := by simp [State.lastByteDue, State.headBytes, hempty]
    rw [exec_returnByte hs, if_pos rfl, exec_reportSent hs, if_neg hnotDue]
    exact ⟨congrArg Host.Outcome.next (State.takeReportByte_nil hempty), rfl⟩
  case more =>
    have hnotDue : ¬ s.lastByteDue = true := by
      rw [State.lastByteDue_iff hr ⟨hbegins, hbegun⟩]
      omega
    rw [exec_returnByte hs, if_pos rfl, exec_reportSent hs, if_neg hnotDue]
    exact ⟨congrArg Host.Outcome.next (State.takeReportByte_more (s := { s with returnReady := true }) hr
      ⟨hbegins, hbegun⟩ hmore), rfl⟩
  case last =>
    have htaken := State.takeReportByte_last (s := { s with returnReady := true }) hr ⟨hbegins, hbegun⟩ hlast
    rcases hc with rfl | rfl
    · rw [exec_returnByte hs, if_pos rfl]
      exact congrArg Host.Outcome.next htaken
    · rw [exec_reportSent hs, if_pos ((State.lastByteDue_iff hr ⟨hbegins, hbegun⟩).2 hlast)]
      exact congrArg Host.Outcome.next htaken
  case envelope =>
    rintro unitId k body covered rfl
    cases k <;> rfl
  case crc => rw [crc16_concat, crcByte_eq_foldl]

end Sys2Proof.Machine
end

