-- ==== Sys2Proof/Proofs/Ports.lean ====
section
/-! PROOF. The screen ports, ASK-LANE, the settings messages and the reply buffer (R65, R71, R72, R102, R166, R173, R177,
R178): O25, O26, O46 and O50. -/

namespace Sys2Proof.Machine

/-! ## Updates of one lane that change nothing -/

theorem State.modLane_self {s : State} {n : Fin 4} {f : Lane → Lane} (h : f s.lanes[n] = s.lanes[n]) :
    s.modLane n f = s := by
  have hlanes : s.lanes.set n s.lanes[n] = s.lanes := by simp
  rw [State.modLane, h, hlanes]

/-! ## The screen port (R65) -/

theorem Lane.begin_of_queue {l : Lane} {c : Cell} {q : List Cell} (hfree : l.sending = none) (hq : l.queue = c :: q) :
    l.begin = { l with sending := some c, queue := q } := by
  simp only [Lane.begin, hfree, hq]

theorem Lane.begin_of_nothing {l : Lane} (h : l.sending ≠ none ∨ l.queue = []) : l.begin = l := by
  unfold Lane.begin
  split
  next hfree hq =>
    rcases h with h | h
    · exact absurd hfree h
    · rw [hq] at h
      cases h
  next => rfl

theorem Lane.complete_of_sending {l : Lane} {c : Cell} (h : l.sending = some c) :
    l.complete =
      if c.kind = .fill then { l with sending := none, fillSent := min 65535 (l.fillSent + 1) }
      else { l with sending := none, mediaSent := min 65535 (l.mediaSent + 1) } := by
  simp only [Lane.complete, h]
  cases c.kind <;> rfl

theorem Lane.complete_of_idle {l : Lane} (h : l.sending = none) : l.complete = l := by
  simp only [Lane.complete, h]

/-- Settles O25: the port begins and completes by its lane's record alone. -/
theorem screenPortSendsOldestFirst : Obligations.screen_port_sends_oldest_first := by
  unfold Obligations.screen_port_sends_oldest_first
  intro s n hs
  refine ⟨?notReady, fun c q hfree hq => ?begins, fun hnothing => ?nothing, fun c hc => ?sent, fun hfree => ?idle⟩
  case notReady => exact exec_screenPortBegin hs n false
  case begins =>
    rw [exec_screenPortBegin hs, if_pos rfl, State.modLane, Lane.begin_of_queue hfree hq]
  case nothing =>
    rw [exec_screenPortBegin hs, if_pos rfl]
    exact congrArg Host.Outcome.next (State.modLane_self (s := { s with screenReady := s.screenReady.set n true })
      (Lane.begin_of_nothing hnothing))
  case sent =>
    rw [exec_cellSent hs, State.modLane, Lane.complete_of_sending hc]
  case idle => rw [exec_cellSent hs, State.modLane_self (Lane.complete_of_idle hfree)]

/-! ## ASK-LANE (R71, R72, R133) -/

theorem State.effectiveCeiling_eq (s : State) (n : Fin 4) :
    s.effectiveCeiling n =
      if (s.lock.leases[n]).isSome then s.lock.policy.houseLimit
      else min s.lock.roomCeiling (min s.lock.policy.laneCeilings[n] s.lock.policy.houseLimit) := by
  unfold State.effectiveCeiling
  cases s.lock.leases[n] <;> rfl

theorem flagByte_eq (b : Bool) : flagByte b = bytesOf 1 (if b then 1 else 0) := by
  cases b <;> rfl

theorem askLane_badArg {lane : Nat} (h : 3 < lane) (s : State) : askLane lane s = .plain s .badArg := by
  simp only [askLane, four?_eq_none_iff.2 h]

theorem askLane_val (n : Fin 4) (s : State) :
    askLane n.val s =
      { state := s.modLane n fun l => { l with latch := false }, result := .done, fields := s.laneFields n } := by
  simp only [askLane, four?_val]

/-- Settles O26: the record is reported before the latch is cleared. -/
theorem askLaneReportsAndClearsTheLatch : Obligations.ask_lane_reports_and_clears_the_latch := by
  unfold Obligations.ask_lane_reports_and_clears_the_latch
  refine fun s hs => ⟨fun lane h => ?_, fun n => ⟨s.effectiveCeiling n, s.effectiveCeiling_eq n, rfl, ?_⟩⟩
  · rw [exec_askLane hs, State.reply, askLane_badArg h]
    rfl
  · rw [exec_askLane hs, State.reply, askLane_val]
    dsimp only
    rw [State.laneFields, flagByte_eq]
    rfl

/-! ## The settings messages (R11, R102, R166, R173) -/

theorem tariffPut_refused {b : TariffPutBody} (h : 3 < b.cls) (s : State) : tariffPut b s = none := by
  simp only [tariffPut, four?_eq_none_iff.2 h]

theorem tariffPut_val {b : TariffPutBody} {c : Fin 4} (h : b.cls = c.val) (s : State) :
    tariffPut b s = some { s with staged := s.staged.set c (tariffOf b) } := by
  simp only [tariffPut, h, four?_val]

theorem tariffOf_eq (b : TariffPutBody) :
    tariffOf b =
      { preOffset := b.preOffset, scale := min 1023 b.scale, postOffset := b.postOffset, lowCompare := b.lowCompare
        lowSet := b.lowSet, highCompare := b.highCompare, highSet := b.highSet } := by
  rw [tariffOf, clamp_zero]

theorem alertClear_refused {f : Vector Nat 6} (h : ∃ i : Fin 6, 1 < f[i]) (s : State) : alertClear f s = none :=
  if_neg fun hok => flagsOk_iff_not_exists.1 hok h

theorem alertClear_taken {f : Vector Nat 6} (h : ∀ i : Fin 6, f[i] ≤ 1) (s : State) :
    alertClear f s =
      some { s with alerts := zipEach (fun (f : Bool) a => if f then AlertState.clear else a) (flagsOf f) s.alerts } :=
  if_pos (flagsOk_iff.2 h)

/-- Settles O46: each settings message replaces its own fields once its flags and its class are in range. -/
theorem settingsMessages : Obligations.settings_messages := by
  unfold Obligations.settings_messages
  intro s hs
  refine ⟨fun b h => ?tariffRefused, fun b c h => ?tariffTaken, fun g => ?groups, fun n => ?threshold,
    fun f h => ?clearRefused, fun f h => ?clearTaken⟩
  case tariffRefused =>
    rw [exec_tariffPut hs, State.takeMsg_refused (tariffPut_refused h _)]
    rfl
  case tariffTaken =>
    rw [exec_tariffPut hs, State.takeMsg_taken (tariffPut_val h _), tariffOf_eq]
    rfl
  case groups =>
    rw [exec_groupSet hs, State.takeMsg_taken (owner := groupSet g) rfl]
    rfl
  case threshold =>
    rw [exec_feedSet hs, State.takeMsg_taken (owner := feedSet n) rfl, clamp_eq_max_min (by decide)]
    rfl
  case clearRefused =>
    rw [exec_alertClear hs, State.takeMsg_refused (alertClear_refused h _)]
    rfl
  case clearTaken =>
    rw [exec_alertClear hs, State.takeMsg_taken (alertClear_taken h _)]
    refine ⟨_, rfl, rfl, fun i => ?_⟩
    rw [zipEach_getElem, flagsOf_getElem]
    simp

/-! ## Replies (R177, R178, R185) -/

theorem bytesOf_one (n : Nat) : bytesOf 1 n = [BitVec.ofNat 8 n] := rfl

theorem byteSum_concat (bs : List Byte) (b : Byte) : byteSum (bs ++ [b]) = byteSum bs + b := by
  rw [byteSum, byteSum, List.foldl_append, List.foldl_cons, List.foldl_nil]

/-- The sum of bytes as numbers is the value of the 8-bit sum, up to multiples of 256. -/
theorem byteSum_toNat (bs : List Byte) : (byteSum bs).toNat = (bs.map BitVec.toNat).sum % 256 := by
  induction bs using List.reverseRecOn with
  | nil => rfl
  | append_singleton bs b ih =>
    rw [byteSum_concat, BitVec.toNat_add, ih, List.map_append, List.sum_append, List.map_singleton, List.sum_singleton]
    omega

theorem Reply.flagsByte_eq (q : Reply) :
    q.flagsByte = BitVec.ofNat 8 ((if q.earlierLost then 1 else 0) + (if q.restarted then 2 else 0)) := by
  unfold Reply.flagsByte
  cases q.earlierLost <;> cases q.restarted <;> rfl

/-- The bytes of a reply frame that its check byte brings to a sum of 0. -/
def Reply.summed (q : Reply) : List Byte :=
  bytesOf 1 q.kind ++ bytesOf 1 (q.fields.length + 2) ++ (q.flagsByte :: (bytesOf 1 q.result.toField ++ q.fields))

theorem Reply.toBytes_eq (q : Reply) : q.toBytes = 0xE1 :: (q.summed ++ [-(byteSum q.summed)]) := by
  have hlen : (q.flagsByte :: (bytesOf 1 q.result.toField ++ q.fields)).length = q.fields.length + 2 := by
    simp
    omega
  simp only [Reply.toBytes, Reply.summed, hlen]

theorem Reply.toBytes_sum (q : Reply) : ((q.toBytes.drop 1).map BitVec.toNat).sum % 256 = 0 := by
  rw [Reply.toBytes_eq, List.drop_one, List.tail_cons, ← byteSum_toNat, byteSum_concat, ← BitVec.sub_eq_add_neg, BitVec.sub_self]
  rfl

theorem State.replySent_idle {s : State} (h : s.sending = none) : s.replySent = s := by
  simp only [State.replySent, h]

theorem State.replySent_busy {s : State} (h : s.sending ≠ none) :
    s.replySent = { s with sending := s.waiting, waiting := none } := by
  obtain ⟨q, hq⟩ := Option.ne_none_iff_exists'.1 h
  simp only [State.replySent, hq]

/-- Settles O50: the buffer's two cases, the completion's two cases, and the frame with its check byte. -/
theorem replyBufferHoldsOneReply : Obligations.reply_buffer_holds_one_reply := by
  unfold Obligations.reply_buffer_holds_one_reply
  refine ⟨rfl, fun s k r fs q hq => ?_⟩
  have hrestarted : (s.waiting.map Reply.restarted).getD false = s.waiting.any Reply.restarted := by
    cases s.waiting <;> rfl
  refine ⟨fun hidle => ?begins, fun hbusy => ?waits, fun hs hidle => ?quiet, fun hs hbusy => ?next,
    ⟨-(byteSum q.summed), ?frame⟩, q.toBytes_sum⟩
  case begins => rw [State.placeReply_idle hidle, hrestarted, hq]
  case waits =>
    obtain ⟨p, hp⟩ := Option.ne_none_iff_exists'.1 hbusy
    rw [State.placeReply_busy hp, hrestarted, hq]
  case quiet => rw [exec_replySent hs, State.replySent_idle hidle]
  case next => rw [exec_replySent hs, State.replySent_busy hbusy]
  case frame =>
    rw [Reply.toBytes_eq, Reply.summed, Reply.flagsByte_eq, hq]
    simp [bytesOf_one]

end Sys2Proof.Machine
end

