-- ==== Sys2Proof/Proofs/Bodies.lean ====
section
/-! PROOF. The kind byte and the body of a message or a request are read back exactly as the encoding writes them (R163,
R176, R183), and each is its command. -/

namespace Sys2Proof.Machine

/-! ## A body that fits its kind -/

theorem readNat_fits (w : Nat) : Reads (readNat w) (bytesOf w) fun n => fits w n = true := by
  simpa only [fits, decide_eq_true_eq] using readNat_reads w

/-- A reader of a body with its message or request around it. -/
theorem Reads.map_iff {α β : Type} {p : List Byte → Option (α × List Byte)} {enc : α → List Byte} {ok : α → Prop}
    (h : Reads p enc ok) {f : α → β} {a : α} (bs : List Byte) (hf : ∀ x, f x = f a → x = a := by simp) :
    (whole p bs).map f = some (f a) ↔ bs = enc a ∧ ok a := by
  rw [Option.map_eq_some_iff, and_comm, ← h.whole_iff]
  constructor
  · rintro ⟨x, hx, hfx⟩
    rwa [hf x hfx] at hx
  · exact fun ha => ⟨a, ha, rfl⟩

theorem emptyBody_self_iff {α : Type} (m : α) (bs : List Byte) : emptyBody m bs = some m ↔ bs = [] ∧ true = true := by
  rw [emptyBody_iff]
  simp

/-! ## Management messages (R163, Table 11-6) -/

theorem readMgmt_kind {kind : Nat} {body : List Byte} {m : MgmtMsg} (h : readMgmt kind body = some m) :
    kind = messageKind m := by
  unfold readMgmt at h
  split at h
  case h_12 | h_14 | h_17 | h_21 =>
    obtain ⟨rfl, -⟩ := (emptyBody_iff ..).1 h
    rfl
  case h_22 => cases h
  all_goals
    obtain ⟨a, -, rfl⟩ := Option.map_eq_some_iff.1 h
    rfl

theorem readMgmt_messageKind (m : MgmtMsg) (body : List Byte) :
    readMgmt (messageKind m) body = some m ↔ body = messageBody m ∧ (messageCommand m).wf = true := by
  cases m with
  | svcPut b => exact readSvcPut_reads.map_iff body
  | svcDrop n => exact (readNat_fits 2).map_iff body
  | onAir n t =>
    refine (readOnAir_reads.map_iff (f := fun x => MgmtMsg.onAir x.1 x.2) (a := (n, t)) body ?_).trans ?_
    · simp [Prod.ext_iff]
    · simp [messageCommand, Instr.wf]
  | keyPut b => exact readKeyPut_reads.map_iff body
  | keyWipe f => exact (readNat_fits 1).map_iff body
  | titlePut b => exact readTitlePut_reads.map_iff body
  | titleDrop t => exact (readNat_fits 2).map_iff body
  | stayOpen b => exact readStayOpen_reads.map_iff body
  | stayClose n => exact (readNat_fits 2).map_iff body
  | lockSet b => exact readLockSet_reads.map_iff body
  | tariffPut b => exact readTariffPut_reads.map_iff body
  | chargePoll | statusPoll | countPoll | unitReset => exact emptyBody_self_iff _ body
  | chargeAck n => exact (readNat_fits 3).map_iff body
  | timeMark t => exact (readNat_fits 4).map_iff body
  | countSet b => exact readCountSet_reads.map_iff body
  | alertClear fs => exact (readSix_reads 1).map_iff body
  | groupSet gs => exact (readFour_reads 2).map_iff body
  | feedSet n => exact (readNat_fits 1).map_iff body

theorem readMgmt_eq_some_iff {kind : Nat} {body : List Byte} {m : MgmtMsg} :
    readMgmt kind body = some m ↔ kind = messageKind m ∧ body = messageBody m ∧ (messageCommand m).wf = true := by
  rw [← readMgmt_messageKind]
  constructor
  · intro h
    obtain rfl := readMgmt_kind h
    exact ⟨rfl, h⟩
  · rintro ⟨rfl, h⟩
    exact h

/-- A message is its command. -/
theorem exec_messageCommand {s : State} (hs : s.held = false) (m : MgmtMsg) :
    exec (messageCommand m) s = .next (s.dispatchMsg m) := by
  cases m <;> exact congrArg Host.Outcome.next (State.running_of_not_held hs)

/-! ## Panel requests (R176, Table 11-1) -/

theorem readPanel_kind {kind : Nat} {body : List Byte} {q : PanelReq} (h : readPanel kind body = some q) :
    kind = requestKind q := by
  unfold readPanel at h
  split at h
  case h_8 | h_9 =>
    obtain ⟨rfl, -⟩ := (emptyBody_iff ..).1 h
    rfl
  case h_12 => cases h
  all_goals
    obtain ⟨a, -, rfl⟩ := Option.map_eq_some_iff.1 h
    rfl

theorem readPanel_requestKind (q : PanelReq) (body : List Byte) :
    readPanel (requestKind q) body = some q ↔ body = requestBody q ∧ (requestCommand q).wf = true := by
  cases q with
  | pick lane service =>
    refine (readPick_reads.map_iff (f := fun x => PanelReq.pick x.1 x.2) (a := (lane, service)) body ?_).trans ?_
    · simp [Prod.ext_iff]
    · simp [requestCommand, Instr.wf]
  | buy lane title pin =>
    refine (readBuy_reads.map_iff (f := fun x => PanelReq.buy x.1 x.2.1 x.2.2) (a := (lane, title, pin)) body ?_).trans ?_
    · simp [Prod.ext_iff]
    · simp [requestCommand, Instr.wf, and_assoc]
  | refund title => exact (readNat_fits 2).map_iff body
  | unlock lane pin =>
    refine (readUnlock_reads.map_iff (f := fun x => PanelReq.unlock x.1 x.2) (a := (lane, pin)) body ?_).trans ?_
    · simp [Prod.ext_iff]
    · simp [requestCommand, Instr.wf]
  | relock lane => exact (readNat_fits 1).map_iff body
  | askLane lane => exact (readNat_fits 1).map_iff body
  | askTitle title => exact (readNat_fits 2).map_iff body
  | askRoom | attnRead => exact emptyBody_self_iff _ body
  | attnAck code => exact (readNat_fits 1).map_iff body
  | attnFloor n => exact (readNat_fits 1).map_iff body

theorem readPanel_eq_some_iff {kind : Nat} {body : List Byte} {q : PanelReq} :
    readPanel kind body = some q ↔ kind = requestKind q ∧ body = requestBody q ∧ (requestCommand q).wf = true := by
  rw [← readPanel_requestKind]
  constructor
  · intro h
    obtain rfl := readPanel_kind h
    exact ⟨rfl, h⟩
  · rintro ⟨rfl, h⟩
    exact h

/-- A request is its command. -/
theorem exec_requestCommand {s : State} (hs : s.held = false) (q : PanelReq) :
    exec (requestCommand q) s = .next (s.request q) := by
  cases q <;> exact congrArg Host.Outcome.next (State.running_of_not_held hs)

end Sys2Proof.Machine
end

