-- ==== Sys2Proof/Proofs/Envelopes.lean ====
section
/-! PROOF. Panel frames and management cells (R163, R164, R176): the tests in their order, with O13, O14 and O49. -/

namespace Sys2Proof.Machine

/-! ## A panel frame (R176) -/

theorem Frame.whole_iff {f : Frame} :
    f.whole = true ↔ 3 ≤ f.bytes.length ∧ f.bytes.length = 3 + (f.bytes.getD 1 0).toNat := by
  simp only [Frame.whole, Bool.and_eq_true, decide_eq_true_eq, beq_iff_eq]

theorem byteSum_eq_zero_iff {bs : List Byte} : byteSum bs = 0 ↔ (bs.map BitVec.toNat).sum % 256 = 0 := by
  rw [← byteSum_toNat]
  exact ⟨fun h => by rw [h]; rfl, fun h => BitVec.eq_of_toNat_eq h⟩

/-- A frame is bad by a character error or by its sum; otherwise it is what its kind and body spell. -/
theorem Frame.request?_eq (f : Frame) :
    f.request? =
      if f.charError = true ∨ (f.bytes.map BitVec.toNat).sum % 256 ≠ 0 then none
      else readPanel (f.bytes.getD 0 0).toNat ((f.bytes.drop 2).take (f.bytes.getD 1 0).toNat) := by
  refine if_congr ?_ rfl rfl
  rw [Bool.or_eq_true, bne_iff_ne, ne_eq, byteSum_eq_zero_iff]

/-- A byte inside a frame leaves the frame waiting for more, or ends it. -/
theorem State.panelByte_inside {s : State} {f : Frame} (h : s.frame = some f) (b : Byte) (err : Bool) :
    s.panelByte b err =
      if ({ f with bytes := f.bytes ++ [b], charError := f.charError || err } : Frame).whole then
        s.finishFrame { f with bytes := f.bytes ++ [b], charError := f.charError || err }
      else { s with frame := some { f with bytes := f.bytes ++ [b], charError := f.charError || err } } := by
  simp only [State.panelByte, h]

theorem State.finishFrame_bad {s : State} {f : Frame} (h : f.request? = none) :
    s.finishFrame f = { s with frame := none }.placeReply 0 .badFrame [] := by
  simp only [State.finishFrame, h]

theorem State.finishFrame_good {s : State} {f : Frame} {q : PanelReq} (h : f.request? = some q) :
    s.finishFrame f = { s with frame := none }.request q := by
  simp only [State.finishFrame, h]

/-- Settles O49: the readers of the bodies, and a frame's byte by whether the frame is whole and good. -/
theorem panelFramesAreRequests : Obligations.panel_frames_are_requests := by
  unfold Obligations.panel_frames_are_requests
  refine ⟨fun kind body q => readPanel_eq_some_iff, fun s b err hs => ?_⟩
  rw [exec_panelByte hs]
  refine ⟨fun hnone hstart herr => ?begins, fun hnone hnot => ?ignored, fun f bytes hf hbytes => ?_⟩
  case begins => simp only [State.panelByte, hnone, hstart, herr, and_self, if_true]
  case ignored =>
    have hstart : ¬ (b = 0xE1 ∧ err = false) := by
      rintro ⟨hb, he⟩
      rcases hnot with hnot | hnot
      · exact hnot hb
      · rw [he] at hnot
        cases hnot
    simp only [State.panelByte, hnone, if_neg hstart]
  rw [State.panelByte_inside hf, ← hbytes]
  refine ⟨fun hmore => ?kept, fun hlen hwhole => ⟨fun hbad => ?bad, fun q hclean herr hsum hq => ?good⟩⟩
  case kept =>
    refine congrArg Host.Outcome.next (if_neg fun h => ?_)
    obtain ⟨hlong, hlen⟩ := Frame.whole_iff.1 h
    rcases hmore with hmore | hmore
    · exact absurd hlong (not_le.2 hmore)
    · exact hmore hlen
  case bad =>
    rw [if_pos (Frame.whole_iff.2 ⟨hlen, hwhole⟩), State.finishFrame_bad]
    rw [Frame.request?_eq]
    split
    next => rfl
    next hclean =>
      obtain ⟨herror, hsum⟩ := not_or.1 hclean
      rw [Bool.or_eq_true, not_or] at herror
      rcases hbad with hbad | hbad | hbad | hbad
      · exact absurd hbad herror.1
      · exact absurd hbad herror.2
      · exact absurd hbad hsum
      · exact hbad
  case good =>
    rw [if_pos (Frame.whole_iff.2 ⟨hlen, hwhole⟩), State.finishFrame_good (q := q)]
    · exact (exec_requestCommand (s := { s with frame := none }) hs q).symm
    · rw [Frame.request?_eq, if_neg]
      · exact hq
      · simp [hclean, herr, hsum]

/-! ## A management cell (R163, R164) -/

/-- The destination value of the envelope. -/
def destinationValue (payload : List Byte) : Nat := natOf ((payload.drop 1).take 4)

/-- The message is addressed to this unit, to one of its groups or to every unit. -/
def State.reachedBy (s : State) (payload : List Byte) : Prop :=
  (payload.getD 0 0 = 0 ∧ destinationValue payload = s.unitId) ∨
    (payload.getD 0 0 = 1 ∧ destinationValue payload ≠ 0 ∧ ∃ i : Fin 4, s.groups[i] = destinationValue payload) ∨
    payload.getD 0 0 = 2

/-- The message is for another unit or for a group this unit is not in. -/
def State.passedBy (s : State) (payload : List Byte) : Prop :=
  (payload.getD 0 0 = 0 ∧ destinationValue payload ≠ s.unitId) ∨
    (payload.getD 0 0 = 1 ∧ (destinationValue payload = 0 ∨ ∀ i : Fin 4, s.groups[i] ≠ destinationValue payload))

theorem State.addressed_group_iff {s : State} {v : Nat} :
    s.addressed (.group v) = true ↔ v ≠ 0 ∧ ∃ i : Fin 4, s.groups[i] = v := by
  simp only [State.addressed, Bool.and_eq_true, bne_iff_ne, List.contains_iff_mem, Vector.mem_toList_iff_exists_fin]

section
variable {s : State} {payload : List Byte}

theorem State.destination_of_reachedBy (h : s.reachedBy payload) :
    ∃ d, Destination.ofFields (payload.getD 0 0).toNat (destinationValue payload) = some d ∧
      s.addressed d = true := by
  rcases h with ⟨hform, hunit⟩ | ⟨hform, hgroup⟩ | hform <;> rw [hform]
  · exact ⟨_, rfl, by simp [State.addressed, hunit]⟩
  · exact ⟨_, rfl, State.addressed_group_iff.2 hgroup⟩
  · exact ⟨_, rfl, rfl⟩

theorem State.destination_of_passedBy (h : s.passedBy payload) :
    ∃ d, Destination.ofFields (payload.getD 0 0).toNat (destinationValue payload) = some d ∧
      ¬ s.addressed d = true := by
  rcases h with ⟨hform, hunit⟩ | ⟨hform, hgroup⟩ <;> rw [hform]
  · exact ⟨_, rfl, by simp [State.addressed, hunit]⟩
  · refine ⟨_, rfl, fun h => ?_⟩
    obtain ⟨hzero, i, hi⟩ := State.addressed_group_iff.1 h
    rcases hgroup with hgroup | hgroup
    · exact hzero hgroup
    · exact hgroup i hi

theorem Destination.ofFields_eq_none {form : Nat} (h : 2 < form) (v : Nat) : Destination.ofFields form v = none := by
  rcases form with _ | _ | _ | form
  · omega
  · omega
  · omega
  · rfl

/-- The CRC over the envelope is right. -/
def crcRight (payload : List Byte) : Prop := (crc16 (payload.take 88)).toNat = natOf ((payload.drop 88).take 2)

theorem not_not_crcWrong (h : crcRight payload) :
    ¬ (crc16 (payload.take 88)).toNat ≠ natOf ((payload.drop 88).take 2) :=
  not_not.2 h

/-- The message the envelope's kind and body spell. -/
def envelopeMessage? (payload : List Byte) : Option MgmtMsg :=
  readMgmt (payload.getD 5 0).toNat ((payload.drop 7).take (payload.getD 6 0).toNat)

theorem State.managementCell_crcBad (h : ¬ crcRight payload) : s.managementCell payload = s.countCrcBad := if_pos h

theorem State.managementCell_badForm (hcrc : crcRight payload) (hform : 2 < (payload.getD 0 0).toNat) :
    s.managementCell payload = s.countMalformed := by
  rw [State.managementCell, if_neg (not_not_crcWrong hcrc), Destination.ofFields_eq_none hform]

theorem State.managementCell_passed (hcrc : crcRight payload) (h : s.passedBy payload) :
    s.managementCell payload = s := by
  obtain ⟨d, hd, hother⟩ := State.destination_of_passedBy h
  rw [destinationValue] at hd
  rw [State.managementCell, if_neg (not_not_crcWrong hcrc), hd]
  exact if_neg hother

/-- Past its addressing a message is unfit or is handed to its owner. -/
theorem State.managementCell_reached (hcrc : crcRight payload) (h : s.reachedBy payload) :
    s.managementCell payload =
      if 81 < (payload.getD 6 0).toNat then s.countMalformed
      else ((envelopeMessage? payload).map s.dispatchMsg).getD s.countMalformed := by
  obtain ⟨d, hd, hours⟩ := State.destination_of_reachedBy h
  rw [destinationValue] at hd
  rw [State.managementCell, if_neg (not_not_crcWrong hcrc), hd]
  refine (if_pos hours).trans ?_
  dsimp only [envelopeMessage?]
  cases readMgmt (payload.getD 5 0).toNat ((payload.drop 7).take (payload.getD 6 0).toNat) <;> rfl

theorem State.managementCell_unfit (hcrc : crcRight payload) (h : s.reachedBy payload)
    (hunfit : 81 < (payload.getD 6 0).toNat ∨ envelopeMessage? payload = none) :
    s.managementCell payload = s.countMalformed := by
  rw [State.managementCell_reached hcrc h]
  split
  next => rfl
  next hlen =>
    rw [hunfit.resolve_left hlen]
    rfl

theorem State.managementCell_fit {m : MgmtMsg} (hcrc : crcRight payload) (h : s.reachedBy payload)
    (hlen : (payload.getD 6 0).toNat ≤ 81) (hm : envelopeMessage? payload = some m) :
    s.managementCell payload = s.dispatchMsg m := by
  rw [State.managementCell_reached hcrc h, if_neg (not_lt.2 hlen), hm]
  rfl

end

/-- The last byte of a taken cell hands the cell on. -/
theorem exec_feedByte_taken {s : State} (hs : s.held = false) (hhunt : s.framer.state ≠ .hunt)
    (hlen : s.framer.bytes.length = 95) (htaken : s.framer.handOn = true) (b : Byte) :
    exec (.feedByte b) s = .next (s.cellDone.wholeCell (s.framer.bytes ++ [b])) := by
  rw [exec_feedByte hs, State.feedByte_of_not_hunt hhunt, State.assembleByte_taken b (by omega) htaken]

theorem exec_feedByte_management {s : State} (hs : s.held = false) (hhunt : s.framer.state ≠ .hunt)
    (hlen : s.framer.bytes.length = 95) (htaken : s.framer.handOn = true) {b : Byte} {c : Cell}
    (hc : Cell.ofBytes (s.framer.bytes ++ [b]) = some c) (hkind : c.kind = .management) :
    exec (.feedByte b) s = .next (s.cellDone.managementCell c.payload) := by
  rw [exec_feedByte_taken hs hhunt hlen htaken, State.wholeCell_management hc hkind]

/-- Settles O13: past the tests a message is dispatched, and dispatch is the message's command. -/
theorem managementCellIsItsCommand : Obligations.management_cell_is_its_command := by
  unfold Obligations.management_cell_is_its_command
  refine ⟨fun kind body m => readMgmt_eq_some_iff, fun s b c m hs hhunt hlen htaken hc hkind hcrc hdest hlength hm => ?_⟩
  rw [exec_feedByte_management hs hhunt hlen htaken hc hkind,
    State.managementCell_fit (s := s.cellDone) hcrc hdest hlength hm]
  exact (exec_messageCommand (s := s.cellDone) hs m).symm

/-- Settles O14: the first failing test decides. -/
theorem managementCellTurnedAway : Obligations.management_cell_turned_away := by
  unfold Obligations.management_cell_turned_away
  intro s b c hs hhunt hlen htaken hc hkind
  rw [exec_feedByte_management hs hhunt hlen htaken hc hkind]
  refine ⟨fun hcrc => ?crc, fun hcrc hform => ?form, fun hcrc hothers => ?others, fun hcrc hours hunfit => ?unfit⟩
  case crc => exact congrArg Host.Outcome.next (State.managementCell_crcBad hcrc)
  case form => exact congrArg Host.Outcome.next (State.managementCell_badForm hcrc hform)
  case others => exact congrArg Host.Outcome.next (State.managementCell_passed (s := s.cellDone) hcrc hothers)
  case unfit => exact congrArg Host.Outcome.next (State.managementCell_unfit (s := s.cellDone) hcrc hours hunfit)

end Sys2Proof.Machine
end

