-- ==== Sys2Proof/Proofs/CellPath.lean ====
section
/-! PROOF. The way of a media cell (R13 to R15, R20, R31, R42 to R50, R62 to R67, R70): the cell's bytes, the parity step,
the keystream, a hit, and the cell offered lane by lane or missed for want of a key, with O12 and O15 to O19. -/

namespace Sys2Proof.Machine

/-! ## The bytes of a cell (R184) -/

section
variable {c : Cell}

theorem CellKind.toField_le (k : CellKind) : k.toField ≤ 2 := CellKind.exists_toField_eq_iff.1 ⟨k, rfl⟩

theorem Mark.toField_le (m : Mark) : m.toField ≤ 2 := Mark.exists_toField_eq_iff.1 ⟨m, rfl⟩

theorem Cell.toBytes_kindByte (hseq : c.seq < 16) :
    (c.toBytes.getD 2 0).toNat = 64 * c.kind.toField + 16 * c.mark.toField + c.seq := by
  have hkind := c.kind.toField_le
  have hmark := c.mark.toField_le
  change (BitVec.ofNat 8 (c.kind.toField * 64 + c.mark.toField * 16 + c.seq)).toNat = _
  rw [BitVec.toNat_ofNat]
  omega

theorem Cell.toBytes_tagByte (htag : c.tag < 4096) : (c.toBytes.getD 3 0).toNat = c.tag / 16 := by
  change (BitVec.ofNat 8 (c.tag / 16)).toNat = _
  rw [BitVec.toNat_ofNat]
  omega

theorem Cell.toBytes_carryByte (hcarry : c.carry < 16) :
    (c.toBytes.getD 4 0).toNat = 16 * (c.tag % 16) + c.carry := by
  change (BitVec.ofNat 8 (c.tag % 16 * 16 + c.carry)).toNat = _
  rw [BitVec.toNat_ofNat]
  omega

theorem Cell.ofBytes_toBytes (hseq : c.seq < 16) (htag : c.tag < 4096) (hcarry : c.carry < 16)
    (hclear : c.kind = .management → c.mark = .clear) : Cell.ofBytes c.toBytes = some c := by
  have hkind := c.kind.toField_le
  have hmark := c.mark.toField_le
  rw [Cell.ofBytes_eq_some_iff, Cell.toBytes_kindByte hseq, Cell.toBytes_tagByte htag, Cell.toBytes_carryByte hcarry]
  exact ⟨rfl, by omega, by omega, hclear, by omega, by omega, by omega, rfl⟩

end

/-- Settles O12: the header's fields do not overlap in their bytes, so each reads back. -/
theorem cellBytesRoundTrip : Obligations.cell_bytes_round_trip := by
  unfold Obligations.cell_bytes_round_trip
  refine ⟨fun c hseq htag hcarry hlen hclear => ⟨?length, rfl, Cell.ofBytes_toBytes hseq htag hcarry hclear, ?kindByte,
    Cell.toBytes_tagByte htag, Cell.toBytes_carryByte hcarry, rfl, rfl⟩, fun bs c h => ?read⟩
  case length => simp [Cell.toBytes, hlen]
  case kindByte =>
    rw [Cell.toBytes_kindByte hseq]
    cases c.kind <;> rcases c.mark with _ | _ | _ <;> rfl
  case read =>
    obtain ⟨-, hkind, hmark, -, hseq, htag, hcarry, hpayload⟩ := Cell.ofBytes_eq_some_iff.1 h
    refine ⟨?_, ?_, hseq, by omega, hcarry, hpayload⟩
    · rw [← hkind]
      cases c.kind <;> rfl
    · rw [← hmark]
      rcases c.mark with _ | _ | _ <;> rfl

/-! ## The parity step (R43, R44) -/

theorem KeyFamily.parityStep_first {f : KeyFamily} (h : f.parity = none) (p : Parity) :
    f.parityStep p = { f with parity := some p } := by
  simp only [KeyFamily.parityStep, h]

theorem KeyFamily.parityStep_same {f : KeyFamily} {p : Parity} (h : f.parity = some p) : f.parityStep p = f := by
  simp only [KeyFamily.parityStep, h, if_true]

theorem KeyFamily.parityStep_turn {f : KeyFamily} {p q : Parity} (h : f.parity = some q) (hne : q ≠ p) :
    f.parityStep p = { f.setSlot q (f.slot q).promote with parity := some p } := by
  simp only [KeyFamily.parityStep, h, if_neg hne]

/-- The parity field is no part of a slot. -/
theorem KeyFamily.slot_withParity (f : KeyFamily) (p : Option Parity) (q : Parity) :
    { f with parity := p }.slot q = f.slot q := by
  cases q <;> rfl

theorem KeySlot.promote_of_some {k : KeySlot} {key : Key} (h : k.staged = some key) :
    k.promote = { live := some key, staged := none } := by
  simp only [KeySlot.promote, h]

theorem KeySlot.promote_of_none {k : KeySlot} (h : k.staged = none) : k.promote = k := by
  simp only [KeySlot.promote, h]

@[simp] theorem KeyFamily.parityStep_keyMisses (f : KeyFamily) (p : Parity) :
    (f.parityStep p).keyMisses = f.keyMisses := by
  unfold KeyFamily.parityStep
  split
  next => rfl
  next =>
    split
    next => rfl
    next => exact f.setSlot_keyMisses _ _

/-- Settles O18: a turn writes the slot just left and the parity, nothing else. -/
theorem parityStepPromotesAtATurn : Obligations.parity_step_promotes_at_a_turn := by
  unfold Obligations.parity_step_promotes_at_a_turn
  refine fun f p => ⟨fun h => KeyFamily.parityStep_first h p, KeyFamily.parityStep_same, fun q hq hne => ?_⟩
  rw [KeyFamily.parityStep_turn hq hne]
  have hleft : (f.setSlot q (f.slot q).promote).slot q = (f.slot q).promote := by
    rw [KeyFamily.slot_setSlot, if_pos rfl]
  refine ⟨rfl, f.setSlot_keyMisses _ _, ?_, fun k hk => ?_, fun hk => ?_⟩
  · rw [KeyFamily.slot_withParity, KeyFamily.slot_setSlot, if_neg hne.symm]
  · rw [KeyFamily.slot_withParity, hleft, KeySlot.promote_of_some hk]
  · rw [KeyFamily.slot_withParity, hleft, KeySlot.promote_of_none hk]

/-! ## The keystream (R46, R47) -/

theorem decipher_length (k : Key) (seq : Nat) (bs : List Byte) (j : Nat) :
    (decipher k seq j bs).length = bs.length := by
  induction bs generalizing j with
  | nil => rfl
  | cons b bs ih => simp only [decipher, List.length_cons, ih]

theorem decipher_getElem? (k : Key) (seq : Nat) (bs : List Byte) (j i : Nat) :
    (decipher k seq j bs)[i]? = bs[i]?.map (· ^^^ keystreamByte k seq (j + i)) := by
  induction bs generalizing i j with
  | nil => simp [decipher]
  | cons b bs ih =>
    cases i with
    | zero => simp [decipher]
    | succ i =>
      simp only [decipher, List.getElem?_cons_succ, ih]
      rw [Nat.add_right_comm, Nat.add_assoc]

/-- The reduction modulo 256 is the byte's own. -/
theorem byte_ofNat_mod (x : Nat) : (BitVec.ofNat 8 (x % 256) : Byte) = BitVec.ofNat 8 x := by
  apply BitVec.eq_of_toNat_eq
  simp only [BitVec.toNat_ofNat]
  omega

/-- Settles O19: the keystream index advances with the byte. -/
theorem decipheringFollowsTheKeystream : Obligations.deciphering_follows_the_keystream := by
  unfold Obligations.deciphering_follows_the_keystream
  refine fun k seq payload => ⟨decipher_length k seq payload 0, fun j h => ?_⟩
  rw [decipher_getElem?, List.getElem?_eq_getElem h, Option.map_some, Nat.zero_add, byte_ofNat_mod]
  rfl

/-! ## A media cell at the service map (R13, R14, R20, R21, R31) -/

theorem Component.arrive_eq (k : Component) (seq : Nat) :
    k.arrive seq =
      { k with
        expect := some ((seq + 1) % 16)
        discs := if k.expect = none ∨ k.expect = some seq then k.discs else min 65535 (k.discs + 1) } := by
  unfold Component.arrive
  cases hk : k.expect with
  | none => simp
  | some x => simp [satAdd]

theorem State.cellDone_noteArrival (s : State) (e : DirEntry) (c : Cell) :
    s.cellDone.noteArrival e.service c.tag c.seq = s.hit e c := by
  simp only [State.noteArrival, Component.arrive_eq]
  rfl

section
variable {s : State} {c : Cell}

theorem State.mediaCell_miss (h : s.lookup? c.tag = none) :
    s.mediaCell c = { s with framer.tagMiss := satAdd s.framer.tagMiss 1 } := by
  simp only [State.mediaCell, h]

theorem State.mediaCell_clear {e : DirEntry} (h : s.lookup? c.tag = some e) (hmark : c.mark = .clear) :
    s.mediaCell c = (s.noteArrival e.service c.tag c.seq).offerCell e.service e.role c := by
  simp only [State.mediaCell, h, hmark]

theorem State.mediaCell_scrambled {e : DirEntry} {p : Parity} (h : s.lookup? c.tag = some e)
    (hmark : c.mark = .scrambled p) :
    s.mediaCell c = (s.noteArrival e.service c.tag c.seq).scrambledCell e c p := by
  simp only [State.mediaCell, h, hmark]

theorem State.lookup?_eq_none {tag : Nat} (h : ∀ e ∈ s.directory[foldBank tag], e.tag ≠ tag) : s.lookup? tag = none := by
  rw [State.lookup?, List.find?_eq_none]
  simpa using h

end

theorem exec_feedByte_media {s : State} (hs : s.held = false) (hhunt : s.framer.state ≠ .hunt)
    (hlen : s.framer.bytes.length = 95) (htaken : s.framer.handOn = true) {b : Byte} {c : Cell}
    (hc : Cell.ofBytes (s.framer.bytes ++ [b]) = some c) (hkind : c.kind = .media) :
    exec (.feedByte b) s = .next (s.cellDone.mediaCell c) := by
  rw [exec_feedByte_taken hs hhunt hlen htaken, State.wholeCell_media hc hkind]

/-! ## A cell offered to one lane (R62 to R64, R67) -/

/-- The overrun a lane reports, with the service whose cell it could not hold (R64). -/
def overrunEvent (service : Nat) (n : Fin 4) : AuditEvent :=
  { kind := .overruns, lane := some n, service := some service, rating := none }

/-- The rental records, each told of a picture seen when `tells` says so. -/
def seenBy (rentals : List RentalRec) (tells : Nat → Bool) : List RentalRec :=
  rentals.map fun r => { r with seen := r.seen || tells r.title }

theorem seenBy_false {rentals : List RentalRec} {tells : Nat → Bool} (h : ∀ x, tells x = false) :
    seenBy rentals tells = rentals := by
  simp [seenBy, h]

theorem seenBy_seenBy (rentals : List RentalRec) (f g : Nat → Bool) :
    seenBy (seenBy rentals f) g = seenBy rentals fun x => f x || g x := by
  simp [seenBy, Bool.or_assoc]

theorem State.pictureSeen_eq (s : State) (x : Nat) :
    s.pictureSeen x = { s with rentals := seenBy s.rentals fun y => some x == some y } := by
  have hrec : ∀ r : RentalRec, (if r.title = x then { r with seen := true } else r) =
      { r with seen := r.seen || (some x == some r.title) } := by
    intro r
    by_cases h : r.title = x
    · simp [h]
    · simp [h, beq_eq_false_iff_ne.2 (Ne.symm h)]
  simp only [State.pictureSeen, seenBy, hrec]

section
variable {s : State} {n : Fin 4} {k : Nat} {role : Role} {c : Cell}

/-- A queued PICTURE cell sets the lane's mark and tells the record of the title in view, in PREVIEW and RENTED. -/
theorem State.notePicture_eq (s : State) (n : Fin 4) :
    s.notePicture n =
      { s.modLane n fun l => { l with mark := true } with
        rentals := seenBy s.rentals fun x =>
          (s.lanes[n].state == .preview || s.lanes[n].state == .rented) && s.lanes[n].title == some x } := by
  unfold State.notePicture
  dsimp only
  split
  next hst ht => simp only [hst, ht, State.pictureSeen_eq]; rfl
  next hst ht => simp only [hst, ht, State.pictureSeen_eq]; rfl
  next hpreview hrented =>
    rw [seenBy_false (tells := fun x => (s.lanes[n].state == .preview || s.lanes[n].state == .rented) &&
      s.lanes[n].title == some x)]
    · rfl
    intro x
    cases hst : s.lanes[n].state with
    | preview =>
      cases ht : s.lanes[n].title with
      | none => rfl
      | some y => exact absurd ht (hpreview y hst)
    | rented =>
      cases ht : s.lanes[n].title with
      | none => rfl
      | some y => exact absurd ht (hrented y hst)
    | clear | offer | locked | idle | absent => rfl

theorem State.queueCell_room (h : s.lanes[n].queue.length < 8) :
    s.queueCell n k c = s.modLane n fun l => { l with queue := l.queue ++ [c] } :=
  if_pos h

theorem State.queueCell_full (h : ¬ s.lanes[n].queue.length < 8) :
    s.queueCell n k c =
      (s.modLane n fun l => { l with overruns := satAdd l.overruns 1, latch := true }).audit (overrunEvent k n) :=
  if_neg h

/-- What one lane that selects the service makes of a cell offered to it: its own record, the picture-seen mark and
the overrun. -/
def State.laneOffered (s : State) (k : Nat) (role : Role) (c : Cell) (n : Fin 4) : State :=
  { s with
    lanes := s.lanes.set n (s.lanes[n].offered role c)
    rentals := seenBy s.rentals fun x => s.tellsPicture k role x n
    counters := (s.auditAll (([n].filter (s.overruns k)).map (overrunEvent k))).counters }

theorem State.laneOffered_of_quiet (htells : ∀ x, s.tellsPicture k role x n = false)
    (hoverrun : s.overruns k n = false) :
    s.laneOffered k role c n = s.modLane n fun l => l.offered role c := by
  simp [State.laneOffered, seenBy_false htells, hoverrun, State.auditAll, State.modLane]

theorem State.laneOffered_of_overrun (hsel : s.lanes[n].service = some k) (hidle : s.lanes[n].state ≠ .idle)
    (habsent : s.lanes[n].state ≠ .absent) (hfull : ¬ s.lanes[n].queue.length < 8) :
    s.laneOffered k role c n =
      (s.modLane n fun l => { l with overruns := satAdd l.overruns 1, latch := true }).audit (overrunEvent k n) := by
  have htells : ∀ x, s.tellsPicture k role x n = false := by
    intro x
    rw [State.tellsPicture, decide_eq_false hfull]
    simp
  have hoverrun : s.overruns k n = true := by
    rw [State.overruns, hsel, decide_eq_true (not_lt.1 hfull), bne_iff_ne.2 hidle, bne_iff_ne.2 habsent]
    simp
  have hlane : s.lanes[n].offered role c =
      { s.lanes[n] with overruns := satAdd s.lanes[n].overruns 1, latch := true } := by
    unfold Lane.offered
    split
    next h => exact absurd h hidle
    next h => exact absurd h habsent
    all_goals exact if_neg hfull
  simp only [State.laneOffered, seenBy_false htells, hlane, List.filter_cons_of_pos hoverrun]
  rfl

/-- In IDLE and ABSENT a lane takes nothing. -/
theorem State.laneOffered_of_dark (h : s.lanes[n].state = .idle ∨ s.lanes[n].state = .absent) :
    s.laneOffered k role c n = s := by
  rw [State.laneOffered_of_quiet]
  · refine State.modLane_self ?_
    rcases h with h | h <;> simp only [Lane.offered, h]
  · intro x
    rcases h with h | h <;> rw [State.tellsPicture, h] <;> simp
  · rcases h with h | h <;> rw [State.overruns, h] <;> simp

/-- In OFFER and LOCKED a lane with room queues the fill cell that stands for the media cell. -/
theorem State.laneOffered_of_covered (h : s.lanes[n].state = .offer ∨ s.lanes[n].state = .locked)
    (hroom : s.lanes[n].queue.length < 8) :
    s.laneOffered k role c n = s.queueCell n k c.fillFor := by
  rw [State.laneOffered_of_quiet, State.queueCell_room hroom]
  · simp only [State.modLane]
    congr 2
    rcases h with h | h <;> simp only [Lane.offered, h] <;> exact if_pos hroom
  · intro x
    rcases h with h | h <;> rw [State.tellsPicture, h] <;> simp
  · rw [State.overruns, decide_eq_false (not_le.2 hroom)]
    simp

/-- In a viewing state a lane with room queues the media cell, and a PICTURE cell marks the lane. -/
theorem State.laneOffered_of_viewing (hsel : s.lanes[n].service = some k) (h : s.lanes[n].state.viewing = true)
    (hroom : s.lanes[n].queue.length < 8) :
    s.laneOffered k role c n =
      if role = .picture then (s.queueCell n k c).notePicture n else s.queueCell n k c := by
  have hoverrun : s.overruns k n = false := by
    rw [State.overruns, decide_eq_false (not_le.2 hroom)]
    simp
  have hlane : s.lanes[n].offered role c =
      { s.lanes[n] with queue := s.lanes[n].queue ++ [c], mark := s.lanes[n].mark || role == .picture } := by
    unfold Lane.offered
    split
    next hst => rw [hst] at h; cases h
    next hst => rw [hst] at h; cases h
    next hst => rw [hst] at h; cases h
    next hst => rw [hst] at h; cases h
    all_goals exact if_pos hroom
  rw [State.queueCell_room hroom]
  split
  next hrole =>
    have htells : ∀ x, s.tellsPicture k role x n =
        ((s.lanes[n].state == .preview || s.lanes[n].state == .rented) && s.lanes[n].title == some x) := by
      intro x
      rw [State.tellsPicture, hsel, hrole, decide_eq_true hroom]
      simp
    have hmarked : (s.lanes[n].mark || role == .picture) = true := by simp [hrole]
    have hset : (s.lanes.set n { s.lanes[n] with queue := s.lanes[n].queue ++ [c] }).set n
        { s.lanes[n] with queue := s.lanes[n].queue ++ [c], mark := true } =
        s.lanes.set n { s.lanes[n] with queue := s.lanes[n].queue ++ [c], mark := true } := by simp
    rw [State.notePicture_eq, State.modLane, State.modLane_same, State.laneOffered, hlane, hmarked, funext htells,
      List.filter_cons_of_neg (p := s.overruns k) (ne_true_of_eq_false hoverrun), State.modLane, hset]
    rfl
  next hrole =>
    rw [State.laneOffered_of_quiet _ hoverrun]
    · rw [State.modLane, State.modLane, hlane, beq_eq_false_iff_ne.2 hrole, Bool.or_false]
    · intro x
      rw [State.tellsPicture, beq_eq_false_iff_ne.2 hrole]
      simp

/-- Table 4-4, as one update. -/
theorem State.offerLane_eq (hsel : s.lanes[n].service = some k) :
    s.offerLane k role c n = s.laneOffered k role c n := by
  have hviewing : s.lanes[n].state.viewing = true →
      (if s.lanes[n].queue.length < 8 ∧ role = .picture then (s.queueCell n k c).notePicture n
        else s.queueCell n k c) = s.laneOffered k role c n := by
    intro h
    by_cases hroom : s.lanes[n].queue.length < 8
    · rw [State.laneOffered_of_viewing hsel h hroom]
      exact if_congr (and_iff_right hroom) rfl rfl
    · rw [if_neg fun hboth => hroom hboth.1, State.queueCell_full hroom, State.laneOffered_of_overrun hsel _ _ hroom]
      all_goals
        intro hst
        rw [hst] at h
        cases h
  have hcovered : s.lanes[n].state = .offer ∨ s.lanes[n].state = .locked →
      s.queueCell n k c.fillFor = s.laneOffered k role c n := by
    intro h
    by_cases hroom : s.lanes[n].queue.length < 8
    · exact (State.laneOffered_of_covered h hroom).symm
    · rw [State.queueCell_full hroom, State.laneOffered_of_overrun hsel _ _ hroom]
      all_goals
        intro hst
        rw [hst] at h
        simp at h
  unfold State.offerLane
  split
  next h => exact hviewing (by rw [h]; rfl)
  next h => exact hviewing (by rw [h]; rfl)
  next h => exact hviewing (by rw [h]; rfl)
  next h => exact hcovered (.inl h)
  next h => exact hcovered (.inr h)
  next h => exact (State.laneOffered_of_dark (.inl h)).symm
  next h => exact (State.laneOffered_of_dark (.inr h)).symm

end

/-! ## Work done lane by lane -/

section
variable {f : State → Fin 4 → State} {ls : List (Fin 4)} (hls : ls.Nodup)
include hls

/-- Each lane's turn writes that lane's record alone. -/
theorem foldl_lane {g : Lane → Lane}
    (hlane : ∀ s n m, (f s n).lanes[m] = if m = n then g s.lanes[n] else s.lanes[m]) (u : State) (m : Fin 4) :
    (ls.foldl f u).lanes[m] = if m ∈ ls then g u.lanes[m] else u.lanes[m] := by
  induction ls generalizing u with
  | nil => rfl
  | cons n ls ih =>
    obtain ⟨hnot, hnodup⟩ := List.nodup_cons.1 hls
    rw [List.foldl_cons, ih hnodup, hlane]
    by_cases hmn : m = n
    · subst hmn
      rw [if_neg hnot, if_pos rfl, if_pos List.mem_cons_self]
    · rw [if_neg hmn]
      exact if_congr (by simp [hmn]) rfl rfl

/-- Each lane's turn reports events that no other lane's turn changes. -/
theorem foldl_counters {events : State → Fin 4 → List AuditEvent}
    (hcounters : ∀ s n, (f s n).counters = (s.auditAll (events s n)).counters)
    (hkept : ∀ s n m, m ≠ n → events (f s n) m = events s m) (u : State) :
    (ls.foldl f u).counters = (u.auditAll (ls.flatMap (events u))).counters := by
  induction ls generalizing u with
  | nil => rfl
  | cons n ls ih =>
    obtain ⟨hnot, hnodup⟩ := List.nodup_cons.1 hls
    have hevents : ls.flatMap (events (f u n)) = ls.flatMap (events u) := by
      refine congrArg List.flatten (List.map_congr_left fun m hm => hkept u n m ?_)
      rintro rfl
      exact hnot hm
    rw [List.foldl_cons, ih hnodup, hevents, List.flatMap_cons, State.auditAll, State.auditAll, List.foldl_append]
    exact State.auditAll_counters_congr (s := u.auditAll (events u n)) (hcounters u n) _

end

/-! ## A cell offered lane by lane (R15) -/

section
variable (k : Nat) (role : Role) (c : Cell)

theorem State.laneOffered_lane (s : State) (n m : Fin 4) :
    (s.laneOffered k role c n).lanes[m] = if m = n then s.lanes[n].offered role c else s.lanes[m] :=
  s.modLane_lanes n (fun l => l.offered role c) m

theorem Lane.offered_service (l : Lane) : (l.offered role c).service = l.service := by
  unfold Lane.offered
  split
  next => rfl
  next => rfl
  all_goals split <;> rfl

/-- Every lane given selects the service, and stays so at each turn. -/
theorem State.offerLanes_eq (ls : List (Fin 4)) (u : State) (hsel : ∀ n ∈ ls, u.lanes[n].service = some k) :
    ls.foldl (fun s n => s.offerLane k role c n) u = ls.foldl (fun s n => s.laneOffered k role c n) u := by
  induction ls generalizing u with
  | nil => rfl
  | cons n ls ih =>
    rw [List.foldl_cons, List.foldl_cons, State.offerLane_eq (hsel n List.mem_cons_self)]
    refine ih _ fun m hm => ?_
    have hm := hsel m (List.mem_cons_of_mem _ hm)
    rw [State.laneOffered_lane]
    split
    next h => rwa [Lane.offered_service, ← h]
    next => exact hm

theorem State.laneOffered_foldl_frame (ls : List (Fin 4)) (u : State) :
    ls.foldl (fun s n => s.laneOffered k role c n) u =
      { u with
        lanes := (ls.foldl (fun s n => s.laneOffered k role c n) u).lanes
        rentals := (ls.foldl (fun s n => s.laneOffered k role c n) u).rentals
        counters := (ls.foldl (fun s n => s.laneOffered k role c n) u).counters } := by
  induction ls generalizing u with
  | nil => rfl
  | cons n ls ih =>
    rw [List.foldl_cons]
    conv_lhs => rw [ih]
    rfl

theorem State.laneOffered_foldl_rentals {ls : List (Fin 4)} (hls : ls.Nodup) (u : State) :
    (ls.foldl (fun s n => s.laneOffered k role c n) u).rentals =
      seenBy u.rentals fun x => ls.any (u.tellsPicture k role x) := by
  induction ls generalizing u with
  | nil => exact (seenBy_false fun _ => rfl).symm
  | cons n ls ih =>
    obtain ⟨hnot, hnodup⟩ := List.nodup_cons.1 hls
    have htells : ∀ x, ls.any ((u.laneOffered k role c n).tellsPicture k role x) =
        ls.any (u.tellsPicture k role x) := fun x => by
      rw [Bool.eq_iff_iff, List.any_eq_true, List.any_eq_true]
      refine exists_congr fun m => and_congr_right fun hm => ?_
      have hne : m ≠ n := fun h => hnot (h ▸ hm)
      rw [State.tellsPicture, State.laneOffered_lane, if_neg hne]
      rfl
    rw [List.foldl_cons, ih hnodup, funext htells]
    exact seenBy_seenBy u.rentals (fun x => u.tellsPicture k role x n) fun x => ls.any (u.tellsPicture k role x)

theorem State.laneOffered_foldl_counters {ls : List (Fin 4)} (hls : ls.Nodup) (u : State) :
    (ls.foldl (fun s n => s.laneOffered k role c n) u).counters =
      (u.auditAll ((ls.filter (u.overruns k)).map (overrunEvent k))).counters := by
  have hevents : ((ls.filter (u.overruns k)).map (overrunEvent k)) =
      ls.flatMap fun n => ([n].filter (u.overruns k)).map (overrunEvent k) := by
    rw [← List.map_flatMap, ← List.filter_flatMap, List.flatMap_singleton']
  rw [hevents]
  refine foldl_counters (f := fun s n => s.laneOffered k role c n)
    (events := fun s n => ([n].filter (s.overruns k)).map (overrunEvent k)) hls
    (fun _ _ => rfl) (fun s n m hmn => ?_) u
  have hsame : (s.laneOffered k role c n).overruns k m = s.overruns k m := by
    rw [State.overruns, State.laneOffered_lane, if_neg hmn, State.overruns]
  simp only [List.filter_cons, hsame, List.filter_nil]

end

theorem State.selects_mem_iff {s : State} {k : Nat} {n : Fin 4} :
    n ∈ lanesWhere (s.selects k) ↔ s.lanes[n].service = some k := by
  rw [mem_lanesWhere, State.selects, beq_iff_eq]

/-- Offering a cell is what the statements say of it. -/
theorem State.offerCell_offered (u : State) (k : Nat) (role : Role) (c : Cell) :
    offeredTo u k role c (u.offerCell k role c) := by
  have hls := lanesWhere_nodup (u.selects k)
  rw [State.offerCell, State.offerLanes_eq k role c _ u fun n hn => State.selects_mem_iff.1 hn]
  refine ⟨State.laneOffered_foldl_frame k role c _ u, fun n => ?lane,
    (State.laneOffered_foldl_rentals k role c hls u).trans ?rentals,
    (State.laneOffered_foldl_counters k role c hls u).trans ?counters⟩
  case lane =>
    exact (foldl_lane (g := fun l => l.offered role c) hls (State.laneOffered_lane k role c) u n).trans (if_congr State.selects_mem_iff rfl rfl)
  case rentals =>
    have htells : ∀ x, (lanesWhere (u.selects k)).any (u.tellsPicture k role x) =
        allLanes.any (u.tellsPicture k role x) := by
      intro x
      rw [lanesWhere, List.any_filter]
      refine List.any_congr rfl fun n => ?_
      rw [State.tellsPicture, State.selects]
      cases u.lanes[n].service == some k <;> simp
    rw [funext htells]
    rfl
  case counters =>
    have hoverruns : (lanesWhere (u.selects k)).filter (u.overruns k) = lanesWhere (u.overruns k) := by
      rw [lanesWhere, lanesWhere, List.filter_filter]
      refine List.filter_congr fun n _ => ?_
      rw [State.overruns, State.selects]
      cases u.lanes[n].service == some k <;> simp
    rw [hoverruns]
    rfl

/-- Settles O15: the directory's answer decides, and a cell marked CLEAR goes on as it came. -/
theorem clearMediaCellReachesItsLanes : Obligations.clear_media_cell_reaches_its_lanes := by
  unfold Obligations.clear_media_cell_reaches_its_lanes
  refine ⟨fun _ => rfl, fun s b c hs hhunt hlen htaken hc hkind => ?_⟩
  rw [exec_feedByte_media hs hhunt hlen htaken hc hkind]
  refine ⟨fun hmiss => ?_, fun e he hmark => ⟨_, rfl, ?_⟩⟩
  · exact congrArg Host.Outcome.next (State.mediaCell_miss (s := s.cellDone) (State.lookup?_eq_none hmiss))
  · rw [State.mediaCell_clear (s := s.cellDone) he hmark, State.cellDone_noteArrival]
    exact State.offerCell_offered _ _ _ _

/-! ## Key-misses (R49, R70) -/

/-- What a lane event rests on. -/
theorem State.laneEvent_congr {s t : State} {n : Fin 4} (hsel : t.lanes[n].service = s.lanes[n].service)
    (hservices : t.services = s.services) (hrentals : t.rentals = s.rentals) (hcatalog : t.catalog = s.catalog)
    (hlock : t.lock = s.lock) (kind : EventKind) : t.laneEvent n kind = s.laneEvent n kind := by
  have hselected : t.selected? n = s.selected? n := by
    have hservice : t.service? = s.service? := funext fun k => by rw [State.service?, hservices, State.service?]
    rw [State.selected?, hsel, hservice, State.selected?]
  have hrating : ∀ r, t.effectiveRating r = s.effectiveRating r := fun r => by
    simp only [State.effectiveRating, State.titleRating, State.rental?, State.catalog?, hrentals, hcatalog, hlock]
  simp only [State.laneEvent, hselected, hrating]

/-- A lane's record with one key-miss more. -/
def Lane.missed (l : Lane) : Lane := { l with keyMisses := min 65535 (l.keyMisses + 1) }

theorem State.tellKeyMiss_lane (s : State) (n m : Fin 4) :
    (s.tellKeyMiss n).lanes[m] = if m = n then s.lanes[n].missed else s.lanes[m] :=
  s.modLane_lanes n Lane.missed m

theorem State.tellKeyMiss_foldl_frame (ls : List (Fin 4)) (u : State) :
    ls.foldl State.tellKeyMiss u =
      { u with
        lanes := (ls.foldl State.tellKeyMiss u).lanes, counters := (ls.foldl State.tellKeyMiss u).counters } := by
  induction ls generalizing u with
  | nil => rfl
  | cons n ls ih =>
    rw [List.foldl_cons]
    conv_lhs => rw [ih]
    rfl

theorem State.tellKeyMiss_foldl_counters {ls : List (Fin 4)} (hls : ls.Nodup) (u : State) :
    (ls.foldl State.tellKeyMiss u).counters = (u.auditAll (ls.map fun n => u.laneEvent n .keyMisses)).counters := by
  rw [List.map_eq_flatMap]
  refine foldl_counters (f := State.tellKeyMiss) (events := fun s n => [s.laneEvent n .keyMisses]) hls (fun _ _ => rfl) (fun s n m hmn => ?_) u
  refine congrArg (fun e => [e]) (State.laneEvent_congr (s := s) (t := s.tellKeyMiss n) ?_ rfl rfl rfl rfl _)
  rw [State.tellKeyMiss_lane, if_neg hmn]

theorem State.tellLanes_told (u : State) (k : Nat) :
    keyMissTold u k ((lanesWhere (u.selects k)).foldl State.tellKeyMiss u) :=
  ⟨State.tellKeyMiss_foldl_frame _ u,
    fun n => (foldl_lane (lanesWhere_nodup _) State.tellKeyMiss_lane u n).trans
      (if_congr State.selects_mem_iff rfl rfl),
    State.tellKeyMiss_foldl_counters (lanesWhere_nodup _) u⟩

/-! ## A scrambled cell (R42 to R49) -/

section
variable {s : State} {e : DirEntry} {c : Cell} {p : Parity}

theorem Key.open?_eq_some {key : Key} (h : (decipher key c.seq 0 c.payload).head? = some key.check) :
    key.open? c = some (decipher key c.seq 0 c.payload) :=
  if_pos h

theorem Key.open?_eq_none {key : Key} (h : (decipher key c.seq 0 c.payload).head? ≠ some key.check) :
    key.open? c = none :=
  if_neg h

theorem State.scrambledCell_noFamily (h : (s.service? e.service).bind ServiceRec.family = none) :
    s.scrambledCell e c p = s.keyMiss none e.service := by
  simp only [State.scrambledCell, h]

section
variable {f : Fin 32} (h : (s.service? e.service).bind ServiceRec.family = some f)
include h

theorem State.scrambledCell_open {key : Key} (hlive : ((s.keys[f].parityStep p).slot p).live = some key)
    (hgood : (decipher key c.seq 0 c.payload).head? = some key.check) :
    s.scrambledCell e c p =
      (s.modFamily f fun k => k.parityStep p).offerCell e.service e.role
        { c with mark := .clear, payload := decipher key c.seq 0 c.payload } := by
  have hkeys : (s.modFamily f fun k => k.parityStep p).keys[f] = s.keys[f].parityStep p := by simp [State.modFamily]
  simp only [State.scrambledCell, h]
  rw [hkeys, hlive, Option.bind_some, Key.open?_eq_some hgood]

theorem State.scrambledCell_closed
    (hbad : ∀ key, ((s.keys[f].parityStep p).slot p).live = some key →
      (decipher key c.seq 0 c.payload).head? ≠ some key.check) :
    s.scrambledCell e c p = (s.modFamily f fun k => k.parityStep p).keyMiss (some f) e.service := by
  have hkeys : (s.modFamily f fun k => k.parityStep p).keys[f] = s.keys[f].parityStep p := by simp [State.modFamily]
  have hclosed : (((s.keys[f].parityStep p).slot p).live.bind fun k => k.open? c) = none := by
    rw [Option.bind_eq_none_iff]
    exact fun key hkey => Key.open?_eq_none (hbad key hkey)
  simp only [State.scrambledCell, h]
  rw [hkeys, hclosed]

end

theorem State.hit_service? (s : State) (e : DirEntry) (c : Cell) (n : Nat) :
    ((s.hit e c).service? n).bind ServiceRec.family = (s.service? n).bind ServiceRec.family := by
  rw [State.service?_map (s := s) rfl fun r => by split <;> rfl, Option.bind_map]
  congr 1
  funext r
  simp only [Function.comp_apply]
  split <;> rfl

theorem State.mediaCell_scrambled_hit (he : s.lookup? c.tag = some e) (hmark : c.mark = .scrambled p) :
    s.cellDone.mediaCell c = (s.hit e c).scrambledCell e c p := by
  rw [State.mediaCell_scrambled (s := s.cellDone) he hmark, State.cellDone_noteArrival]

end

/-- Settles O16: with a live key that opens it, the cell is offered in clear bytes. -/
theorem scrambledCellGood : Obligations.scrambled_cell_good := by
  unfold Obligations.scrambled_cell_good
  intro s b c p e r f key hs hhunt hlen htaken hc hkind hmark he hservice hfamily hlive hgood
  rw [exec_feedByte_media hs hhunt hlen htaken hc hkind, State.mediaCell_scrambled_hit he hmark,
    State.scrambledCell_open (s := s.hit e c) (by rw [State.hit_service?, hservice]; exact hfamily) hlive hgood]
  exact ⟨_, rfl, State.offerCell_offered _ _ _ _⟩

/-- Settles O17: without a family, or with no live key that opens the cell, the lanes are told. -/
theorem scrambledCellKeyMiss : Obligations.scrambled_cell_key_miss := by
  unfold Obligations.scrambled_cell_key_miss
  intro s b c p e hs hhunt hlen htaken hc hkind hmark he
  rw [exec_feedByte_media hs hhunt hlen htaken hc hkind, State.mediaCell_scrambled_hit he hmark]
  refine ⟨fun hnone => ⟨_, rfl, ?_⟩, fun r f hservice hfamily hbad => ⟨_, rfl, ?_⟩⟩
  · rw [State.scrambledCell_noFamily]
    · exact State.tellLanes_told (s.hit e c) e.service
    · rw [State.hit_service?, Option.bind_eq_none_iff]
      exact hnone
  · rw [State.scrambledCell_closed (s := s.hit e c) (by rw [State.hit_service?, hservice]; exact hfamily) hbad]
    have hkeys : ((s.hit e c).modFamily f fun k => k.parityStep p).modFamily f
          (fun k => { k with keyMisses := satAdd k.keyMisses 1 }) =
        { s.hit e c with
          keys := s.keys.set f { s.keys[f].parityStep p with keyMisses := min 65535 (s.keys[f].keyMisses + 1) } } := by
      simp [State.modFamily, State.hit, satAdd]
    rw [State.keyMiss, hkeys]
    exact State.tellLanes_told _ e.service

end Sys2Proof.Machine
end

