-- ==== Sys2Proof/Proofs/Services.lean ====
section
/-! PROOF. SVC-PUT, SVC-DROP and ON-AIR at the service map (R23 to R29): O22 and O23. -/

namespace Sys2Proof.Machine

/-! ## SVC-PUT at its owner -/

section
variable {s : State} {b : SvcPutBody} {r : ServiceRec}

theorem svcPut_unfit (h : serviceOf b = none) : svcPut b s = none := by
  simp only [svcPut, h]

theorem svcPut_unplaced (h : serviceOf b = some r) (hplace : ¬ s.placementOk r = true) : svcPut b s = none := by
  simp only [svcPut, h, if_neg hplace]

theorem svcPut_placed (h : serviceOf b = some r) (hplace : s.placementOk r = true) :
    svcPut b s =
      some ((s.loadService r).causeWhere fun l => loadCauses (s.service? r.number) r && s.selects r.number l) := by
  simp only [svcPut, h, if_pos hplace]

end

theorem loadCauses_iff {old : Option ServiceRec} {r : ServiceRec} :
    loadCauses old r = true ↔
      ∀ o, old = some o → o.kind ≠ r.kind ∨ o.rating ≠ r.rating ∨ o.family ≠ r.family ∨ o.title ≠ r.title := by
  cases old with
  | none => simp [loadCauses]
  | some o => simp [loadCauses, or_assoc]

/-- The service table after a load. -/
theorem State.mem_loadService_services {s : State} {r : ServiceRec}
    (horder : (s.services.map ServiceRec.number).Pairwise (· < ·)) (x : ServiceRec) :
    x ∈ (s.loadService r).services ↔
      (x ∈ s.services ∧ x.number ≠ r.number) ∨ x = r.loaded (s.service? r.number) := by
  rw [or_comm]
  exact mem_insertBy horder (r.loaded (s.service? r.number)) x

/-- Settles O22: the load is whole once the field tests and the placement test pass. -/
theorem svcPutLoadsAService : Obligations.svc_put_loads_a_service := by
  unfold Obligations.svc_put_loads_a_service
  intro s b hs hlen hdir
  rw [exec_svcPut hs]
  refine ⟨fun hunfit => ?unfit, fun r hr => ⟨fun hbad => ?unplaced, fun htags hbanks hroom => ?placed⟩⟩
  case unfit =>
    rw [State.takeMsg_refused (svcPut_unfit hunfit)]
    rfl
  case unplaced =>
    have hplace : ¬ s.countTaken.placementOk r = true := by
      rw [State.placementOk_iff]
      rintro ⟨howned, hover, hfull⟩
      rcases hbad with hbad | hbad | hbad
      · exact howned (State.tagOwned_iff (s := s).2 hbad)
      · exact hover (State.bankOverflow_iff (s := s).2 hbad)
      · exact hfull (State.tableFull_iff (s := s).2 hbad)
    rw [State.takeMsg_refused (svcPut_unplaced hr hplace)]
    rfl
  case placed =>
    have howned : ¬ s.tagOwned r = true := by
      rw [State.tagOwned_iff]
      rintro ⟨k, hk, i, e, he, htag, hother⟩
      exact hother (htags k hk i e he htag)
    have hplace : s.countTaken.placementOk r = true := by
      refine State.placementOk_iff (s := s).2 ⟨howned, ?_, ?_⟩
      · rw [State.bankOverflow_iff]
        rintro ⟨i, hi⟩
        exact absurd (hbanks i) (not_le.2 hi)
      · rw [State.tableFull_iff]
        rintro ⟨hnone, hfull⟩
        rcases hroom with hroom | hroom
        · rw [hnone] at hroom
          cases hroom
        · omega
    obtain ⟨-, horder, -⟩ := id hdir
    rw [State.takeMsg_taken (svcPut_placed hr hplace)]
    refine ⟨s.countTaken.loadService r, _, rfl, rfl, insertBy_pairwise horder _,
      State.mem_loadService_services (s := s) horder,
      State.mem_loadService_directory (s := s) hdir howned (serviceOf_tags_nodup hr),
      causesSent_causeWhere _ _ _ hlen fun n => ?_⟩
    rw [Bool.and_eq_true, loadCauses_iff, State.selects, beq_iff_eq, and_comm]
    rfl

/-! ## SVC-DROP and ON-AIR at their owner -/

section
variable {s : State} {n : Nat}

theorem svcDrop_outOfRange (h : ¬ serviceOk n = true) : svcDrop n s = none := if_neg h

theorem svcDrop_notLoaded (hn : serviceOk n = true) (h : s.service? n = none) : svcDrop n s = some s := by
  rw [svcDrop, if_pos hn, h]
  rfl

theorem svcDrop_loaded (hn : serviceOk n = true) (h : (s.service? n).isSome = true) :
    svcDrop n s = some ((s.unloadService n).causeWhere (s.selects n)) := by
  rw [svcDrop, if_pos hn, if_pos h]

theorem onAir_refused {title : Option Nat}
    (h : ¬ serviceOk n = true ∨ title = some 0 ∨ ∀ r, s.service? n = some r → r.kind = .free) :
    onAir n title s = none := by
  unfold onAir
  split
  next hn =>
    split
    next => rfl
    next r hr =>
      refine if_neg fun hok => ?_
      rw [Bool.and_eq_true, titleOk_iff, beq_iff_eq] at hok
      obtain ⟨htitle, hkind⟩ := hok
      rcases h with h | h | h
      · exact h hn
      · exact htitle (.inl h)
      · rw [h r hr] at hkind
        cases hkind
  next => rfl

theorem onAir_taken {title : Option Nat} {r : ServiceRec} (hn : serviceOk n = true) (htitle : title ≠ some 0)
    (hr : s.service? n = some r) (hkind : r.kind = .pay) :
    onAir n title s = some ((s.setOnAir n title).causeWhere fun l => r.title != title && s.selects n l) := by
  have hok : (titleOk r.kind title && r.kind == .pay) = true := by
    rw [Bool.and_eq_true, titleOk_iff, beq_iff_eq]
    exact ⟨by simp [htitle, hkind], hkind⟩
  simp only [onAir, if_pos hn, hr, if_pos hok]

end

/-- Settles O23: the number's range, the service's presence and kind, and the title decide. -/
theorem svcDropAndOnAir : Obligations.svc_drop_and_on_air := by
  unfold Obligations.svc_drop_and_on_air
  intro s n hs hlen
  have hrange : 1 ≤ n → n ≤ 999 → serviceOk n = true := fun hlow hhigh => serviceOk_iff.2 (by omega)
  rw [exec_svcDrop hs]
  refine ⟨fun hbad => ?badNumber, fun hlow hhigh hnone => ?notLoaded, fun hlow hhigh hloaded => ?dropped,
    fun title => ?onAir⟩
  case badNumber =>
    rw [State.takeMsg_refused (svcDrop_outOfRange fun hn => serviceOk_iff.1 hn hbad)]
    rfl
  case notLoaded =>
    rw [State.takeMsg_taken (svcDrop_notLoaded (s := s.countTaken) (hrange hlow hhigh) hnone)]
    rfl
  case dropped =>
    rw [State.takeMsg_taken (svcDrop_loaded (s := s.countTaken) (hrange hlow hhigh) hloaded)]
    exact ⟨_, rfl, causesSent_causeWhere (s.countTaken.unloadService n) _ _ hlen fun l => by
      rw [State.selects, beq_iff_eq]; rfl⟩
  case onAir =>
    rw [exec_onAir hs]
    refine ⟨fun hbad => ?_, fun r hlow hhigh htitle hr hkind => ?_⟩
    · rw [State.takeMsg_refused (onAir_refused (s := s.countTaken) _)]
      · rfl
      · rw [serviceOk_iff, not_not]
        tauto
    · rw [State.takeMsg_taken (onAir_taken (s := s.countTaken) (hrange hlow hhigh) htitle hr hkind)]
      refine ⟨_, rfl, causesSent_causeWhere (s.countTaken.setOnAir n title) _ _ hlen fun l => ?_⟩
      rw [Bool.and_eq_true, bne_iff_ne, State.selects, beq_iff_eq, and_comm]
      rfl

end Sys2Proof.Machine
end

