-- ==== Sys2Proof/Proofs/Titles.lean ====
section
/-! PROOF. The catalog, BUY, REFUND and the two questions of the rental engine and the room (R76 to R78, R89 to R97,
R129): O27 to O31. -/

namespace Sys2Proof.Machine

/-! ## TITLE-PUT and TITLE-DROP at their owner (R76 to R78) -/

/-- The lane's selection is a loaded PAY service with the title on air. -/
theorem State.runs_iff_onAir {s : State} {x : Nat} {n : Fin 4} :
    s.runs x n = true ↔
      ∃ k r, s.lanes[n].service = some k ∧ s.service? k = some r ∧ r.kind = .pay ∧ r.title = some x := by
  have hair : ∀ r : ServiceRec, r.onAir? = some x ↔ r.kind = .pay ∧ r.title = some x := by
    intro r
    unfold ServiceRec.onAir?
    split
    next hkind => simp [hkind]
    next hkind => simp [hkind]
  rw [State.runs_iff]
  simp only [State.titleRunning?, State.selected?, Option.bind_eq_some_iff, hair]
  tauto

section
variable {s : State} {b : TitlePutBody}

theorem titlePut_refused (h : b.title = 0 ∨ b.billAlias = 0 ∨ s.catalog? b.title = none ∧ 32 ≤ s.catalog.length) :
    titlePut b s = none := by
  unfold titlePut
  split
  next => rfl
  next hfields => exact if_pos (by rw [Option.isNone_iff_eq_none]; tauto)

theorem titlePut_taken (htitle : b.title ≠ 0) (halias : b.billAlias ≠ 0)
    (hroom : (s.catalog? b.title).isSome = true ∨ s.catalog.length < 32) :
    titlePut b s =
      some ({ s with catalog := insertBy CatalogEntry.title (entryOf b) s.catalog }.causeWhere (s.runs b.title)) := by
  rw [titlePut, if_neg (by tauto), if_neg]
  rintro ⟨hnone, hfull⟩
  rcases hroom with hroom | hroom
  · rw [Option.isNone_iff_eq_none.1 hnone] at hroom
    cases hroom
  · omega

theorem titleDrop_notCatalogued {x : Nat} (hx : x ≠ 0) (h : s.catalog? x = none) : titleDrop x s = some s := by
  rw [titleDrop, if_neg hx, h]
  rfl

theorem titleDrop_catalogued {x : Nat} (hx : x ≠ 0) (h : (s.catalog? x).isSome = true) :
    titleDrop x s = some ({ s with catalog := s.catalog.filter (·.title != x) }.causeWhere (s.runs x)) := by
  rw [titleDrop, if_neg hx, if_pos h]

end

/-- The entry a TITLE-PUT carries, clamp by clamp. -/
theorem entryOf_eq (b : TitlePutBody) :
    entryOf b =
      { title := b.title, rating := min 7 b.rating, basePrice := min 60000 b.basePrice,
        window := max 600 (min 172800 b.window), preview := min 600 b.preview, grace := min 900 b.grace,
        billAlias := b.billAlias } := by
  simp only [entryOf, clamp_zero, clamp_eq_max_min (show 600 ≤ 172800 by decide)]

/-- Settles O27: the catalog's place and the lanes that run the title. -/
theorem titlePutAndDrop : Obligations.title_put_and_drop := by
  unfold Obligations.title_put_and_drop
  intro s hs hlen horder
  refine ⟨fun b => ⟨fun hbad => ?refused, fun htitle halias hroom => ?put⟩, ?zero,
    fun x hx => ⟨fun hnone => ?absent, fun hsome => ?dropped⟩⟩
  case refused =>
    rw [exec_titlePut hs, State.takeMsg_refused (titlePut_refused (s := s.countTaken) hbad)]
    rfl
  case put =>
    rw [exec_titlePut hs, State.takeMsg_taken (titlePut_taken (s := s.countTaken) htitle halias hroom)]
    refine ⟨{ s.countTaken with catalog := insertBy CatalogEntry.title (entryOf b) s.catalog }, _, rfl, rfl,
      insertBy_pairwise horder _, fun e => ?_, causesSent_causeWhere _ _ _ hlen fun n => ?_⟩
    · rw [← entryOf_eq, or_comm]
      exact mem_insertBy horder (entryOf b) e
    · exact (State.runs_iff_onAir (s := s)).symm
  case zero => rw [exec_titleDrop hs, State.takeMsg_refused (owner := titleDrop 0) rfl]; rfl
  case absent =>
    rw [exec_titleDrop hs, State.takeMsg_taken (titleDrop_notCatalogued (s := s.countTaken) hx hnone)]
    rfl
  case dropped =>
    rw [exec_titleDrop hs, State.takeMsg_taken (titleDrop_catalogued (s := s.countTaken) hx hsome)]
    exact ⟨_, rfl, causesSent_causeWhere _ _ _ hlen fun n => (State.runs_iff_onAir (s := s)).symm⟩

/-! ## The tests of BUY in their order (R89 to R91) -/

/-- No ACTIVE record of the title stands in the way of a purchase. -/
theorem State.activeRental?_eq_none {s : State} {x : Nat} (h : ∀ r, s.rental? x = some r → r.state ≠ .active) :
    s.activeRental? x = none := by
  rw [State.activeRental?, Option.filter_eq_none_iff]
  simpa using h

theorem State.not_vacant_of_occupied {s : State} (h : s.room.state = .occupied) : s.room.state ≠ .vacant := by
  rw [h]
  decide

section
variable {s : State} {n : Fin 4} {x : Nat} {pin : Option PinField}

theorem buy_badArg {lane : Nat} (h : 3 < lane ∨ x = 0 ∨ 65535 < x) : buy lane x pin s = .plain s .badArg := by
  unfold buy
  split
  next => rfl
  next n hn =>
    have hlane : ¬ 3 < lane := fun hlane => by rw [four?_eq_none_iff.2 hlane] at hn; cases hn
    exact if_pos (h.resolve_left hlane)

variable (hx : ¬ (x = 0 ∨ 65535 < x))
include hx

theorem buy_vacant (hroom : s.room.state = .vacant) : buy n.val x pin s = .plain s .vacant := by
  simp only [buy, four?_val]
  rw [if_neg hx, if_pos hroom]

variable (hroom : s.room.state = .occupied)
include hroom

theorem buy_already {r : RentalRec} (hr : s.rental? x = some r) (hactive : r.state = .active) :
    buy n.val x pin s =
      { state := s, result := .already
        fields := purchaseFields (r.amount.getD 0) (r.serial.getD 0) r.windowLeft } := by
  have hfound : s.activeRental? x = some r := by
    rw [State.activeRental?, hr]
    exact Option.filter_some_pos (by simp [hactive])
  simp only [buy, four?_val, hfound]
  rw [if_neg hx, if_neg (State.not_vacant_of_occupied hroom)]

variable (hactive : ∀ r, s.rental? x = some r → r.state ≠ .active)
include hactive

theorem buy_notOffered (hcatalog : s.catalog? x = none) : buy n.val x pin s = .plain s .notOffered := by
  simp only [buy, four?_val, State.activeRental?_eq_none hactive, hcatalog]
  rw [if_neg hx, if_neg (State.not_vacant_of_occupied hroom)]

variable {e : CatalogEntry} (hcatalog : s.catalog? x = some e)
include hcatalog

theorem buy_locked (hrating : s.effectiveCeiling n < e.rating) : buy n.val x pin s = .plain s .locked := by
  simp only [buy, four?_val, State.activeRental?_eq_none hactive, hcatalog]
  rw [if_neg hx, if_neg (State.not_vacant_of_occupied hroom), if_pos hrating]

variable (hrating : e.rating ≤ s.effectiveCeiling n)
include hrating

theorem buy_pinEnded {r : Result} (hask : s.room.purchasePin = true) (hpin : (s.pinTest n pin).1 = some r) :
    buy n.val x pin s = .plain (s.pinTest n pin).2 r := by
  rcases hp : s.pinTest n pin with ⟨ended, t⟩
  rw [hp] at hpin
  obtain rfl : ended = some r := hpin
  simp only [buy, four?_val, State.activeRental?_eq_none hactive, hcatalog, hp]
  rw [if_neg hx, if_neg (State.not_vacant_of_occupied hroom), if_neg (not_lt.2 hrating), if_pos hask]

/-- The state that tests 7 to 9 see. -/
def State.PinPassed (s : State) (n : Fin 4) (pin : Option PinField) (u : State) : Prop :=
  s.room.purchasePin = false ∧ u = s ∨
    s.room.purchasePin = true ∧ (s.pinTest n pin).1 = none ∧ u = { s with lock.attempts := 0 }

theorem buy_tested {u : State} (hu : s.PinPassed n pin u) : buy n.val x pin s = u.buyTested n e := by
  rcases hu with ⟨hask, rfl⟩ | ⟨hask, hpin, rfl⟩
  · simp only [buy, four?_val, State.activeRental?_eq_none hactive, hcatalog]
    rw [if_neg hx, if_neg (State.not_vacant_of_occupied hroom), if_neg (not_lt.2 hrating),
      if_neg (ne_true_of_eq_false hask)]
  · rcases hp : s.pinTest n pin with ⟨ended, t⟩
    rw [hp] at hpin
    obtain rfl : ended = none := hpin
    obtain rfl := State.pinTest_none hp
    simp only [buy, four?_val, State.activeRental?_eq_none hactive, hcatalog, hp]
    rw [if_neg hx, if_neg (State.not_vacant_of_occupied hroom), if_neg (not_lt.2 hrating), if_pos hask]

end

/-! ## Tests 7 to 9 -/

theorem State.canCharge_eq_false {s : State} (h : 12 ≤ s.charges.length ∨ 16777215 < s.nextSerial) :
    s.canCharge = false :=
  eq_false_of_ne_true fun hcan => by
    obtain ⟨hlen, hserial⟩ := State.canCharge_iff.1 hcan
    omega

theorem State.canCharge_ne_false {s : State} (hlen : s.charges.length < 12) (hserial : s.nextSerial ≤ 16777215) :
    s.canCharge ≠ false :=
  ne_false_of_eq_true (State.canCharge_iff.2 ⟨hlen, hserial⟩)

section
variable {s : State} {n : Fin 4} {e : CatalogEntry}

theorem State.buyTested_tableFull (hnone : s.rental? e.title = none) (hlen : 16 ≤ s.rentals.length)
    (hkept : ∀ r ∈ s.rentals, r.state ≠ .expired ∨ r.refunded = true) : s.buyTested n e = .plain s .tableFull := by
  refine if_pos ⟨by rw [hnone]; rfl, eq_false_of_ne_true fun hplace => ?_⟩
  rcases s.placeAvailable_iff.1 hplace with hroom | ⟨r, hr, hexpired, hclear⟩
  · omega
  · rcases hkept r hr with hstate | hrefunded
    · exact hstate hexpired
    · rw [hclear] at hrefunded
      cases hrefunded

/-- A place can be had for the title's record, or there is one. -/
def State.placeFor (s : State) (x : Nat) : Prop :=
  (s.rental? x).isSome = true ∨ s.rentals.length < 16 ∨ ∃ r ∈ s.rentals, r.state = .expired ∧ r.refunded = false

variable (hplace : s.placeFor e.title)
include hplace

theorem State.not_tableFull_of_placeFor : ¬ ((s.rental? e.title).isNone = true ∧ s.placeAvailable = false) := by
  rintro ⟨hnone, hfull⟩
  rcases hplace with hsome | hplace
  · rw [Option.isNone_iff_eq_none.1 hnone] at hsome
    cases hsome
  · exact ne_true_of_eq_false hfull (s.placeAvailable_iff.2 hplace)

theorem State.buyTested_listFull (hfull : 12 ≤ s.charges.length ∨ 16777215 < s.nextSerial) :
    s.buyTested n e = .plain (s.latch .listFull) .listFull := by
  rw [State.buyTested, if_neg (State.not_tableFull_of_placeFor hplace), if_pos (State.canCharge_eq_false hfull)]

variable (hlen : s.charges.length < 12) (hserial : s.nextSerial ≤ 16777215)
include hlen hserial

theorem State.buyTested_ceiling (hover : s.room.ceiling < s.room.spend + s.chargeFor e.basePrice) :
    s.buyTested n e =
      { state := s.latch .spendCeiling, result := .ceiling
        fields := bytesOf 2 (s.chargeFor e.basePrice) ++ bytesOf 3 s.room.spend } := by
  rw [State.buyTested, if_neg (State.not_tableFull_of_placeFor hplace),
    if_neg (State.canCharge_ne_false hlen hserial)]
  exact if_pos hover

theorem State.buyTested_taken (hunder : s.room.spend + s.chargeFor e.basePrice ≤ s.room.ceiling) :
    s.buyTested n e =
      { state := s.purchase n e (s.chargeFor e.basePrice), result := .done
        fields := purchaseFields (s.chargeFor e.basePrice) s.nextSerial e.window } := by
  rw [State.buyTested, if_neg (State.not_tableFull_of_placeFor hplace),
    if_neg (State.canCharge_ne_false hlen hserial)]
  exact if_neg (not_lt.2 hunder)

end

theorem State.reply_of_answer {s t : State} {kind : Nat} {owner : State → Answer} {r : Result} {fields : List Byte}
    (h : owner s = { state := t, result := r, fields := fields }) : s.reply kind owner = t.placeReply kind r fields := by
  rw [State.reply, h]

/-- Settles O29: each test in turn. -/
theorem buyTurnedAway : Obligations.buy_turned_away := by
  unfold Obligations.buy_turned_away
  intro s lane x pin hs
  rw [exec_buy hs]
  refine ⟨fun hbad => congrArg Host.Outcome.next (State.reply_of_answer (buy_badArg hbad)), ?_⟩
  rintro n rfl hlow hhigh
  have hx : ¬ (x = 0 ∨ 65535 < x) := by omega
  refine ⟨fun hroom => congrArg Host.Outcome.next (State.reply_of_answer (buy_vacant hx hroom)), fun hroom =>
    ⟨fun r amount serial hr hactive hamount hserial => ?already, fun hactive =>
      ⟨fun hcatalog => congrArg Host.Outcome.next (State.reply_of_answer (buy_notOffered hx hroom hactive hcatalog)),
        fun e hcatalog =>
          ⟨fun hrating => congrArg Host.Outcome.next
              (State.reply_of_answer (buy_locked hx hroom hactive hcatalog hrating)),
            fun hrating =>
              ⟨fun r hask hpin => congrArg Host.Outcome.next
                  (State.reply_of_answer (buy_pinEnded hx hroom hactive hcatalog hrating hask hpin)),
                fun u hu => ?tested⟩⟩⟩⟩⟩
  case already =>
    refine congrArg Host.Outcome.next (State.reply_of_answer ?_)
    rw [buy_already hx hroom hr hactive, hamount, hserial]
    rfl
  case tested =>
    have htested := buy_tested hx hroom hactive hcatalog hrating (u := u) hu
    obtain rfl := State.catalog?_title hcatalog
    have hrentals : u.rentals = s.rentals := by rcases hu with ⟨-, rfl⟩ | ⟨-, -, rfl⟩ <;> rfl
    have hcharges : u.charges = s.charges := by rcases hu with ⟨-, rfl⟩ | ⟨-, -, rfl⟩ <;> rfl
    have hserial : u.nextSerial = s.nextSerial := by rcases hu with ⟨-, rfl⟩ | ⟨-, -, rfl⟩ <;> rfl
    have hlive : u.live = s.live := by rcases hu with ⟨-, rfl⟩ | ⟨-, -, rfl⟩ <;> rfl
    have hroom : u.room = s.room := by rcases hu with ⟨-, rfl⟩ | ⟨-, -, rfl⟩ <;> rfl
    simp only [State.rental?, ← hrentals, ← hcharges, ← hserial, ← hlive, ← hroom]
    refine ⟨fun hnone hlen hkept => ?_, fun hplace => ⟨fun hfull => ?_, fun hlen hserial hover => ?_⟩⟩ <;>
      refine congrArg Host.Outcome.next (State.reply_of_answer (htested.trans ?_))
    · exact State.buyTested_tableFull hnone hlen hkept
    · exact State.buyTested_listFull hplace hfull
    · exact State.buyTested_ceiling hplace hlen hserial hover

/-! ## A purchase (R92) -/

section
variable {s : State} {n : Fin 4} {e : CatalogEntry} {amount : Nat}

theorem State.withRecord_eq (s : State) (e : CatalogEntry) :
    s.withRecord e = { s with rentals := (s.withRecord e).rentals } := by
  unfold State.withRecord
  split <;> rfl

/-- What a purchase changes besides its record. -/
theorem State.purchased_eq :
    s.purchased n e amount =
      { s with
        rentals := (s.purchased n e amount).rentals
        charges := s.charges ++ [s.chargeRecord .charge e.title e.billAlias e.rating amount none]
        nextSerial := s.nextSerial + 1
        room.spend := s.room.spend + amount
        counters :=
          (s.audit { kind := .purchases, lane := some n, service := none, rating := some e.rating }).counters } := by
  simp only [State.purchased]
  rw [State.withRecord_eq]
  rfl

/-- The title's record reused. -/
theorem State.purchased_rentals_of_some (h : (s.rental? e.title).isSome = true) :
    (s.purchased n e amount).rentals =
      s.rentals.map fun r => if r.title = e.title then r.bought e amount s.nextSerial else r := by
  obtain ⟨r, hr⟩ := Option.isSome_iff_exists.1 h
  have hrecord : s.withRecord e = s := by simp only [State.withRecord, hr]
  simp only [State.purchased, hrecord]
  rfl

/-- The title's record made, at the end of the table. -/
theorem State.purchased_rentals_of_none (h : s.rental? e.title = none) :
    (s.purchased n e amount).rentals =
      s.roomForRecord ++ [(RentalRec.fresh e).bought e amount s.nextSerial] := by
  have hrecord : s.withRecord e = s.createRecord (.fresh e) := by simp only [State.withRecord, h]
  have hothers : (s.roomForRecord.map fun r => if r.title = e.title then r.bought e amount s.nextSerial else r) =
      s.roomForRecord := by
    refine (List.map_congr_left fun r hr => ?_).trans (List.map_id _)
    exact if_neg (State.rental?_eq_none_iff.1 h r (s.roomForRecord_sublist.subset hr))
  simp only [State.purchased, hrecord]
  refine (List.map_append ..).trans ?_
  rw [hothers]
  exact congrArg (s.roomForRecord ++ [·]) (if_pos rfl)

theorem State.purchased_length (hlen : s.rentals.length ≤ 16) (hplace : s.placeFor e.title) :
    (s.purchased n e amount).rentals.length ≤ 16 := by
  refine (List.length_map ..).trans_le (State.withRecord_length hlen fun hnone => s.placeAvailable_iff.2 ?_)
  refine hplace.resolve_left fun hsome => ?_
  rw [hnone] at hsome
  cases hsome

theorem State.purchaseReaches_iff {m : Fin 4} :
    s.purchaseReaches e m = true ↔
      s.lanes[m].title = some e.title ∨
        (s.rental? e.title = none ∧ 16 ≤ s.rentals.length ∧
          ∃ r, s.rentals.find? RentalRec.evictable = some r ∧ s.lanes[m].title = some r.title) := by
  have hevicted : ∀ x, s.evicted? = some x ↔
      16 ≤ s.rentals.length ∧ ∃ r, s.rentals.find? RentalRec.evictable = some r ∧ r.title = x := by
    intro x
    unfold State.evicted?
    split
    next h => simp [Nat.not_le.2 h]
    next h => simp [not_lt.1 h]
  rw [State.purchaseReaches, Bool.or_eq_true, State.onTitle_iff, Option.any_eq_true]
  refine or_congr Iff.rfl ?_
  unfold State.purchaseEvicts?
  split
  next r hr => simp [hr]
  next hnone =>
    simp only [hevicted, State.onTitle_iff, hnone, true_and]
    constructor
    · rintro ⟨x, ⟨hlen, r, hr, rfl⟩, hm⟩
      exact ⟨hlen, r, hr, hm⟩
    · rintro ⟨hlen, r, hr, hm⟩
      exact ⟨_, ⟨hlen, r, hr, rfl⟩, hm⟩

end

/-- The state a purchase starts from: a PIN test passed at test 6 has reset the attempt count. -/
def State.pinSettled (s : State) : State :=
  { s with lock.attempts := if s.room.purchasePin then 0 else s.lock.attempts }

theorem State.pinPassed_pinSettled {s : State} {n : Fin 4} {pin : Option PinField}
    (h : s.room.purchasePin = true → s.lock.lockout = none ∧ pin.isSome = true ∧ s.lock.pin = pin) :
    s.PinPassed n pin s.pinSettled := by
  cases hask : s.room.purchasePin with
  | false => exact .inl ⟨hask, by simp [State.pinSettled, hask]⟩
  | true =>
    obtain ⟨hlockout, hsome, hpin⟩ := h hask
    obtain ⟨p, rfl⟩ := Option.isSome_iff_exists.1 hsome
    exact .inr ⟨hask, by rw [State.pinTest_passed n hlockout hpin], by simp [State.pinSettled, hask]⟩

/-- Settles O28: the nine tests passed, the answer is the purchase. -/
theorem buyTakenChargesAndActivates : Obligations.buy_taken_charges_and_activates := by
  unfold Obligations.buy_taken_charges_and_activates
  intro s n x pin e hs hlen hlow hhigh hroom hactive hcatalog hrating hpin hplace hcharges hserial hunder
  have htested := buy_tested (by omega) hroom hactive hcatalog hrating (State.pinPassed_pinSettled (n := n) hpin)
  obtain rfl := State.catalog?_title hcatalog
  have htaken := State.buyTested_taken (s := s.pinSettled) (n := n) hplace hcharges hserial hunder
  rw [exec_buy hs, State.reply_of_answer (htested.trans htaken)]
  refine ⟨s.pinSettled.purchased n e (s.pinSettled.chargeFor e.basePrice), _, rfl, State.purchased_eq,
    State.purchased_rentals_of_some (s := s.pinSettled), fun hnone => ?_,
    causesSent_causeWhere _ _ _ ?_ fun m => (State.purchaseReaches_iff (s := s.pinSettled)).symm⟩
  · rw [State.purchased_rentals_of_none (s := s.pinSettled) hnone, RentalRec.bought, RentalRec.fresh, Nat.zero_min]
    rfl
  · exact State.purchased_length (s := s.pinSettled) hlen hplace

/-! ## REFUND (R94, R95) -/

section
variable {s : State} {x : Nat}

theorem refund_badArg (h : x = 0 ∨ 65535 < x) : refund x s = .plain s .badArg := if_pos h

variable (hx : ¬ (x = 0 ∨ 65535 < x))
include hx

theorem refund_notRented (h : ∀ r, s.rental? x = some r → r.state ≠ .active) : refund x s = .plain s .notRented := by
  rw [refund, if_neg hx]
  split
  next => rfl
  next r hr => exact if_pos (h r hr)

variable {r : RentalRec} (hr : s.rental? x = some r) (hactive : r.state = .active)
include hr hactive

theorem refund_before (h : r.refunded = true) : refund x s = .plain s .refundedBefore := by
  simp only [refund, hr]
  rw [if_neg hx, if_neg (not_not.2 hactive), if_pos h]

variable (hfirst : r.refunded = false)
include hfirst

theorem refund_gracePassed (h : r.grace ≤ r.viewedSec) : refund x s = .plain s .gracePassed := by
  simp only [refund, hr]
  rw [if_neg hx, if_neg (not_not.2 hactive), if_neg (ne_true_of_eq_false hfirst), if_pos h]

variable (hgrace : r.viewedSec < r.grace)
include hgrace

theorem refund_listFull (h : 12 ≤ s.charges.length ∨ 16777215 < s.nextSerial) :
    refund x s = .plain (s.latch .listFull) .listFull := by
  simp only [refund, hr]
  rw [if_neg hx, if_neg (not_not.2 hactive), if_neg (ne_true_of_eq_false hfirst), if_neg (not_le.2 hgrace),
    if_pos (State.canCharge_eq_false h)]

theorem refund_taken (hlen : s.charges.length < 12) (hserial : s.nextSerial ≤ 16777215) :
    refund x s =
      { state := s.refunded r, result := .done
        fields := bytesOf 2 (r.amount.getD 0) ++ bytesOf 3 s.nextSerial } := by
  simp only [refund, hr]
  rw [if_neg hx, if_neg (not_not.2 hactive), if_neg (ne_true_of_eq_false hfirst), if_neg (not_le.2 hgrace),
    if_neg (State.canCharge_ne_false hlen hserial)]

end

/-- What a refund does before its causes, with the record's amount read. -/
theorem State.credited_of_amount {s : State} {r : RentalRec} {amount : Nat} (h : r.amount = some amount) :
    s.credited r =
      ((s.appendCharge (s.chargeRecord .credit r.title r.billAlias r.rating amount r.serial)).modRental r.title
        fun y => { y with state := .void, refunded := true, windowLeft := 0 }).audit
          (rentalEvent .refunds r.rating) := by
  simp only [State.credited, h, Option.getD_some]

/-- Settles O30: each test in turn, then the CREDIT. -/
theorem refundCreditsOrIsTurnedAway : Obligations.refund_credits_or_is_turned_away := by
  unfold Obligations.refund_credits_or_is_turned_away
  intro s x hs hlen
  rw [exec_refund hs]
  refine ⟨fun hbad => congrArg Host.Outcome.next (State.reply_of_answer (refund_badArg hbad)), fun hlow hhigh => ?_⟩
  have hx : ¬ (x = 0 ∨ 65535 < x) := by omega
  refine ⟨fun h => congrArg Host.Outcome.next (State.reply_of_answer (refund_notRented hx h)), fun r hr hactive =>
    ⟨fun h => congrArg Host.Outcome.next (State.reply_of_answer (refund_before hx hr hactive h)),
      fun hfirst h => congrArg Host.Outcome.next (State.reply_of_answer (refund_gracePassed hx hr hactive hfirst h)),
      fun hfirst hgrace h =>
        congrArg Host.Outcome.next (State.reply_of_answer (refund_listFull hx hr hactive hfirst hgrace h)),
      fun amount hfirst hgrace hcharges hserial hamount => ?taken⟩⟩
  case taken =>
    rw [State.reply_of_answer (refund_taken hx hr hactive hfirst hgrace hcharges hserial), hamount]
    obtain rfl := State.rental?_title hr
    refine ⟨s.refunded r, rfl, ?_⟩
    have hcredited : causesSent (s.credited r) (fun m => s.lanes[m].title = some r.title) (s.refunded r) :=
      causesSent_causeWhere _ _ _ (by simpa [State.credited, State.modRental] using hlen)
        fun m => State.onTitle_iff.symm
    rw [State.credited_of_amount hamount] at hcredited
    exact hcredited

/-! ## ASK-TITLE and ASK-ROOM (R97, R129) -/

/-- Settles O31: each part is its own record's. -/
theorem askTitleAndAskRoom : Obligations.ask_title_and_ask_room := by
  unfold Obligations.ask_title_and_ask_room
  intro s hs
  refine ⟨?zero, fun x hlow hhigh => ?title, ?room⟩
  case zero => rw [exec_askTitle hs]; rfl
  case title =>
    have hanswer : askTitle x s =
        { state := s, result := .done
          fields := optBytes s.catalogPart (s.catalog? x) ++ optBytes RentalRec.part (s.rental? x) } :=
      if_neg (by omega)
    rw [exec_askTitle hs, State.reply_of_answer hanswer]
    refine ⟨_, _, rfl, fun h => by rw [h]; rfl, fun e h => by rw [h]; rfl, fun h => by rw [h]; rfl, fun r h => ?_⟩
    rw [h, ← flagByte_eq]
    rfl
  case room =>
    rw [exec_askRoom hs, ← flagByte_eq, ← flagByte_eq]
    rfl

end Sys2Proof.Machine
end

