-- ==== Sys2Proof/Proofs/StayOpening.lean ====
section
/-! PROOF. STAY-OPEN (R103, R115 to R118, R137, R138), and the two requests that start and end a lease (R142, R144): O33
and O38. -/

namespace Sys2Proof.Machine

/-! ## The settings a STAY-OPEN carries (R115) -/

theorem flag?_eq_none_iff {n : Nat} : flag? n = none ↔ 1 < n := by
  rcases n with _ | _ | n <;> simp [flag?]

theorem flag?_of_bool (b : Bool) : flag? (if b then 1 else 0) = some b := by
  cases b <;> rfl

section
variable {b : StayOpenBody}

theorem staySettings_eq_none
    (h : b.stay = 0 ∨ 3 < b.cls ∨ 1 < b.purchasePin ∨
      ∃ p, b.pin = some p ∧ (9 < p.d0 ∨ 9 < p.d1 ∨ 9 < p.d2 ∨ 9 < p.d3)) : staySettings b = none := by
  unfold staySettings
  split
  next cls flag hcls hflag =>
    refine if_neg fun hok => ?_
    rw [Bool.and_eq_true, bne_iff_ne, pinOptDigits_iff] at hok
    obtain ⟨hstay, hpin⟩ := hok
    rcases h with h | h | h | ⟨p, hp, hbad⟩
    · exact hstay h
    · rw [four?_eq_none_iff.2 h] at hcls
      cases hcls
    · rw [flag?_eq_none_iff.2 h] at hflag
      cases hflag
    · have := hpin p hp
      omega
  next => rfl

/-- The settings a body in range carries, with its class and flag read. -/
def settingsOf (b : StayOpenBody) (cls : Fin 4) (flag : Bool) : StaySettings :=
  { stay := b.stay, cls, ceiling := min 1000000 b.ceiling, pin := b.pin, roomCeiling := min 7 b.roomCeiling
    purchasePin := flag }

theorem staySettings_eq_some {cls : Fin 4} {flag : Bool} (hstay : b.stay ≠ 0) (hcls : b.cls = cls.val)
    (hflag : b.purchasePin = if flag then 1 else 0)
    (hpin : ∀ p, b.pin = some p → p.d0 ≤ 9 ∧ p.d1 ≤ 9 ∧ p.d2 ≤ 9 ∧ p.d3 ≤ 9) :
    staySettings b = some (settingsOf b cls flag) := by
  have hok : (b.stay != 0 && pinOptDigits b.pin) = true := by
    rw [Bool.and_eq_true, bne_iff_ne, pinOptDigits_iff]
    exact ⟨hstay, hpin⟩
  simp only [staySettings, hcls, hflag, four?_val, flag?_of_bool, if_pos hok, clamp_zero, settingsOf]

end

/-! ## The three ways a STAY-OPEN is taken (R116 to R118) -/

section
variable {s : State} {b : StayOpenBody}

theorem stayOpen_refused (h : staySettings b = none) : stayOpen b s = none := by
  simp only [stayOpen, h]

variable {c : StaySettings} (hc : staySettings b = some c)
include hc

theorem stayOpen_vacant (hroom : s.room.state = .vacant) : stayOpen b s = some (s.openStay c).roomChanged := by
  simp only [stayOpen, hc, hroom]

theorem stayOpen_same (hroom : s.room.state = .occupied) (hstay : c.stay = s.room.stay) :
    stayOpen b s = some (s.updateStay c).roomChanged := by
  simp only [stayOpen, hc, hroom, if_pos hstay]

theorem stayOpen_other (hroom : s.room.state = .occupied) (hstay : c.stay ≠ s.room.stay) :
    stayOpen b s = some (s.closeStay.openStay c).roomChanged := by
  simp only [stayOpen, hc, hroom, if_neg hstay]

end

/-- Another stay's room, closed and opened in one. -/
theorem State.reopened_eq (s : State) (c : StaySettings) :
    s.closeStay.openStay c =
      { s with
        live := s.staged
        rentals := []
        room := { state := .occupied, stay := c.stay, cls := c.cls, spend := 0, ceiling := c.ceiling,
                  purchasePin := c.purchasePin, staleStays := s.room.staleStays }
        lock.pin := c.pin, lock.roomCeiling := c.roomCeiling, lock.attempts := 0
        lock.lockout := none, lock.leases := .replicate 4 none } := rfl

/-- Settles O33: the room's state and stay choose among an open, an update and a close with an open. -/
theorem stayOpenOpensUpdatesOrReplaces : Obligations.stay_open_opens_updates_or_replaces := by
  unfold Obligations.stay_open_opens_updates_or_replaces
  intro s b hs hlen
  rw [exec_stayOpen hs]
  refine ⟨fun hbad => ?refused, fun cls flag hstay hcls hflag hpin => ?taken⟩
  case refused =>
    rw [State.takeMsg_refused (stayOpen_refused (staySettings_eq_none hbad))]
    rfl
  case taken =>
    have hc := staySettings_eq_some hstay hcls hflag hpin
    refine ⟨fun hroom => ?_, fun hroom hsame => ?_, fun hroom hother => ?_⟩
    · rw [State.takeMsg_taken (stayOpen_vacant (s := s.countTaken) hc hroom)]
      exact ⟨_, rfl, causesSent_roomChanged (u := s.countTaken.openStay (settingsOf b cls flag)) hlen⟩
    · rw [State.takeMsg_taken (stayOpen_same (s := s.countTaken) hc hroom hsame)]
      exact ⟨_, rfl, causesSent_roomChanged (u := s.countTaken.updateStay (settingsOf b cls flag)) hlen⟩
    · rw [State.takeMsg_taken (stayOpen_other (s := s.countTaken) hc hroom hother)]
      refine ⟨_, rfl, ?_⟩
      have hcauses := causesSent_roomChanged (u := s.countTaken.closeStay.openStay (settingsOf b cls flag))
        (Nat.zero_le 16)
      rwa [State.reopened_eq] at hcauses ⊢

/-! ## UNLOCK and RELOCK (R142, R144) -/

theorem unlock_badArg {s : State} {lane : Nat} (h : 3 < lane) (pin : Option PinField) :
    unlock lane pin s = .plain s .badArg := by
  simp only [unlock, four?_eq_none_iff.2 h]

theorem relock_badArg {s : State} {lane : Nat} (h : 3 < lane) : relock lane s = .plain s .badArg := by
  simp only [relock, four?_eq_none_iff.2 h]

section
variable {s : State} {n : Fin 4} {pin : Option PinField}

theorem unlock_vacant (hroom : s.room.state = .vacant) : unlock n.val pin s = .plain s .vacant := by
  simp only [unlock, four?_val, if_pos hroom]

theorem relock_unleased (h : s.lock.leases[n] = none) :
    relock n.val s = { state := s, result := .done, fields := bytesOf 1 s.lanes[n].state.toField } := by
  simp only [relock, four?_val]
  rw [h]

theorem relock_leased (h : s.lock.leases[n] ≠ none) :
    relock n.val s =
      { state := { s with lock.leases := s.lock.leases.set n none }.deliver [n], result := .done
        fields := bytesOf 1 ({ s with lock.leases := s.lock.leases.set n none }.deliver [n]).lanes[n].state.toField } := by
  obtain ⟨k, hk⟩ := Option.ne_none_iff_exists'.1 h
  simp only [relock, four?_val]
  rw [hk]

variable (hroom : s.room.state = .occupied)
include hroom

theorem unlock_barred (hbarred : s.lock.policy.barred[n] = true) : unlock n.val pin s = .plain s .barred := by
  simp only [unlock, four?_val, if_neg (State.not_vacant_of_occupied hroom)]
  rw [if_pos hbarred]

variable (hbarred : s.lock.policy.barred[n] = false)
include hbarred

theorem unlock_pinEnded {r : Result} (hpin : (s.pinTest n pin).1 = some r) :
    unlock n.val pin s = .plain (s.pinTest n pin).2 r := by
  rcases hp : s.pinTest n pin with ⟨ended, t⟩
  rw [hp] at hpin
  obtain rfl : ended = some r := hpin
  simp only [unlock, four?_val, if_neg (State.not_vacant_of_occupied hroom), hp]
  rw [if_neg (ne_true_of_eq_false hbarred)]

/-- The lock unit and the lease that an UNLOCK leaves, before the lane's evaluation. -/
def State.leaseStarted (s : State) (n : Fin 4) : State :=
  { s with lock.attempts := 0, lock.leases := s.lock.leases.set n (some s.lock.policy.leaseLength) }

theorem unlock_taken {p : PinField} (hlockout : s.lock.lockout = none) (hpin : s.lock.pin = some p) :
    unlock n.val (some p) s =
      { state := (s.leaseStarted n).deliver [n], result := .done
        fields := bytesOf 1 ((s.leaseStarted n).deliver [n]).lanes[n].state.toField ++
          bytesOf 2 s.lock.policy.leaseLength } := by
  simp only [unlock, four?_val, if_neg (State.not_vacant_of_occupied hroom), State.pinTest_passed n hlockout hpin]
  rw [if_neg (ne_true_of_eq_false hbarred)]
  rfl

end

/-- One cause to one lane. -/
theorem causesSent_one {u : State} (n : Fin 4) (h : u.rentals.length ≤ 16) :
    causesSent u (fun m => m = n) (u.deliver [n]) :=
  causesSent_deliver u [n] _ (List.nodup_singleton n) h fun _ => List.mem_singleton.symm

/-- Settles O38: the tests in turn, then one lease and one cause. -/
theorem unlockAndRelock : Obligations.unlock_and_relock := by
  unfold Obligations.unlock_and_relock
  intro s hs hlen
  refine ⟨fun lane pin hlane => ⟨?_, ?_⟩, fun n pin => ?_⟩
  · rw [exec_unlock hs, State.reply_of_answer (unlock_badArg hlane pin)]
  · rw [exec_relock hs, State.reply_of_answer (relock_badArg hlane)]
  rw [exec_unlock hs, exec_relock hs]
  refine ⟨fun hroom => ?vacant, fun hroom hbarred => ?barred, fun r hroom hbarred hpin => ?ended,
    fun p hroom hbarred hlockout hpin hgiven => ?leased, fun hnone => ?unleased, fun hleased => ?ends⟩
  case vacant => exact congrArg Host.Outcome.next (State.reply_of_answer (unlock_vacant hroom))
  case barred => exact congrArg Host.Outcome.next (State.reply_of_answer (unlock_barred hroom hbarred))
  case ended => exact congrArg Host.Outcome.next (State.reply_of_answer (unlock_pinEnded hroom hbarred hpin))
  case leased =>
    subst hgiven
    rw [State.reply_of_answer (unlock_taken hroom hbarred hlockout hpin)]
    exact ⟨_, rfl, causesSent_one n hlen⟩
  case unleased => exact congrArg Host.Outcome.next (State.reply_of_answer (relock_unleased hnone))
  case ends =>
    rw [State.reply_of_answer (relock_leased hleased)]
    exact ⟨_, rfl, causesSent_one n hlen⟩

end Sys2Proof.Machine
end

