-- ==== Sys2Proof/Proofs/Polls.lean ====
section
/-! PROOF. The three polls, the bodies of their reports, and CHARGE-ACK (R125 to R127, R160, R168, R169): O35. -/

namespace Sys2Proof.Machine

/-! ## The parts of the bodies -/

/-- A discreet record shows title 0 and the number it is billed under, another its title alone (R126). -/
theorem ChargeRec.presented_eq (c : ChargeRec) :
    c.presented =
      bytesOf 3 c.serial ++ bytesOf 1 c.kind.toField ++ bytesOf 2 c.stay ++
        (if c.discreet then bytesOf 2 0 ++ 1 :: bytesOf 2 c.billAlias else bytesOf 2 c.title ++ [0]) ++
        bytesOf 2 c.amount ++ optBytes (bytesOf 4) c.stamp ++ optBytes (bytesOf 3) c.reversed := by
  unfold ChargeRec.presented
  split <;> simp [optBytes]

theorem State.chargeReport_eq (s : State) :
    s.chargeReport =
      bytesOf 1 s.charges.length ++ bytesOf 4 s.nextSerial ++
        (bytesOf 1 (min 4 s.charges.length) ++ (s.charges.take 4).flatMap ChargeRec.presented) := by
  rw [State.chargeReport, listBytes, List.length_take]

theorem KeyFamily.listBytes_entry (v : Vector KeyFamily 32) :
    listBytes KeyFamily.entry v.toList = bytesOf 1 32 ++ v.toList.flatMap KeyFamily.entry := by
  rw [listBytes, Vector.length_toList]

/-! ## A poll at its owner (R169) -/

section
variable {s : State} {kind : ReportKind} {body : State → List Byte}

theorem State.takeMsg_poll_open (h : s.reports.length < 6) :
    s.takeMsg (fun u => some (u.offerReport kind (body u))) =
      { s.countTaken with reports := s.reports ++ [{ kind, body := some (body s.countTaken) }] } := by
  refine (State.takeMsg_taken (t := s.countTaken.offerReport kind (body s.countTaken)) rfl).trans ?_
  rw [State.offerReport_open (s := s.countTaken) h]
  rfl

theorem State.takeMsg_poll_full (h : 6 ≤ s.reports.length) :
    s.takeMsg (fun u => some (u.offerReport kind (body u))) =
      { s.countTaken with counts.pollsMissed := min 65535 (s.counts.pollsMissed + 1) } := by
  refine (State.takeMsg_taken (t := s.countTaken.offerReport kind (body s.countTaken)) rfl).trans ?_
  rw [State.offerReport_full (s := s.countTaken) h]
  rfl

end

/-- Settles O35: each poll offers its body, and CHARGE-ACK filters the list. -/
theorem pollsOfferReportsAndAckRemoves : Obligations.polls_offer_reports_and_ack_removes := by
  unfold Obligations.polls_offer_reports_and_ack_removes
  intro s hs
  refine ⟨fun hfull c hc => ?full, fun hopen => ⟨?charge, ?status, ?count⟩, rfl, rfl, rfl, rfl, rfl, rfl, rfl, rfl, rfl,
    rfl, fun α f => ⟨rfl, fun x => rfl⟩, fun n => ?ack⟩
  case full =>
    rcases hc with rfl | rfl | rfl
    · exact (exec_chargePoll hs).trans (congrArg Host.Outcome.next (State.takeMsg_poll_full hfull))
    · exact (exec_statusPoll hs).trans (congrArg Host.Outcome.next (State.takeMsg_poll_full hfull))
    · exact (exec_countPoll hs).trans (congrArg Host.Outcome.next (State.takeMsg_poll_full hfull))
  case charge =>
    refine (exec_chargePoll hs).trans (congrArg Host.Outcome.next ((State.takeMsg_poll_open hopen).trans ?_))
    rw [State.chargeReport_eq, funext ChargeRec.presented_eq]
    rfl
  case status =>
    refine (exec_statusPoll hs).trans (congrArg Host.Outcome.next ((State.takeMsg_poll_open hopen).trans ?_))
    rw [State.statusReport, KeyFamily.listBytes_entry]
    rfl
  case count =>
    exact (exec_countPoll hs).trans (congrArg Host.Outcome.next (State.takeMsg_poll_open hopen))
  case ack => exact exec_chargeAck hs n

end Sys2Proof.Machine
end

