-- ==== Sys2Proof/Proofs/Audit.lean ====
section
/-! PROOF. The audit counters (R57, R73, R99, R155, R157, R158): which counters an event moves, what a sample adds, and
the tags events carry, with O45. -/

namespace Sys2Proof.Machine

/-! ## An event at a counter (R155, R157) -/

/-- The filter lets the event's tags through. -/
def Filter.Passes (f : Filter) (e : AuditEvent) : Prop :=
  match f with
  | .none => True
  | .service n => e.service = some n
  | .lanes fs => ∃ l : Fin 4, e.lane = some l ∧ fs[l] = true
  | .ratingAtLeast r => ∃ k, e.rating = some k ∧ r ≤ k

theorem Filter.admits_iff {f : Filter} {e : AuditEvent} : f.admits e = true ↔ f.Passes e := by
  cases f with
  | none => simp [Filter.admits, Filter.Passes]
  | service n => simp [Filter.admits, Filter.Passes]
  | lanes fs => cases h : e.lane <;> simp [Filter.admits, Filter.Passes, h]
  | ratingAtLeast r => cases h : e.rating <;> simp [Filter.admits, Filter.Passes, h]

theorem Counter.counts_iff {c : Counter} {e : AuditEvent} :
    c.counts e = true ↔
      ∃ u, c.setup = some u ∧ u.kind = e.kind ∧ e.kind ≠ .occupancy ∧ u.filter.Passes e := by
  cases h : c.setup with
  | none => simp [Counter.counts, h]
  | some u => simp [Counter.counts, h, Filter.admits_iff, and_assoc]

theorem State.audit_counter (s : State) (e : AuditEvent) (i : Fin 4) :
    (s.audit e).counters[i] = s.counters[i].offer e :=
  mapEach_getElem ..

theorem Counter.offer_of_counts {c : Counter} {e : AuditEvent} (h : c.counts e = true) :
    c.offer e = { c with value := min 4294967295 (c.value + 1) } :=
  if_pos h

theorem Counter.offer_of_not_counts {c : Counter} {e : AuditEvent} (h : ¬ c.counts e = true) : c.offer e = c :=
  if_neg h

/-! ## The sample of counter 0 (R158) -/

theorem lanesWhere_eq_finRange (p : Fin 4 → Bool) : lanesWhere p = (List.finRange 4).filter p := rfl

section
variable {s : State} {c : Counter}

theorem State.sampled_occupancy {u : Setup} {o : Occupancy} (hsetup : c.setup = some u) (hkind : u.kind = .occupancy)
    (ho : u.occupancy = some o) :
    s.sampled c = { c with value := satAdd32 c.value (o.gain c.last (s.occupied u o)), last := some (s.occupied u o) } := by
  simp only [State.sampled, hsetup, hkind, ho]

theorem State.sampled_other (h : ∀ u, c.setup = some u → u.kind ≠ .occupancy) : s.sampled c = c := by
  unfold State.sampled
  split
  next => rfl
  next u hu =>
    split
    next hkind _ => exact absurd hkind (h u hu)
    next => rfl

end

/-! ## The tags of an event (R57, R73, R155) -/

theorem ServiceRec.onAir?_eq (r : ServiceRec) : r.onAir? = if r.kind = .pay then r.title else none := by
  unfold ServiceRec.onAir?
  split
  next h => simp [h]
  next h => simp [h]

section
variable {s : State} {n : Fin 4}

theorem State.laneEvent_loaded {x : Nat} {r : ServiceRec} (hx : s.lanes[n].service = some x)
    (hr : s.service? x = some r) (k : EventKind) :
    s.laneEvent n k =
      { kind := k, lane := some n, service := some r.number, rating := some (s.effectiveRating r) } := by
  have hselected : s.selected? n = some r := by rw [State.selected?, hx, Option.bind_some, hr]
  simp only [State.laneEvent, hselected]

theorem State.laneEvent_unloaded (h : ∀ x, s.lanes[n].service = some x → s.service? x = none) (k : EventKind) :
    s.laneEvent n k = { kind := k, lane := some n, service := none, rating := none } := by
  have hselected : s.selected? n = none := Option.bind_eq_none_iff.2 h
  simp only [State.laneEvent, hselected]

end

/-- The record's rating goes before the catalog's, and that before the house limit. -/
theorem State.effectiveRating_eq (s : State) (r : ServiceRec) :
    s.effectiveRating r =
      match r.onAir? with
      | none => r.rating
      | some t => max r.rating
        (match s.rental? t, s.catalog? t with
          | some y, _ => y.rating
          | none, some e => e.rating
          | none, none => s.lock.policy.houseLimit) := by
  unfold State.effectiveRating State.titleRating
  cases r.onAir? with
  | none => rfl
  | some t =>
    dsimp only
    cases s.rental? t with
    | some y => rfl
    | none => cases s.catalog? t <;> rfl

/-- Settles O45: event, sample and tags, each by its own law. -/
theorem auditEventsAndOccupancy : Obligations.audit_events_and_occupancy := by
  unfold Obligations.audit_events_and_occupancy
  refine ⟨fun s e => ⟨rfl, fun i => ⟨fun h => ?counted, fun h => ?passed⟩⟩, fun s u o found hsetup hkind ho hfound => ?sample,
    fun s h => ?noSample, fun s n k => ⟨fun x r hx hr => ?loaded, fun h => State.laneEvent_unloaded h k⟩,
    ServiceRec.onAir?_eq, State.effectiveRating_eq, fun k rating => rfl⟩
  case counted =>
    rw [State.audit_counter]
    exact Counter.offer_of_counts (Counter.counts_iff.2 h)
  case passed =>
    rw [State.audit_counter]
    exact Counter.offer_of_not_counts fun hcounts => h (Counter.counts_iff.1 hcounts)
  case sample =>
    have hoccupied : s.occupied u o = found := by
      rw [hfound, State.occupied, lanesWhere_eq_finRange]
      cases u.filter <;> rfl
    have hsampled := State.sampled_occupancy (s := s) hsetup hkind ho
    rw [hoccupied] at hsampled
    refine (congrArg (fun c => { s with counters := s.counters.set 0 c }) hsampled).trans ?_
    unfold Occupancy.gain
    cases o.mode <;> rfl
  case noSample =>
    refine (congrArg (fun c => { s with counters := s.counters.set 0 c }) (State.sampled_other h)).trans ?_
    simp
  case loaded =>
    exact (State.laneEvent_loaded hx hr k).trans (congrArg
      (fun x => ({ kind := k, lane := some n, service := some r.number, rating := some x } : AuditEvent))
      (State.effectiveRating_eq s r))

end Sys2Proof.Machine
end

