-- ==== Sys2Proof/Proofs/TickEvents.lean ====
section
/-! PROOF. One rental record at a tick (R85 to R87), and the rows that are events of the tick, each its owner's work alone
(R8, R12, R69, R86, R87, R141, R143, R176): O40 and O42. -/

namespace Sys2Proof.Machine

/-! ## One record at one tick -/

section
variable {r : RentalRec}

theorem RentalRec.meter_preview (hstate : r.state = .preview) (hseen : r.seen = true) :
    r.meter.1 =
      { r with
        previewSec := r.previewSec + 1, seen := false
        state := if r.previewSec + 1 = r.allowance then .spent else .preview } := by
  simp only [RentalRec.meter, hstate, RentalRec.meterPreview, hseen, if_true, beq_iff_eq]

theorem RentalRec.meter_active (hstate : r.state = .active) (hleft : 1 ≤ r.windowLeft) :
    r.meter.1 =
      { r with
        viewedSec := if r.seen = true ∧ r.viewedSec < 172800 then r.viewedSec + 1 else r.viewedSec
        windowLeft := r.windowLeft - 1, seen := false
        state := if r.windowLeft = 1 then .expired else .active } := by
  have hended : ((r.windowLeft - 1 == 0) = true) = (r.windowLeft = 1) := by
    rw [beq_iff_eq]
    exact propext ⟨fun h => by omega, fun h => by omega⟩
  have hviewed : r.viewedSec + (r.seen && decide (r.viewedSec < 172800)).toNat =
      if r.seen = true ∧ r.viewedSec < 172800 then r.viewedSec + 1 else r.viewedSec := by
    split
    next h => simp [h]
    next h =>
      have hnot : (r.seen && decide (r.viewedSec < 172800)) = false := by simpa using h
      rw [hnot]
      rfl
  simp only [RentalRec.meter, hstate, RentalRec.meterActive, hended, hviewed]

/-- Where nothing is counted only the mark is cleared. -/
theorem RentalRec.meter_still
    (h : r.state = .preview ∧ r.seen = false ∨ r.state = .spent ∨ r.state = .expired ∨ r.state = .void) :
    r.meter.1 = { r with seen := false } := by
  rcases h with ⟨hstate, hseen⟩ | hstate | hstate | hstate
  · simp only [RentalRec.meter, hstate, RentalRec.meterPreview, hseen, Bool.false_eq_true, if_false]
  · simp only [RentalRec.meter, hstate]
  · simp only [RentalRec.meter, hstate]
  · simp only [RentalRec.meter, hstate]

end

/-- Settles O40: each state's own metering. -/
theorem meteringOfOneRecord : Obligations.metering_of_one_record := by
  unfold Obligations.metering_of_one_record
  exact fun r => ⟨RentalRec.meter_preview, RentalRec.meter_active, RentalRec.meter_still⟩

/-! ## One owner's work alone -/

/-- Work that sends no cause ends where it is done. -/
theorem State.settle_one_quiet {s : State} {o : Task} (ho : o.isCause = false) (h : s.rentals.length ≤ 16)
    (hquiet : (s.perform o).2 = []) : s.settle settleBound [o] = (s.perform o).1 := by
  obtain ⟨-, -, -, hnone⟩ := s.settle_one o ho h
  exact hnone fun n hn => by
    rw [hquiet] at hn
    cases hn

/-- Work and its causes, the lanes they reach said otherwise. -/
theorem State.settle_one_reached {s : State} {o : Task} {reached : Fin 4 → Prop} (ho : o.isCause = false)
    (h : s.rentals.length ≤ 16) (hreached : ∀ n, n ∈ (s.perform o).2 ↔ reached n) :
    causesSent (s.perform o).1 reached (s.settle settleBound [o]) := by
  have hcauses := s.settle_one o ho h
  rwa [funext fun n => propext (hreached n)] at hcauses

section
variable {s : State}

/-- The fifth dark tick of a lane: no second is reported, since the mark is clear and the lane is viewing. -/
theorem State.laneTick_dark {n : Fin 4} (hmark : s.lanes[n].mark = false) (hrun : s.lanes[n].run = 4)
    (hviewing : s.lanes[n].state.viewing = true) :
    s.laneTick n =
      { s with lanes := s.lanes.set n { s.lanes[n] with run := 5 }, codes := (s.raiseCode (12 + n.val)).codes } := by
  have hevents : s.laneTickEvents n = [] := by
    have hlocked : s.lanes[n].state ≠ .locked := fun h => by rw [h] at hviewing; cases hviewing
    rw [State.laneTickEvents, if_neg (ne_true_of_eq_false hmark), if_neg hlocked, List.nil_append]
  have hdarkens : s.lanes[n].darkens = true := by
    rw [Lane.darkens, hmark, hviewing, hrun]
    rfl
  have hwatch : s.lanes[n].watch = { s.lanes[n] with run := 5 } := by
    rw [Lane.watch, if_neg (ne_true_of_eq_false hmark), if_pos hviewing, hrun]
    rfl
  rw [State.laneTick, hevents, if_pos hdarkens, State.modLane]
  simp only [State.auditAll, List.foldl_nil]
  rw [hwatch]
  rfl

/-- The event rows of a record's end are the meter's work. -/
theorem exec_meterEnd {c : Instr} {r : RentalRec} (hs : s.held = false) (hr : r ∈ s.rentals)
    (h : c = .previewSpent r.title ∧ r.state = .preview ∧ r.seen = true ∧ r.previewSec + 1 = r.allowance ∨
      c = .rentalExpiry r.title ∧ r.state = .active ∧ r.windowLeft = 1) :
    exec c s = .next (s.settle settleBound [.rental]) := by
  obtain ⟨-, -, -, -, hended⟩ := r.meter_calls
  rcases h with ⟨rfl, hstate, hseen, hlast⟩ | ⟨rfl, hstate, hlast⟩
  · rw [exec_previewSpent hs, if_pos]
    exact List.any_eq_true.2 ⟨r, hr, by simp [hstate, hended.2 (.inl ⟨hstate, hseen, hlast⟩)]⟩
  · rw [exec_rentalExpiry hs, if_pos]
    exact List.any_eq_true.2 ⟨r, hr, by simp [hstate, hended.2 (.inr ⟨hstate, by omega⟩)]⟩

/-- The event rows of a countdown's end are the lock unit's tick. -/
theorem exec_countdownEnd {c : Instr} {n : Fin 4} (hs : s.held = false)
    (h : c = .lockoutEnd ∧ s.lock.lockout = some 1 ∨ c = .leaseEnd n ∧ s.lock.leases[n] = some 1) :
    exec c s = .next (s.settle settleBound [.lock]) := by
  rcases h with ⟨rfl, hlast⟩ | ⟨rfl, hlast⟩
  · rw [exec_lockoutEnd hs, if_pos hlast]
  · rw [exec_leaseEnd hs, if_pos hlast]

end

/-- Settles O42: each row runs its owner's piece of work, and the piece does what its rules say. -/
theorem tickEventsDoTheirOwnersWork : Obligations.tick_events_do_their_owners_work := by
  unfold Obligations.tick_events_do_their_owners_work
  intro s hs hlen
  refine ⟨fun hlocked hsilent => ?silence, fun n hmark hrun hviewing => ?dark, fun c r hr hc => ?meter,
    fun c n hc => ?countdown, fun f hf hmarked => ?frame⟩
  case silence =>
    obtain ⟨-, -, -, hleaves⟩ := s.framerTick_spec
    rw [exec_feedSilence hs, if_pos ⟨hlocked, by omega⟩, State.settle_one_quiet rfl hlen rfl]
    exact congrArg Host.Outcome.next (hleaves hlocked hsilent)
  case dark =>
    have hview := (LaneState.viewing_iff _).2 hviewing
    have hdarkens : s.lanes[n].darkens = true := by
      rw [Lane.darkens, hmark, hview, hrun]
      rfl
    rw [exec_noPicture hs, if_pos hdarkens, State.settle_one_quiet rfl hlen rfl]
    exact congrArg Host.Outcome.next (State.laneTick_dark hmark hrun hview)
  case meter =>
    obtain ⟨hshape, hcodes⟩ := s.rentalTick_metered
    exact ⟨s.rentalTick, _, exec_meterEnd hs hr hc, hshape, hcodes,
      State.settle_one_reached (o := .rental) rfl hlen s.mem_rentalTickCauses⟩
  case countdown =>
    obtain ⟨hshape, hcodes⟩ := s.lockTick_countedDown
    exact ⟨s.lockTick, _, exec_countdownEnd hs hc, hshape, hcodes,
      State.settle_one_reached (o := .lock) rfl hlen s.mem_lockTickCauses⟩
  case frame =>
    obtain ⟨-, -, -, habandons⟩ := s.panelTick_spec
    have hany : s.frame.any Frame.marked = true := by rw [hf]; exact hmarked
    rw [exec_frameAbandon hs, if_pos hany, State.settle_one_quiet rfl hlen rfl]
    exact congrArg Host.Outcome.next (habandons f hf hmarked)

end Sys2Proof.Machine
end

