-- ==== Sys2Proof/Proofs/QuietTick.lean ====
section
/-! PROOF. A second tick at which nothing ends (R149): no order can make a difference, so the owners are taken as they
stand, and the state left is computed owner by owner, with O41. -/

namespace Sys2Proof.Machine

/-! ## Work that leaves nothing to choose -/

/-- The piece is an owner's tick work that sends no cause. -/
structure State.QuietFor (s : State) (t : Task) : Prop where
  owner  : t.isCause = false
  rental : t = .rental → ∀ r ∈ s.rentals, r.meter.2.ended = false
  lock   : t = .lock → ∀ n : Fin 4, s.leaseEnds n = false

theorem State.rentalTickCauses_eq_nil {s : State} (h : ∀ r ∈ s.rentals, r.meter.2.ended = false) :
    s.rentalTickCauses = [] := by
  have htitles : s.endingTitles = [] := by
    rw [State.endingTitles, List.map_eq_nil_iff, List.filter_eq_nil_iff]
    exact fun r hr => ne_true_of_eq_false (h r hr)
  rw [State.rentalTickCauses, htitles]
  rfl

theorem State.lockTickCauses_eq_nil {s : State} (h : ∀ n : Fin 4, s.leaseEnds n = false) : s.lockTickCauses = [] := by
  rw [State.lockTickCauses, lanesWhere, List.filter_eq_nil_iff]
  exact fun n _ => ne_true_of_eq_false (h n)

theorem State.QuietFor.sends_nothing {s : State} {t : Task} (h : s.QuietFor t) : (s.perform t).2 = [] := by
  cases t with
  | cause n => cases h.owner
  | rental => exact State.rentalTickCauses_eq_nil (h.rental rfl)
  | lock => exact State.lockTickCauses_eq_nil (h.lock rfl)
  | houseTime | framer | laneTick | counters | panel => rfl

/-- One owner's work leaves another's quiet. -/
theorem State.QuietFor.perform {s : State} {t o : Task} (h : s.QuietFor t) (ho : o.isCause = false) (hne : t ≠ o) :
    (s.perform o).1.QuietFor t := by
  refine ⟨h.owner, fun ht => ?_, fun ht => ?_⟩
  · subst ht
    rw [State.perform_rentals s o (fun n hn => by rw [hn] at ho; cases ho) hne.symm]
    exact h.rental rfl
  · subst ht
    intro n
    rw [State.leaseEnds, State.perform_lock hne.symm]
    exact h.lock rfl n

theorem State.racing_eq_false {s : State} {ts : List Task} (h : ∀ t ∈ ts, s.QuietFor t) : s.racing ts = false := by
  cases ts with
  | nil => rfl
  | cons t ts =>
    have howners : (t :: ts).any (fun t => !t.isCause) = true :=
      List.any_eq_true.2 ⟨t, List.mem_cons_self, by rw [(h t List.mem_cons_self).owner]; rfl⟩
    have hcauses : (t :: ts).any Task.isCause = false :=
      List.any_eq_false.2 fun u hu => ne_true_of_eq_false (h u hu).owner
    have hrental : ((t :: ts).contains .rental && !s.rentalTickCauses.isEmpty) = false := by
      cases hmem : (t :: ts).contains Task.rental with
      | false => rfl
      | true =>
        rw [State.rentalTickCauses_eq_nil ((h .rental (List.contains_iff_mem.1 hmem)).rental rfl)]
        rfl
    have hlock : ((t :: ts).contains .lock && !s.lockTickCauses.isEmpty) = false := by
      cases hmem : (t :: ts).contains Task.lock with
      | false => rfl
      | true =>
        rw [State.lockTickCauses_eq_nil ((h .lock (List.contains_iff_mem.1 hmem)).lock rfl)]
        rfl
    rw [State.racing, if_pos howners, hcauses, hrental, hlock]
    exact Bool.and_false _

/-- Quiet work is taken as it stands. -/
theorem State.settle_quiet {ts : List Task} (hts : ts.Nodup) {s : State} (h : ∀ t ∈ ts, s.QuietFor t) {k : Nat}
    (hk : ts.length ≤ k) : s.settle k ts = ts.foldl (fun s t => (s.perform t).1) s := by
  induction ts generalizing s k with
  | nil => cases k <;> rfl
  | cons t ts ih =>
    obtain ⟨hnot, hnodup⟩ := List.nodup_cons.1 hts
    obtain ⟨k, rfl⟩ : ∃ j, k = j + 1 := ⟨k - 1, by rw [List.length_cons] at hk; omega⟩
    have hrace := State.racing_eq_false h
    have hnote : s.noteChoice (t :: ts) = s := if_neg (ne_true_of_eq_false hrace)
    have hnext : s.nextTask (t :: ts) = 0 := if_neg (ne_true_of_eq_false hrace)
    have hsends := (h t List.mem_cons_self).sends_nothing
    have hstep : s.settle (k + 1) (t :: ts) = (s.perform t).1.settle k ts := by
      simp only [State.settle, hnote, hnext, List.getD_cons_zero, List.eraseIdx_cons_zero, hsends, List.map_nil,
        List.append_nil]
    rw [hstep, List.foldl_cons]
    refine ih hnodup (fun u hu => ?_) (by rw [List.length_cons] at hk; omega)
    refine (h u (List.mem_cons_of_mem _ hu)).perform (h t List.mem_cons_self).owner ?_
    rintro rfl
    exact hnot hu

/-! ## The framer's tick and the lanes' -/

/-- The codes of a framer's tick (R8, R12). -/
theorem State.mem_framerTick_codes (s : State) (c : Nat) :
    c ∈ s.framerTick.codes ↔ c ∈ s.codes ∨ c = 1 ∧ s.framer.state = .locked ∧ 1 ≤ s.framer.silence := by
  obtain ⟨-, hother, hfirst, hsecond⟩ := s.framerTick_spec
  by_cases hlocked : s.framer.state = .locked
  · rcases Nat.eq_zero_or_pos s.framer.silence with hzero | hpos
    · have hnot : ¬ 1 ≤ s.framer.silence := by omega
      rw [hfirst hlocked hzero]
      simp only [hnot, and_false, or_false]
    · rw [hsecond hlocked hpos]
      refine (mem_insertCode 1 c s.codes).trans ?_
      simp only [hlocked, Nat.succ_le_iff.2 hpos, and_self, and_true, or_comm]
  · rw [hother hlocked]
    simp only [hlocked, false_and, and_false, or_false]

/-- The picture watch of a lane at one tick (R68). -/
theorem Lane.watch_eq (l : Lane) :
    l.watch =
      { l with
        mark := false
        run := if l.mark = true then 0
          else if l.state = .clear ∨ l.state = .preview ∨ l.state = .rented then min 5 (l.run + 1)
          else l.run } := by
  obtain ⟨⟩ := l
  simp only [Lane.watch, ← LaneState.viewing_iff]
  split
  next => rfl
  next hmark =>
    rw [Bool.eq_false_iff.2 hmark]
    split <;> rfl

/-- Lane `n` is in a viewing state and its watch runs out at this tick (R69). -/
def Lane.RunsOut (l : Lane) : Prop :=
  l.mark = false ∧ l.run = 4 ∧ (l.state = .clear ∨ l.state = .preview ∨ l.state = .rented)

theorem State.mem_laneTick_codes (s : State) (n : Fin 4) (c : Nat) :
    c ∈ (s.laneTick n).codes ↔ c ∈ s.codes ∨ c = 12 + n.val ∧ s.lanes[n].RunsOut :=
  (s.laneTick_spec n).2.2 c

theorem State.laneTick_laneSeconds (s : State) {n m : Fin 4} (h : m ≠ n) :
    (s.laneTick n).laneSeconds m = s.laneSeconds m := by
  have hlane : (s.laneTick n).lanes[m] = s.lanes[m] := by rw [State.laneTick_lane, if_neg h]
  have hevent : ∀ k, (s.laneTick n).laneEvent m k = s.laneEvent m k := fun k =>
    State.laneEvent_congr (congrArg Lane.service hlane) (by rw [State.laneTick_shape]) (by rw [State.laneTick_shape])
      (by rw [State.laneTick_shape]) (by rw [State.laneTick_shape]) k
  rw [State.laneSeconds, hlane, hevent, hevent, State.laneSeconds]

/-- What no lane's turn writes is kept through all of them. -/
theorem foldl_keeps {α : Type} {f : State → Fin 4 → State} (g : State → α) (h : ∀ s n, g (f s n) = g s)
    (ls : List (Fin 4)) (u : State) : g (ls.foldl f u) = g u := by
  induction ls generalizing u with
  | nil => rfl
  | cons n ls ih => rw [List.foldl_cons, ih, h]

/-- The codes the lanes raise, each by its own record. -/
theorem State.mem_laneTicks_codes {ls : List (Fin 4)} (hls : ls.Nodup) (u : State) (c : Nat) :
    c ∈ (ls.foldl State.laneTick u).codes ↔
      c ∈ u.codes ∨ ∃ n ∈ ls, c = 12 + n.val ∧ u.lanes[n].RunsOut := by
  induction ls generalizing u with
  | nil => simp
  | cons n ls ih =>
    obtain ⟨hnot, hnodup⟩ := List.nodup_cons.1 hls
    have hrest : (∃ m ∈ ls, c = 12 + m.val ∧ (u.laneTick n).lanes[m].RunsOut) ↔
        ∃ m ∈ ls, c = 12 + m.val ∧ u.lanes[m].RunsOut := by
      refine exists_congr fun m => and_congr_right fun hm => ?_
      have hne : m ≠ n := fun h => hnot (h ▸ hm)
      rw [State.laneTick_lane, if_neg hne]
    rw [List.foldl_cons, ih hnodup, hrest, State.mem_laneTick_codes, or_assoc, List.exists_mem_cons_iff]

/-! ## The state once the framer and the lanes have taken the tick -/

/-- A second tick as far as the lanes. -/
def State.watched (s : State) : State :=
  allLanes.foldl State.laneTick { s with clock.prescaler := 0 }.houseTick.framerTick

section
variable (s : State)

theorem State.watched_kept {α : Type} (g : State → α) (hlane : ∀ u n, g (u.laneTick n) = g u)
    (hframer : ∀ u : State, g u.framerTick = g u) (hclock : ∀ (u : State) (c : Clock), g { u with clock := c } = g u) :
    g s.watched = g s := by
  rw [State.watched, foldl_keeps g hlane, hframer]
  exact hclock s _

theorem State.watched_rentals : s.watched.rentals = s.rentals :=
  s.watched_kept State.rentals (fun _ _ => by rw [State.laneTick_shape]) (fun _ => by rw [State.framerTick_shape])
    fun _ _ => rfl

theorem State.watched_lock : s.watched.lock = s.lock :=
  s.watched_kept State.lock (fun _ _ => by rw [State.laneTick_shape]) (fun _ => by rw [State.framerTick_shape])
    fun _ _ => rfl

theorem State.watched_choices : s.watched.choices = s.choices :=
  s.watched_kept State.choices (fun _ _ => by rw [State.laneTick_shape]) (fun _ => by rw [State.framerTick_shape])
    fun _ _ => rfl

/-- What the lanes' ticks see of the state. -/
theorem State.framerTick_lanes (n : Fin 4) :
    ({ s with clock.prescaler := 0 } : State).houseTick.framerTick.lanes[n] = s.lanes[n] := by
  rw [State.framerTick_shape]
  rfl

theorem State.watched_lane (n : Fin 4) : s.watched.lanes[n] = s.lanes[n].watch := by
  rw [State.watched, foldl_lane (by decide) State.laneTick_lane, if_pos (mem_allLanes n), State.framerTick_lanes]

theorem State.watched_counters : s.watched.counters = (s.auditAll (allLanes.flatMap s.laneSeconds)).counters := by
  have hseconds : ({ s with clock.prescaler := 0 } : State).houseTick.framerTick.laneSeconds = s.laneSeconds := by
    funext n
    have hevent : ∀ k, ({ s with clock.prescaler := 0 } : State).houseTick.framerTick.laneEvent n k = s.laneEvent n k :=
      fun k => State.laneEvent_congr (congrArg Lane.service (s.framerTick_lanes n)) (by rw [State.framerTick_shape]; rfl)
        (by rw [State.framerTick_shape]; rfl) (by rw [State.framerTick_shape]; rfl)
        (by rw [State.framerTick_shape]; rfl) k
    rw [State.laneSeconds, s.framerTick_lanes, hevent, hevent, State.laneSeconds]
  rw [State.watched, foldl_counters (by decide) State.laneTick_counters fun _ _ _ h => State.laneTick_laneSeconds _ h,
    hseconds]
  exact State.auditAll_counters_congr (by rw [State.framerTick_shape]; rfl) _

theorem State.mem_watched_codes (c : Nat) :
    c ∈ s.watched.codes ↔
      c ∈ s.codes ∨ (c = 1 ∧ s.framer.state = .locked ∧ 1 ≤ s.framer.silence) ∨
        ∃ n : Fin 4, c = 12 + n.val ∧ s.lanes[n].RunsOut := by
  rw [State.watched, State.mem_laneTicks_codes (by decide), State.mem_framerTick_codes]
  simp only [mem_allLanes, true_and, s.framerTick_lanes, or_assoc]
  rfl

end

/-! ## The whole tick -/

/-- The owners of a quiet second tick, one after the other. -/
theorem State.secondTick_quiet {s : State} (hrentals : ∀ r ∈ s.rentals, r.meter.2.ended = false)
    (hleases : ∀ n : Fin 4, s.leaseEnds n = false) :
    s.secondTick = s.watched.rentalTick.lockTick.countersTick.panelTick := by
  have hquiet : ∀ t ∈ tickOwners, ({ s with clock.prescaler := 0 } : State).QuietFor t := fun t ht =>
    ⟨by revert t; decide, fun _ => hrentals, fun _ => hleases⟩
  rw [State.secondTick, State.settle_quiet (by decide) hquiet (by decide)]
  simp only [State.watched, tickOwners, allLanes, List.foldl_cons, List.foldl_nil, State.perform]

/-- The sample of counter 0 rests on the counters and the lanes' states. -/
theorem State.countersTick_counters_congr {s t : State} (hcounters : t.counters = s.counters)
    (hstates : ∀ n : Fin 4, t.lanes[n].state = s.lanes[n].state) : t.countersTick.counters = s.countersTick.counters := by
  have hsampled : t.sampled = s.sampled := by
    funext c
    have hoccupied : t.occupied = s.occupied := by
      funext u o
      simp only [State.occupied, hstates]
    simp only [State.sampled, hoccupied]
  rw [State.countersTick, State.countersTick, hcounters, hsampled]

theorem State.auditAll_append (s : State) (es fs : List AuditEvent) :
    s.auditAll (es ++ fs) = (s.auditAll es).auditAll fs :=
  List.foldl_append

section
variable (s : State)

/-- The rental engine's tick after the lanes': seconds, codes and records are those of the state before the tick. -/
theorem State.watched_meterSeconds : s.watched.meterSeconds = s.meterSeconds := by
  rw [State.meterSeconds, State.watched_rentals, State.meterSeconds]

theorem State.watched_meterRaises (c : Nat) : s.watched.meterRaises c ↔ s.meterRaises c := by
  have hstate : ∀ n : Fin 4, s.watched.lanes[n].state = s.lanes[n].state := fun n => by
    rw [State.watched_lane, s.lanes[n].watch_keeps.2.1]
  have htitle : ∀ n : Fin 4, s.watched.lanes[n].title = s.lanes[n].title := fun n => by
    rw [State.watched_lane, s.lanes[n].watch_keeps.2.2]
  simp only [State.meterRaises, hstate, htitle, State.watched_rentals]

theorem State.quietTick_counters :
    s.watched.rentalTick.lockTick.countersTick.panelTick.counters =
      { s with counters := (s.auditAll (allLanes.flatMap s.laneSeconds ++ s.meterSeconds)).counters
        }.countersTick.counters := by
  have hmeter : s.watched.rentalTick.counters =
      (s.auditAll (allLanes.flatMap s.laneSeconds ++ s.meterSeconds)).counters := by
    rw [s.watched.rentalTick_metered.1, State.watched_meterSeconds, State.auditAll_append]
    exact State.auditAll_counters_congr (s := s.auditAll (allLanes.flatMap s.laneSeconds)) (t := s.watched)
      s.watched_counters s.meterSeconds
  have hlock : s.watched.rentalTick.lockTick.counters = s.watched.rentalTick.counters := by
    rw [State.lockTick_shape]
  have hpanel : s.watched.rentalTick.lockTick.countersTick.panelTick.counters =
      s.watched.rentalTick.lockTick.countersTick.counters := by rw [State.panelTick_shape]
  rw [hpanel]
  refine State.countersTick_counters_congr (hlock.trans hmeter) fun n => ?_
  have hlanes : s.watched.rentalTick.lockTick.lanes = s.watched.lanes := by
    rw [State.lockTick_shape, State.rentalTick_shape]
  rw [hlanes, State.watched_lane, s.lanes[n].watch_keeps.2.1]

theorem State.mem_quietTick_codes (c : Nat) :
    c ∈ s.watched.rentalTick.lockTick.countersTick.panelTick.codes ↔
      (c ∈ s.watched.codes ∨ s.meterRaises c) ∨ c = 21 ∧ ∃ n : Fin 4, s.lock.leases[n] = some 61 := by
  have hpanel : s.watched.rentalTick.lockTick.countersTick.panelTick.codes = s.watched.rentalTick.lockTick.codes := by
    rw [State.panelTick_shape, State.countersTick_shape]
  have hlock : s.watched.rentalTick.lock = s.lock := by rw [State.rentalTick_shape, State.watched_lock]
  rw [hpanel, s.watched.rentalTick.lockTick_countedDown.2, s.watched.rentalTick_metered.2, State.watched_meterRaises,
    hlock]

end

/-- Settles O41: nothing ends, so nothing is chosen, and each field is read off its owners' work. -/
theorem quietSecondTickIsExact : Obligations.quiet_second_tick_is_exact := by
  unfold Obligations.quiet_second_tick_is_exact
  intro s hs hpreview hactive hlease
  have hrentals : ∀ r ∈ s.rentals, r.meter.2.ended = false := by
    intro r hr
    obtain ⟨-, -, -, -, hended⟩ := r.meter_calls
    refine Bool.eq_false_iff.2 fun h => ?_
    rcases hended.1 h with ⟨hstate, hseen, hlast⟩ | ⟨hstate, hlast⟩
    · exact hpreview r hr hstate ⟨hseen, hlast⟩
    · exact absurd (hactive r hr hstate) (not_lt.2 hlast)
  have hleases : ∀ n : Fin 4, s.leaseEnds n = false := by
    intro n
    unfold State.leaseEnds
    split
    next => rfl
    next k hk => exact decide_eq_false (not_le.2 (hlease n k hk))
  rw [exec_secondTick hs, State.secondTick_quiet hrentals hleases]
  refine ⟨_, rfl, ?rentals, ?choices, s.quietTick_counters, fun n => ?lane, fun c => ?codes⟩
  case rentals =>
    rw [State.panelTick_shape, State.countersTick_shape, State.lockTick_shape, State.rentalTick_shape,
      State.watched_rentals]
  case choices =>
    rw [State.panelTick_shape, State.countersTick_shape, State.lockTick_shape, State.rentalTick_shape,
      State.watched_choices]
  case lane =>
    have hlanes : s.watched.rentalTick.lockTick.countersTick.panelTick.lanes = s.watched.lanes := by
      rw [State.panelTick_shape, State.countersTick_shape, State.lockTick_shape, State.rentalTick_shape]
    rw [hlanes, State.watched_lane, Lane.watch_eq]
  case codes =>
    have hending : s.meterRaises c ↔
        (∃ n : Fin 4, c = 16 + n.val ∧ s.lanes[n].state = .preview ∧
          ∃ r ∈ s.rentals, s.lanes[n].title = some r.title ∧ r.state = .preview ∧ r.seen = true ∧
            r.allowance - (r.previewSec + 1) ≤ 30 ∧ (30 < r.allowance - r.previewSec ∨ r.previewSec = 0)) ∨
        (c = 20 ∧ ∃ r ∈ s.rentals, r.state = .active ∧ r.windowLeft = 301) := by
      refine or_congr (exists_congr fun n => and_congr_right fun _ => and_congr_right fun _ => exists_congr fun r =>
        and_congr_right fun hr => and_congr_right fun _ => and_congr_right fun hstate =>
        and_congr_right fun hseen => and_iff_right fun hlast => hpreview r hr hstate ⟨hseen, hlast⟩) Iff.rfl
    rw [State.mem_quietTick_codes, State.mem_watched_codes, hending, or_assoc, or_assoc, or_assoc, or_assoc]
    rfl

end Sys2Proof.Machine
end

