-- ==== Sys2Proof/Proofs/SecondTick.lean ====
section
/-! PROOF. The second tick in whatever order its work is taken (R149): each owner's part of the state is followed
through all of it, once that owner has its turn and where it has not, with O39. -/

namespace Sys2Proof.Machine

/-! ## What one owner's turn brings about -/

/-- What holds until owner `o` takes the tick, and what holds from then on, through everything else that is done. -/
theorem State.settle_once {Before After : State → Prop} {o : Task} (ho : o.isCause = false)
    (hchoice : ∀ u k, Before u → Before { u with choices := k })
    (hchoice' : ∀ u k, After u → After { u with choices := k })
    (hown : ∀ u, Before u → After (u.perform o).1)
    (hbefore : ∀ u t, t ≠ o → Before u → Before (u.perform t).1)
    (hafter : ∀ u t, t ≠ o → After u → After (u.perform t).1)
    {k : Nat} {ts : List Task} {s : State} (hl : s.rentals.length ≤ 16) (hk : s.workLeft ts ≤ k)
    (hc : ts.count o = 1) (hs : Before s) : After (s.settle k ts) := by
  have hend := State.settle_induction
    (fun ts u => (ts.count o = 1 ∧ Before u) ∨ (ts.count o = 0 ∧ After u)) ?note ?perform k ts s hl hk (.inl ⟨hc, hs⟩)
  case note =>
    intro ts u h
    rw [State.noteChoice_shape]
    exact h.imp (And.imp_right (hchoice u _)) (And.imp_right (hchoice' u _))
  case perform =>
    intro ts u i hi _ h
    have hcauses : ((u.perform ts[i]).2.map Task.cause).count o = 0 := by
      rw [List.count_eq_zero]
      intro hmem
      obtain ⟨n, -, rfl⟩ := List.mem_map.1 hmem
      cases ho
    have hcount := (List.getElem_cons_eraseIdx_perm hi).count_eq o
    rw [List.count_cons] at hcount
    rw [List.count_append, hcauses, Nat.add_zero]
    by_cases heq : ts[i] = o
    · rw [if_pos (beq_iff_eq.2 heq)] at hcount
      rcases h with ⟨hone, h⟩ | ⟨hzero, h⟩
      · exact .inr ⟨by omega, heq ▸ hown u h⟩
      · omega
    · rw [if_neg (by simpa using heq), Nat.add_zero] at hcount
      rw [hcount]
      exact h.imp (And.imp_right (hbefore u _ heq)) (And.imp_right (hafter u _ heq))
  obtain ⟨-, h | ⟨-, h⟩⟩ := hend
  · cases h.1
  · exact h

theorem tickOwners_count {o : Task} (ho : o.isCause = false) : tickOwners.count o = 1 := by
  cases o with
  | cause n => cases ho
  | laneTick n => revert n; decide
  | houseTime | framer | rental | lock | counters | panel => decide

section
variable {s : State} (hlen : s.rentals.length ≤ 16)
include hlen

theorem State.secondTick_once {Before After : State → Prop} {o : Task} (ho : o.isCause = false)
    (hchoice : ∀ u k, Before u → Before { u with choices := k })
    (hchoice' : ∀ u k, After u → After { u with choices := k })
    (hown : ∀ u, Before u → After (u.perform o).1)
    (hbefore : ∀ u t, t ≠ o → Before u → Before (u.perform t).1)
    (hafter : ∀ u t, t ≠ o → After u → After (u.perform t).1)
    (hs : Before { s with clock.prescaler := 0 }) : After s.secondTick :=
  State.settle_once ho hchoice hchoice' hown hbefore hafter (s := { s with clock.prescaler := 0 }) hlen
    (State.workLeft_tick { s with clock.prescaler := 0 } hlen) (tickOwners_count ho) hs

/-- The same for a part of the state that its owner alone writes. -/
theorem State.secondTick_part {α : Type} (g : State → α) (f : α → α) {o : Task} (ho : o.isCause = false)
    (hchoice : ∀ u ts, g (u.noteChoice ts) = g u) (hown : ∀ u, g (u.perform o).1 = f (g u))
    (hother : ∀ u t, t ≠ o → g (u.perform t).1 = g u) : g s.secondTick = f (g { s with clock.prescaler := 0 }) :=
  State.settle_owner g f o ho hown hother hchoice settleBound tickOwners { s with clock.prescaler := 0 } hlen
    (State.workLeft_tick { s with clock.prescaler := 0 } hlen) (tickOwners_count ho)

end

/-! ## House time and the countdowns (R141, R143, R150) -/

theorem State.perform_clock {s : State} {o : Task} (h : o ≠ .houseTime) : (s.perform o).1.clock = s.clock := by
  cases o with
  | houseTime => exact absurd rfl h
  | cause n => simp only [State.perform]; rw [State.evaluate_shape]
  | framer => simp only [State.perform]; rw [State.framerTick_shape]
  | laneTick n => simp only [State.perform]; rw [State.laneTick_shape]
  | rental => simp only [State.perform]; rw [State.rentalTick_shape]
  | lock => simp only [State.perform]; rw [State.lockTick_shape]
  | counters => rfl
  | panel => simp only [State.perform]; rw [State.panelTick_shape]

/-- One second more. -/
def Clock.advanced (c : Clock) : Clock :=
  { c with houseTime := if 4294967295 ≤ c.houseTime then 0 else c.houseTime + 1 }

theorem State.secondTick_clock {s : State} (hlen : s.rentals.length ≤ 16) :
    s.secondTick.clock = { s.clock with prescaler := 0 }.advanced :=
  State.secondTick_part hlen State.clock Clock.advanced (o := .houseTime) rfl (fun _ _ => State.noteChoice_clock _ _)
    (fun _ => rfl) fun _ _ => State.perform_clock

/-- One second less of the lockout and of every lease. -/
def LockUnit.countedDown (l : LockUnit) : LockUnit :=
  { l with
    lockout := l.lockout.bind fun k => if k ≤ 1 then none else some (k - 1)
    leases := mapEach (fun l => l.bind fun k => if k ≤ 1 then none else some (k - 1)) l.leases }

theorem State.secondTick_lock {s : State} (hlen : s.rentals.length ≤ 16) :
    s.secondTick.lock = s.lock.countedDown :=
  State.secondTick_part hlen State.lock LockUnit.countedDown (o := .lock) rfl (fun _ _ => State.noteChoice_lock _ _)
    (fun u => by simp only [State.perform]; rw [u.lockTick_countedDown.1]; rfl) fun _ _ => State.perform_lock

/-! ## The framer and its alert (R8, R12) -/

/-- The framer and what its alert rests on are the same in both states. -/
structure SameFeed (s t : State) : Prop where
  framer  : t.framer = s.framer
  alerts  : t.alerts = s.alerts
  reports : t.reports = s.reports
  owed    : t.owed = s.owed

theorem SameFeed.of_eq {s t u : State} (h : SameFeed s t) (h1 : u.framer = t.framer) (h2 : u.alerts = t.alerts)
    (h3 : u.reports = t.reports) (h4 : u.owed = t.owed) : SameFeed s u :=
  ⟨h1.trans h.framer, h2.trans h.alerts, h3.trans h.reports, h4.trans h.owed⟩

theorem SameFeed.perform {s t : State} {o : Task} (h : SameFeed s t) (ho : o ≠ .framer) :
    SameFeed s (t.perform o).1 := by
  cases o with
  | framer => exact absurd rfl ho
  | cause n => simp only [State.perform]; rw [State.evaluate_shape]; exact h.of_eq rfl rfl rfl rfl
  | houseTime => exact h.of_eq rfl rfl rfl rfl
  | laneTick n => simp only [State.perform]; rw [State.laneTick_shape]; exact h.of_eq rfl rfl rfl rfl
  | rental => simp only [State.perform]; rw [State.rentalTick_shape]; exact h.of_eq rfl rfl rfl rfl
  | lock => simp only [State.perform]; rw [State.lockTick_shape]; exact h.of_eq rfl rfl rfl rfl
  | counters => exact h.of_eq rfl rfl rfl rfl
  | panel => simp only [State.perform]; rw [State.panelTick_shape]; exact h.of_eq rfl rfl rfl rfl

/-- The framer's tick rests on nothing else. -/
theorem SameFeed.framerTick {s t : State} (h : SameFeed s t) : SameFeed s.framerTick t.framerTick := by
  obtain ⟨hframer, halerts, hreports, howed⟩ := h
  obtain ⟨-, hother, hfirst, hsecond⟩ := s.framerTick_spec
  obtain ⟨-, hother', hfirst', hsecond'⟩ := t.framerTick_spec
  obtain ⟨hla, hlr, hlo⟩ := State.latch_congr .feedLost halerts hreports howed
  rw [hframer] at hother' hfirst' hsecond'
  by_cases hlocked : s.framer.state = .locked
  · rcases Nat.eq_zero_or_pos s.framer.silence with hzero | hpos
    · rw [hfirst hlocked hzero, hfirst' hlocked hzero]
      exact ⟨rfl, halerts, hreports, howed⟩
    · rw [hsecond hlocked hpos, hsecond' hlocked hpos]
      exact ⟨rfl, hla, hlr, hlo⟩
  · rw [hother hlocked, hother' hlocked]
    exact ⟨hframer, halerts, hreports, howed⟩

theorem State.secondTick_feed {s : State} (hlen : s.rentals.length ≤ 16) : SameFeed s.framerTick s.secondTick :=
  State.secondTick_once (o := .framer) (Before := SameFeed s) (After := SameFeed s.framerTick) hlen rfl
    (fun _ _ h => h.of_eq rfl rfl rfl rfl) (fun _ _ h => h.of_eq rfl rfl rfl rfl) (fun _ h => h.framerTick)
    (fun _ _ ht h => h.perform ht) (fun _ _ ht h => h.perform ht) ⟨rfl, rfl, rfl, rfl⟩

/-! ## Pending codes (R149) -/

theorem State.perform_codes_kept (s : State) (o : Task) {c : Nat} (hc : c ∈ s.codes) : c ∈ (s.perform o).1.codes := by
  obtain ⟨cs, -, hcodes⟩ := s.perform_codes o
  rw [hcodes]
  exact (mem_foldl_insertCode cs s.codes c).2 (.inr hc)

theorem State.secondTick_codes_kept (s : State) {c : Nat} (hc : c ∈ s.codes) : c ∈ s.secondTick.codes :=
  State.settle_keeps (fun u => c ∈ u.codes) (fun u ts h => by rwa [State.noteChoice_codes])
    (fun u o h => u.perform_codes_kept o h) _ _ { s with clock.prescaler := 0 } hc

/-- Leaving LOCKED raises code 1, which stays pending. -/
theorem State.secondTick_code_one {s : State} (hlen : s.rentals.length ≤ 16) (hlocked : s.framer.state = .locked)
    (hsilent : 1 ≤ s.framer.silence) : 1 ∈ s.secondTick.codes :=
  State.secondTick_once (o := .framer) (Before := fun u => u.framer = s.framer) (After := fun u => 1 ∈ u.codes) hlen rfl
    (fun _ _ h => h) (fun _ _ h => h)
    (fun u h => (u.mem_framerTick_codes 1).2 (.inr ⟨rfl, by rwa [h], by rwa [h]⟩))
    (fun _ _ ht h => (State.perform_framer ht).trans h) (fun u t _ h => u.perform_codes_kept t h) rfl

/-! ## One lane (R68, R69, R149) -/

theorem State.perform_lane {s : State} {o : Task} {n : Fin 4} (h : o ≠ .laneTick n) :
    s.lanes[n].causedTo (s.perform o).1.lanes[n] := by
  have same : (s.perform o).1.lanes = s.lanes → s.lanes[n].causedTo (s.perform o).1.lanes[n] := fun heq => by
    rw [heq]
    exact Lane.causedTo_refl _
  cases o with
  | cause m => exact (s.evaluate_causedFrom m).2.1 n
  | laneTick m =>
    have hne : n ≠ m := fun heq => h (congrArg Task.laneTick heq.symm)
    have hlane : (s.laneTick m).lanes[n] = s.lanes[n] := by rw [State.laneTick_lane, if_neg hne]
    simp only [State.perform]
    rw [hlane]
    exact Lane.causedTo_refl _
  | houseTime | counters => exact same rfl
  | framer => exact same (by simp only [State.perform]; rw [State.framerTick_shape])
  | rental => exact same (by simp only [State.perform]; rw [State.rentalTick_shape])
  | lock => exact same (by simp only [State.perform]; rw [State.lockTick_shape])
  | panel => exact same (by simp only [State.perform]; rw [State.panelTick_shape])

/-- A lane has been through evaluations, its watch's tick, and evaluations again. -/
def Lane.Ticked (l l' : Lane) : Prop := ∃ m : Lane, l.causedTo m ∧ m.watch.causedTo l'

theorem State.secondTick_lane {s : State} (hlen : s.rentals.length ≤ 16) (n : Fin 4) :
    s.lanes[n].Ticked s.secondTick.lanes[n] :=
  State.secondTick_once (o := .laneTick n) (Before := fun u => s.lanes[n].causedTo u.lanes[n])
    (After := fun u => s.lanes[n].Ticked u.lanes[n]) hlen rfl (fun _ _ h => h) (fun _ _ h => h)
    (fun u h => ⟨u.lanes[n], h, by
      have hlane : (u.laneTick n).lanes[n] = u.lanes[n].watch := by rw [State.laneTick_lane, if_pos rfl]
      simp only [State.perform]
      rw [hlane]
      exact Lane.causedTo_refl _⟩)
    (fun _ _ ht h => Lane.causedTo_trans h (State.perform_lane ht))
    (fun _ _ ht ⟨m, h, h'⟩ => ⟨m, h, Lane.causedTo_trans h' (State.perform_lane ht)⟩) (Lane.causedTo_refl _)

section
variable {l l' : Lane} (h : l.Ticked l')
include h

theorem Lane.Ticked.mark : l'.mark = false := by
  obtain ⟨m, -, h, -⟩ := h
  rw [h, Lane.watch_eq]

theorem Lane.Ticked.run :
    (l.mark = true → l'.run = 0) ∧ (l.mark = false → l'.run = l.run ∨ l'.run = min 5 (l.run + 1)) := by
  obtain ⟨m, ⟨hm, -⟩, h, -⟩ := h
  have hmark : m.mark = l.mark := by rw [hm]
  have hrun : m.run = l.run := by rw [hm]
  have hrun' : l'.run = m.watch.run := by rw [h]
  rw [hrun', Lane.watch_eq, hmark, hrun]
  refine ⟨fun hon => if_pos hon, fun hoff => ?_⟩
  dsimp only
  rw [if_neg (ne_true_of_eq_false hoff)]
  split
  · exact .inr rfl
  · exact .inl rfl

/-- But for its run and its mark a lane is as evaluations leave it. -/
theorem Lane.Ticked.causedTo : l.causedTo { l' with run := l.run, mark := l.mark } := by
  obtain ⟨m, hm, h, hqueue⟩ := h
  have hmark : m.mark = l.mark := by rw [hm.1]
  have hrun : m.run = l.run := by rw [hm.1]
  rw [Lane.watch_eq] at h hqueue
  refine Lane.causedTo_trans hm ⟨?_, hqueue⟩
  rw [← hmark, ← hrun, h]

theorem Lane.Ticked.record :
    l' =
      { l with
        state := l'.state, title := l'.title, queue := l'.queue, purged := l'.purged, run := l'.run, mark := false } := by
  obtain ⟨hrecord, -⟩ := h.causedTo
  have hwritten := congrArg (fun k : Lane => { k with run := l'.run, mark := l'.mark }) hrecord
  refine Eq.trans (a := l') hwritten ?_
  dsimp only
  rw [h.mark]

end

/-! ## The rental table (R81, R85) -/

/-- A record that evaluation has made for a catalogued title. -/
def MadeFrom (catalog : List CatalogEntry) (r : RentalRec) : Prop :=
  ∃ e ∈ catalog, 0 < e.preview ∧ r = RentalRec.fresh e

/-- Metering a record just made changes nothing. -/
theorem RentalRec.meter_fresh (e : CatalogEntry) : (RentalRec.fresh e).meter.1 = RentalRec.fresh e :=
  RentalRec.meter_still (.inl ⟨rfl, rfl⟩)

theorem State.perform_catalog (s : State) (o : Task) : (s.perform o).1.catalog = s.catalog := by
  rw [State.perform_shape]

theorem State.perform_records {s : State} {o : Task} (h : o ≠ .rental) {r : RentalRec}
    (hr : r ∈ (s.perform o).1.rentals) : r ∈ s.rentals ∨ MadeFrom s.catalog r := by
  by_cases hcause : ∃ n, o = .cause n
  · obtain ⟨n, rfl⟩ := hcause
    exact (s.evaluate_causedFrom n).2.2.1 r hr
  · rw [State.perform_rentals s o (fun n hn => hcause ⟨n, hn⟩) h] at hr
    exact .inl hr

/-- Every record comes from `old` or was made for a catalogued title. -/
def State.RecordsFrom (s : State) (catalog : List CatalogEntry) (old : RentalRec → Prop) : Prop :=
  s.catalog = catalog ∧ ∀ r ∈ s.rentals, old r ∨ MadeFrom catalog r

theorem State.RecordsFrom.perform {s : State} {catalog : List CatalogEntry} {old : RentalRec → Prop} {o : Task}
    (h : s.RecordsFrom catalog old) (ho : o ≠ .rental) : (s.perform o).1.RecordsFrom catalog old := by
  obtain ⟨hcatalog, hrecords⟩ := h
  refine ⟨(s.perform_catalog o).trans hcatalog, fun r hr => ?_⟩
  rcases State.perform_records ho hr with hr | hr
  · exact hrecords r hr
  · exact .inr (hcatalog ▸ hr)

theorem State.RecordsFrom.rentalTick {s : State} {catalog : List CatalogEntry} {old : RentalRec → Prop}
    (h : s.RecordsFrom catalog old) : s.rentalTick.RecordsFrom catalog fun r => ∃ x, old x ∧ r = x.meter.1 := by
  obtain ⟨hcatalog, hrecords⟩ := h
  rw [State.rentalTick_shape]
  refine ⟨hcatalog, fun r hr => ?_⟩
  obtain ⟨x, hx, rfl⟩ := List.mem_map.1 hr
  rcases hrecords x hx with hold | ⟨e, he, hpreview, rfl⟩
  · exact .inl ⟨x, hold, rfl⟩
  · exact .inr ⟨e, he, hpreview, RentalRec.meter_fresh e⟩

theorem State.secondTick_records {s : State} (hlen : s.rentals.length ≤ 16) :
    s.secondTick.RecordsFrom s.catalog fun r => ∃ x, x ∈ s.rentals ∧ r = x.meter.1 :=
  State.secondTick_once (o := .rental) (Before := fun u => u.RecordsFrom s.catalog (· ∈ s.rentals))
    (After := fun u => u.RecordsFrom s.catalog fun r => ∃ x, x ∈ s.rentals ∧ r = x.meter.1) hlen rfl
    (fun _ _ h => h) (fun _ _ h => h) (fun _ h => h.rentalTick) (fun _ _ ht h => h.perform ht)
    (fun _ _ ht h => h.perform ht) ⟨rfl, fun _ hr => .inl hr⟩

/-! ## The panel's frame and the reply it may call for (R176, R178) -/

/-- The frame and the reply buffer are the same in both states. -/
structure SamePanel (s t : State) : Prop where
  frame       : t.frame = s.frame
  waiting     : t.waiting = s.waiting
  sending     : t.sending = s.sending
  restartOwed : t.restartOwed = s.restartOwed

theorem SamePanel.of_eq {s t u : State} (h : SamePanel s t) (h1 : u.frame = t.frame) (h2 : u.waiting = t.waiting)
    (h3 : u.sending = t.sending) (h4 : u.restartOwed = t.restartOwed) : SamePanel s u :=
  ⟨h1.trans h.frame, h2.trans h.waiting, h3.trans h.sending, h4.trans h.restartOwed⟩

theorem SamePanel.perform {s t : State} {o : Task} (h : SamePanel s t) (ho : o ≠ .panel) :
    SamePanel s (t.perform o).1 := by
  cases o with
  | panel => exact absurd rfl ho
  | cause n => simp only [State.perform]; rw [State.evaluate_shape]; exact h.of_eq rfl rfl rfl rfl
  | houseTime => exact h.of_eq rfl rfl rfl rfl
  | framer => simp only [State.perform]; rw [State.framerTick_shape]; exact h.of_eq rfl rfl rfl rfl
  | laneTick n => simp only [State.perform]; rw [State.laneTick_shape]; exact h.of_eq rfl rfl rfl rfl
  | rental => simp only [State.perform]; rw [State.rentalTick_shape]; exact h.of_eq rfl rfl rfl rfl
  | lock => simp only [State.perform]; rw [State.lockTick_shape]; exact h.of_eq rfl rfl rfl rfl
  | counters => exact h.of_eq rfl rfl rfl rfl

/-- A reply placed rests on the reply buffer alone. -/
theorem SamePanel.placeReply {s t : State} (h : SamePanel s t) (k : Nat) (r : Result) (fs : List Byte) :
    SamePanel (s.placeReply k r fs) (t.placeReply k r fs) := by
  obtain ⟨hframe, hwaiting, hsending, howed⟩ := h
  cases hs : s.sending with
  | none =>
    rw [State.placeReply_idle hs, State.placeReply_idle (hsending.trans hs)]
    exact ⟨hframe, rfl, by rw [hwaiting, howed], rfl⟩
  | some q =>
    rw [State.placeReply_busy hs, State.placeReply_busy (hsending.trans hs)]
    exact ⟨hframe, by rw [hwaiting, howed], hsending, rfl⟩

theorem SamePanel.panelTick {s t : State} (h : SamePanel s t) : SamePanel s.panelTick t.panelTick := by
  obtain ⟨-, hnone, hmark, habandon⟩ := s.panelTick_spec
  obtain ⟨-, hnone', hmark', habandon'⟩ := t.panelTick_spec
  rw [h.frame] at hnone' hmark' habandon'
  cases hf : s.frame with
  | none =>
    rw [hnone hf, hnone' hf]
    exact h
  | some f =>
    cases hm : f.marked with
    | false =>
      rw [hmark f hf hm, hmark' f hf hm]
      exact ⟨rfl, h.waiting, h.sending, h.restartOwed⟩
    | true =>
      rw [habandon f hf hm, habandon' f hf hm]
      exact SamePanel.placeReply (s := { s with frame := none }) (t := { t with frame := none })
        ⟨rfl, h.waiting, h.sending, h.restartOwed⟩ _ _ _

theorem State.secondTick_panel {s : State} (hlen : s.rentals.length ≤ 16) : SamePanel s.panelTick s.secondTick :=
  State.secondTick_once (o := .panel) (Before := SamePanel s) (After := SamePanel s.panelTick) hlen rfl
    (fun _ _ h => h.of_eq rfl rfl rfl rfl) (fun _ _ h => h.of_eq rfl rfl rfl rfl) (fun _ h => h.panelTick)
    (fun _ _ ht h => h.perform ht) (fun _ _ ht h => h.perform ht) ⟨rfl, rfl, rfl, rfl⟩

/-! ## What no owner of a tick writes -/

/-- The state with everything that a tick or an evaluation may write set aside. -/
def State.untickedPart (s : State) : State :=
  { s with
    framer := State.reset.framer, lanes := State.reset.lanes, rentals := [], lock := State.reset.lock
    clock := State.reset.clock, counters := State.reset.counters, alerts := State.reset.alerts, owed := false
    reports := [], frame := none, waiting := none, sending := none, restartOwed := false, codes := [], choices := 0 }

theorem State.perform_untickedPart (s : State) (o : Task) : (s.perform o).1.untickedPart = s.untickedPart := by
  rw [State.perform_shape]
  rfl

theorem State.secondTick_untickedPart (s : State) : s.secondTick.untickedPart = s.untickedPart :=
  State.settle_keeps (fun u => u.untickedPart = s.untickedPart)
    (fun u ts h => by rw [State.noteChoice_shape]; exact h) (fun u o h => (u.perform_untickedPart o).trans h) _ _
    { s with clock.prescaler := 0 } rfl

/-- States that agree on that part differ only in what a tick may write. -/
theorem State.eq_of_untickedPart {s t : State} (h : t.untickedPart = s.untickedPart) :
    t =
      { s with
        clock := t.clock, lock := t.lock
        framer := t.framer, lanes := t.lanes, rentals := t.rentals, counters := t.counters, frame := t.frame
        waiting := t.waiting, sending := t.sending, restartOwed := t.restartOwed, alerts := t.alerts
        reports := t.reports, owed := t.owed, codes := t.codes, choices := t.choices } :=
  congrArg (fun u : State => { u with
    clock := t.clock, lock := t.lock
    framer := t.framer, lanes := t.lanes, rentals := t.rentals, counters := t.counters, frame := t.frame
    waiting := t.waiting, sending := t.sending, restartOwed := t.restartOwed, alerts := t.alerts
    reports := t.reports, owed := t.owed, codes := t.codes, choices := t.choices }) h

/-! ## The whole tick -/

theorem State.secondTick_right {s : State} (hlen : s.rentals.length ≤ 16) {n : Fin 4} (h : s.laneRight n) :
    s.secondTick.laneRight n :=
  State.settle_right _ _ { s with clock.prescaler := 0 } n hlen
    (State.workLeft_tick { s with clock.prescaler := 0 } hlen)
    (.inl (State.laneRight_of_same (s := s) ⟨rfl, rfl, rfl⟩ rfl rfl rfl rfl rfl h))

/-- A reply placed by a second tick has used up the restart mark. -/
theorem State.placeReply_restartOwed (s : State) (k : Nat) (r : Result) (fs : List Byte) :
    (s.placeReply k r fs).restartOwed = false := by
  cases h : s.sending with
  | none => rw [State.placeReply_idle h]
  | some q => rw [State.placeReply_busy h]

theorem State.placeReply_withFrame (s : State) (f : Option Frame) (k : Nat) (r : Result) (fs : List Byte) :
    { s with frame := f }.placeReply k r fs = { s.placeReply k r fs with frame := f } := by
  rcases Option.eq_none_or_eq_some s.sending with h | ⟨q, h⟩
  · rw [State.placeReply_idle h]
    exact State.placeReply_idle (s := { s with frame := f }) h k r fs
  · rw [State.placeReply_busy h]
    exact State.placeReply_busy (s := { s with frame := f }) h k r fs

/-- Settles O39: owner by owner, each part is followed through the whole tick. -/
theorem secondTickInAnyOrder : Obligations.second_tick_in_any_order := by
  unfold Obligations.second_tick_in_any_order
  intro s hs hlen
  obtain ⟨hframer, halerts, hreports, howed⟩ := State.secondTick_feed hlen
  obtain ⟨hframe, hwaiting, hsending, hrestart⟩ := State.secondTick_panel hlen
  obtain ⟨-, hother, hfirst, hsecond⟩ := s.framerTick_spec
  obtain ⟨-, hnone, hmark, habandon⟩ := s.panelTick_spec
  have hticked := State.secondTick_lane hlen
  rw [exec_secondTick hs]
  refine ⟨s.secondTick, rfl, State.secondTick_settled s hlen, ?shape, fun hlocked hsilent => ?leaves, fun hstays => ?stays,
    fun n => ?lane, (State.secondTick_records hlen).2, fun c => s.secondTick_codes_kept,
    fun h n => State.secondTick_right hlen (h n), fun hf => ?noFrame, fun f hf hm => ?marks, fun f hf hm => ?abandons⟩
  case shape =>
    refine (State.eq_of_untickedPart s.secondTick_untickedPart).trans ?_
    rw [State.secondTick_clock hlen, State.secondTick_lock hlen]
    rfl
  case leaves =>
    rw [hframer, halerts, hreports, howed, hsecond hlocked hsilent]
    exact ⟨rfl, rfl, rfl, rfl, State.secondTick_code_one hlen hlocked hsilent⟩
  case stays =>
    rw [hframer, halerts, hreports, howed]
    by_cases hlocked : s.framer.state = .locked
    · have hzero : s.framer.silence = 0 := by
        by_contra hne
        exact hstays ⟨hlocked, Nat.pos_of_ne_zero hne⟩
      rw [hfirst hlocked hzero, if_pos hlocked, hzero]
      exact ⟨rfl, rfl, rfl, rfl⟩
    · rw [hother hlocked, if_neg hlocked]
      exact ⟨rfl, rfl, rfl, rfl⟩
  case lane =>
    obtain ⟨-, hqueue⟩ := (hticked n).causedTo
    obtain ⟨hon, hoff⟩ := (hticked n).run
    exact ⟨(hticked n).record, hqueue, hon, hoff⟩
  case noFrame =>
    rw [hframe, hwaiting, hsending, hrestart, hnone hf]
    exact ⟨hf, rfl, rfl, rfl⟩
  case marks =>
    rw [hframe, hwaiting, hsending, hrestart, hmark f hf hm]
    exact ⟨rfl, rfl, rfl, rfl⟩
  case abandons =>
    have hplaced := (habandon f hf hm).trans (s.placeReply_withFrame none 0 .badFrame [])
    exact ⟨hframe.trans (congrArg State.frame hplaced), hwaiting.trans ((congrArg State.waiting hplaced).trans rfl),
      hsending.trans ((congrArg State.sending hplaced).trans rfl), hrestart.trans ((congrArg State.restartOwed hplaced).trans
        (s.placeReply_restartOwed 0 .badFrame []))⟩

end Sys2Proof.Machine
end
